-- ==== Sys2Proof/Word.lean ====
section
/-! DEFINITION. The machine's word types: bytes, half-words, words, pixels (00_scope R6, 20_memory R62). -/

namespace Sys2Proof

/-- A byte is 8 bits (00_scope R6). -/
abbrev Byte := BitVec 8

/-- A 16-bit value (`u16`). -/
abbrev Half := BitVec 16

/-- A 32-bit value (`u32`): a host register, a container size field. -/
abbrev Word := BitVec 32

/-- A pixel in the working format, a triple of `u8` (20_memory R62). -/
structure Colour where
  r : Byte
  g : Byte
  b : Byte
deriving DecidableEq, Repr, Inhabited

/-- `(0, 0, 0)`, what a clear writes (20_memory R64). -/
def Colour.black : Colour := ⟨0, 0, 0⟩

end Sys2Proof
end

