-- ==== Sys2Proof/Syntax.lean ====
section
/-! DEFINITION. The instructions of the four encoded languages (30_encoding R90): one constructor per row of the opcode
table. Host commands carry no operands (R91: they stand in `ARG`). -/

namespace Sys2Proof

/-- Frame type: 1 = I-frame, 2 = P-frame (30 R94). -/
inductive FrameType where
  | intra | inter
deriving DecidableEq, Repr

/-- A colour operand of a block code (30 R98): an RGB555 value (bit 15 is 0, so 15 bits) or a palette index. -/
inductive ColourOp where
  | rgb555 (v : BitVec 15)
  | index (i : Byte)
deriving DecidableEq, Repr

/-- The fixed fields of the header record (30 R93) and, one register each, the header image registers (10 R30). -/
structure HdrFields where
  frameCount : Word
  width      : Word
  height     : Word
  format     : Byte
  version    : Byte
  fps        : Word
  adur       : Word
  srate      : Word
  asize      : Word
  channels   : Half
  bps        : Half
deriving DecidableEq, Repr

/-- The fields of a frame chunk header (30 R94) and the `LAST_*` registers (10 R33). -/
structure AgfcFields where
  fnum  : Word
  ftype : Half
  usize : Word
  csize : Word
deriving DecidableEq, Repr

/-- The fields of an audio chunk header (30 R95). -/
structure AgacFields where
  size  : Word
  csize : Word
deriving DecidableEq, Repr

/-- The 39 instructions: 25 host commands, 9 block codes, 2 LZSS units, 3 container records. A record's payload and
palettes stay in `STREAM`, where its meaning reads them. -/
inductive Instr where
  | nop
  | softReset
  | loadQuality
  | openStream
  | nextFrame
  | nextAudio
  | resetVideo
  | skipFwd
  | skipBack
  | skipTo
  | close
  | lzDecompress
  | lzCompress
  | decodeBs
  | nearest
  | histClear
  | histAccum
  | selectPalette
  | tss
  | blockSad
  | encSetup
  | encOpen
  | encFrame
  | encAudio
  | encClose
  | fill (psel : Bool) (c : ColourOp)
  | normal (psel : Bool) (cs : List ColourOp)
  | copy
  | icopy (back : Half)
  | mv (dx dy : Byte)
  | pmv (ddx ddy : BitVec 4)
  | vq2 (psel : Bool) (c0 c1 : ColourOp) (idx : List Byte)
  | vq4 (psel : Bool) (c0 c1 c2 c3 : ColourOp) (idx : List Byte)
  | skip
  | lit (b : Byte)
  | ref (offset : BitVec 12) (length : BitVec 4)
  | hdr (f : HdrFields)
  | agfc (f : AgfcFields)
  | agac (f : AgacFields)
deriving DecidableEq, Repr

/-- What fixes the length and legality of a block code (30 R97, R103): the session's `VERSION` and the frame's type. -/
structure BlockCtx where
  version : Byte
  ftype   : FrameType
deriving DecidableEq, Repr

/-- Which language the bytes are read in (30 R90): a command code, the record at `STREAM` offset 0, a chunk, an LZSS unit
under its flag bit, a block code. -/
inductive Language where
  | command
  | header
  | chunk
  | unit (literal : Bool)
  | block (ctx : BlockCtx)
deriving DecidableEq, Repr

/-- Why bytes are no instruction (30 R105). -/
inductive DecodeError where
  /-- A command code outside R92's table. -/
  | unknownCommand
  /-- The bytes end before the instruction does. -/
  | truncated
  /-- The record at offset 0 is not "AGMV". -/
  | badHeaderMagic
  /-- A chunk magic is neither "AGFC" nor "AGAC". -/
  | badChunkMagic
  /-- Tag bits 6:4 are not 0 (43 R192 check 1). -/
  | reservedTagBits
  /-- `MODE` is 0 or 10..15 (R192 check 2). -/
  | reservedMode
  /-- An inter mode in an I-frame (R192 check 3). -/
  | interInIntra
  /-- `PSEL` where it is not legal (R192 check 4). -/
  | pselNotAllowed
  /-- An RGB555 operand with bit 15 set (43 R193). -/
  | colourBit15
deriving DecidableEq, Repr

/-- A refused encoding: why, and how many bytes had been fetched when the refusal happened (what `BSPOS` holds then,
93 U2). -/
structure Reject where
  why  : DecodeError
  used : Nat
deriving DecidableEq, Repr

end Sys2Proof
end

