-- ==== Sys2Proof/Machine/Profile.lean ====
section
/-! DEFINITION. What the `VERSION` byte selects (45 R241, R243; 40 R125; 30 R97) and the legality of a tag (43 R192). -/

namespace Sys2Proof

/-- Palette profile `PP = VERSION[1:0]` (45 R241). -/
def paletteProfile (version : Byte) : Nat := (version.extractLsb' 0 2).toNat

/-- Block size code `BSZ = VERSION[3:2]` (45 R241). -/
def blockSizeCode (version : Byte) : Nat := (version.extractLsb' 2 2).toNat

/-- `BW`: 4x4, 8x4, 2x4, 8x8 are width by height (45 R241). -/
def blockWidth (version : Byte) : Nat :=
  match blockSizeCode version with
  | 0 => 4
  | 1 => 8
  | 2 => 2
  | _ => 8

/-- `BH` (45 R241). -/
def blockHeight (version : Byte) : Nat :=
  match blockSizeCode version with
  | 3 => 8
  | _ => 4

/-- `N = BW*BH` pixels per block (00 R8). -/
def blockPixels (version : Byte) : Nat := blockWidth version * blockHeight version

/-- `cw`, the bytes of a colour operand (30 R97). -/
def colourWidth (version : Byte) : Nat := if paletteProfile version = 0 then 2 else 1

/-- `ntab`, the palette tables a header carries (45 R243). -/
def paletteTables (version : Byte) : Nat :=
  match paletteProfile version with
  | 0 => 0
  | 2 => 2
  | _ => 1

/-- `FIRST_CHUNK`, the header's length (45 R243). -/
def headerLength (version : Byte) : Nat := 38 + 768 * paletteTables version

/-- The most entries palette selection takes (40 R125). -/
def paletteCap (version : Byte) : Nat :=
  match paletteProfile version with
  | 0 => 0
  | 1 => 256
  | 2 => 512
  | _ => 32

/-- The modes with colour operands: FILL, NORMAL, VQ2, VQ4 (30 R96). -/
def modeHasColours (mode : Nat) : Bool := mode == 1 || mode == 2 || mode == 7 || mode == 8

/-- The inter modes COPY, MV, PMV, SKIP (30 R96). -/
def modeIsInter (mode : Nat) : Bool := mode == 3 || mode == 5 || mode == 6 || mode == 9

/-- Checks 2 to 4 of the tag (43 R192). -/
def tagError (ctx : BlockCtx) (mode : Nat) (psel : Bool) : Option DecodeError :=
  if mode = 0 ∨ 10 ≤ mode then some .reservedMode
  else if ctx.ftype = .intra ∧ modeIsInter mode then some .interInIntra
  else if psel ∧ (paletteProfile ctx.version ≠ 2 ∨ ¬ modeHasColours mode) then some .pselNotAllowed
  else none

end Sys2Proof
end

