-- ==== Sys2Proof/WellFormed.lean ====
section
/-! DEFINITION. Which instructions an encoding exists for, under the session's `VERSION` and the frame's type (30 R96 to
R98). Range checks that a meaning makes (ICOPY's `back`, a vector's bounds, an LZSS offset) are not part of it. -/

namespace Sys2Proof

/-- The operand has the form the palette profile gives it (30 R98). -/
def ColourOp.fits (version : Byte) : ColourOp → Bool
  | .rgb555 _ => paletteProfile version == 0
  | .index _ => paletteProfile version != 0

/-- The language an instruction is encoded in (30 R90). -/
def languageOf (ctx : BlockCtx) : Instr → Language
  | .fill _ _ | .normal _ _ | .copy | .icopy _ | .mv _ _ | .pmv _ _ | .vq2 _ _ _ _ | .vq4 _ _ _ _ _ _ | .skip => .block ctx
  | .lit _ => .unit true
  | .ref _ _ => .unit false
  | .hdr _ => .header
  | .agfc _ | .agac _ => .chunk
  | .nop | .softReset | .loadQuality | .openStream | .nextFrame | .nextAudio | .resetVideo | .skipFwd | .skipBack | .skipTo
  | .close | .lzDecompress | .lzCompress | .decodeBs | .nearest | .histClear | .histAccum | .selectPalette | .tss | .blockSad
  | .encSetup | .encOpen | .encFrame | .encAudio | .encClose => .command

/-- The instruction is encodable (30 R96 to R98, R101). -/
def wellFormed (ctx : BlockCtx) : Instr → Bool
  | .fill psel c => (tagError ctx 1 psel).isNone && c.fits ctx.version
  | .normal psel cs =>
    (tagError ctx 2 psel).isNone && cs.length == blockPixels ctx.version && cs.all (·.fits ctx.version)
  | .copy => (tagError ctx 3 false).isNone
  | .icopy _ => (tagError ctx 4 false).isNone
  | .mv _ _ => (tagError ctx 5 false).isNone
  | .pmv _ _ => (tagError ctx 6 false).isNone
  | .vq2 psel c0 c1 idx =>
    (tagError ctx 7 psel).isNone && c0.fits ctx.version && c1.fits ctx.version &&
      idx.length == blockPixels ctx.version / 8
  | .vq4 psel c0 c1 c2 c3 idx =>
    (tagError ctx 8 psel).isNone && c0.fits ctx.version && c1.fits ctx.version && c2.fits ctx.version &&
      c3.fits ctx.version && idx.length == blockPixels ctx.version / 4
  | .skip => (tagError ctx 9 false).isNone
  | .lit _ | .ref _ _ | .hdr _ | .agfc _ | .agac _ => true
  | .nop | .softReset | .loadQuality | .openStream | .nextFrame | .nextAudio | .resetVideo | .skipFwd | .skipBack | .skipTo
  | .close | .lzDecompress | .lzCompress | .decodeBs | .nearest | .histClear | .histAccum | .selectPalette | .tss | .blockSad
  | .encSetup | .encOpen | .encFrame | .encAudio | .encClose => true

end Sys2Proof
end

