-- ==== Sys2Proof/Decode.lean ====
section
/-! DEFINITION. The decoder of the four languages (30_encoding), total on any bytes, and the encoder beside it. -/

namespace Sys2Proof

/-! ## Byte order (20_memory R60) -/

/-- `LE16` (00 R7). -/
def le16 (b0 b1 : Byte) : Half := b1 ++ b0

/-- `LE32` (00 R7). -/
def le32 (b0 b1 b2 b3 : Byte) : Word := b3 ++ b2 ++ b1 ++ b0

/-- `le16(v)` (00 R7). -/
def le16Bytes (v : Half) : List Byte := [v.extractLsb' 0 8, v.extractLsb' 8 8]

/-- `le32(v)` (00 R7). -/
def le32Bytes (v : Word) : List Byte :=
  [v.extractLsb' 0 8, v.extractLsb' 8 8, v.extractLsb' 16 8, v.extractLsb' 24 8]

/-- Byte `i` of a record. -/
def recByte (rec : List Byte) (i : Nat) : Byte := rec.getD i 0

/-- The `u16` at offset `i` of a record. -/
def recHalf (rec : List Byte) (i : Nat) : Half := le16 (recByte rec i) (recByte rec (i + 1))

/-- The `u32` at offset `i` of a record. -/
def recWord (rec : List Byte) (i : Nat) : Word :=
  le32 (recByte rec i) (recByte rec (i + 1)) (recByte rec (i + 2)) (recByte rec (i + 3))

/-! ## Host commands (30 R91, R92) -/

/-- The command table (30 R92). -/
def decodeCommand (code : Byte) : Option Instr :=
  match code.toNat with
  | 0x00 => some .nop
  | 0x01 => some .softReset
  | 0x02 => some .loadQuality
  | 0x10 => some .openStream
  | 0x11 => some .nextFrame
  | 0x12 => some .nextAudio
  | 0x13 => some .resetVideo
  | 0x14 => some .skipFwd
  | 0x15 => some .skipBack
  | 0x16 => some .skipTo
  | 0x17 => some .close
  | 0x20 => some .lzDecompress
  | 0x21 => some .lzCompress
  | 0x22 => some .decodeBs
  | 0x30 => some .nearest
  | 0x31 => some .histClear
  | 0x32 => some .histAccum
  | 0x33 => some .selectPalette
  | 0x34 => some .tss
  | 0x35 => some .blockSad
  | 0x40 => some .encSetup
  | 0x41 => some .encOpen
  | 0x42 => some .encFrame
  | 0x43 => some .encAudio
  | 0x44 => some .encClose
  | _ => none

/-! ## Block codes (30 R96 to R101) -/

/-- What a fetch leaves: the bytes not yet fetched and how many have been. -/
structure Rest where
  bytes : List Byte
  used  : Nat
deriving DecidableEq, Repr

/-- `Fetch(n)` (43 R192): nothing is consumed when the bytes run out. -/
def fetchBytes (n : Nat) (r : Rest) : Except Reject (List Byte × Rest) :=
  if r.bytes.length < n then .error ⟨.truncated, r.used⟩
  else .ok (r.bytes.take n, ⟨r.bytes.drop n, r.used + n⟩)

/-- `FetchColour` (43 R193): the operand, not yet the colour it stands for. -/
def fetchColour (version : Byte) (r : Rest) : Except Reject (ColourOp × Rest) :=
  if paletteProfile version = 0 then
    match r.bytes with
    | lo :: hi :: rest =>
      if hi.getLsbD 7 then .error ⟨.colourBit15, r.used + 2⟩
      else .ok (.rgb555 ((le16 lo hi).extractLsb' 0 15), ⟨rest, r.used + 2⟩)
    | _ => .error ⟨.truncated, r.used⟩
  else
    match r.bytes with
    | i :: rest => .ok (.index i, ⟨rest, r.used + 1⟩)
    | [] => .error ⟨.truncated, r.used⟩

/-- `n` colour operands in order. -/
def fetchColours (version : Byte) : Nat → Rest → Except Reject (List ColourOp × Rest)
  | 0, r => .ok ([], r)
  | n + 1, r => do
    let (c, r) ← fetchColour version r
    let (cs, r) ← fetchColours version n r
    .ok (c :: cs, r)

/-- The operands of each mode (30 R97). -/
def decodeOperands (ctx : BlockCtx) (mode : Nat) (psel : Bool) (r : Rest) : Except Reject (Instr × Nat) :=
  match mode with
  | 1 => do
    let (c, r) ← fetchColour ctx.version r
    .ok (.fill psel c, r.used)
  | 2 => do
    let (cs, r) ← fetchColours ctx.version (blockPixels ctx.version) r
    .ok (.normal psel cs, r.used)
  | 3 => .ok (.copy, r.used)
  | 4 => do
    let (b, r) ← fetchBytes 2 r
    .ok (.icopy (recHalf b 0), r.used)
  | 5 => do
    let (b, r) ← fetchBytes 2 r
    .ok (.mv (recByte b 0) (recByte b 1), r.used)
  | 6 => do
    let (b, r) ← fetchBytes 1 r
    .ok (.pmv ((recByte b 0).extractLsb' 4 4) ((recByte b 0).extractLsb' 0 4), r.used)
  | 7 => do
    let (c0, r) ← fetchColour ctx.version r
    let (c1, r) ← fetchColour ctx.version r
    let (idx, r) ← fetchBytes (blockPixels ctx.version / 8) r
    .ok (.vq2 psel c0 c1 idx, r.used)
  | 8 => do
    let (c0, r) ← fetchColour ctx.version r
    let (c1, r) ← fetchColour ctx.version r
    let (c2, r) ← fetchColour ctx.version r
    let (c3, r) ← fetchColour ctx.version r
    let (idx, r) ← fetchBytes (blockPixels ctx.version / 4) r
    .ok (.vq4 psel c0 c1 c2 c3 idx, r.used)
  | 9 => .ok (.skip, r.used)
  | _ => .error ⟨.reservedMode, r.used⟩

/-- A block code: the tag, its checks (43 R192), its operands. -/
def decodeBlock (ctx : BlockCtx) : List Byte → Except Reject (Instr × Nat)
  | [] => .error ⟨.truncated, 0⟩
  | t :: rest =>
    if t.extractLsb' 4 3 ≠ 0 then .error ⟨.reservedTagBits, 1⟩
    else
      match tagError ctx (t.extractLsb' 0 4).toNat (t.getLsbD 7) with
      | some e => .error ⟨e, 1⟩
      | none => decodeOperands ctx (t.extractLsb' 0 4).toNat (t.getLsbD 7) ⟨rest, 1⟩

/-! ## LZSS units (30 R102) -/

/-- One unit under its flag bit: 1 a literal, 0 a back-reference `w = LE16`, `offset = w[15:4]`, `length = w[3:0]`. -/
def decodeUnit (literal : Bool) (bytes : List Byte) : Except Reject (Instr × Nat) :=
  if literal then
    match bytes with
    | b :: _ => .ok (.lit b, 1)
    | [] => .error ⟨.truncated, 0⟩
  else
    match bytes with
    | lo :: hi :: _ => .ok (.ref ((le16 lo hi).extractLsb' 4 12) ((le16 lo hi).extractLsb' 0 4), 2)
    | _ => .error ⟨.truncated, 0⟩

/-! ## Container records (30 R93 to R95) -/

/-- "AGMV" (00 R6). -/
def magicAgmv : List Byte := [0x41, 0x47, 0x4D, 0x56]

/-- "AGFC" (30 R94). -/
def magicAgfc : List Byte := [0x41, 0x47, 0x46, 0x43]

/-- "AGAC" (30 R95). -/
def magicAgac : List Byte := [0x41, 0x47, 0x41, 0x43]

/-- The fixed fields of the header at their offsets (30 R93); `rec` starts at the magic. -/
def hdrFields (rec : List Byte) : HdrFields where
  frameCount := recWord rec 4
  width := recWord rec 8
  height := recWord rec 12
  format := recByte rec 16
  version := recByte rec 17
  fps := recWord rec 18
  adur := recWord rec 22
  srate := recWord rec 26
  asize := recWord rec 30
  channels := recHalf rec 34
  bps := recHalf rec 36

/-- The fields of a frame chunk header at their offsets (30 R94). -/
def agfcFields (rec : List Byte) : AgfcFields where
  fnum := recWord rec 4
  ftype := recHalf rec 8
  usize := recWord rec 10
  csize := recWord rec 14

/-- The fields of an audio chunk header at their offsets (30 R95). -/
def agacFields (rec : List Byte) : AgacFields where
  size := recWord rec 4
  csize := recWord rec 8

/-- The header record's fixed 38 bytes. -/
def decodeHeader (bytes : List Byte) : Except Reject (Instr × Nat) :=
  if bytes.take 4 ≠ magicAgmv then .error ⟨.badHeaderMagic, 0⟩
  else if bytes.length < 38 then .error ⟨.truncated, 4⟩
  else .ok (.hdr (hdrFields bytes), 38)

/-- A chunk's header: 18 bytes (frame) or 12 bytes (audio). -/
def decodeChunk (bytes : List Byte) : Except Reject (Instr × Nat) :=
  if bytes.take 4 = magicAgfc then
    if bytes.length < 18 then .error ⟨.truncated, 4⟩ else .ok (.agfc (agfcFields bytes), 18)
  else if bytes.take 4 = magicAgac then
    if bytes.length < 12 then .error ⟨.truncated, 4⟩ else .ok (.agac (agacFields bytes), 12)
  else .error ⟨.badChunkMagic, 0⟩

/-! ## The decoder -/

/-- The instruction that starts the bytes, and its length; a refusal names its reason. -/
def decode (lang : Language) (bytes : List Byte) : Except Reject (Instr × Nat) :=
  match lang with
  | .command =>
    match bytes with
    | [] => .error ⟨.truncated, 0⟩
    | c :: _ =>
      match decodeCommand c with
      | some i => .ok (i, 1)
      | none => .error ⟨.unknownCommand, 0⟩
  | .header => decodeHeader bytes
  | .chunk => decodeChunk bytes
  | .unit literal => decodeUnit literal bytes
  | .block ctx => decodeBlock ctx bytes

/-! ## The encoder -/

/-- A tag byte: `MODE` in bits 3:0, `PSEL` in bit 7 (30 R96). -/
def tagByte (mode : Nat) (psel : Bool) : Byte := BitVec.ofNat 8 (mode + if psel then 128 else 0)

/-- A colour operand's bytes (30 R98). -/
def encodeColour : ColourOp → List Byte
  | .rgb555 v => le16Bytes (v.setWidth 16)
  | .index i => [i]

/-- The bytes of an instruction, in stream order (30 R92 to R102); an LZSS unit's flag bit stands in its group's flag byte,
not here. -/
def encode : Instr → List Byte
  | .nop => [0x00]
  | .softReset => [0x01]
  | .loadQuality => [0x02]
  | .openStream => [0x10]
  | .nextFrame => [0x11]
  | .nextAudio => [0x12]
  | .resetVideo => [0x13]
  | .skipFwd => [0x14]
  | .skipBack => [0x15]
  | .skipTo => [0x16]
  | .close => [0x17]
  | .lzDecompress => [0x20]
  | .lzCompress => [0x21]
  | .decodeBs => [0x22]
  | .nearest => [0x30]
  | .histClear => [0x31]
  | .histAccum => [0x32]
  | .selectPalette => [0x33]
  | .tss => [0x34]
  | .blockSad => [0x35]
  | .encSetup => [0x40]
  | .encOpen => [0x41]
  | .encFrame => [0x42]
  | .encAudio => [0x43]
  | .encClose => [0x44]
  | .fill psel c => tagByte 1 psel :: encodeColour c
  | .normal psel cs => tagByte 2 psel :: cs.flatMap encodeColour
  | .copy => [tagByte 3 false]
  | .icopy back => tagByte 4 false :: le16Bytes back
  | .mv dx dy => [tagByte 5 false, dx, dy]
  | .pmv ddx ddy => [tagByte 6 false, ddx ++ ddy]
  | .vq2 psel c0 c1 idx => tagByte 7 psel :: (encodeColour c0 ++ encodeColour c1 ++ idx)
  | .vq4 psel c0 c1 c2 c3 idx =>
    tagByte 8 psel :: (encodeColour c0 ++ encodeColour c1 ++ encodeColour c2 ++ encodeColour c3 ++ idx)
  | .skip => [tagByte 9 false]
  | .lit b => [b]
  | .ref offset length => le16Bytes (offset ++ length)
  | .hdr f =>
    magicAgmv ++ le32Bytes f.frameCount ++ le32Bytes f.width ++ le32Bytes f.height ++ [f.format, f.version] ++
      le32Bytes f.fps ++ le32Bytes f.adur ++ le32Bytes f.srate ++ le32Bytes f.asize ++ le16Bytes f.channels ++ le16Bytes f.bps
  | .agfc f => magicAgfc ++ le32Bytes f.fnum ++ le16Bytes f.ftype ++ le32Bytes f.usize ++ le32Bytes f.csize
  | .agac f => magicAgac ++ le32Bytes f.size ++ le32Bytes f.csize

/-! ## The opcode table's words

The table numbers bits from the least significant bit of the first word. A command and a block code are one byte of table
bits, an LZSS unit is its flag in bit 0 and its bytes from bit 1, a record is its magic read as a little-endian `u32`. -/

/-- The bytes of a number, lowest first. -/
def natBytes : Nat → Nat → List Byte
  | 0, _ => []
  | n + 1, w => BitVec.ofNat 8 w :: natBytes n (w / 256)

/-- The context a block code of the table is read in: a P-frame; a profile with two tables exactly when `PSEL` is set, as R96
requires, else profile 0; 4x4 blocks (log 4). -/
def tableBlockCtx (w : Nat) : BlockCtx := ⟨if w.testBit 7 then 0x02 else 0x00, .inter⟩

/-- The language and bytes of a table word: the word's bytes and, above `nbits`, zeros up to the longest instruction of the
language. Eight bits are a command where the command table lists them, else a block code (log 4). -/
def tableBytes (nbits w : Nat) : Option (Language × List Byte) :=
  if nbits = 8 then
    if (decodeCommand (BitVec.ofNat 8 w)).isSome then some (.command, [BitVec.ofNat 8 w])
    else some (.block (tableBlockCtx w), BitVec.ofNat 8 w :: List.replicate 128 0)
  else if 8 < nbits ∧ nbits ≤ 24 then some (.unit (w.testBit 0), natBytes 2 (w % 2 ^ nbits / 2))
  else if nbits = 32 then
    if w % 2 ^ 32 = 0x564D4741 then some (.header, natBytes 4 w ++ List.replicate 34 0)
    else some (.chunk, natBytes 4 w ++ List.replicate 14 0)
  else none

/-- The instruction the decoder reads from a table word. -/
def decodeTableWord (nbits w : Nat) : Option Instr :=
  match tableBytes nbits w with
  | none => none
  | some (lang, bytes) =>
    match decode lang bytes with
    | .ok (i, _) => some i
    | .error _ => none

end Sys2Proof
end

