-- ==== Sys2Proof/Config.lean ====
section
/-! DEFINITION. What an implementation fixes (00_scope R5) and the free values (93 U1): none of the opaque constants has a
body, so no proof can learn a value of one. -/

namespace Sys2Proof

/-- The spaces of 20_memory R61 whose elements can be unspecified; the name a free value is drawn for. -/
inductive Space where
  | stream | out | src | cur | prev | key | bs | cb | ab | pal0 | pal1
deriving DecidableEq, Repr

/-- One row of `QualityPresets` (42 R163). -/
structure Preset where
  maxDiff   : BitVec 8
  maxDiff15 : BitVec 8
  mvThresh  : BitVec 16
  modeEn    : BitVec 10
deriving DecidableEq, Repr, Inhabited

/-- The OPEN parameters of 00_scope R5: the capacities and the three quality presets. -/
structure Params where
  fbCap : Nat
  bsCap : Nat
  cbCap : Nat
  abCap : Nat
  otCap : Nat
  high  : Preset
  mid   : Preset
  low   : Preset
deriving DecidableEq, Repr, Inhabited

/-- Every preset enables FILL, NORMAL and COPY (42 R163). -/
def Preset.enablesBasics (p : Preset) : Bool :=
  p.modeEn.getLsbD 1 && p.modeEn.getLsbD 2 && p.modeEn.getLsbD 3

/-- Tolerances do not decrease from `p` to `q` (42 R163). -/
def Preset.notStricter (p q : Preset) : Bool :=
  decide (p.maxDiff.toNat ≤ q.maxDiff.toNat) && decide (p.maxDiff15.toNat ≤ q.maxDiff15.toNat)

/-- The constraints of 00_scope R5 and 42 R163; R5 sets no upper bounds. DESIGN CHOICE (log 7): the eighths of the lower bounds
are rounded down, which R5 leaves open. -/
def Params.legal (p : Params) : Bool :=
  decide (64 ≤ p.fbCap) && decide (2 * p.fbCap + p.fbCap / 8 ≤ p.bsCap) &&
  decide (p.bsCap + p.bsCap / 8 + 1 ≤ p.cbCap) &&
  p.high.enablesBasics && p.mid.enablesBasics && p.low.enablesBasics &&
  p.high.notStricter p.mid && p.mid.notStricter p.low &&
  p.low.modeEn.getLsbD 7 && p.low.modeEn.getLsbD 8

/-- The least capacities R5 allows; used only where `Config.rawParams` breaks a constraint. -/
def Params.minimal : Params where
  fbCap := 64
  bsCap := 136
  cbCap := 154
  abCap := 0
  otCap := 0
  high := ⟨0, 0, 1, 0x3FE⟩
  mid := ⟨0, 0, 1, 0x3FE⟩
  low := ⟨0, 0, 1, 0x3FE⟩

/-- The implementation's parameters before the constraints are imposed. FREE (log 7). -/
opaque Config.rawParams : Params

/-- The implementation's parameters: any legal choice, unknown to every proof (log 7). -/
def Config.params : Params :=
  if Config.rawParams.legal then Config.rawParams else Params.minimal

/-- The byte an unspecified element of a byte space holds, drawn for an epoch, a space and an address. FREE (93 U1, log 8). -/
opaque Config.unspecByte : Nat → Space → Nat → Byte

/-- The pixel or palette entry an unspecified element holds. FREE (93 U1, log 8). -/
opaque Config.unspecColour : Nat → Space → Nat → Colour

/-- What a window read of an unowned space returns. FREE (20_memory R64, log 16). -/
opaque Config.unspecWord : Nat → Word

end Sys2Proof
end

