-- ==== Sys2Proof/Machine/State.lean ====
section
/-! DEFINITION. The machine's state (10_state, 20_memory), as plain data, and the state after reset (10 R44, 70 R341). -/

namespace Sys2Proof.Machine

/-- Addressed storage: address and element, addresses strictly rising. An unlisted address holds NO value: a unit that reads
it gets a free value (93 U1, log 8); an unlisted histogram counter reads 0 (10 R40). -/
abbrev Memory (α : Type) := List (Nat × α)

/-- A byte space (20_memory R61). -/
abbrev ByteMemory := List Host.Cell

/-- The session states (10 R25). -/
inductive Session where
  | closed | decOpen | decFault | encSetup | encOpen
deriving DecidableEq, Repr

/-- The stored bits of `STATUS` (10 R23); bit 6, `SRCP`, mirrors a pin. -/
structure Status where
  errf    : Bool
  vdone   : Bool
  alloc   : Bool
  fvalid  : Bool
  avalid  : Bool
  stale   : Bool
  lastkey : Bool
deriving DecidableEq, Repr

/-- Four 32-bit registers: `ARG[0..3]` or `RES[0..3]` (10 R21). -/
structure Quad where
  x0 : Word
  x1 : Word
  x2 : Word
  x3 : Word
deriving DecidableEq, Repr

/-- The configuration registers 0x30 to 0x39 (10 R34 to R36). -/
structure EncCfg where
  maxDiff     : BitVec 8
  maxDiff15   : BitVec 8
  mvThresh    : BitVec 16
  modeEn      : BitVec 10
  quality     : BitVec 2
  keyInterval : Word
  compEn      : Bool
  meStep      : BitVec 8
  meRange     : BitVec 7
  distRatio   : BitVec 9
deriving DecidableEq, Repr

/-- The histogram (10 R40): counters by colour `r<<16 | g<<8 | b` (no listed counter is 0), `HIST_TOTAL`, `HIST_DISTINCT`. -/
structure Hist where
  counts   : Memory Word
  total    : BitVec 64
  distinct : Word
deriving DecidableEq, Repr

/-- An offset-table entry (10 R39). -/
structure OtEntry where
  off  : Word
  fidx : Word
deriving DecidableEq, Repr

/-- The platform's inputs (10 R46, 20 R65): the byte source and the two presence pins. No command writes them. -/
structure Platform where
  stream     : ByteMemory
  streamLen  : BitVec 33
  srcPresent : Bool
  snkPresent : Bool
deriving DecidableEq, Repr

/-- What the host can do between commands (46 R270): write a register, read a register, pull the reset input (70 R340). The
model's own type (log 1). -/
inductive HostAccess where
  | write (index : Nat) (value : Word)
  | read (index : Nat)
  | resetPin
deriving DecidableEq, Repr

/-- A frame decode under way (43 R191): the frame's type and `len`. -/
structure FrameRun where
  ftype : FrameType
  len   : Nat
deriving DecidableEq, Repr

/-- A decompression under way (44 R222, R223): `n`, `IPOS`, `OPOS`, the flag byte and the units of its group processed so far
(8: a flag byte is due). -/
structure LzRun where
  n     : Nat
  ipos  : Nat
  opos  : Nat
  flags : Byte
  k     : Nat
deriving DecidableEq, Repr

/-- A record read under way: `OPEN` at the header, `NEXT_FRAME` looking for its frame chunk from record `a` (46 R280),
`NEXT_AUDIO` at `FPOS` (46 R282). -/
inductive RecordRun where
  | header
  | frame (a : Nat)
  | audio
deriving DecidableEq, Repr

/-- What the next step fetches for. `idle`: the machine is between commands and takes the host's next access. The others are
the inside of `DECODE_BS`, `LZ_DECOMPRESS` and of `OPEN`, `NEXT_FRAME`, `NEXT_AUDIO`, run one inner instruction a step. The
model's own field (log 3). -/
inductive Activity where
  | idle
  | frame (r : FrameRun)
  | lzss (r : LzRun)
  | container (r : RecordRun)
deriving DecidableEq, Repr

/-- The whole machine. -/
structure State where
  err        : BitVec 12
  errInfo    : Word
  status     : Status
  session    : Session
  arg        : Quad
  res        : Quad
  hdr        : HdrFields
  frameCtr   : Word
  fpos       : Word
  firstChunk : Word
  bspos      : Word
  blk        : Word
  pred       : BitVec 16
  last       : AgfcFields
  bslen      : Word
  cblen      : Word
  ablen      : Word
  outlen     : Word
  cfg        : EncCfg
  hist       : Hist
  winSel     : BitVec 4
  winAddr    : Word
  ot         : List OtEntry
  src        : Memory Colour
  cur        : Memory Colour
  prev       : Memory Colour
  key        : Memory Colour
  pal0       : Memory Colour
  pal1       : Memory Colour
  bs         : ByteMemory
  cb         : ByteMemory
  ab         : ByteMemory
  out        : ByteMemory
  plat       : Platform
  host       : List HostAccess
  hostData   : BitVec 33
  io         : List Bool
  par        : Params
  act        : Activity
  epoch      : Nat
deriving DecidableEq, Repr

/-- The model's stops. -/
inductive Fault where
  /-- A block code is executed while `BLK` names no block of the frame: its pixels would lie outside the frame (20 R62: "No
  rule ever forms a coordinate outside these bounds"). Raised by the nine block codes' meanings only, never by a step. Safe. -/
  | blockOutsideFrame
deriving DecidableEq, Repr

/-- The model's refusals. -/
inductive Refusal where
  /-- An instruction without a meaning. Raised by no arm. Safe. -/
  | notModelled (mnemonic : String)
  /-- An inner instruction (block code, LZSS unit, record) is executed in a state whose engine is not fetching that language:
  the spec gives such an instruction an effect only inside the operation that fetches it (30 R90). Never raised by a step.
  Safe. -/
  | notFetched
deriving DecidableEq, Repr

/-- All registers of a quad 0. -/
def Quad.zero : Quad := ⟨0, 0, 0, 0⟩

/-- The header image after reset (10 R20). -/
def hdrReset : HdrFields := ⟨0, 0, 0, 0, 0, 0, 0, 0, 0, 0, 0⟩

/-- `LAST_*` after reset (10 R20). -/
def lastReset : AgfcFields := ⟨0, 0, 0, 0⟩

/-- `STATUS` after reset (10 R20). -/
def statusReset : Status := ⟨false, false, false, false, false, false, false⟩

/-- The configuration registers after reset (10 R44). -/
def cfgReset : EncCfg where
  maxDiff := 0
  maxDiff15 := 0
  mvThresh := 1
  modeEn := 0x3FE
  quality := 3
  keyInterval := 0
  compEn := true
  meStep := 4
  meRange := 7
  distRatio := 128

/-- The empty histogram (40 R124). -/
def Hist.empty : Hist := ⟨[], 0, 0⟩

/-- A predictor or vector register holding `(0, 0)` (10 R37). -/
def predZero : BitVec 16 := 0

/-- The machine right after reset (10 R44, 70 R341). The platform's inputs and the model's own fields: log 1 to 8. -/
def State.reset : State where
  err := 0
  errInfo := 0
  status := statusReset
  session := .closed
  arg := Quad.zero
  res := Quad.zero
  hdr := hdrReset
  frameCtr := 0
  fpos := 0
  firstChunk := 0
  bspos := 0
  blk := 0
  pred := predZero
  last := lastReset
  bslen := 0
  cblen := 0
  ablen := 0
  outlen := 0
  cfg := cfgReset
  hist := Hist.empty
  winSel := 0
  winAddr := 0
  ot := []
  src := []
  cur := []
  prev := []
  key := []
  pal0 := []
  pal1 := []
  bs := []
  cb := []
  ab := []
  out := []
  plat := ⟨[], 0, false, false⟩
  host := []
  hostData := 0
  io := []
  par := Config.params
  act := .idle
  epoch := 0

end Sys2Proof.Machine
end

