-- ==== Sys2Proof/Machine/Flags.lean ====
section
/-! DEFINITION. The status bits (10 R23), the session code (10 R25) and the hardwired bits of configuration registers. -/

namespace Sys2Proof.Machine

/-- `VDONE` (46 R287). -/
def videoDone (s : State) : Bool :=
  (s.session == .decOpen || s.session == .decFault) && decide (s.hdr.frameCount.toNat ≤ s.frameCtr.toNat)

/-- The value of `STATUS` (10 R23): bit 0 `ERRF`, 1 `VDONE`, 2 `ALLOC`, 3 `FVALID`, 4 `AVALID`, 5 `STALE`, 6 `SRCP`, 7
`LASTKEY`. -/
def statusByte (s : State) : BitVec 8 :=
  BitVec.ofBool s.status.lastkey ++ BitVec.ofBool s.plat.srcPresent ++ BitVec.ofBool s.status.stale ++
  BitVec.ofBool s.status.avalid ++ BitVec.ofBool s.status.fvalid ++ BitVec.ofBool s.status.alloc ++
  BitVec.ofBool s.status.vdone ++ BitVec.ofBool s.status.errf

/-- The value of `SESSION` (10 R25). -/
def Session.code : Session → BitVec 3
  | .closed => 0
  | .decOpen => 1
  | .decFault => 2
  | .encSetup => 3
  | .encOpen => 4

/-- The value of a frame type (30 R94). -/
def frameTypeCode : FrameType → Half
  | .intra => 1
  | .inter => 2

/-- The frame type a code names, if any (45 R250). -/
def frameTypeOf (v : Nat) : Option FrameType :=
  match v with
  | 1 => some .intra
  | 2 => some .inter
  | _ => none

/-- The status bits a commit writes (43 R206). -/
def commitStatus (ftype : FrameType) (st : Status) : Status :=
  match ftype with
  | .intra => { st with fvalid := true, lastkey := true, stale := false }
  | .inter => { st with fvalid := true, lastkey := false }

/-- The status bits `OPEN`, `ENC_SETUP`, `RESET_VIDEO` and `CLOSE` clear (46 R275, R276, R283, R295). -/
def clearFrameStatus (st : Status) : Status :=
  { st with fvalid := false, avalid := false, stale := false, lastkey := false }

/-- `MODE_EN` as stored: bit 0 is 0 and bit 2 is 1 (10 R34, 46 R274). -/
def modeEnStored (v : BitVec 10) : BitVec 10 := (v &&& 0x3FE) ||| 0x004

/-- `DIST_RATIO` as stored: above 256 becomes 256 (10 R36). -/
def distRatioStored (v : BitVec 9) : BitVec 9 := if 256 < v.toNat then 256 else v

/-- `MODE_EN` bit `m` lets the classifier emit mode `m` (10 R34). -/
def modeEnabled (s : State) (m : Nat) : Bool := s.cfg.modeEn.getLsbD m

end Sys2Proof.Machine
end

