-- ==== Sys2Proof/Machine/Ops.lean ====
section
/-! DEFINITION. The shared operations: storage, geometry, the byte source and sink, taking an error, completing a command,
closing a session. -/

namespace Sys2Proof.Machine

/-! ## Storage -/

/-- The element at an address, if one is stored. -/
def Memory.read {α : Type} : Memory α → Nat → Option α
  | [], _ => none
  | (b, v) :: m, a => if a = b then some v else Memory.read m a

/-- Store an element; the addresses stay strictly rising. -/
def Memory.write {α : Type} : Memory α → Nat → α → Memory α
  | [], a, v => [(a, v)]
  | (b, w) :: m, a, v =>
    if a < b then (a, v) :: (b, w) :: m
    else if a = b then (a, v) :: m
    else (b, w) :: Memory.write m a v

/-- Store elements at consecutive addresses, in increasing order. -/
def Memory.writeList {α : Type} : Memory α → Nat → List α → Memory α
  | m, _, [] => m
  | m, a, v :: vs => Memory.writeList (Memory.write m a v) (a + 1) vs

/-- Storage holding exactly these elements from an address on. -/
def Memory.ofList {α : Type} : Nat → List α → Memory α
  | _, [] => []
  | a, v :: vs => (a, v) :: Memory.ofList (a + 1) vs

/-- Forget every element at or beyond `n`. -/
def Memory.below {α : Type} (m : Memory α) (n : Nat) : Memory α := m.filter fun c => decide (c.1 < n)

/-- The canonical form: addresses strictly rising. No entry can equal what an unlisted address reads as, since an unlisted
address holds no value. -/
def Memory.wf {α : Type} : Memory α → Bool
  | [] => true
  | [_] => true
  | (a, _) :: (b, w) :: m => decide (a < b) && Memory.wf ((b, w) :: m)

/-- The counter a free byte of a space is drawn with: `epoch`, but for `STREAM` always the same, since two reads of the source
answer the same bytes (20 R66, log 8). -/
def drawnAt (s : State) (sp : Space) : Nat := if sp = .stream then 0 else s.epoch

/-- A byte of a space; an unspecified one is free (93 U1), and so is one of `STREAM` that the platform's data does not list
(log 8). -/
def byteAt (s : State) (sp : Space) (m : ByteMemory) (a : Nat) : Byte :=
  (Memory.read m a).getD (Config.unspecByte (drawnAt s sp) sp a)

/-- `MemRead` of `n` bytes, lowest address first (00 R7). -/
def bytesAt (s : State) (sp : Space) (m : ByteMemory) (a n : Nat) : List Byte :=
  (List.range n).map fun i => byteAt s sp m (a + i)

/-- A pixel or palette entry of a space; an unspecified one is free (93 U1). -/
def colourAt (s : State) (sp : Space) (m : Memory Colour) (a : Nat) : Colour :=
  (Memory.read m a).getD (Config.unspecColour s.epoch sp a)

/-- The same value everywhere: a cleared frame buffer or palette. -/
def filled {α : Type} (n : Nat) (v : α) : Memory α := Memory.ofList 0 (List.replicate n v)

/-! ## Geometry (00_scope R8) -/

/-- `BPR = W div BW`. -/
def blocksPerRow (h : HdrFields) : Nat := h.width.toNat / blockWidth h.version

/-- `BPC = H div BH`. -/
def blockRows (h : HdrFields) : Nat := h.height.toNat / blockHeight h.version

/-- `NBLK = BPR*BPC`. -/
def blockCount (h : HdrFields) : Nat := blocksPerRow h * blockRows h

/-- The column of block `k`'s top-left pixel. -/
def blockX (h : HdrFields) (k : Nat) : Nat := k % blocksPerRow h * blockWidth h.version

/-- The row of block `k`'s top-left pixel. -/
def blockY (h : HdrFields) (k : Nat) : Nat := k / blocksPerRow h * blockHeight h.version

/-- The linear pixel address `y*W + x` (20 R62). -/
def pixelAddr (h : HdrFields) (x y : Nat) : Nat := y * h.width.toNat + x

/-- The address of pixel `n` of the block whose top-left pixel is `(ox, oy)`. -/
def blockPixelAddr (h : HdrFields) (ox oy n : Nat) : Nat :=
  pixelAddr h (ox + n % blockWidth h.version) (oy + n / blockWidth h.version)

/-- `W*H`. -/
def framePixels (h : HdrFields) : Nat := h.width.toNat * h.height.toNat

/-- The `N` pixels of a block in raster order. -/
def readBlock (s : State) (sp : Space) (m : Memory Colour) (ox oy : Nat) : List Colour :=
  (List.range (blockPixels s.hdr.version)).map fun n => colourAt s sp m (blockPixelAddr s.hdr ox oy n)

/-- Write pixels `n, n+1, …` of the block at `(ox, oy)`. -/
def writePixels (h : HdrFields) (ox oy : Nat) : Nat → List Colour → Memory Colour → Memory Colour
  | _, [], m => m
  | n, c :: cs, m => writePixels h ox oy (n + 1) cs (Memory.write m (blockPixelAddr h ox oy n) c)

/-- `WriteBlock(k, f)` with `f` given by its list of `N` colours (43 R194). -/
def writeBlock (h : HdrFields) (k : Nat) (cs : List Colour) (m : Memory Colour) : Memory Colour :=
  writePixels h (blockX h k) (blockY h k) 0 cs m

/-! ## Errors (60_exceptions) -/

/-- The error kinds (60 R310). -/
inductive ErrorKind where
  | invalidHeader | fileNotFound | memoryAllocationFailure | streamCorruption | unsupportedFormat | ioError | illegalCommand
deriving DecidableEq, Repr

/-- The codes (60 R310). -/
def ErrorKind.code : ErrorKind → BitVec 4
  | .invalidHeader => 1
  | .fileNotFound => 2
  | .memoryAllocationFailure => 3
  | .streamCorruption => 4
  | .unsupportedFormat => 5
  | .ioError => 6
  | .illegalCommand => 7

/-- `raise E(unit u, info i)` (60 R316). -/
structure Raise where
  kind : ErrorKind
  unit : BitVec 4
  info : Nat
deriving DecidableEq, Repr

/-- `ERR[11:8]` of the detecting units (10 R24). -/
def unitContainer : BitVec 4 := 1
def unitLzss : BitVec 4 := 2
def unitFrame : BitVec 4 := 3
def unitOther : BitVec 4 := 4

/-- A chunk-level `StreamCorruption` at record `a` (60 R311). -/
def corruptAt (a : Nat) : Raise := ⟨.streamCorruption, unitContainer, a⟩

/-- `IllegalCommand` at admission or at a counter limit (60 R311). -/
def illegalCommand (code : Nat) : Raise := ⟨.illegalCommand, unitOther, code⟩

/-- `IllegalCommand` for argument `ARG[k]` (60 R311). -/
def illegalArgument (code k : Nat) : Raise := ⟨.illegalCommand, unitOther, (k + 1) * 256 + code⟩

/-- The result of an operation inside a command: done with a value, or raised, each with the state it left. -/
inductive Run (α : Type) where
  | done (a : α) (s : State)
  | raised (e : Raise) (s : State)
deriving DecidableEq, Repr

/-- Go on after an operation; a raise abandons the rest (60 R316). -/
def Run.bind {α β : Type} (r : Run α) (f : α → State → Run β) : Run β :=
  match r with
  | .done a s => f a s
  | .raised e s => .raised e s

/-- A check: raise when it fails. -/
def check (ok : Bool) (e : Raise) (s : State) : Run Unit := if ok then .done () s else .raised e s

/-- The commands grouped by their rows of 60 R318. -/
inductive RaiseClass where
  /-- Commands whose only raise is `IllegalCommand`. -/
  | plain
  /-- `OPEN`, `ENC_SETUP`. -/
  | opening
  /-- `NEXT_FRAME`, `SKIP_FWD`, `SKIP_TO`, `SKIP_BACK`. -/
  | streaming
  /-- `NEXT_AUDIO`. -/
  | audio
  /-- `LZ_DECOMPRESS`. -/
  | lzss
  /-- `DECODE_BS`. -/
  | bitstream
  /-- `ENC_FRAME`. -/
  | encFrame
  /-- `ENC_OPEN`, `ENC_AUDIO`, `ENC_CLOSE`. -/
  | encOutput
deriving DecidableEq, Repr

/-- The effects of `CLOSE` (46 R276): the session's buffers, palettes and offset table become unowned. -/
def closeSession (s : State) : State :=
  { s with
    session := .closed
    status := { clearFrameStatus s.status with alloc := false }
    ot := []
    frameCtr := 0
    fpos := 0
    firstChunk := 0
    last := lastReset
    bslen := 0
    cblen := 0
    ablen := 0
    bspos := 0
    blk := 0
    pred := predZero
    src := []
    cur := []
    prev := []
    key := []
    pal0 := []
    pal1 := []
    bs := []
    cb := []
    ab := []
    epoch := s.epoch + 1 }

/-- `CUR`, `BS`, `CB` become unspecified: the rule for every frame decode or encode that raised (20 R79, 93 U1, logs 12 and
13). -/
def scrubFrame (s : State) : State :=
  { s with cur := [], bs := [], cb := [], epoch := s.epoch + 1 }

/-- The state effect of a raise (60 R318): `before` is the state the command started in, `after` the state at the raise. The
platform's I/O outcomes drawn by the command stay drawn (log 6). -/
def raiseEffect (cls : RaiseClass) (kind : ErrorKind) (before after : State) : State :=
  match cls with
  | .plain | .opening => { before with io := after.io }
  | .streaming =>
    match kind with
    | .illegalCommand => { before with io := after.io }
    | .memoryAllocationFailure => closeSession after
    | .streamCorruption => { scrubFrame after with session := .decFault }
    | .ioError | .invalidHeader | .fileNotFound | .unsupportedFormat => scrubFrame after
  | .audio =>
    match kind with
    | .illegalCommand => { before with io := after.io }
    | .memoryAllocationFailure => closeSession after
    | .streamCorruption => { scrubFrame after with ab := [], session := .decFault }
    | .ioError | .invalidHeader | .fileNotFound | .unsupportedFormat => { scrubFrame after with ab := [] }
  | .lzss =>
    match kind with
    | .illegalCommand => { before with io := after.io }
    | .memoryAllocationFailure | .streamCorruption | .ioError | .invalidHeader | .fileNotFound | .unsupportedFormat =>
      { after with bs := [], epoch := after.epoch + 1 }
  | .bitstream =>
    match kind with
    | .illegalCommand => { before with io := after.io }
    | .memoryAllocationFailure | .streamCorruption | .ioError | .invalidHeader | .fileNotFound | .unsupportedFormat =>
      scrubFrame after
  | .encFrame =>
    match kind with
    | .illegalCommand => { before with io := after.io }
    | .memoryAllocationFailure => closeSession after
    | .streamCorruption | .ioError | .invalidHeader | .fileNotFound | .unsupportedFormat => scrubFrame after
  | .encOutput =>
    match kind with
    | .illegalCommand => { before with io := after.io }
    | .memoryAllocationFailure | .streamCorruption | .ioError | .invalidHeader | .fileNotFound | .unsupportedFormat => after

/-- Write `ERR`, `ERRINFO`, `ERRF` and recompute `VDONE` (60 R316). -/
def recordError (e : Raise) (s : State) : State :=
  { s with
    err := e.unit ++ (0 : BitVec 4) ++ e.kind.code
    errInfo := BitVec.ofNat 32 e.info
    status := { s.status with errf := true, vdone := videoDone s } }

/-- TAKING AN ERROR (60 R316, R318): the one operation by which a command ends in an error. There is no vector, no saved
place and no return (60 R316, R317): the machine is ready for the next command, `RES` is as it was. -/
def takeError (cls : RaiseClass) (before after : State) (e : Raise) : State :=
  recordError e (raiseEffect cls e.kind before after)

/-- Completion (46 R270 step 4): the next command that completes clears the error (60 R317). -/
def complete (s : State) : State :=
  { s with err := 0, errInfo := 0, status := { s.status with errf := false, vdone := videoDone s } }

/-- The end of a command: completion, or the error it raised. -/
def finish (cls : RaiseClass) (before : State) (r : Run Unit) : State :=
  match r with
  | .done _ s => complete s
  | .raised e s => takeError cls before s e

/-! ## Admission (46 R271) -/

/-- `NOP`, `SOFT_RESET`, `LOAD_QUALITY`. -/
def admitAlways (_ : Session) : Bool := true

/-- `OPEN`, `ENC_SETUP`. -/
def admitClosed (x : Session) : Bool := x == .closed

/-- The streaming commands. -/
def admitDecOpen (x : Session) : Bool := x == .decOpen

/-- `RESET_VIDEO`, `CLOSE`. -/
def admitDecode (x : Session) : Bool := x == .decOpen || x == .decFault

/-- `LZ_DECOMPRESS`, `LZ_COMPRESS`, `NEAREST`. -/
def admitUnit (x : Session) : Bool := x == .decOpen || x == .encSetup || x == .encOpen

/-- `DECODE_BS`. -/
def admitBitstream (x : Session) : Bool := x == .decOpen || x == .encSetup

/-- `HIST_CLEAR`, `HIST_ACCUM`, `SELECT_PALETTE`, `ENC_OPEN`. -/
def admitSetup (x : Session) : Bool := x == .encSetup

/-- `TSS`, `BLOCK_SAD`, `ENC_CLOSE`. -/
def admitEncode (x : Session) : Bool := x == .encSetup || x == .encOpen

/-- `ENC_FRAME`, `ENC_AUDIO`. -/
def admitEncOpen (x : Session) : Bool := x == .encOpen

/-- The command contract (46 R270): admission, then the operation, then completion or the error. -/
def runCommand (code : Nat) (allowed : Session → Bool) (cls : RaiseClass) (op : State → Run Unit) (s : State) :
    Host.Outcome State Fault Refusal :=
  .next (if allowed s.session then finish cls s (op s) else takeError .plain s s (illegalCommand code))

/-! ## Results -/

/-- A number stored in a 32-bit register: no operation wraps but the advance of `WIN_ADDR`, so a number that does not fit is
stored as the greatest that does (47 R301, D2; log 7). -/
def saturate (n : Nat) : Word := BitVec.ofNat 32 (min n (2 ^ 32 - 1))

/-- `RES[0] <- v`. -/
def setRes0 (v : Nat) (s : State) : State := { s with res := { s.res with x0 := saturate v } }

/-- `RES[1] <- v`. -/
def setRes1 (v : Nat) (s : State) : State := { s with res := { s.res with x1 := saturate v } }

/-- `RES[2] <- v`. -/
def setRes2 (v : Nat) (s : State) : State := { s with res := { s.res with x2 := saturate v } }

/-- `RES[3] <- v`. -/
def setRes3 (v : Nat) (s : State) : State := { s with res := { s.res with x3 := saturate v } }

/-! ## The byte source and the byte sink (20 R66, R67) -/

/-- `MemRead(STREAM, a, n)` once the caller has checked `a + n <= STREAM_LEN`: the environment may fail it (20 R66). -/
def memRead (a n : Nat) (s : State) : Run (List Byte) :=
  match s.io with
  | true :: rest => .raised ⟨.ioError, unitContainer, a⟩ { s with io := rest }
  | false :: rest => .done (bytesAt s .stream s.plat.stream a n) { s with io := rest }
  | [] => .done (bytesAt s .stream s.plat.stream a n) s

/-- `Append(bytes)` (20 R67): all or nothing; passing 2^32 - 1 or the environment's choice is `IOError` (log 20). -/
def appendOut (bytes : List Byte) (s : State) : Run Unit :=
  if 2 ^ 32 ≤ s.outlen.toNat + bytes.length then .raised ⟨.ioError, unitContainer, s.outlen.toNat⟩ s
  else
    match s.io with
    | true :: rest => .raised ⟨.ioError, unitContainer, s.outlen.toNat⟩ { s with io := rest }
    | _ =>
      .done () { s with
        out := Memory.writeList s.out s.outlen.toNat bytes
        outlen := BitVec.ofNat 32 (s.outlen.toNat + bytes.length)
        io := s.io.tail }

/-- `Patch(a, bytes)` (20 R67, 60 R311). -/
def patchOut (a : Nat) (bytes : List Byte) (s : State) : Run Unit :=
  match s.io with
  | true :: rest => .raised ⟨.ioError, unitContainer, a⟩ { s with io := rest }
  | _ => .done () { s with out := Memory.writeList s.out a bytes, io := s.io.tail }

/-! ## Buffers -/

/-- A command fills `BS` and sets `BSLEN`; bytes beyond are unspecified (20 R63). -/
def fillBs (bytes : List Byte) (s : State) : State :=
  { s with bs := Memory.ofList 0 bytes, bslen := saturate bytes.length, epoch := s.epoch + 1 }

/-- A command fills `CB` and sets `CBLEN`. -/
def fillCb (bytes : List Byte) (s : State) : State :=
  { s with cb := Memory.ofList 0 bytes, cblen := saturate bytes.length, epoch := s.epoch + 1 }

/-- A command fills `AB` and sets `ABLEN`. -/
def fillAb (bytes : List Byte) (s : State) : State :=
  { s with ab := Memory.ofList 0 bytes, ablen := saturate bytes.length, epoch := s.epoch + 1 }

/-- `BS[0..BSLEN)`. -/
def bsBytes (s : State) : List Byte := bytesAt s .bs s.bs 0 s.bslen.toNat

/-- `CB[0..CBLEN)`. -/
def cbBytes (s : State) : List Byte := bytesAt s .cb s.cb 0 s.cblen.toNat

/-- `AB[0..ABLEN)`. -/
def abBytes (s : State) : List Byte := bytesAt s .ab s.ab 0 s.ablen.toNat

/-- Commit (43 R206). -/
def commit (ftype : FrameType) (s : State) : State :=
  { s with
    prev := s.cur
    key := match ftype with
      | .intra => s.cur
      | .inter => s.key
    status := commitStatus ftype s.status }

/-- `OTFind(t)` (45 R261): the entry with the largest `fidx <= t`. -/
def otFind (t : Nat) : List OtEntry → Option OtEntry
  | [] => none
  | e :: es =>
    match otFind t es with
    | some f => if e.fidx.toNat ≤ t ∧ f.fidx.toNat < e.fidx.toNat then some e else some f
    | none => if e.fidx.toNat ≤ t then some e else none

/-- `Rewind()` (46 R283). -/
def rewind (s : State) : State :=
  { s with
    fpos := s.firstChunk
    frameCtr := 0
    prev := filled (framePixels s.hdr) Colour.black
    key := filled (framePixels s.hdr) Colour.black
    status := clearFrameStatus s.status
    last := lastReset
    bspos := 0
    blk := 0
    pred := predZero
    bslen := 0
    cblen := 0
    ablen := 0
    bs := []
    cb := []
    ab := []
    epoch := s.epoch + 1 }

end Sys2Proof.Machine
end

