-- ==== Sys2Proof/Machine/Operands.lean ====
section
/-! DEFINITION. Every operand form: colour operands (30 R98), pixel packing (30 R104), vectors (30 R99), VQ indices (30 R101). -/

namespace Sys2Proof.Machine

/-! ## Channels (47 R303) -/

/-- 8 to 5 bits: truncation. -/
def to5 (v : Byte) : BitVec 5 := v.extractLsb' 3 5

/-- 8 to 6 bits: truncation. -/
def to6 (v : Byte) : BitVec 6 := v.extractLsb' 2 6

/-- 5 to 8 bits: zero fill. -/
def from5 (v : BitVec 5) : Byte := v ++ (0 : BitVec 3)

/-- 6 to 8 bits: zero fill. -/
def from6 (v : BitVec 6) : Byte := v ++ (0 : BitVec 2)

/-! ## Colour operands (30 R98) -/

/-- The decoded colour of an RGB555 operand: red 14:10, green 9:5, blue 4:0. -/
def colour555 (v : BitVec 15) : Colour :=
  ⟨from5 (v.extractLsb' 10 5), from5 (v.extractLsb' 5 5), from5 (v.extractLsb' 0 5)⟩

/-- The RGB555 operand of a colour, encode direction. -/
def operand555 (c : Colour) : BitVec 15 := to5 c.r ++ to5 c.g ++ to5 c.b

/-- Entry `i` of `PAL0` or `PAL1`. -/
def paletteAt (s : State) (second : Bool) (i : Nat) : Colour :=
  if second then colourAt s .pal1 s.pal1 i else colourAt s .pal0 s.pal0 i

/-- The colour an operand stands for (43 R193). -/
def operandColour (s : State) (psel : Bool) : ColourOp → Colour
  | .rgb555 v => colour555 v
  | .index i => paletteAt s psel i.toNat

/-- `0x00RRGGBB` (46 R289, 20 R68). -/
def colourOfWord (v : Word) : Colour := ⟨v.extractLsb' 16 8, v.extractLsb' 8 8, v.extractLsb' 0 8⟩

/-- `0x00RRGGBB` of a colour. -/
def wordOfColour (c : Colour) : Word := (0 : Byte) ++ c.r ++ c.g ++ c.b

/-- The histogram index `r<<16 | g<<8 | b` (10 R40). -/
def colourKey (c : Colour) : Nat := (wordOfColour c).toNat

/-- The colour of a histogram index. -/
def colourOfKey (k : Nat) : Colour := colourOfWord (BitVec.ofNat 32 k)

/-! ## Pixel packing at the window (30 R104) -/

/-- `unpack(v)` in the format; a format outside 1..4 unpacks nothing (log 17). -/
def unpackPixel (format : Byte) (v : Word) : Option Colour :=
  match format.toNat with
  | 1 => some ⟨from5 (v.extractLsb' 10 5), from5 (v.extractLsb' 5 5), from5 (v.extractLsb' 0 5)⟩
  | 2 => some ⟨from5 (v.extractLsb' 11 5), from6 (v.extractLsb' 5 6), from5 (v.extractLsb' 0 5)⟩
  | 3 => some (colourOfWord v)
  | 4 => some ⟨v.extractLsb' 24 8, v.extractLsb' 16 8, v.extractLsb' 8 8⟩
  | _ => none

/-- `pack(r, g, b)` in the format; a format outside 1..4 reads 0 (log 17). -/
def packPixel (format : Byte) (c : Colour) : Word :=
  match format.toNat with
  | 1 => (0 : BitVec 17) ++ to5 c.r ++ to5 c.g ++ to5 c.b
  | 2 => (0 : BitVec 16) ++ to5 c.r ++ to6 c.g ++ to5 c.b
  | 3 => wordOfColour c
  | 4 => c.r ++ c.g ++ c.b ++ (0xFF : Byte)
  | _ => 0

/-! ## Vectors (30 R99, 10 R37) -/

/-- `pdx` of `PRED`. -/
def predX (p : BitVec 16) : Int := (p.extractLsb' 0 8).toInt

/-- `pdy` of `PRED`. -/
def predY (p : BitVec 16) : Int := (p.extractLsb' 8 8).toInt

/-- The register value of a vector: `dx` in bits 7:0, `dy` in bits 15:8. -/
def predOf (dx dy : Int) : BitVec 16 := BitVec.ofInt 8 dy ++ BitVec.ofInt 8 dx

/-- A component outside -128..127 (43 R200). -/
def outsideI8 (v : Int) : Bool := decide (v < -128) || decide (127 < v)

/-! ## VQ indices (30 R101) -/

/-- VQ2: the bit of pixel `n`. -/
def vq2Index (idx : List Byte) (n : Nat) : Nat := ((idx.getD (n / 8) 0).toNat >>> (7 - n % 8)) % 2

/-- VQ4: the two bits of pixel `n`. -/
def vq4Index (idx : List Byte) (n : Nat) : Nat := ((idx.getD (n / 4) 0).toNat >>> (6 - 2 * (n % 4))) % 4

/-- Pack indices of `w` bits each into one byte, most significant first. -/
def packByte (w : Nat) (is : List Nat) : Byte := BitVec.ofNat 8 (is.foldl (fun acc i => acc * 2 ^ w + i) 0)

/-- Pack indices into bytes of `per` indices each. -/
def packIndices (w per : Nat) : Nat → List Nat → List Byte
  | 0, _ => []
  | n + 1, is => packByte w (is.take per) :: packIndices w per n (is.drop per)

/-! ## Command arguments (10 R21) -/

/-- `ARG[k]` as an unsigned integer. -/
def argNat (s : State) : Nat → Nat
  | 0 => s.arg.x0.toNat
  | 1 => s.arg.x1.toNat
  | 2 => s.arg.x2.toNat
  | _ => s.arg.x3.toNat

/-- `ARG[2]`, `ARG[3]` of `BLOCK_SAD` as 32-bit two's complement (47 R302). -/
def argInt (s : State) : Nat → Int
  | 0 => s.arg.x0.toInt
  | 1 => s.arg.x1.toInt
  | 2 => s.arg.x2.toInt
  | _ => s.arg.x3.toInt

end Sys2Proof.Machine
end

