-- ==== Sys2Proof/Machine/Palette.lean ====
section
/-! DEFINITION. palette_manager_lookup (40_palette): nearest colour, histogram, palette selection, and the meanings of
`NEAREST`, `HIST_CLEAR`, `HIST_ACCUM`, `SELECT_PALETTE` (46 R289 to R292). -/

namespace Sys2Proof.Machine

/-- `|a - b|` of two channels. -/
def absDiff (a b : Byte) : Nat := if a.toNat ≤ b.toNat then b.toNat - a.toNat else a.toNat - b.toNat

/-- `dist1(p, q)` (00 R7). -/
def dist1 (p q : Colour) : Nat := absDiff p.r q.r + absDiff p.g q.g + absDiff p.b q.b

/-- `close(p, q, T)` (00 R7). -/
def closeTo (t : Nat) (p q : Colour) : Bool :=
  decide (absDiff p.r q.r ≤ t) && decide (absDiff p.g q.g ≤ t) && decide (absDiff p.b q.b ≤ t)

/-- The loop of `Nearest` over entries `i, i+1, …` (40 R121). -/
def nearestFrom (table : Nat → Colour) (p : Colour) : Nat → Nat → Nat × Nat → Nat × Nat
  | 0, _, best => best
  | n + 1, i, best =>
    nearestFrom table p n (i + 1) (if dist1 (table i) p < best.2 then (i, dist1 (table i) p) else best)

/-- `Nearest(T, p)`: the lowest index of the least distance, and that distance (40 R121). -/
def nearest (table : Nat → Colour) (p : Colour) : Nat × Nat :=
  nearestFrom table p 255 1 (0, dist1 (table 0) p)

/-- `HIST[c]`. -/
def histCount (counts : Memory Word) (c : Nat) : Nat :=
  match Memory.read counts c with
  | some n => n.toNat
  | none => 0

/-- One pixel of `HistAccum` (40 R123): the counter saturates (47 R301), and so does `HIST_TOTAL`, whose limit R301 says cannot
be reached (log 7). -/
def histPixel (h : Hist) (c : Nat) : Hist where
  counts :=
    if histCount h.counts c < 0xFFFFFFFF then Memory.write h.counts c (BitVec.ofNat 32 (histCount h.counts c + 1))
    else h.counts
  total := if h.total = BitVec.allOnes 64 then h.total else h.total + 1
  distinct := if histCount h.counts c = 0 then h.distinct + 1 else h.distinct

/-- The pixels of `SRC` in raster order. -/
def sourcePixels (s : State) : List Colour := (List.range (framePixels s.hdr)).map fun a => colourAt s .src s.src a

/-- `HistAccum()` (40 R123). -/
def histAccum (s : State) : Hist := (sourcePixels s).foldl (fun h c => histPixel h (colourKey c)) s.hist

/-- Insert before the first colour of no greater count. -/
def insertByCount (x : Nat × Word) : List (Nat × Word) → List (Nat × Word)
  | [] => [x]
  | y :: ys => if y.2.toNat ≤ x.2.toNat then x :: y :: ys else y :: insertByCount x ys

/-- `L` (40 R126): count descending, and among equal counts colour ascending (the histogram lists colours ascending). -/
def sortedByCount (counts : Memory Word) : List (Nat × Word) := counts.foldr insertByCount []

/-- The greedy loop of `SelectPalette`: `room` entries are still free under the cap, `cov` is the count covered (40 R126). -/
def selectFrom (threshold : Nat) : Nat → Nat → List (Nat × Word) → List Colour
  | 0, _, _ => []
  | _ + 1, _, [] => []
  | room + 1, cov, x :: xs =>
    if threshold ≤ (cov + x.2.toNat) * 256 then [colourOfKey x.1]
    else colourOfKey x.1 :: selectFrom threshold room (cov + x.2.toNat) xs

/-- `sel` (40 R126). -/
def selectColours (s : State) : List Colour :=
  selectFrom (s.cfg.distRatio.toNat * s.hist.total.toNat) (paletteCap s.hdr.version) 0 (sortedByCount s.hist.counts)

/-- The 512 entries: the selection, padded with its last colour, or black (40 R126). -/
def paddedPalette (sel : List Colour) : List Colour :=
  sel ++ List.replicate (512 - sel.length) (sel.getLastD Colour.black)

/-- `NEAREST` (46 R289). -/
def nearestOp (s : State) : Run Unit :=
  (check (argNat s 1 == 0 || argNat s 1 == 1) (illegalArgument 0x30 1) s).bind fun _ s =>
    let r := nearest (paletteAt s (argNat s 1 == 1)) (colourOfWord s.arg.x0)
    .done () (setRes1 r.2 (setRes0 r.1 s))

/-- `NEAREST` (46 R289, code 0x30). -/
def execNearest (s : State) : Host.Outcome State Fault Refusal := runCommand 0x30 admitUnit .plain nearestOp s

/-- `HIST_CLEAR` (46 R290, 40 R124, code 0x31). -/
def execHistClear (s : State) : Host.Outcome State Fault Refusal :=
  runCommand 0x31 admitSetup .plain (fun s => .done () { s with hist := Hist.empty }) s

/-- `HIST_ACCUM` (46 R291, 40 R123, code 0x32). -/
def execHistAccum (s : State) : Host.Outcome State Fault Refusal :=
  runCommand 0x32 admitSetup .plain
    (fun s => .done () (setRes0 (histAccum s).distinct.toNat { s with hist := histAccum s })) s

/-- `SELECT_PALETTE` (46 R292, 40 R126, code 0x33). -/
def execSelectPalette (s : State) : Host.Outcome State Fault Refusal :=
  runCommand 0x33 admitSetup .plain
    (fun s => .done () (setRes0 (selectColours s).length { s with
      pal0 := Memory.ofList 0 ((paddedPalette (selectColours s)).take 256)
      pal1 := Memory.ofList 0 ((paddedPalette (selectColours s)).drop 256) })) s

end Sys2Proof.Machine
end

