-- ==== Sys2Proof/Machine/Motion.lean ====
section
/-! DEFINITION. motion_estimator (41_motion): block cost, candidate validity, three-step search, and the meanings of `TSS`
and `BLOCK_SAD` (46 R293, R294). -/

namespace Sys2Proof.Machine

/-- The displaced block lies in the frame (41 R143, second line; 46 R294). -/
def insideFrame (h : HdrFields) (x y : Int) : Bool :=
  decide (0 ≤ x) && decide (x + (blockWidth h.version : Int) ≤ (h.width.toNat : Int)) &&
  decide (0 ≤ y) && decide (y + (blockHeight h.version : Int) ≤ (h.height.toNat : Int))

/-- `SAD(ox, oy, dx, dy)` (41 R141); the caller has checked that both blocks lie in the frame. -/
def blockSad (s : State) (ox oy : Nat) (dx dy : Int) : Nat :=
  (List.zipWith dist1 (readBlock s .src s.src ox oy)
    (readBlock s .prev s.prev ((ox : Int) + dx).toNat ((oy : Int) + dy).toNat)).sum

/-- Candidate validity (41 R143). -/
def validCandidate (s : State) (ox oy : Nat) (dx dy : Int) : Bool :=
  decide (dx.natAbs ≤ s.cfg.meRange.toNat) && decide (dy.natAbs ≤ s.cfg.meRange.toNat) &&
  insideFrame s.hdr ((ox : Int) + dx) ((oy : Int) + dy)

/-- A candidate of the search: offset and cost. -/
structure Candidate where
  dx   : Int
  dy   : Int
  cost : Nat
deriving DecidableEq, Repr

/-- The eight neighbours in visiting order: rows top to bottom, each left to right (41 R144). -/
def neighbours : List (Int × Int) := [(-1, -1), (0, -1), (1, -1), (-1, 0), (1, 0), (-1, 1), (0, 1), (1, 1)]

/-- Visit one neighbour: it replaces the running best only when valid and strictly cheaper (41 R144, R146). -/
def visit (s : State) (ox oy : Nat) (centre : Candidate) (step : Nat) (best : Candidate) (n : Int × Int) : Candidate :=
  let dx := centre.dx + n.1 * (step : Int)
  let dy := centre.dy + n.2 * (step : Int)
  if validCandidate s ox oy dx dy ∧ blockSad s ox oy dx dy < best.cost then ⟨dx, dy, blockSad s ox oy dx dy⟩ else best

/-- One step of the search around a centre. -/
def searchStep (s : State) (ox oy step : Nat) (centre : Candidate) : Candidate :=
  neighbours.foldl (visit s ox oy centre step) centre

/-- The loop `while s >= 1` (41 R144); eight halvings bring an 8-bit step to 0. -/
def searchLoop (s : State) (ox oy : Nat) : Nat → Nat → Candidate → Candidate
  | 0, _, c => c
  | fuel + 1, step, c => if step = 0 then c else searchLoop s ox oy fuel (step / 2) (searchStep s ox oy step c)

/-- `ThreeStepSearch(ox, oy)` (41 R144, R145). -/
def threeStepSearch (s : State) (ox oy : Nat) : Candidate :=
  if blockSad s ox oy 0 0 = 0 then ⟨0, 0, 0⟩
  else searchLoop s ox oy 8 s.cfg.meStep.toNat ⟨0, 0, blockSad s ox oy 0 0⟩

/-- `ox + BW <= W`, argument `ARG[0]` (46 R293, R294). -/
def columnFits (s : State) : Bool := decide (argNat s 0 + blockWidth s.hdr.version ≤ s.hdr.width.toNat)

/-- `oy + BH <= H`, argument `ARG[1]` (46 R293, R294). -/
def rowFits (s : State) : Bool := decide (argNat s 1 + blockHeight s.hdr.version ≤ s.hdr.height.toNat)

/-- `TSS` (46 R293). -/
def tssOp (s : State) : Run Unit :=
  (check (columnFits s) (illegalArgument 0x34 0) s).bind fun _ s =>
  (check (rowFits s) (illegalArgument 0x34 1) s).bind fun _ s =>
    let c := threeStepSearch s (argNat s 0) (argNat s 1)
    .done () { s with res := { s.res with
      x0 := BitVec.ofInt 32 c.dx, x1 := BitVec.ofInt 32 c.dy, x2 := BitVec.ofNat 32 c.cost } }

/-- `TSS` (46 R293, code 0x34). -/
def execTss (s : State) : Host.Outcome State Fault Refusal := runCommand 0x34 admitEncode .plain tssOp s

/-- `ARG[2]` keeps the displaced block inside the frame horizontally (46 R294). -/
def columnOffsetFits (s : State) : Bool :=
  decide (0 ≤ (argNat s 0 : Int) + argInt s 2) &&
  decide ((argNat s 0 : Int) + argInt s 2 + (blockWidth s.hdr.version : Int) ≤ (s.hdr.width.toNat : Int))

/-- `ARG[3]` keeps the displaced block inside the frame vertically (46 R294). -/
def rowOffsetFits (s : State) : Bool :=
  decide (0 ≤ (argNat s 1 : Int) + argInt s 3) &&
  decide ((argNat s 1 : Int) + argInt s 3 + (blockHeight s.hdr.version : Int) ≤ (s.hdr.height.toNat : Int))

/-- `BLOCK_SAD` (46 R294). -/
def blockSadOp (s : State) : Run Unit :=
  (check (columnFits s) (illegalArgument 0x35 0) s).bind fun _ s =>
  (check (rowFits s) (illegalArgument 0x35 1) s).bind fun _ s =>
  (check (columnOffsetFits s) (illegalArgument 0x35 2) s).bind fun _ s =>
  (check (rowOffsetFits s) (illegalArgument 0x35 3) s).bind fun _ s =>
    .done () (setRes0 (blockSad s (argNat s 0) (argNat s 1) (argInt s 2) (argInt s 3)) s)

/-- `BLOCK_SAD` (46 R294, code 0x35). -/
def execBlockSad (s : State) : Host.Outcome State Fault Refusal := runCommand 0x35 admitEncode .plain blockSadOp s

end Sys2Proof.Machine
end

