-- ==== Sys2Proof/Machine/Blocks.lean ====
section
/-! DEFINITION. block_mode_sequencer and frame_decoder (43_sequencer_decoder): the nine block codes, the frame loop, and the
meaning of `DECODE_BS` (46 R279). -/

namespace Sys2Proof.Machine

/-- What the sequencer writes while it decodes a frame (43 R190): `CUR`, `BSPOS`, `BLK`, `PRED`. Everything else it only
reads. -/
structure Sequencer where
  cur   : Memory Colour
  bspos : Nat
  blk   : Nat
  pred  : BitVec 16
deriving DecidableEq, Repr

/-- The sequencer's part of the state. -/
def sequencerOf (s : State) : Sequencer := ⟨s.cur, s.bspos.toNat, s.blk.toNat, s.pred⟩

/-- The state with the sequencer's part replaced; no cursor wraps (47 R301, log 7). -/
def withSequencer (q : Sequencer) (s : State) : State :=
  { s with cur := q.cur, bspos := saturate q.bspos, blk := saturate q.blk, pred := q.pred }

/-- What a block code does: it goes on, or raises `StreamCorruption`, each with the sequencer's part it left. -/
abbrev BlockResult := Except Sequencer Sequencer

/-- `BSPOS <- BSPOS + n`. -/
def advance (n : Nat) (q : Sequencer) : Sequencer := { q with bspos := q.bspos + n }

/-- Write block `BLK` of `CUR` (43 R194), having consumed `len` bytes; the next code is for the next block. -/
def putBlock (s : State) (len : Nat) (cs : List Colour) (q : Sequencer) : Sequencer :=
  { q with cur := writeBlock s.hdr q.blk cs q.cur, bspos := q.bspos + len, blk := q.blk + 1 }

/-- The bytes of a colour operand (30 R98). -/
def operandLength : ColourOp → Nat
  | .rgb555 _ => 2
  | .index _ => 1

/-- `FILL` (43 R195). -/
def fillBlock (s : State) (psel : Bool) (c : ColourOp) (q : Sequencer) : BlockResult :=
  .ok (putBlock s (1 + operandLength c) (List.replicate (blockPixels s.hdr.version) (operandColour s psel c)) q)

/-- `NORMAL` (43 R196). -/
def normalBlock (s : State) (psel : Bool) (cs : List ColourOp) (q : Sequencer) : BlockResult :=
  .ok (putBlock s (1 + (cs.map operandLength).sum) (cs.map (operandColour s psel)) q)

/-- `COPY` (43 R197). -/
def copyBlock (s : State) (q : Sequencer) : BlockResult :=
  .ok (putBlock s 1 (readBlock s .prev s.prev (blockX s.hdr q.blk) (blockY s.hdr q.blk)) q)

/-- `ICOPY` (43 R198): the referenced block of the frame being rebuilt. -/
def icopyBlock (s : State) (back : Nat) (q : Sequencer) : BlockResult :=
  if back = 0 ∨ q.blk < back then .error (advance 3 q)
  else .ok (putBlock s 3 (readBlock s .cur q.cur (blockX s.hdr (q.blk - back)) (blockY s.hdr (q.blk - back))) q)

/-- The common end of `MV` and `PMV` (43 R199): bounds check, copy from `PREV`, `PRED <- (dx, dy)`; `len` bytes consumed. -/
def motionBlock (s : State) (len : Nat) (dx dy : Int) (q : Sequencer) : BlockResult :=
  let sx := (blockX s.hdr q.blk : Int) + dx
  let sy := (blockY s.hdr q.blk : Int) + dy
  if insideFrame s.hdr sx sy then
    .ok { putBlock s len (readBlock s .prev s.prev sx.toNat sy.toNat) q with pred := predOf dx dy }
  else .error (advance len q)

/-- `MV` (43 R199). -/
def mvBlock (s : State) (dx dy : Byte) (q : Sequencer) : BlockResult := motionBlock s 3 dx.toInt dy.toInt q

/-- `PMV` (43 R200): the predictor plus the deltas, which must stay in -128..127. -/
def pmvBlock (s : State) (ddx ddy : BitVec 4) (q : Sequencer) : BlockResult :=
  let dx := predX q.pred + ddx.toInt
  let dy := predY q.pred + ddy.toInt
  if outsideI8 dx || outsideI8 dy then .error (advance 2 q) else motionBlock s 2 dx dy q

/-- `VQ2` (43 R201). -/
def vq2Block (s : State) (psel : Bool) (c0 c1 : ColourOp) (idx : List Byte) (q : Sequencer) : BlockResult :=
  .ok (putBlock s (1 + operandLength c0 + operandLength c1 + idx.length)
    ((List.range (blockPixels s.hdr.version)).map fun n =>
      operandColour s psel (if vq2Index idx n = 0 then c0 else c1)) q)

/-- `VQ4` (43 R202). -/
def vq4Block (s : State) (psel : Bool) (c0 c1 c2 c3 : ColourOp) (idx : List Byte) (q : Sequencer) : BlockResult :=
  .ok (putBlock s (1 + operandLength c0 + operandLength c1 + operandLength c2 + operandLength c3 + idx.length)
    ((List.range (blockPixels s.hdr.version)).map fun n =>
      operandColour s psel
        (if vq4Index idx n = 0 then c0 else if vq4Index idx n = 1 then c1 else if vq4Index idx n = 2 then c2 else c3)) q)

/-- `SKIP` (43 R203): decodes exactly as `COPY`. -/
def skipBlock (s : State) (q : Sequencer) : BlockResult :=
  .ok (putBlock s 1 (readBlock s .prev s.prev (blockX s.hdr q.blk) (blockY s.hdr q.blk)) q)

/-- Dispatch on the mode (43 R191); only a block code reaches it, since only a block code is decoded from `BS`. -/
def applyBlock (s : State) (i : Instr) (q : Sequencer) : BlockResult :=
  match i with
  | .fill psel c => fillBlock s psel c q
  | .normal psel cs => normalBlock s psel cs q
  | .copy => copyBlock s q
  | .icopy back => icopyBlock s back.toNat q
  | .mv dx dy => mvBlock s dx dy q
  | .pmv ddx ddy => pmvBlock s ddx ddy q
  | .vq2 psel c0 c1 idx => vq2Block s psel c0 c1 idx q
  | .vq4 psel c0 c1 c2 c3 idx => vq4Block s psel c0 c1 c2 c3 idx q
  | .skip => skipBlock s q
  | .lit _ | .ref _ _ | .hdr _ | .agfc _ | .agac _ | .nop | .softReset | .loadQuality | .openStream | .nextFrame | .nextAudio
  | .resetVideo | .skipFwd | .skipBack | .skipTo | .close | .lzDecompress | .lzCompress | .decodeBs | .nearest | .histClear
  | .histAccum | .selectPalette | .tss | .blockSad | .encSetup | .encOpen | .encFrame | .encAudio | .encClose => .error q

/-- The bytes the sequencer can fetch at `BSPOS`: those before `len`, and no more than the longest code's 129 (30 R97). -/
def codeBytes (s : State) (len : Nat) (q : Sequencer) : List Byte :=
  bytesAt s .bs s.bs q.bspos (min 129 (len - q.bspos))

/-- The context block codes are decoded in. -/
def blockCtx (s : State) (ftype : FrameType) : BlockCtx := ⟨s.hdr.version, ftype⟩

/-- One turn of the frame loop (43 R191): fetch, check, perform. -/
def decodeOneBlock (s : State) (ftype : FrameType) (len : Nat) (q : Sequencer) : BlockResult :=
  match decode (.block (blockCtx s ftype)) (codeBytes s len q) with
  | .error e => .error (advance e.used q)
  | .ok (i, _) => applyBlock s i q

/-- The loop over the blocks still to decode (43 R191). -/
def decodeBlocks (s : State) (ftype : FrameType) (len : Nat) : Nat → Sequencer → BlockResult
  | 0, q => .ok q
  | n + 1, q =>
    match decodeOneBlock s ftype len q with
    | .error q => .error q
    | .ok q => decodeBlocks s ftype len n q

/-- Bitstream `StreamCorruption`: `ERRINFO = BLK` (60 R311). -/
def bitstreamCorrupt (blk : Nat) : Raise := ⟨.streamCorruption, unitFrame, blk⟩

/-- The sequencer at the start of a frame (43 R191). -/
def sequencerStart (s : State) : Sequencer := ⟨s.cur, 0, 0, predZero⟩

/-- The end check (43 R204). -/
def frameEnd (len : Nat) (s : State) : Run Unit :=
  if s.bspos.toNat = len then .done () s else .raised (bitstreamCorrupt s.blk.toNat) s

/-- `DecodeFrame(ftype, len)` (43 R191). -/
def decodeFrame (ftype : FrameType) (len : Nat) (s : State) : Run Unit :=
  match decodeBlocks s ftype len (blockCount s.hdr) (sequencerStart s) with
  | .error q => .raised (bitstreamCorrupt q.blk) (withSequencer q s)
  | .ok q => frameEnd len (withSequencer q s)

/-- What follows a decoded bitstream in `DECODE_BS` (46 R279). -/
def bitstreamDone (ftype : FrameType) (s : State) : Run Unit :=
  .done () (setRes0 (blockCount s.hdr) (commit ftype s))

/-- `DECODE_BS` (46 R279). -/
def decodeBsOp (s : State) : Run Unit :=
  match frameTypeOf (argNat s 0) with
  | none => .raised (illegalArgument 0x22 0) s
  | some ftype => (decodeFrame ftype s.bslen.toNat s).bind fun _ s => bitstreamDone ftype s

/-- `DECODE_BS` (46 R279, code 0x22). -/
def execDecodeBs (s : State) : Host.Outcome State Fault Refusal := runCommand 0x22 admitBitstream .bitstream decodeBsOp s

/-- The end of `DECODE_BS` when its codes were run one a step (log 3). -/
def finishFrameRun (r : FrameRun) (s : State) : Host.Outcome State Fault Refusal :=
  .next { finish .bitstream s ((frameEnd r.len s).bind fun _ s => bitstreamDone r.ftype s) with act := .idle }

/-- A raise while codes are run one a step: that of `DECODE_BS` (log 3). -/
def raiseFrameRun (s : State) (q : Sequencer) : Host.Outcome State Fault Refusal :=
  .next { takeError .bitstream s (withSequencer q s) (bitstreamCorrupt q.blk) with act := .idle }

/-- Run one block code by itself: the sequencer must be fetching, a block must be left, and the tag legal (43 R192). -/
def runBlock (s : State) (mode : Nat) (psel : Bool) (op : Sequencer → BlockResult) : Host.Outcome State Fault Refusal :=
  match s.act with
  | .frame r =>
    if s.blk.toNat < blockCount s.hdr then
      if (tagError (blockCtx s r.ftype) mode psel).isSome then raiseFrameRun s (advance 1 (sequencerOf s))
      else
        match op (sequencerOf s) with
        | .ok q => .next (withSequencer q s)
        | .error q => raiseFrameRun s q
    else .fault .blockOutsideFrame
  | .idle | .lzss _ | .container _ => .refused .notFetched

/-- `FILL` (43 R195). -/
def execFill (psel : Bool) (c : ColourOp) (s : State) : Host.Outcome State Fault Refusal :=
  runBlock s 1 psel (fillBlock s psel c)

/-- `NORMAL` (43 R196). -/
def execNormal (psel : Bool) (cs : List ColourOp) (s : State) : Host.Outcome State Fault Refusal :=
  runBlock s 2 psel (normalBlock s psel cs)

/-- `COPY` (43 R197). -/
def execCopy (s : State) : Host.Outcome State Fault Refusal := runBlock s 3 false (copyBlock s)

/-- `ICOPY` (43 R198). -/
def execIcopy (back : Half) (s : State) : Host.Outcome State Fault Refusal := runBlock s 4 false (icopyBlock s back.toNat)

/-- `MV` (43 R199). -/
def execMv (dx dy : Byte) (s : State) : Host.Outcome State Fault Refusal := runBlock s 5 false (mvBlock s dx dy)

/-- `PMV` (43 R200). -/
def execPmv (ddx ddy : BitVec 4) (s : State) : Host.Outcome State Fault Refusal := runBlock s 6 false (pmvBlock s ddx ddy)

/-- `VQ2` (43 R201). -/
def execVq2 (psel : Bool) (c0 c1 : ColourOp) (idx : List Byte) (s : State) : Host.Outcome State Fault Refusal :=
  runBlock s 7 psel (vq2Block s psel c0 c1 idx)

/-- `VQ4` (43 R202). -/
def execVq4 (psel : Bool) (c0 c1 c2 c3 : ColourOp) (idx : List Byte) (s : State) : Host.Outcome State Fault Refusal :=
  runBlock s 8 psel (vq4Block s psel c0 c1 c2 c3 idx)

/-- `SKIP` (43 R203). -/
def execSkip (s : State) : Host.Outcome State Fault Refusal := runBlock s 9 false (skipBlock s)

/-- Fetch and run the next step of a frame decode: the end once every block is decoded, else the code at `BSPOS`. `run` is
exec. -/
def frameRunStep (run : Instr → State → Host.Outcome State Fault Refusal) (r : FrameRun) (s : State) :
    Host.Outcome State Fault Refusal :=
  if s.blk.toNat < blockCount s.hdr then
    match decode (.block (blockCtx s r.ftype)) (codeBytes s r.len (sequencerOf s)) with
    | .error e => raiseFrameRun s (advance e.used (sequencerOf s))
    | .ok (i, _) => run i s
  else finishFrameRun r s

end Sys2Proof.Machine
end

