-- ==== Sys2Proof/Machine/Classifier.lean ====
section
/-! DEFINITION. block_classifier_encoder and bitstream_packer (42_classifier_packer): the tests, the priority order, colour
emission and `EncodeFrame`. -/

namespace Sys2Proof.Machine

/-! ## Frame type and tolerance -/

/-- The frame type of frame `FRAME_CTR` (42 R161). -/
def chooseFrameType (s : State) : FrameType :=
  if s.frameCtr = 0 ∨ (0 < s.cfg.keyInterval.toNat ∧ s.frameCtr.toNat % s.cfg.keyInterval.toNat = 0) ∨
      s.arg.x0.getLsbD 0 then .intra
  else .inter

/-- The tolerance `T` (42 R162). -/
def tolerance (s : State) : Nat :=
  if paletteProfile s.hdr.version = 0 then s.cfg.maxDiff15.toNat else s.cfg.maxDiff.toNat

/-- Every pixel of one block is close to the same pixel of the other. -/
def blocksClose (t : Nat) (ps qs : List Colour) : Bool := (List.zipWith (closeTo t) ps qs).all id

/-! ## Colour emission (42 R176) -/

/-- `QErr` summed over colours (40 R122). -/
def tableError (s : State) (second : Bool) (cols : List Colour) : Nat :=
  (cols.map fun c => (nearest (paletteAt s second) c).2).sum

/-- `PSEL`: the second table only in profile 2 and only when its total error is strictly smaller. -/
def emitSelect (s : State) (cols : List Colour) : Bool :=
  paletteProfile s.hdr.version == 2 && decide (tableError s true cols < tableError s false cols)

/-- The operand of one colour. -/
def emitOperand (s : State) (psel : Bool) (c : Colour) : ColourOp :=
  if paletteProfile s.hdr.version = 0 then .rgb555 (operand555 c)
  else .index (BitVec.ofNat 8 (nearest (paletteAt s psel) c).1)

/-- `rc`: the colour that operand decodes to. -/
def emitted (s : State) (psel : Bool) (c : Colour) : Colour := operandColour s psel (emitOperand s psel c)

/-! ## The tests -/

/-- A classified block: its code, its reconstruction, `PRED` after it. -/
structure BlockCode where
  code   : Instr
  pixels : List Colour
  pred   : BitVec 16
deriving DecidableEq, Repr

/-- The source pixels `px` of block `BLK`. -/
def sourceBlock (s : State) (q : Sequencer) : List Colour :=
  readBlock s .src s.src (blockX s.hdr q.blk) (blockY s.hdr q.blk)

/-- Step 1, COPY (42 R165): P-frames only. -/
def tryCopy (s : State) (ftype : FrameType) (q : Sequencer) : Option BlockCode :=
  let ps := readBlock s .prev s.prev (blockX s.hdr q.blk) (blockY s.hdr q.blk)
  if ftype = .inter ∧ modeEnabled s 3 ∧ blocksClose (tolerance s) (sourceBlock s q) ps then some ⟨.copy, ps, q.pred⟩
  else none

/-- Step 2, FILL (42 R166): the colour is that of the first pixel. -/
def tryFill (s : State) (q : Sequencer) : Option BlockCode :=
  let px := sourceBlock s q
  let c := px.headD Colour.black
  if modeEnabled s 1 ∧ px.all (fun p => closeTo (tolerance s) p c) then
    let psel := emitSelect s [c]
    some ⟨.fill psel (emitOperand s psel c), List.replicate (blockPixels s.hdr.version) (emitted s psel c), q.pred⟩
  else none

/-- The neighbours of block `k` that exist, as distances `back`, in the order left, above, above-left, above-right (42 R167). -/
def icopyCandidates (h : HdrFields) (k : Nat) : List Nat :=
  let bpr := blocksPerRow h
  let bxi := k % bpr
  let byi := k / bpr
  (if 0 < bxi then [1] else []) ++ (if 0 < byi then [bpr] else []) ++ (if 0 < byi ∧ 0 < bxi then [bpr + 1] else []) ++
    (if 0 < byi ∧ bxi + 1 < bpr then [bpr - 1] else [])

/-- The first candidate whose reconstructed block is close to the source block (42 R167). -/
def firstNeighbour (s : State) (q : Sequencer) : List Nat → Option BlockCode
  | [] => none
  | back :: rest =>
    let ps := readBlock s .cur q.cur (blockX s.hdr (q.blk - back)) (blockY s.hdr (q.blk - back))
    if back ≤ 65535 ∧ blocksClose (tolerance s) (sourceBlock s q) ps then
      some ⟨.icopy (BitVec.ofNat 16 back), ps, q.pred⟩
    else firstNeighbour s q rest

/-- Step 3, ICOPY (42 R167). -/
def tryIcopy (s : State) (q : Sequencer) : Option BlockCode :=
  if modeEnabled s 4 then firstNeighbour s q (icopyCandidates s.hdr q.blk) else none

/-- A component of a PMV delta fits four bits (42 R170). -/
def fitsI4 (v : Int) : Bool := decide (-8 ≤ v) && decide (v ≤ 7)

/-- The code of an accepted vector (42 R170): PMV when enabled and the difference fits, else MV when enabled. -/
def motionCode (s : State) (q : Sequencer) (dx dy : Int) : Option Instr :=
  let ddx := dx - predX q.pred
  let ddy := dy - predY q.pred
  if modeEnabled s 6 ∧ fitsI4 ddx ∧ fitsI4 ddy then some (.pmv (BitVec.ofInt 4 ddx) (BitVec.ofInt 4 ddy))
  else if modeEnabled s 5 then some (.mv (BitVec.ofInt 8 dx) (BitVec.ofInt 8 dy))
  else none

/-- Step 4, MV or PMV (42 R168 to R170): P-frames only, a non-zero vector of cost below `MV_THRESH * N`. -/
def tryMotion (s : State) (ftype : FrameType) (q : Sequencer) : Option BlockCode :=
  let ox := blockX s.hdr q.blk
  let oy := blockY s.hdr q.blk
  let c := threeStepSearch s ox oy
  if ftype = .inter ∧ ¬ (c.dx = 0 ∧ c.dy = 0) ∧ c.cost < s.cfg.mvThresh.toNat * blockPixels s.hdr.version then
    match motionCode s q c.dx c.dy with
    | some code =>
      some ⟨code, readBlock s .prev s.prev ((ox : Int) + c.dx).toNat ((oy : Int) + c.dy).toNat, predOf c.dx c.dy⟩
    | none => none
  else none

/-- The greedy pass over the pixels still to do (42 R171); `none` when a fifth representative would be needed. -/
def clusterFrom (t : Nat) : List Colour → List Colour → List Nat → Option (List Colour × List Nat)
  | [], reps, idx => some (reps, idx)
  | p :: ps, reps, idx =>
    match reps.findIdx? (closeTo t p) with
    | some k => clusterFrom t ps reps (idx ++ [k])
    | none => if reps.length < 4 then clusterFrom t ps (reps ++ [p]) (idx ++ [reps.length]) else none

/-- VQ clustering (42 R171): representatives and one index per pixel. -/
def cluster (t : Nat) (px : List Colour) : Option (List Colour × List Nat) := clusterFrom t px [] []

/-- Missing representatives repeat the last one (42 R172). -/
def padReps (n : Nat) (reps : List Colour) : List Colour :=
  reps ++ List.replicate (n - reps.length) (reps.getLastD Colour.black)

/-- The reconstruction of a VQ block: pixel `n` is `rc[idx[n]]` (42 R172). -/
def vqPixels (s : State) (psel : Bool) (reps : List Colour) (idx : List Nat) : List Colour :=
  idx.map fun i => emitted s psel (reps.getD i Colour.black)

/-- The VQ2 code (42 R172). -/
def vq2Code (s : State) (reps : List Colour) (idx : List Nat) (q : Sequencer) : BlockCode :=
  let cols := padReps 2 reps
  let psel := emitSelect s cols
  let op := fun i => emitOperand s psel (cols.getD i Colour.black)
  ⟨.vq2 psel (op 0) (op 1) (packIndices 1 8 (blockPixels s.hdr.version / 8) idx), vqPixels s psel cols idx, q.pred⟩

/-- The VQ4 code (42 R172). -/
def vq4Code (s : State) (reps : List Colour) (idx : List Nat) (q : Sequencer) : BlockCode :=
  let cols := padReps 4 reps
  let psel := emitSelect s cols
  let op := fun i => emitOperand s psel (cols.getD i Colour.black)
  ⟨.vq4 psel (op 0) (op 1) (op 2) (op 3) (packIndices 2 4 (blockPixels s.hdr.version / 4) idx), vqPixels s psel cols idx,
    q.pred⟩

/-- Step 5, VQ2 or VQ4 (42 R171, R172). -/
def tryVq (s : State) (q : Sequencer) : Option BlockCode :=
  match cluster (tolerance s) (sourceBlock s q) with
  | none => none
  | some (reps, idx) =>
    if reps.length ≤ 2 ∧ modeEnabled s 7 then some (vq2Code s reps idx q)
    else if modeEnabled s 8 then some (vq4Code s reps idx q)
    else none

/-- Step 6, NORMAL (42 R173). -/
def normalCode (s : State) (q : Sequencer) : BlockCode :=
  let px := sourceBlock s q
  let psel := emitSelect s px
  ⟨.normal psel (px.map (emitOperand s psel)), px.map (emitted s psel), q.pred⟩

/-- The priority order (42 R164): the first step that passes. SKIP is never emitted (R175). -/
def classify (s : State) (ftype : FrameType) (q : Sequencer) : BlockCode :=
  ((((tryCopy s ftype q).or (tryFill s q)).or (tryIcopy s q)).or ((tryMotion s ftype q).or (tryVq s q))).getD (normalCode s q)

/-! ## The packer and the frame loop -/

/-- The encoder inside a frame: the sequencer's registers with `CUR`, and the bytes packed so far. -/
structure Packer where
  q     : Sequencer
  bytes : List Byte
deriving DecidableEq, Repr

/-- One turn of the frame loop (42 R178): classify block `BLK`, append its code (R177), reconstruct it into `CUR`. -/
def packBlock (s : State) (ftype : FrameType) (p : Packer) : Packer :=
  let b := classify s ftype p.q
  { q :=
      { cur := writeBlock s.hdr p.q.blk b.pixels p.q.cur
        bspos := p.q.bspos + (encode b.code).length
        blk := p.q.blk + 1
        pred := b.pred }
    bytes := p.bytes ++ encode b.code }

/-- The loop over the blocks still to encode. -/
def packBlocks (s : State) (ftype : FrameType) : Nat → Packer → Packer
  | 0, p => p
  | n + 1, p => packBlocks s ftype n (packBlock s ftype p)

/-- The whole loop of `EncodeFrame(ftype)` (42 R178): the bitstream, exactly, and the sequencer's part it leaves. -/
def packFrame (ftype : FrameType) (s : State) : Packer := packBlocks s ftype (blockCount s.hdr) ⟨sequencerStart s, []⟩

/-- What `EncodeFrame` leaves once its loop has packed `p` (42 R178). -/
def encodeFrame (p : Packer) (s : State) : State := fillBs p.bytes (withSequencer p.q s)

end Sys2Proof.Machine
end

