-- ==== Sys2Proof/Machine/Lzss.lean ====
section
/-! DEFINITION. lzss_compressor (44_lzss): the two units, `Decompress`, `Compress`, `Pack`, `Unpack`, and the meanings of
`LZ_DECOMPRESS`, `LZ_COMPRESS` (46 R277, R278). -/

namespace Sys2Proof.Machine

/-! ## Decompression -/

/-- The decompressor's cursors (44 R222): the input not yet read, `IPOS`, and the output so far, latest byte first (so `OPOS`
is its length). -/
structure LzState where
  inp  : List Byte
  ipos : Nat
  out  : List Byte
deriving DecidableEq, Repr

/-- Copy `n` bytes from `offset` back, byte by byte: each byte copied is at the front of the output for the next (44 R226). -/
def copyBack (offset : Nat) : Nat → List Byte → List Byte
  | 0, out => out
  | n + 1, out => copyBack offset n (out.getD (offset - 1) 0 :: out)

/-- `REF` on the output so far (44 R226); `none` is `StreamCorruption`. The copy stops at the expected size (44 R224). -/
def expandRef (offset length n : Nat) (out : List Byte) : Option (List Byte) :=
  if offset = 0 ∨ out.length < offset then none else some (copyBack offset (min length (n - out.length)) out)

/-- One unit under its flag bit (44 R225, R226). An `error` carries `OPOS`. -/
def lzUnit (n : Nat) (literal : Bool) (l : LzState) : Except Nat LzState :=
  match decode (.unit literal) l.inp with
  | .error _ => .error l.out.length
  | .ok (.lit b, used) => .ok ⟨l.inp.drop used, l.ipos + used, b :: l.out⟩
  | .ok (.ref offset length, used) =>
    match expandRef offset.toNat length.toNat n l.out with
    | none => .error l.out.length
    | some out => .ok ⟨l.inp.drop used, l.ipos + used, out⟩
  | .ok _ => .error l.out.length

/-- The units of a group still to do: `k` left means flag bit `k-1` is next, most significant first (44 R223). -/
def lzUnits (n : Nat) (flags : Byte) : Nat → LzState → Except Nat LzState
  | 0, l => .ok l
  | k + 1, l =>
    if l.out.length = n then .ok l
    else
      match lzUnit n (flags.getLsbD k) l with
      | .error o => .error o
      | .ok l => lzUnits n flags k l

/-- The groups (44 R227): each reads a flag byte; `fuel` bounds them by the input's length. -/
def lzGroups (n : Nat) : Nat → LzState → Except Nat LzState
  | 0, l => if l.out.length = n then .ok l else .error l.out.length
  | fuel + 1, l =>
    if l.out.length = n then .ok l
    else
      match l.inp with
      | [] => .error l.out.length
      | flags :: inp =>
        match lzUnits n flags 8 ⟨inp, l.ipos + 1, l.out⟩ with
        | .error o => .error o
        | .ok l => lzGroups n fuel l

/-- `Decompress(in, n)` (44 R227): the output and the input bytes consumed, or `OPOS` at the corruption. -/
def decompress (inp : List Byte) (n : Nat) : Except Nat (List Byte × Nat) :=
  match lzGroups n inp.length ⟨inp, 0, []⟩ with
  | .ok l => .ok (l.out.reverse, l.ipos)
  | .error o => .error o

/-! ## Compression -/

/-- How many of the first `n` bytes of two lists agree. -/
def matchLength : Nat → List Byte → List Byte → Nat
  | 0, _, _ => 0
  | _ + 1, [], _ => 0
  | _ + 1, _ :: _, [] => 0
  | n + 1, a :: as, b :: bs => if a = b then matchLength n as bs + 1 else 0

/-- The loop of `LongestMatch` over offsets `off, off+1, …` (44 R229): strictly longer wins. -/
def longestFrom (inp : List Byte) (pos maxl : Nat) : Nat → Nat → Nat × Nat → Nat × Nat
  | 0, _, best => best
  | n + 1, off, best =>
    longestFrom inp pos maxl n (off + 1)
      (if best.1 < matchLength maxl (inp.drop pos) (inp.drop (pos - off))
        then (matchLength maxl (inp.drop pos) (inp.drop (pos - off)), off) else best)

/-- `LongestMatch(pos) -> (mlen, moff)` (44 R229); `LZ_MAXLEN = 15`, `LZ_WINDOW = 4095`. -/
def longestMatch (inp : List Byte) (pos : Nat) : Nat × Nat :=
  longestFrom inp pos (min 15 (inp.length - pos)) (min pos 4095) 1 (0, 0)

/-- The unit the compressor emits at `pos`: a reference of at least `LZ_MINLEN = 3` bytes, else a literal (44 R228). -/
def chooseUnit (inp : List Byte) (pos : Nat) : Instr × Nat :=
  let m := longestMatch inp pos
  if 3 ≤ m.1 then (.ref (BitVec.ofNat 12 m.2) (BitVec.ofNat 4 m.1), m.1) else (.lit (inp.getD pos 0), 1)

/-- A unit's flag bit (30 R102). -/
def unitIsLiteral : Instr → Bool
  | .lit _ => true
  | _ => false

/-- The units of one group from `pos`: flag byte so far, bytes, and the position after them (44 R228). `k` left means flag
bit `k-1` is next. -/
def compressUnits (inp : List Byte) : Nat → Nat → Byte → List Byte → Byte × List Byte × Nat
  | 0, pos, flags, out => (flags, out, pos)
  | k + 1, pos, flags, out =>
    if inp.length ≤ pos then (flags, out, pos)
    else
      let u := chooseUnit inp pos
      compressUnits inp k (pos + u.2) (if unitIsLiteral u.1 then flags ||| ((1 : Byte) <<< k) else flags) (out ++ encode u.1)

/-- The groups from `pos` (44 R228); `fuel` bounds them by the input's length. -/
def compressFrom (inp : List Byte) : Nat → Nat → List Byte
  | 0, _ => []
  | fuel + 1, pos =>
    if inp.length ≤ pos then []
    else
      let g := compressUnits inp 8 pos 0 []
      g.1 :: (g.2.1 ++ compressFrom inp fuel g.2.2)

/-- `Compress(in)` (44 R228). -/
def compress (inp : List Byte) : List Byte := compressFrom inp inp.length 0

/-! ## Chunk payloads -/

/-- The payload of `Pack` (44 R230): compressed only when enabled and strictly shorter. -/
def packPayload (compEn : Bool) (inp : List Byte) : List Byte :=
  if compEn ∧ (compress inp).length < inp.length then compress inp else inp

/-- `Unpack(csize, usize)` (44 R231): verbatim when the sizes are equal, else decompressed; an error carries `OPOS`. -/
def unpackPayload (payload : List Byte) (usize : Nat) : Except Nat (List Byte) :=
  if payload.length = usize then .ok payload
  else
    match decompress payload usize with
    | .ok (out, _) => .ok out
    | .error o => .error o

/-- LZSS `StreamCorruption`: `ERRINFO = OPOS` (60 R311). -/
def lzssCorrupt (opos : Nat) : Raise := ⟨.streamCorruption, unitLzss, opos⟩

/-- `Unpack` into a buffer through the state. -/
def unpackInto (payload : List Byte) (usize : Nat) (s : State) : Run (List Byte) :=
  match unpackPayload payload usize with
  | .ok out => .done out s
  | .error o => .raised (lzssCorrupt o) s

/-! ## The unit commands -/

/-- `LZ_DECOMPRESS` (46 R277). -/
def lzDecompressOp (s : State) : Run Unit :=
  (check (decide (argNat s 0 ≤ s.par.bsCap)) (illegalArgument 0x20 0) s).bind fun _ s =>
    match decompress (cbBytes s) (argNat s 0) with
    | .ok (out, used) => .done () (setRes0 used (fillBs out s))
    | .error o => .raised (lzssCorrupt o) s

/-- `LZ_DECOMPRESS` (46 R277, code 0x20). -/
def execLzDecompress (s : State) : Host.Outcome State Fault Refusal := runCommand 0x20 admitUnit .lzss lzDecompressOp s

/-- `LZ_COMPRESS` (46 R278, code 0x21). -/
def execLzCompress (s : State) : Host.Outcome State Fault Refusal :=
  runCommand 0x21 admitUnit .plain
    (fun s => .done () (setRes0 (compress (bsBytes s)).length (fillCb (compress (bsBytes s)) s))) s

/-! ## One unit by itself (log 3) -/

/-- The end of `LZ_DECOMPRESS` when its units were run one a step. -/
def finishLzRun (r : LzRun) (s : State) : Host.Outcome State Fault Refusal :=
  .next { complete (setRes0 r.ipos (fillBs (bytesAt s .bs s.bs 0 r.n) s)) with act := .idle }

/-- A raise while units are run one a step: that of `LZ_DECOMPRESS`. -/
def raiseLzRun (opos : Nat) (s : State) : Host.Outcome State Fault Refusal :=
  .next { takeError .lzss s s (lzssCorrupt opos) with act := .idle }

/-- `LIT` (44 R225): `out[OPOS] <- b`, both cursors advance by one. -/
def execLit (b : Byte) (s : State) : Host.Outcome State Fault Refusal :=
  match s.act with
  | .lzss r =>
    if r.opos < r.n then
      .next { s with
        bs := Memory.write s.bs r.opos b
        act := .lzss { r with ipos := r.ipos + 1, opos := r.opos + 1, k := r.k + 1 } }
    else .refused .notFetched
  | .idle | .frame _ | .container _ => .refused .notFetched

/-- `REF` (44 R226): the copy reads the output it has itself written, and stops at the expected size. -/
def execRef (offset : BitVec 12) (length : BitVec 4) (s : State) : Host.Outcome State Fault Refusal :=
  match s.act with
  | .lzss r =>
    if r.opos < r.n then
      match expandRef offset.toNat length.toNat r.n (bytesAt s .bs s.bs 0 r.opos).reverse with
      | none => raiseLzRun r.opos s
      | some out =>
        .next { s with
          bs := Memory.writeList s.bs r.opos (out.reverse.drop r.opos)
          act := .lzss { r with ipos := r.ipos + 2, opos := out.length, k := r.k + 1 } }
    else .refused .notFetched
  | .idle | .frame _ | .container _ => .refused .notFetched

/-- Run the unit at `IPOS` under the group's current flag bit (44 R227). -/
def lzUnitStep (run : Instr → State → Host.Outcome State Fault Refusal) (r : LzRun) (s : State) :
    Host.Outcome State Fault Refusal :=
  match decode (.unit (r.flags.getLsbD (7 - r.k)))
      (bytesAt s .cb s.cb r.ipos (min 2 (s.cblen.toNat - r.ipos))) with
  | .error _ => raiseLzRun r.opos s
  | .ok (i, _) => run i s

/-- Fetch and run the next step of a decompression: the end once the output is complete, else a flag byte if one is due, and
the next unit. `run` is exec. -/
def lzRunStep (run : Instr → State → Host.Outcome State Fault Refusal) (r : LzRun) (s : State) :
    Host.Outcome State Fault Refusal :=
  if r.opos < r.n then
    if r.k < 8 then lzUnitStep run r s
    else if r.ipos < s.cblen.toNat then
      let r' : LzRun := { r with ipos := r.ipos + 1, flags := byteAt s .cb s.cb r.ipos, k := 0 }
      lzUnitStep run r' { s with act := .lzss r' }
    else raiseLzRun r.opos s
  else finishLzRun r s

end Sys2Proof.Machine
end

