-- ==== Sys2Proof/Machine/Container.lean ====
section
/-! DEFINITION. container_parser, reading (45_container), and the decode session's commands (46 R275, R276, R280 to R286): the
records `HDR`, `AGFC`, `AGAC`, and `OPEN`, `CLOSE`, `NEXT_FRAME`, `NEXT_AUDIO`, `RESET_VIDEO`, `SKIP_FWD`, `SKIP_BACK`,
`SKIP_TO`. -/

namespace Sys2Proof.Machine

/-! ## Record boundaries -/

/-- `STREAM_LEN`. -/
def streamLen (s : State) : Nat := s.plat.streamLen.toNat

/-- The record boundary `FPOS` names (10 R32). In a decode session `FPOS` is never below `FIRST_CHUNK` (45 R249), so a register
of 0 can only be the position 2^32, the end of a stream of 2^32 bytes (log 9). -/
def streamPos (s : State) : Nat := if s.fpos = 0 then 2 ^ 32 else s.fpos.toNat

/-- What stands at a record boundary (45 R248). -/
inductive RecordKind where
  | ended | bad | frame | audio
deriving DecidableEq, Repr

/-- The kind a magic names. -/
def magicKind (m : List Byte) : RecordKind :=
  if m = magicAgfc then .frame else if m = magicAgac then .audio else .bad

/-- `RecordAt(a)` (45 R248). -/
def recordAt (a : Nat) (s : State) : Run RecordKind :=
  if streamLen s ≤ a then .done .ended s
  else if streamLen s < a + 4 then .done .bad s
  else (memRead a 4 s).bind fun m s => .done (magicKind m) s

/-- The fields a chunk's bytes decode to, for a frame chunk. -/
def decodeAgfc (bytes : List Byte) : Option AgfcFields :=
  match decode .chunk bytes with
  | .ok (.agfc f, _) => some f
  | _ => none

/-- The fields a chunk's bytes decode to, for an audio chunk. -/
def decodeAgac (bytes : List Byte) : Option AgacFields :=
  match decode .chunk bytes with
  | .ok (.agac f, _) => some f
  | _ => none

/-- The 18-byte header of the frame chunk at `a`; `none` when it runs past the end (45 R250, R247). -/
def frameHeader (a : Nat) (s : State) : Run (Option AgfcFields) :=
  if streamLen s < a + 18 then .done none s
  else (memRead (a + 4) 14 s).bind fun h s => .done (decodeAgfc (magicAgfc ++ h)) s

/-- The 12-byte header of the audio chunk at `a`; `none` when it runs past the end (45 R251, R247). -/
def audioHeader (a : Nat) (s : State) : Run (Option AgacFields) :=
  if streamLen s < a + 12 then .done none s
  else (memRead (a + 4) 8 s).bind fun h s => .done (decodeAgac (magicAgac ++ h)) s

/-- The frame chunk's payload lies inside the stream (45 R250). -/
def frameFits (a : Nat) (f : AgfcFields) (s : State) : Bool := decide (a + 18 + f.csize.toNat ≤ streamLen s)

/-- The audio chunk's payload lies inside the stream (45 R251). -/
def audioFits (a : Nat) (f : AgacFields) (s : State) : Bool := decide (a + 12 + f.csize.toNat ≤ streamLen s)

/-- `ReadFrameChunk(a)` once the header is read (45 R250): `LAST_*`, then the two checks. -/
def frameChecks (a : Nat) (f : AgfcFields) (s : State) : Run FrameType :=
  match frameTypeOf f.ftype.toNat with
  | none => .raised (corruptAt a) { s with last := f }
  | some ftype =>
    if frameFits a f s then .done ftype { s with last := f } else .raised (corruptAt a) { s with last := f }

/-- `LoadPayload(p, csize)` (45 R252). -/
def loadPayload (p n : Nat) (s : State) : Run Unit :=
  if n = 0 then .done () (fillCb [] s) else (memRead p n s).bind fun bytes s => .done () (fillCb bytes s)

/-- A chunk too big for a buffer (60 R311). -/
def chunkTooBig (a : Nat) : Raise := ⟨.memoryAllocationFailure, unitContainer, a⟩

/-! ## Frame chunks -/

/-- `FrameStep` from its frame chunk at `a` on (46 R280). -/
def frameBody (a : Nat) (f : AgfcFields) (s : State) : Run Unit :=
  (frameChecks a f s).bind fun ftype s =>
  (check (decide (f.usize.toNat ≤ s.par.bsCap) && decide (f.csize.toNat ≤ s.par.cbCap)) (chunkTooBig a) s).bind fun _ s =>
  (loadPayload (a + 18) f.csize.toNat s).bind fun _ s =>
  (unpackInto (cbBytes s) f.usize.toNat s).bind fun out s =>
  (decodeFrame ftype f.usize.toNat (fillBs out s)).bind fun _ s =>
    .done () { commit ftype s with
      fpos := BitVec.ofNat 32 (a + 18 + f.csize.toNat)
      frameCtr := saturate (s.frameCtr.toNat + 1) }

/-- The loop of `FrameStep` over audio chunks, passed over unread, to the frame chunk (46 R280); `fuel` bounds it by the
stream's length. -/
def findFrame : Nat → Nat → State → Run (Nat × AgfcFields)
  | 0, a, s => .raised (corruptAt a) s
  | fuel + 1, a, s =>
    (recordAt a s).bind fun kind s =>
    match kind with
    | .ended | .bad => .raised (corruptAt a) s
    | .audio =>
      (audioHeader a s).bind fun f s =>
      match f with
      | none => .raised (corruptAt a) s
      | some f => if audioFits a f s then findFrame fuel (a + 12 + f.csize.toNat) s else .raised (corruptAt a) s
    | .frame =>
      (frameHeader a s).bind fun f s =>
      match f with
      | none => .raised (corruptAt a) s
      | some f => .done (a, f) s

/-- `FrameStep` (46 R280). -/
def frameStep (s : State) : Run Unit :=
  (findFrame (streamLen s + 1) (streamPos s) s).bind fun r s => frameBody r.1 r.2 s

/-- The results of `NEXT_FRAME` after a frame (46 R281). -/
def frameResults (s : State) : State :=
  setRes3 s.last.csize.toNat (setRes2 s.last.usize.toNat (setRes1 s.last.ftype.toNat (setRes0 1 s)))

/-- `NEXT_FRAME` (46 R281). -/
def nextFrameOp (s : State) : Run Unit :=
  if s.hdr.frameCount.toNat ≤ s.frameCtr.toNat then .done () (setRes0 0 s)
  else (frameStep s).bind fun _ s => .done () (frameResults s)

/-- `NEXT_FRAME` (46 R281, code 0x11). -/
def execNextFrame (s : State) : Host.Outcome State Fault Refusal := runCommand 0x11 admitDecOpen .streaming nextFrameOp s

/-! ## Audio chunks -/

/-- `NEXT_AUDIO` from its chunk at `FPOS` on (46 R282). -/
def audioBody (f : AgacFields) (s : State) : Run Unit :=
  let a := streamPos s
  (check (audioFits a f s) (corruptAt a) s).bind fun _ s =>
  (check (decide (f.size.toNat ≤ s.par.abCap) && decide (f.csize.toNat ≤ s.par.cbCap)) (chunkTooBig a) s).bind fun _ s =>
  (loadPayload (a + 12) f.csize.toNat s).bind fun _ s =>
  (unpackInto (cbBytes s) f.size.toNat s).bind fun out s =>
    .done () (setRes2 f.csize.toNat (setRes1 f.size.toNat (setRes0 1 { fillAb out s with
      fpos := BitVec.ofNat 32 (a + 12 + f.csize.toNat)
      status := { s.status with avalid := true } })))

/-- `STATUS.AVALID <- 0`. -/
def clearAvalid (s : State) : State := { s with status := { s.status with avalid := false } }

/-- `NEXT_AUDIO` (46 R282). -/
def nextAudioOp (s : State) : Run Unit :=
  (recordAt (streamPos s) (clearAvalid s)).bind fun kind s =>
  match kind with
  | .bad => .raised (corruptAt (streamPos s)) s
  | .frame | .ended => .done () (setRes0 0 s)
  | .audio =>
    (audioHeader (streamPos s) s).bind fun f s =>
    match f with
    | none => .raised (corruptAt (streamPos s)) s
    | some f => audioBody f s

/-- `NEXT_AUDIO` (46 R282, code 0x12). -/
def execNextAudio (s : State) : Host.Outcome State Fault Refusal := runCommand 0x12 admitDecOpen .audio nextAudioOp s

/-! ## The header -/

/-- Checks 4 to 9 of the header (45 R244): the first that fails, with its `ERRINFO`. -/
def headerFault (par : Params) (f : HdrFields) : Option (ErrorKind × Nat) :=
  if f.format.toNat < 1 ∨ 4 < f.format.toNat then some (.unsupportedFormat, 16)
  else if f.version.extractLsb' 4 4 ≠ 0 then some (.unsupportedFormat, 17)
  else if f.width = 0 ∨ f.width.toNat % blockWidth f.version ≠ 0 then some (.invalidHeader, 8)
  else if f.height = 0 ∨ f.height.toNat % blockHeight f.version ≠ 0 then some (.invalidHeader, 12)
  else if f.asize ≠ 0 ∧ f.bps ≠ 8 ∧ f.bps ≠ 16 then some (.invalidHeader, 36)
  else if par.fbCap < f.width.toNat * f.height.toNat then some (.memoryAllocationFailure, 8)
  else none

/-- Colours of consecutive `R G B` bytes (30 R93). -/
def coloursOfBytes : List Byte → List Colour
  | r :: g :: b :: rest => ⟨r, g, b⟩ :: coloursOfBytes rest
  | _ => []

/-- `ME_RANGE` from the block size (10 R35). -/
def searchRange (version : Byte) : BitVec 7 := if blockSizeCode version = 3 then 32 else 7

/-- Allocation for a session with this header (20 R64) and what `OPEN` and `ENC_SETUP` clear alike (46 R275, R295). -/
def allocate (f : HdrFields) (s : State) : State :=
  { s with
    hdr := f
    status := { clearFrameStatus s.status with alloc := true }
    src := []
    cur := []
    prev := filled (framePixels f) Colour.black
    key := filled (framePixels f) Colour.black
    bs := []
    cb := []
    ab := []
    bslen := 0
    cblen := 0
    ablen := 0
    bspos := 0
    blk := 0
    pred := predZero
    last := lastReset
    ot := []
    frameCtr := 0
    cfg := { s.cfg with meRange := searchRange f.version }
    epoch := s.epoch + 1 }

/-- The palettes of a header: those it carries, black for those it does not (45 R245). -/
def loadPalettes (ntab : Nat) (cs : List Colour) (s : State) : State :=
  { s with
    pal0 := if 1 ≤ ntab then Memory.ofList 0 (cs.take 256) else filled 256 Colour.black
    pal1 := if ntab = 2 then Memory.ofList 0 (cs.drop 256) else filled 256 Colour.black }

/-- `ScanChunks` (45 R247) from record `a`, frame `idx`; `fuel` bounds it by the stream's length. -/
def scanChunks : Nat → Nat → Nat → State → Run Unit
  | 0, _, _, s => .done () s
  | fuel + 1, a, idx, s =>
    if s.hdr.frameCount.toNat ≤ idx then .done () s
    else
      (recordAt a s).bind fun kind s =>
      match kind with
      | .ended | .bad => .done () s
      | .audio =>
        (audioHeader a s).bind fun f s =>
        match f with
        | none => .done () s
        | some f => if audioFits a f s then scanChunks fuel (a + 12 + f.csize.toNat) idx s else .done () s
      | .frame =>
        (frameHeader a s).bind fun f s =>
        match f with
        | none => .done () s
        | some f =>
          match frameTypeOf f.ftype.toNat with
          | none => .done () s
          | some ftype =>
            if frameFits a f s then
              match ftype with
              | .inter => scanChunks fuel (a + 18 + f.csize.toNat) (idx + 1) s
              | .intra =>
                if s.par.otCap ≤ s.ot.length then .raised (chunkTooBig a) s
                else
                  scanChunks fuel (a + 18 + f.csize.toNat) (idx + 1)
                    { s with ot := s.ot ++ [⟨BitVec.ofNat 32 a, BitVec.ofNat 32 idx⟩] }
            else .done () s

/-- The palette bytes of the header (log 14). -/
def readPalettes (ntab : Nat) (s : State) : Run (List Byte) :=
  if ntab = 0 then .done [] s else memRead 38 (768 * ntab) s

/-- The last step of `OPEN` (46 R275). -/
def openDone (f : HdrFields) (s : State) : State :=
  setRes1 (blockCount f) (setRes0 s.ot.length { s with
    fpos := BitVec.ofNat 32 (headerLength f.version)
    firstChunk := BitVec.ofNat 32 (headerLength f.version)
    session := .decOpen })

/-- `OPEN` from its header's fields on: checks 4 to 10 (45 R244), the effect (R245), the scan (R247), the session. -/
def openBody (f : HdrFields) (s : State) : Run Unit :=
  match headerFault s.par f with
  | some (kind, info) => .raised ⟨kind, unitContainer, info⟩ s
  | none =>
    (check (decide (headerLength f.version ≤ streamLen s)) ⟨.invalidHeader, unitContainer, 38⟩ s).bind fun _ s =>
    (readPalettes (paletteTables f.version) s).bind fun bytes s =>
    (scanChunks (streamLen s + 1) (headerLength f.version) 0
      (loadPalettes (paletteTables f.version) (coloursOfBytes bytes) (allocate f s))).bind fun _ s =>
    .done () (openDone f s)

/-- Checks 1 to 3 of the header and its fixed bytes (45 R244, log 14). -/
def headerBytes (s : State) : Run (List Byte) :=
  if s.plat.srcPresent = false then .raised ⟨.fileNotFound, unitContainer, 0⟩ s
  else if streamLen s < 4 then .raised ⟨.invalidHeader, unitContainer, 0⟩ s
  else
    (memRead 0 4 s).bind fun m s =>
    if m ≠ magicAgmv then .raised ⟨.invalidHeader, unitContainer, 0⟩ s
    else if streamLen s < 38 then .raised ⟨.invalidHeader, unitContainer, 4⟩ s
    else (memRead 4 34 s).bind fun h s => .done (magicAgmv ++ h) s

/-- `OPEN` (46 R275). -/
def openOp (s : State) : Run Unit :=
  (headerBytes s).bind fun bytes s =>
  match decode .header bytes with
  | .ok (.hdr f, _) => openBody f s
  | _ => .raised ⟨.invalidHeader, unitContainer, 0⟩ s

/-- `OPEN` (46 R275, code 0x10). -/
def execOpenStream (s : State) : Host.Outcome State Fault Refusal := runCommand 0x10 admitClosed .opening openOp s

/-- `CLOSE` (46 R276, code 0x17). -/
def execClose (s : State) : Host.Outcome State Fault Refusal :=
  runCommand 0x17 admitDecode .plain (fun s => .done () (closeSession s)) s

/-! ## Positioning -/

/-- `RESET_VIDEO` (46 R283, code 0x13). -/
def execResetVideo (s : State) : Host.Outcome State Fault Refusal :=
  runCommand 0x13 admitDecode .plain (fun s => .done () { rewind s with session := .decOpen }) s

/-- The bytewise probes of `Resync(a)` (45 R253) from `p`. -/
def resyncFrom (a : Nat) : Nat → Nat → State → Run Nat
  | 0, _, s => .raised (corruptAt a) s
  | fuel + 1, p, s =>
    if streamLen s < p + 4 then .raised (corruptAt a) s
    else
      (memRead p 4 s).bind fun m s =>
      match magicKind m with
      | .frame | .audio => .done p s
      | .ended | .bad => resyncFrom a fuel (p + 1) s

/-- `Resync(a)` (45 R253). -/
def resync (a : Nat) (s : State) : Run Nat := resyncFrom a (streamLen s) (a + 1) s

/-- The loop of `SKIP_FWD` (46 R284) at record `a`, frame `c`; `fuel` bounds it by the stream's length, since each turn moves
`a` forward. -/
def skipFrames (target : Nat) : Nat → Nat → Nat → State → Run (Nat × Nat)
  | 0, a, _, s => .raised (corruptAt a) s
  | fuel + 1, a, c, s =>
    if target ≤ c then .done (a, c) s
    else
      (recordAt a s).bind fun kind s =>
      match kind with
      | .ended => .raised (corruptAt a) s
      | .bad => (resync a s).bind fun a s => skipFrames target fuel a c s
      | .audio =>
        (audioHeader a s).bind fun f s =>
        match f with
        | none => (resync a s).bind fun a s => skipFrames target fuel a c s
        | some f =>
          if audioFits a f s then skipFrames target fuel (a + 12 + f.csize.toNat) c s
          else (resync a s).bind fun a s => skipFrames target fuel a c s
      | .frame =>
        (frameHeader a s).bind fun f s =>
        match f with
        | none => (resync a s).bind fun a s => skipFrames target fuel a c s
        | some f =>
          match frameChecks a f s with
          | .raised _ s => (resync a s).bind fun a s => skipFrames target fuel a c s
          | .done _ s => skipFrames target fuel (a + 18 + f.csize.toNat) (c + 1) s

/-- `SKIP_FWD` (46 R284). -/
def skipFwdOp (s : State) : Run Unit :=
  let start := s.frameCtr.toNat
  (skipFrames (min (start + argNat s 0) s.hdr.frameCount.toNat) (streamLen s + 2) (streamPos s) start s).bind fun r s =>
    .done () (setRes0 (r.2 - start) { s with
      fpos := BitVec.ofNat 32 r.1
      frameCtr := BitVec.ofNat 32 r.2
      status := { s.status with avalid := false, stale := s.status.stale || decide (start < r.2) } })

/-- `SKIP_FWD` (46 R284, code 0x14). -/
def execSkipFwd (s : State) : Host.Outcome State Fault Refusal := runCommand 0x14 admitDecOpen .streaming skipFwdOp s

/-- The start of `SeekAndDecode(t)` (46 R286): at the table's entry, or rewound. -/
def seekTo (t : Nat) (s : State) : State :=
  match otFind t s.ot with
  | none => rewind s
  | some e =>
    { s with
      fpos := e.off
      frameCtr := e.fidx
      status := { s.status with avalid := false, stale := true } }

/-- `while FRAME_CTR <= t: FrameStep()` (46 R286); every step adds one to `FRAME_CTR`, so `t + 1` turns are enough. -/
def decodeThrough (t : Nat) : Nat → State → Run Unit
  | 0, s => .done () s
  | fuel + 1, s =>
    if s.frameCtr.toNat ≤ t then (frameStep s).bind fun _ s => decodeThrough t fuel s else .done () s

/-- `SeekAndDecode(t)` (46 R286). -/
def seekAndDecode (t : Nat) (s : State) : Run Unit := decodeThrough t (t + 1) (seekTo t s)

/-- `SKIP_BACK` (46 R285). -/
def skipBackOp (s : State) : Run Unit :=
  if s.frameCtr.toNat ≤ argNat s 0 then .done () (setRes0 0 (rewind s))
  else
    match otFind (s.frameCtr.toNat - argNat s 0 - 1) s.ot with
    | none => .done () (setRes0 0 (rewind s))
    | some _ =>
      (seekAndDecode (s.frameCtr.toNat - argNat s 0 - 1) s).bind fun _ s => .done () (setRes0 s.frameCtr.toNat s)

/-- `SKIP_BACK` (46 R285, code 0x15). -/
def execSkipBack (s : State) : Host.Outcome State Fault Refusal := runCommand 0x15 admitDecOpen .streaming skipBackOp s

/-- `SKIP_TO` (46 R286); with no frame at all it only clears `AVALID`, as every skip does (10 R23, log 18). -/
def skipToOp (s : State) : Run Unit :=
  if s.hdr.frameCount = 0 then .done () (setRes0 0 (clearAvalid s))
  else
    (seekAndDecode (min (argNat s 0) (s.hdr.frameCount.toNat - 1)) s).bind fun _ s => .done () (setRes0 s.frameCtr.toNat s)

/-- `SKIP_TO` (46 R286, code 0x16). -/
def execSkipTo (s : State) : Host.Outcome State Fault Refusal := runCommand 0x16 admitDecOpen .streaming skipToOp s

/-! ## One record by itself (log 3) -/

/-- The end of the command that reads the record. -/
def endRecordRun (cls : RaiseClass) (s : State) (r : Run Unit) : Host.Outcome State Fault Refusal :=
  .next { finish cls s r with act := .idle }

/-- `HDR` (45 R244, R245): the header's effect, in `OPEN`. -/
def execHdr (f : HdrFields) (s : State) : Host.Outcome State Fault Refusal :=
  match s.act with
  | .container .header => endRecordRun .opening s (openBody f s)
  | .container (.frame _) | .container .audio | .idle | .frame _ | .lzss _ => .refused .notFetched

/-- `AGFC` (45 R250, 46 R280, R281): the frame chunk, in `NEXT_FRAME`. -/
def execAgfc (f : AgfcFields) (s : State) : Host.Outcome State Fault Refusal :=
  match s.act with
  | .container (.frame a) =>
    endRecordRun .streaming s ((frameBody a f s).bind fun _ s => .done () (frameResults s))
  | .container .header | .container .audio | .idle | .frame _ | .lzss _ => .refused .notFetched

/-- `AGAC` (45 R251): passed over in `NEXT_FRAME` (46 R280), decoded in `NEXT_AUDIO` (46 R282). -/
def execAgac (f : AgacFields) (s : State) : Host.Outcome State Fault Refusal :=
  match s.act with
  | .container (.frame a) =>
    if audioFits a f s then .next { s with act := .container (.frame (a + 12 + f.csize.toNat)) }
    else endRecordRun .streaming s (.raised (corruptAt a) s)
  | .container .audio => endRecordRun .audio s (audioBody f s)
  | .container .header | .idle | .frame _ | .lzss _ => .refused .notFetched

/-- The outcome of fetching a record: go on with the instruction, or end the command with what the fetch met. -/
def runFetched (cls : RaiseClass) (s : State) (r : Run Instr) (run : Instr → State → Host.Outcome State Fault Refusal) :
    Host.Outcome State Fault Refusal :=
  match r with
  | .done i s => run i s
  | .raised e t => endRecordRun cls s (.raised e t)

/-- Fetch the header record (45 R244 checks 1 to 3). -/
def fetchHeader (s : State) : Run Instr :=
  (headerBytes s).bind fun bytes s =>
  match decode .header bytes with
  | .ok (i, _) => .done i s
  | .error _ => .raised ⟨.invalidHeader, unitContainer, 0⟩ s

/-- Fetch the chunk at `a` for `NEXT_FRAME` (46 R280). -/
def fetchChunk (a : Nat) (s : State) : Run Instr :=
  (recordAt a s).bind fun kind s =>
  match kind with
  | .ended | .bad => .raised (corruptAt a) s
  | .audio =>
    (audioHeader a s).bind fun f s =>
    match f with
    | none => .raised (corruptAt a) s
    | some f => .done (.agac f) s
  | .frame =>
    (frameHeader a s).bind fun f s =>
    match f with
    | none => .raised (corruptAt a) s
    | some f => .done (.agfc f) s

/-- Fetch and run the next record. `NEXT_AUDIO` ends without a record where no audio chunk stands (46 R282). `run` is exec. -/
def recordRunStep (run : Instr → State → Host.Outcome State Fault Refusal) (r : RecordRun) (s : State) :
    Host.Outcome State Fault Refusal :=
  match r with
  | .header => runFetched .opening s (fetchHeader s) run
  | .frame a => runFetched .streaming s (fetchChunk a s) run
  | .audio =>
    match recordAt (streamPos s) (clearAvalid s) with
    | .raised e t => endRecordRun .audio s (.raised e t)
    | .done .bad t => endRecordRun .audio s (.raised (corruptAt (streamPos s)) t)
    | .done .ended t | .done .frame t => endRecordRun .audio s (.done () (setRes0 0 t))
    | .done .audio t =>
      match audioHeader (streamPos s) t with
      | .raised e t => endRecordRun .audio s (.raised e t)
      | .done none t => endRecordRun .audio s (.raised (corruptAt (streamPos s)) t)
      | .done (some f) t => run (.agac f) t

end Sys2Proof.Machine
end

