-- ==== Sys2Proof/Machine/Encode.lean ====
section
/-! DEFINITION. container_parser, writing (45 R257 to R260), and the encode session's commands (46 R295 to R299): `ENC_SETUP`,
`ENC_OPEN`, `ENC_FRAME`, `ENC_AUDIO`, `ENC_CLOSE`. -/

namespace Sys2Proof.Machine

/-- The checks of `ENC_SETUP` (46 R295, 60 R311): the sink, then checks 4 to 9 of the header on the registers. -/
def setupFault (s : State) : Option Raise :=
  if s.plat.snkPresent = false then some ⟨.fileNotFound, unitOther, 0⟩
  else
    match headerFault s.par s.hdr with
    | some (kind, info) => some ⟨kind, unitOther, info⟩
    | none => none

/-- The effects of `ENC_SETUP` once its checks passed (46 R295). -/
def setupSession (s : State) : State :=
  setRes0 (blockCount s.hdr) { allocate s.hdr s with
    pal0 := filled 256 Colour.black
    pal1 := filled 256 Colour.black
    hist := Hist.empty
    out := []
    outlen := 0
    fpos := 0
    firstChunk := 0
    session := .encSetup }

/-- `ENC_SETUP` (46 R295). -/
def encSetupOp (s : State) : Run Unit :=
  match setupFault s with
  | some e => .raised e s
  | none => .done () (setupSession s)

/-- `ENC_SETUP` (46 R295, code 0x40). -/
def execEncSetup (s : State) : Host.Outcome State Fault Refusal := runCommand 0x40 admitClosed .opening encSetupOp s

/-- A palette's 768 bytes, entry `i` as `r, g, b` (45 R257). -/
def paletteBytes (s : State) (second : Bool) : List Byte :=
  (List.range 256).flatMap fun i => [(paletteAt s second i).r, (paletteAt s second i).g, (paletteAt s second i).b]

/-- The header's bytes: the eleven registers and the palettes the profile carries (45 R257, 30 R93). -/
def headerImage (s : State) : List Byte :=
  encode (.hdr s.hdr) ++ (if 1 ≤ paletteTables s.hdr.version then paletteBytes s false else []) ++
    (if paletteTables s.hdr.version = 2 then paletteBytes s true else [])

/-- `ENC_OPEN` (46 R296): `WriteHeader`, then `FIRST_CHUNK` and the session. -/
def encOpenOp (s : State) : Run Unit :=
  (appendOut (headerImage s) s).bind fun _ s =>
    .done () (setRes0 (headerLength s.hdr.version) { s with
      firstChunk := BitVec.ofNat 32 (headerLength s.hdr.version)
      session := .encOpen })

/-- `ENC_OPEN` (46 R296, code 0x41). -/
def execEncOpen (s : State) : Host.Outcome State Fault Refusal := runCommand 0x41 admitSetup .encOutput encOpenOp s

/-- The header of the frame chunk being written (45 R258). -/
def chunkFields (ftype : FrameType) (s : State) : AgfcFields := ⟨s.frameCtr, (frameTypeCode ftype), s.bslen, s.cblen⟩

/-- `WriteFrameChunk(ftype)` (45 R258): one append, then `LAST_*`. The payload is counted exactly, so that one too long for `OUT`
is `IOError` and none is cut (47 R301). -/
def writeFrameChunk (ftype : FrameType) (payload : List Byte) (s : State) : Run Unit :=
  (appendOut (encode (.agfc (chunkFields ftype s)) ++ payload) s).bind fun _ s =>
    .done () { s with last := chunkFields ftype s }

/-- The offset table after a frame written at `off` (46 R297, 45 R256): I-frames are recorded. -/
def recordOffset (ftype : FrameType) (off : Word) (s : State) : State :=
  match ftype with
  | .intra => { s with ot := s.ot ++ [⟨off, s.frameCtr⟩] }
  | .inter => s

/-- What follows a written frame (46 R297): the table entry, the commit, the counter, the results. -/
def frameWritten (ftype : FrameType) (off : Word) (s : State) : State :=
  setRes3 off.toNat (setRes2 s.cblen.toNat (setRes1 s.bslen.toNat (setRes0 (frameTypeCode ftype).toNat
    { commit ftype (recordOffset ftype off s) with frameCtr := s.frameCtr + 1 })))

/-- `ENC_FRAME` of a given type, its checks passed (46 R297): `EncodeFrame`, `Pack`, `WriteFrameChunk`, the records. -/
def writeFrame (ftype : FrameType) (s : State) : Run Unit :=
  let p := packFrame ftype s
  let payload := packPayload s.cfg.compEn p.bytes
  let t := fillCb payload (encodeFrame p s)
  (writeFrameChunk ftype payload t).bind fun _ u => .done () (frameWritten ftype t.outlen u)

/-- `ENC_FRAME` (46 R297). -/
def encFrameOp (s : State) : Run Unit :=
  if s.frameCtr.toNat = 2 ^ 32 - 1 then .raised (illegalCommand 0x42) s
  else if chooseFrameType s = .intra ∧ s.par.otCap ≤ s.ot.length then
    .raised ⟨.memoryAllocationFailure, unitOther, s.frameCtr.toNat⟩ s
  else writeFrame (chooseFrameType s) s

/-- `ENC_FRAME` (46 R297, code 0x42). -/
def execEncFrame (s : State) : Host.Outcome State Fault Refusal := runCommand 0x42 admitEncOpen .encFrame encFrameOp s

/-- `ENC_AUDIO` (46 R298, 45 R259). -/
def encAudioOp (s : State) : Run Unit :=
  let payload := packPayload s.cfg.compEn (abBytes s)
  let t := fillCb payload s
  (appendOut (encode (.agac ⟨t.ablen, t.cblen⟩) ++ payload) t).bind fun _ u =>
    .done () (setRes1 t.outlen.toNat (setRes0 t.cblen.toNat u))

/-- `ENC_AUDIO` (46 R298, code 0x43). -/
def execEncAudio (s : State) : Host.Outcome State Fault Refusal := runCommand 0x43 admitEncOpen .encOutput encAudioOp s

/-- `PatchFrameCount` (45 R260), only in ENC_OPEN. -/
def patchFrameCount (s : State) : Run Unit :=
  if s.session = .encOpen then
    (patchOut 4 (le32Bytes s.frameCtr) s).bind fun _ s =>
      .done () { s with hdr := { s.hdr with frameCount := s.frameCtr } }
  else .done () s

/-- `ENC_CLOSE` (46 R299). -/
def encCloseOp (s : State) : Run Unit :=
  (patchFrameCount s).bind fun _ s =>
    .done () (closeSession (setRes1 s.outlen.toNat (setRes0 s.frameCtr.toNat s)))

/-- `ENC_CLOSE` (46 R299, code 0x44). -/
def execEncClose (s : State) : Host.Outcome State Fault Refusal := runCommand 0x44 admitEncode .encOutput encCloseOp s

end Sys2Proof.Machine
end

