-- ==== Sys2Proof/Machine/System.lean ====
section
/-! DEFINITION. The general commands (46 R272 to R274, 70 R340): `NOP`, `SOFT_RESET`, `LOAD_QUALITY`. -/

namespace Sys2Proof.Machine

/-- `NOP` (46 R272, code 0x00): it completes, so it clears the error. -/
def execNop (s : State) : Host.Outcome State Fault Refusal := runCommand 0x00 admitAlways .plain (fun s => .done () s) s

/-- The reset of the core (70 R340, R341): everything but what belongs to the platform and the host (log 19). -/
def softReset (s : State) : State :=
  { State.reset with
    plat := s.plat
    out := s.out
    io := s.io
    host := s.host
    hostData := s.hostData
    par := s.par
    epoch := s.epoch + 1 }

/-- `SOFT_RESET` (46 R273, code 0x01). -/
def execSoftReset (s : State) : Host.Outcome State Fault Refusal :=
  runCommand 0x01 admitAlways .plain (fun s => .done () (softReset s)) s

/-- `QualityPresets[QUALITY]`; 3 (CUSTOM) has none (42 R163). -/
def qualityPreset (par : Params) (quality : BitVec 2) : Option Preset :=
  match quality.toNat with
  | 0 => some par.high
  | 1 => some par.mid
  | 2 => some par.low
  | _ => none

/-- The registers a preset loads (46 R274). -/
def loadPreset (p : Preset) (c : EncCfg) : EncCfg :=
  { c with
    maxDiff := p.maxDiff
    maxDiff15 := p.maxDiff15
    mvThresh := p.mvThresh
    modeEn := modeEnStored p.modeEn }

/-- `LOAD_QUALITY` (46 R274). -/
def loadQualityOp (s : State) : Run Unit :=
  match qualityPreset s.par s.cfg.quality with
  | some p => .done () { s with cfg := loadPreset p s.cfg }
  | none => .done () s

/-- `LOAD_QUALITY` (46 R274, code 0x02). -/
def execLoadQuality (s : State) : Host.Outcome State Fault Refusal := runCommand 0x02 admitAlways .plain loadQualityOp s

end Sys2Proof.Machine
end

