-- ==== Sys2Proof/Machine/HostRegs.lean ====
section
/-! DEFINITION. What the host does between commands: the register map (10 R20, R45), the window (10 R41, 20 R68), the CMD write
(10 R22) and the reset input (70 R340). -/

namespace Sys2Proof.Machine

/-! ## The window -/

/-- The spaces the session owns (20 R64): `PAL0`, `PAL1`, the frame buffers, the byte buffers, `OT`. -/
def spaceOwned (sel : Nat) : Bool := decide (1 ≤ sel) && decide (sel ≤ 10)

/-- The window reads the space (20 R68): an owned one while `ALLOC = 1`, `OUT` in an encode session; the others read 0. -/
def windowReadable (s : State) : Bool :=
  if spaceOwned s.winSel.toNat then s.status.alloc
  else if s.winSel.toNat = 11 then s.session == .encSetup || s.session == .encOpen
  else true

/-- A pixel of a frame buffer, packed in `FORMAT`; 0 out of range. -/
def windowPixel (s : State) (sp : Space) (m : Memory Colour) (a : Nat) : Word :=
  if a < framePixels s.hdr then packPixel s.hdr.format (colourAt s sp m a) else 0

/-- A palette entry; 0 out of range. -/
def windowPalette (s : State) (second : Bool) (a : Nat) : Word :=
  if a < 256 then wordOfColour (paletteAt s second a) else 0

/-- A byte of a buffer of `n` bytes; 0 out of range. -/
def windowByte (s : State) (sp : Space) (m : ByteMemory) (n a : Nat) : Word :=
  if a < n then (byteAt s sp m a).setWidth 32 else 0

/-- An offset-table word: even addresses `off`, odd `fidx`; 0 out of range. -/
def windowOffset (s : State) (a : Nat) : Word :=
  match s.ot[a / 2]? with
  | some e => if a % 2 = 0 then e.off else e.fidx
  | none => 0

/-- Element `WIN_ADDR` of space `WIN_SEL` (20 R68). -/
def windowElement (s : State) : Word :=
  let a := s.winAddr.toNat
  match s.winSel.toNat with
  | 1 => windowPalette s false a
  | 2 => windowPalette s true a
  | 3 => windowPixel s .src s.src a
  | 4 => windowPixel s .prev s.prev a
  | 5 => windowPixel s .key s.key a
  | 6 => windowPixel s .cur s.cur a
  | 7 => windowByte s .bs s.bs s.par.bsCap a
  | 8 => windowByte s .cb s.cb s.par.cbCap a
  | 9 => windowByte s .ab s.ab s.par.abCap a
  | 10 => windowOffset s a
  | 11 => windowByte s .out s.out s.outlen.toNat a
  | _ => 0

/-- `WIN_ADDR` lies in the range of space `WIN_SEL` (20 R68); spaces 0 and 12 to 15 have none. The frame buffers' range is that
of the header registers as they stand, the offset table's and `OUT`'s that of their counts, in every session state. -/
def windowInRange (s : State) : Bool :=
  let a := s.winAddr.toNat
  match s.winSel.toNat with
  | 1 | 2 => decide (a < 256)
  | 3 | 4 | 5 | 6 => decide (a < framePixels s.hdr)
  | 7 => decide (a < s.par.bsCap)
  | 8 => decide (a < s.par.cbCap)
  | 9 => decide (a < s.par.abCap)
  | 10 => decide (a < 2 * s.ot.length)
  | 11 => decide (a < s.outlen.toNat)
  | _ => false

/-- The spec fixes what a read of `WIN_DATA` returns: the window may read the space, or `WIN_ADDR` is out of range, which reads
0 in every session state (20 R68, 93 U9; 20 R64 says only that unowned contents are unspecified: log 16). -/
def windowSpecified (s : State) : Bool := windowReadable s || !windowInRange s

/-- What a read of `WIN_DATA` returns: the element (0 out of range), or a free word for an element in range of a space that the
window may not read (20 R64, log 16). -/
def windowValue (s : State) : Word := if windowSpecified s then windowElement s else Config.unspecWord s.epoch

/-- `WIN_ADDR` after an access: it wraps modulo 2^32 (10 R41). -/
def windowAdvance (s : State) : State := { s with winAddr := s.winAddr + 1 }

/-- A read of `WIN_DATA`. A free word is drawn once. -/
def windowRead (s : State) : State :=
  { windowAdvance s with
    hostData := (windowValue s).setWidth 33
    epoch := if windowSpecified s then s.epoch else s.epoch + 1 }

/-- The palettes are host-writable in ENC_SETUP only (20 R68). -/
def paletteWritable (s : State) : Bool := s.session == .encSetup && decide (s.winAddr.toNat < 256)

/-- `SRC` is host-writable in an encode session (20 R68). -/
def sourceWritable (s : State) : Bool :=
  (s.session == .encSetup || s.session == .encOpen) && decide (s.winAddr.toNat < framePixels s.hdr)

/-- A byte buffer of `n` bytes is host-writable while `ALLOC = 1` (20 R68). -/
def bufferWritable (s : State) (n : Nat) : Bool := s.status.alloc && decide (s.winAddr.toNat < n)

/-- The host's write of a pixel of `SRC`. -/
def windowSource (v : Word) (s : State) : State :=
  match unpackPixel s.hdr.format v with
  | some c => if sourceWritable s then { s with src := Memory.write s.src s.winAddr.toNat c } else s
  | none => s

/-- What a write of `WIN_DATA` stores (20 R68); where it has no effect the state stays. -/
def windowStore (v : Word) (s : State) : State :=
  let a := s.winAddr.toNat
  match s.winSel.toNat with
  | 1 => if paletteWritable s then { s with pal0 := Memory.write s.pal0 a (colourOfWord v) } else s
  | 2 => if paletteWritable s then { s with pal1 := Memory.write s.pal1 a (colourOfWord v) } else s
  | 3 => windowSource v s
  | 7 => if bufferWritable s s.par.bsCap then { s with bs := Memory.write s.bs a (v.setWidth 8) } else s
  | 8 => if bufferWritable s s.par.cbCap then { s with cb := Memory.write s.cb a (v.setWidth 8) } else s
  | 9 => if bufferWritable s s.par.abCap then { s with ab := Memory.write s.ab a (v.setWidth 8) } else s
  | _ => s

/-- A write of `WIN_DATA` (10 R41). -/
def windowWrite (v : Word) (s : State) : State := windowAdvance (windowStore v s)

/-! ## The register map -/

/-- The value a read of a register returns (10 R20); `WIN_DATA` is read by `windowRead`. Write-only and reserved indices read
0. -/
def registerValue (s : State) (index : Nat) : BitVec 33 :=
  match index with
  | 0x01 => (statusByte s).setWidth 33
  | 0x02 => s.err.setWidth 33
  | 0x03 => s.errInfo.setWidth 33
  | 0x04 => s.arg.x0.setWidth 33
  | 0x05 => s.arg.x1.setWidth 33
  | 0x06 => s.arg.x2.setWidth 33
  | 0x07 => s.arg.x3.setWidth 33
  | 0x08 => s.res.x0.setWidth 33
  | 0x09 => s.res.x1.setWidth 33
  | 0x0A => s.res.x2.setWidth 33
  | 0x0B => s.res.x3.setWidth 33
  | 0x0C => s.session.code.setWidth 33
  | 0x10 => s.hdr.frameCount.setWidth 33
  | 0x11 => s.hdr.width.setWidth 33
  | 0x12 => s.hdr.height.setWidth 33
  | 0x13 => s.hdr.format.setWidth 33
  | 0x14 => s.hdr.version.setWidth 33
  | 0x15 => s.hdr.fps.setWidth 33
  | 0x16 => s.hdr.adur.setWidth 33
  | 0x17 => s.hdr.srate.setWidth 33
  | 0x18 => s.hdr.asize.setWidth 33
  | 0x19 => s.hdr.channels.setWidth 33
  | 0x1A => s.hdr.bps.setWidth 33
  | 0x20 => s.frameCtr.setWidth 33
  | 0x21 => s.fpos.setWidth 33
  | 0x22 => s.firstChunk.setWidth 33
  | 0x23 => s.plat.streamLen
  | 0x24 => s.last.fnum.setWidth 33
  | 0x25 => s.last.ftype.setWidth 33
  | 0x26 => s.last.usize.setWidth 33
  | 0x27 => s.last.csize.setWidth 33
  | 0x28 => (saturate s.ot.length).setWidth 33
  | 0x29 => s.bslen.setWidth 33
  | 0x2A => s.cblen.setWidth 33
  | 0x2B => s.ablen.setWidth 33
  | 0x2C => s.bspos.setWidth 33
  | 0x2D => s.blk.setWidth 33
  | 0x2E => s.pred.setWidth 33
  | 0x2F => s.outlen.setWidth 33
  | 0x30 => s.cfg.maxDiff.setWidth 33
  | 0x31 => s.cfg.maxDiff15.setWidth 33
  | 0x32 => s.cfg.mvThresh.setWidth 33
  | 0x33 => s.cfg.modeEn.setWidth 33
  | 0x34 => s.cfg.quality.setWidth 33
  | 0x35 => s.cfg.keyInterval.setWidth 33
  | 0x36 => (BitVec.ofBool s.cfg.compEn).setWidth 33
  | 0x37 => s.cfg.meStep.setWidth 33
  | 0x38 => s.cfg.meRange.setWidth 33
  | 0x39 => s.cfg.distRatio.setWidth 33
  | 0x3A => (s.hist.total.extractLsb' 0 32).setWidth 33
  | 0x3B => (s.hist.total.extractLsb' 32 32).setWidth 33
  | 0x3C => s.hist.distinct.setWidth 33
  | 0x40 => s.winSel.setWidth 33
  | 0x41 => s.winAddr.setWidth 33
  | _ => 0

/-- A host read (10 R20): the value goes to `hostData` (log 2). Only `WIN_DATA` has a side effect. -/
def readRegister (index : Nat) (s : State) : State :=
  if index = 0x42 then windowRead s else { s with hostData := registerValue s index }

/-- A length as stored: at most the buffer's capacity (10 R42). -/
def lengthStored (v : Word) (n : Nat) : Word := BitVec.ofNat 32 (min v.toNat n)

/-- A write of a header image register (10 R30). -/
def writeHeader (index : Nat) (v : Word) (h : HdrFields) : HdrFields :=
  match index with
  | 0x10 => { h with frameCount := v }
  | 0x11 => { h with width := v }
  | 0x12 => { h with height := v }
  | 0x13 => { h with format := v.setWidth 8 }
  | 0x14 => { h with version := v.setWidth 8 }
  | 0x15 => { h with fps := v }
  | 0x16 => { h with adur := v }
  | 0x17 => { h with srate := v }
  | 0x18 => { h with asize := v }
  | 0x19 => { h with channels := v.setWidth 16 }
  | 0x1A => { h with bps := v.setWidth 16 }
  | _ => h

/-- A write of a configuration register (10 R34 to R36). -/
def writeConfig (index : Nat) (v : Word) (c : EncCfg) : EncCfg :=
  match index with
  | 0x30 => { c with maxDiff := v.setWidth 8 }
  | 0x31 => { c with maxDiff15 := v.setWidth 8 }
  | 0x32 => { c with mvThresh := v.setWidth 16 }
  | 0x33 => { c with modeEn := modeEnStored (v.setWidth 10) }
  | 0x34 => { c with quality := v.setWidth 2 }
  | 0x35 => { c with keyInterval := v }
  | 0x36 => { c with compEn := v.getLsbD 0 }
  | 0x37 => { c with meStep := v.setWidth 8 }
  | 0x38 => { c with meRange := v.setWidth 7 }
  | 0x39 => { c with distRatio := distRatioStored (v.setWidth 9) }
  | _ => c

/-- A write of a length register (10 R42); bytes at or beyond the new length are unspecified (20 R63, log 11). -/
def writeLength (index : Nat) (v : Word) (s : State) : State :=
  match index with
  | 0x29 =>
    { s with
      bslen := lengthStored v s.par.bsCap
      bs := Memory.below s.bs (lengthStored v s.par.bsCap).toNat
      epoch := s.epoch + 1 }
  | 0x2A =>
    { s with
      cblen := lengthStored v s.par.cbCap
      cb := Memory.below s.cb (lengthStored v s.par.cbCap).toNat
      epoch := s.epoch + 1 }
  | 0x2B =>
    { s with
      ablen := lengthStored v s.par.abCap
      ab := Memory.below s.ab (lengthStored v s.par.abCap).toNat
      epoch := s.epoch + 1 }
  | _ => s

/-- A host write of a register other than `CMD` (10 R20, R45): read-only and reserved indices ignore it. -/
def writeRegister (index : Nat) (v : Word) (s : State) : State :=
  match index with
  | 0x04 => { s with arg := { s.arg with x0 := v } }
  | 0x05 => { s with arg := { s.arg with x1 := v } }
  | 0x06 => { s with arg := { s.arg with x2 := v } }
  | 0x07 => { s with arg := { s.arg with x3 := v } }
  | 0x40 => { s with winSel := v.setWidth 4 }
  | 0x41 => { s with winAddr := v }
  | 0x42 => windowWrite v s
  | _ =>
    if 0x10 ≤ index ∧ index ≤ 0x1A then
      if s.session = .closed then { s with hdr := writeHeader index v s.hdr } else s
    else if 0x29 ≤ index ∧ index ≤ 0x2B then writeLength index v s
    else if 0x30 ≤ index ∧ index ≤ 0x39 then { s with cfg := writeConfig index v s.cfg }
    else s

/-! ## The host's accesses -/

/-- The CMD write (10 R22, 46 R270): bits 7:0 name the command, an unknown one is `IllegalCommand` (60 R313). `run` is exec. -/
def issueCommand (run : Instr → State → Host.Outcome State Fault Refusal) (v : Word) (s : State) :
    Host.Outcome State Fault Refusal :=
  match decode .command [v.setWidth 8] with
  | .ok (i, _) => run i s
  | .error _ => .next (takeError .plain s s (illegalCommand (v.setWidth 8).toNat))

/-- One access of the host. `run` is exec. No access changes the platform's inputs: a run keeps one platform (log 5). -/
def hostStep (run : Instr → State → Host.Outcome State Fault Refusal) (access : HostAccess) (s : State) :
    Host.Outcome State Fault Refusal :=
  match access with
  | .write index v => if index = 0 then issueCommand run v s else .next (writeRegister index v s)
  | .read index => .next (readRegister index s)
  | .resetPin => .next (softReset s)

end Sys2Proof.Machine
end

