-- ==== Sys2Proof/Machine/Dispatch.lean ====
section
/-! DEFINITION. One arm per instruction, each a call of its meaning. -/

namespace Sys2Proof.Machine

def exec (i : Instr) (s : State) : Host.Outcome State Fault Refusal :=
  match i with
  | .nop => Sys2Proof.Machine.execNop s
  | .softReset => Sys2Proof.Machine.execSoftReset s
  | .loadQuality => Sys2Proof.Machine.execLoadQuality s
  | .openStream => Sys2Proof.Machine.execOpenStream s
  | .nextFrame => Sys2Proof.Machine.execNextFrame s
  | .nextAudio => Sys2Proof.Machine.execNextAudio s
  | .resetVideo => Sys2Proof.Machine.execResetVideo s
  | .skipFwd => Sys2Proof.Machine.execSkipFwd s
  | .skipBack => Sys2Proof.Machine.execSkipBack s
  | .skipTo => Sys2Proof.Machine.execSkipTo s
  | .close => Sys2Proof.Machine.execClose s
  | .lzDecompress => Sys2Proof.Machine.execLzDecompress s
  | .lzCompress => Sys2Proof.Machine.execLzCompress s
  | .decodeBs => Sys2Proof.Machine.execDecodeBs s
  | .nearest => Sys2Proof.Machine.execNearest s
  | .histClear => Sys2Proof.Machine.execHistClear s
  | .histAccum => Sys2Proof.Machine.execHistAccum s
  | .selectPalette => Sys2Proof.Machine.execSelectPalette s
  | .tss => Sys2Proof.Machine.execTss s
  | .blockSad => Sys2Proof.Machine.execBlockSad s
  | .encSetup => Sys2Proof.Machine.execEncSetup s
  | .encOpen => Sys2Proof.Machine.execEncOpen s
  | .encFrame => Sys2Proof.Machine.execEncFrame s
  | .encAudio => Sys2Proof.Machine.execEncAudio s
  | .encClose => Sys2Proof.Machine.execEncClose s
  | .fill psel c => Sys2Proof.Machine.execFill psel c s
  | .normal psel cs => Sys2Proof.Machine.execNormal psel cs s
  | .copy => Sys2Proof.Machine.execCopy s
  | .icopy back => Sys2Proof.Machine.execIcopy back s
  | .mv dx dy => Sys2Proof.Machine.execMv dx dy s
  | .pmv ddx ddy => Sys2Proof.Machine.execPmv ddx ddy s
  | .vq2 psel c0 c1 idx => Sys2Proof.Machine.execVq2 psel c0 c1 idx s
  | .vq4 psel c0 c1 c2 c3 idx => Sys2Proof.Machine.execVq4 psel c0 c1 c2 c3 idx s
  | .skip => Sys2Proof.Machine.execSkip s
  | .lit b => Sys2Proof.Machine.execLit b s
  | .ref offset length => Sys2Proof.Machine.execRef offset length s
  | .hdr f => Sys2Proof.Machine.execHdr f s
  | .agfc f => Sys2Proof.Machine.execAgfc f s
  | .agac f => Sys2Proof.Machine.execAgac f s

end Sys2Proof.Machine
end

