-- ==== Sys2Proof/Machine/Step.lean ====
section
/-! DEFINITION. One step, and where a step fetches its next instruction. -/

namespace Sys2Proof.Machine

/-- The machine between commands: it takes the host's next access; with none, nothing happens (60 R320, 70 R342). -/
def idleStep (s : State) : Host.Outcome State Fault Refusal :=
  match s.host with
  | [] => .next s
  | access :: rest => hostStep exec access { s with host := rest }

/-- One step (log 1, log 3): the host's next access, or the next inner instruction of the unit that is running. -/
def step (s : State) : Host.Outcome State Fault Refusal :=
  match s.act with
  | .idle => idleStep s
  | .frame r => frameRunStep exec r s
  | .lzss r => lzRunStep exec r s
  | .container r => recordRunStep exec r s

/-- The stream holds these bytes and is attached; its reads succeed. -/
def withStream (s : State) (bytes : List Byte) : State :=
  { s with plat := { s.plat with stream := Memory.ofList 0 bytes, streamLen := BitVec.ofNat 33 bytes.length, srcPresent := true }
           io := [] }

/-- The bytes stored where the next step fetches an instruction of their language (log 3, log 4). -/
def withFetchBytes (s : State) (lang : Language) (bytes : List Byte) : State :=
  match lang with
  | .command => { s with act := .idle, host := .write 0 (((bytes.headD 0).setWidth 32)) :: s.host }
  | .header => { withStream s bytes with act := .container .header }
  | .chunk => { withStream s bytes with act := .container (.frame 0) }
  | .unit literal =>
    { s with
      cb := Memory.ofList 0 ((if literal then (0x80 : Byte) else 0x00) :: bytes)
      cblen := BitVec.ofNat 32 (bytes.length + 1)
      act := .lzss { n := 15, ipos := 0, opos := 0, flags := 0, k := 8 } }
  | .block ctx =>
    { s with
      bs := Memory.ofList 0 bytes
      bslen := BitVec.ofNat 32 bytes.length
      bspos := 0
      blk := 0
      pred := predZero
      hdr := { s.hdr with
        version := ctx.version
        width := BitVec.ofNat 32 (blockWidth ctx.version)
        height := BitVec.ofNat 32 (blockHeight ctx.version) }
      act := .frame ⟨ctx.ftype, bytes.length⟩ }

/-- The instruction of a table word stored where `step` fetches its next instruction. -/
def State.withFetchWord (s : State) (nbits w : Nat) : State :=
  match tableBytes nbits w with
  | some (lang, bytes) => withFetchBytes s lang bytes
  | none => s

end Sys2Proof.Machine
end

