-- ==== Sys2Proof/Safety.lean ====
section
/-! DEFINITION. The terms claims are stated in: the admission table, the invariants of the machine, well-formed streams. -/

namespace Sys2Proof.Machine

/-! ## Commands -/

/-- A host command (30 R90). -/
def isCommand (i : Instr) : Bool := decide (languageOf ⟨0, .intra⟩ i = .command)

/-- The admission table (46 R271); an inner instruction is no command. -/
def admits (i : Instr) (x : Session) : Bool :=
  match i, x with
  | .nop, _ | .softReset, _ | .loadQuality, _ => true
  | .openStream, .closed | .encSetup, .closed => true
  | .nextFrame, .decOpen | .nextAudio, .decOpen | .skipFwd, .decOpen | .skipBack, .decOpen | .skipTo, .decOpen => true
  | .resetVideo, .decOpen | .resetVideo, .decFault | .close, .decOpen | .close, .decFault => true
  | .lzDecompress, .decOpen | .lzDecompress, .encSetup | .lzDecompress, .encOpen => true
  | .lzCompress, .decOpen | .lzCompress, .encSetup | .lzCompress, .encOpen => true
  | .decodeBs, .decOpen | .decodeBs, .encSetup => true
  | .nearest, .decOpen | .nearest, .encSetup | .nearest, .encOpen => true
  | .histClear, .encSetup | .histAccum, .encSetup | .selectPalette, .encSetup => true
  | .tss, .encSetup | .tss, .encOpen | .blockSad, .encSetup | .blockSad, .encOpen => true
  | .encOpen, .encSetup => true
  | .encFrame, .encOpen | .encAudio, .encOpen => true
  | .encClose, .encSetup | .encClose, .encOpen => true
  | _, _ => false

/-- The state a refused command leaves (60 R313): nothing but the error registers, `ERRF` and the recomputed `VDONE`. -/
def refusedWith (info : Word) (s : State) : State :=
  { s with err := 0x407, errInfo := info, status := { s.status with errf := true, vdone := videoDone s } }

/-! ## Block codes -/

/-- The address of pixel `n` of block `BLK`. -/
def blockAddr (s : State) (n : Nat) : Nat := blockPixelAddr s.hdr (blockX s.hdr s.blk.toNat) (blockY s.hdr s.blk.toNat) n

/-- The sequencer is fetching in `r` and block `BLK` is still to decode. -/
def fetchesBlock (s : State) (r : FrameRun) : Prop := s.act = .frame r ∧ s.blk.toNat < blockCount s.hdr

/-- A colour operand under `PSEL` decodes to `c` (30 R98, 43 R193): the channels of an RGB555 value, five bits each, shifted up by
three, or the entry of `PAL0`, with `PSEL` of `PAL1`. -/
def decodesTo (s : State) (psel : Bool) (op : ColourOp) (c : Colour) : Prop :=
  match op with
  | .rgb555 v =>
    c.r.toNat = v.toNat / 2 ^ 10 % 32 * 8 ∧ c.g.toNat = v.toNat / 2 ^ 5 % 32 * 8 ∧ c.b.toNat = v.toNat % 32 * 8
  | .index i =>
    (psel = false → c = colourAt s .pal0 s.pal0 i.toNat) ∧ (psel = true → c = colourAt s .pal1 s.pal1 i.toNat)

/-- `t` is `s` after a block code of `len` bytes that wrote `px n` to pixel `n` of block `BLK` of `CUR` and nothing else but
`BSPOS`, `BLK` and, where `pred` says so, `PRED`. -/
def blockWritten (s t : State) (len : Nat) (pred : BitVec 16) (px : Nat → Colour) : Prop :=
  t = { s with
    cur := t.cur
    bspos := saturate (s.bspos.toNat + len)
    blk := saturate (s.blk.toNat + 1)
    pred := pred } ∧
  (∀ n < blockPixels s.hdr.version, Memory.read t.cur (blockAddr s n) = some (px n)) ∧
  ∀ a, (∀ n < blockPixels s.hdr.version, a ≠ blockAddr s n) → Memory.read t.cur a = Memory.read s.cur a

/-- `t` is `s` after a block code that raised at block `BLK` (60 R311, R318; 20 R79): no pixel of `PREV`, `KEY` or the palettes
changed, `CUR`, `BS` and `CB` are unspecified, the frame decode is over. -/
def blockRaised (s t : State) (len : Nat) : Prop :=
  t = { s with
    cur := []
    bs := []
    cb := []
    epoch := s.epoch + 1
    bspos := saturate (s.bspos.toNat + len)
    err := 0x304
    errInfo := s.blk
    status := { s.status with errf := true, vdone := videoDone s }
    act := .idle }

/-- A bitstream: well-formed block codes one after another. -/
def bitstream (ctx : BlockCtx) (codes : List Instr) (bytes : List Byte) : Prop :=
  (∀ i ∈ codes, wellFormed ctx i = true ∧ languageOf ctx i = .block ctx) ∧ bytes = codes.flatMap encode

/-- Running block codes one after another from the start of a frame (43 R191). -/
def runCodes (s : State) (codes : List Instr) : BlockResult :=
  codes.foldlM (fun q i => applyBlock s i q) (sequencerStart s)

/-- The bitstream begins with `codes`, which leave the sequencer as `q`, and goes on with `rest` (43 R191). -/
def frameBegins (s : State) (ftype : FrameType) (bits : List Byte) (codes : List Instr) (rest : List Byte) (q : Sequencer) :
    Prop :=
  bitstream (blockCtx s ftype) codes (codes.flatMap encode) ∧ bits = codes.flatMap encode ++ rest ∧ runCodes s codes = .ok q

/-- `DecodeFrame` of the bitstream raises, leaving `BLK`, `BSPOS` and `PRED` so (43 R191, R192, R204): bytes are left over after
`NBLK` codes; no well-formed code stands at the next block (the bytes run out, the tag is refused, a colour has bit 15), where
`BSPOS` has passed what the decoder fetched; or the code there raises. -/
inductive FrameRaises (s : State) (ftype : FrameType) (bits : List Byte) : Nat → Nat → BitVec 16 → Prop where
  | leftOver (codes : List Instr) (rest : List Byte) (q : Sequencer) : frameBegins s ftype bits codes rest q →
      codes.length = blockCount s.hdr → rest ≠ [] →
      FrameRaises s ftype bits (blockCount s.hdr) (codes.flatMap encode).length q.pred
  | refused (codes : List Instr) (rest : List Byte) (q : Sequencer) (used : Nat) : frameBegins s ftype bits codes rest q →
      codes.length < blockCount s.hdr →
      (∀ (i : Instr) (more : List Byte), wellFormed (blockCtx s ftype) i = true →
        languageOf (blockCtx s ftype) i = .block (blockCtx s ftype) → rest ≠ encode i ++ more) →
      (∀ e, decode (.block (blockCtx s ftype)) rest = .error e → used = e.used) →
      FrameRaises s ftype bits codes.length ((codes.flatMap encode).length + used) q.pred
  | raised (codes : List Instr) (i : Instr) (more : List Byte) (q u : Sequencer) :
      frameBegins s ftype bits codes (encode i ++ more) q → codes.length < blockCount s.hdr →
      wellFormed (blockCtx s ftype) i = true → languageOf (blockCtx s ftype) i = .block (blockCtx s ftype) →
      applyBlock s i q = .error u → FrameRaises s ftype bits codes.length u.bspos u.pred

/-! ## Compressed bytes -/

/-- The `l` bytes from `pos` on lie in the input and equal those `off` before them (44 R229). -/
def repeats (inp : List Byte) (pos off l : Nat) : Prop :=
  pos + l ≤ inp.length ∧ ∀ j < l, inp[pos + j]? = inp[pos - off + j]?

/-- An offset the compressor may refer back by (44 R229, `LZ_WINDOW`). -/
def inWindow (pos off : Nat) : Prop := 1 ≤ off ∧ off ≤ pos ∧ off ≤ 4095

/-- The unit the compressor emits at `pos` and the input bytes it covers (44 R228, R229): a reference to the longest match of 3
to 15 bytes, of all such the one of the smallest offset; a literal where no three bytes match. -/
inductive UnitChosen (inp : List Byte) (pos : Nat) : Instr → Nat → Prop where
  | lit (b : Byte) : inp[pos]? = some b → (∀ off, inWindow pos off → ¬ repeats inp pos off 3) → UnitChosen inp pos (.lit b) 1
  | ref (off len : Nat) : inWindow pos off → 3 ≤ len → len ≤ 15 → repeats inp pos off len →
      (∀ o, inWindow pos o → (len < 15 → ¬ repeats inp pos o (len + 1)) ∧ (o < off → ¬ repeats inp pos o len)) →
      UnitChosen inp pos (.ref (BitVec.ofNat 12 off) (BitVec.ofNat 4 len)) len

/-- Units chosen one after another from `pos` to `last` (44 R228). -/
inductive UnitsChosen (inp : List Byte) : Nat → List Instr → Nat → Prop where
  | none (pos : Nat) : UnitsChosen inp pos [] pos
  | more (pos len last : Nat) (u : Instr) (us : List Instr) : pos < inp.length → UnitChosen inp pos u len →
      UnitsChosen inp (pos + len) us last → UnitsChosen inp pos (u :: us) last

/-- `out` is `Compress` of the input from `pos` on (44 R228): groups of eight units, fewer only at the end of the input, each
behind a flag byte whose bits, most significant first, are 1 for a literal and 0 for a reference or no unit. -/
inductive Compressed (inp : List Byte) : Nat → List Byte → Prop where
  | ended (pos : Nat) : inp.length ≤ pos → Compressed inp pos []
  | group (pos last : Nat) (us : List Instr) (flags : Byte) (out : List Byte) : pos < inp.length → UnitsChosen inp pos us last →
      us.length = 8 ∨ (us.length < 8 ∧ last = inp.length) →
      (∀ k < 8, flags.getMsbD k = true ↔ ∃ b, us[k]? = some (.lit b)) → Compressed inp last out →
      Compressed inp pos (flags :: (us.flatMap encode ++ out))

/-! ## Streams -/

/-- The stream holds these bytes from `a` on. -/
def streamHolds (s : State) (a : Nat) (bytes : List Byte) : Prop :=
  a + bytes.length ≤ streamLen s ∧ bytesAt s .stream s.plat.stream a bytes.length = bytes

/-- A frame chunk with a legal type and a payload inside the stream stands at `a` (45 R250). -/
def frameChunkAt (s : State) (a : Nat) (f : AgfcFields) (ftype : FrameType) : Prop :=
  streamHolds s a (encode (.agfc f)) ∧ frameTypeOf f.ftype.toNat = some ftype ∧ frameFits a f s = true

/-- An audio chunk with its payload inside the stream stands at `a` (45 R251). -/
def audioChunkAt (s : State) (a : Nat) (f : AgacFields) : Prop :=
  streamHolds s a (encode (.agac f)) ∧ audioFits a f s = true

/-- Audio chunks one after another lead from record `a` to record `b` (46 R280's loop). -/
inductive AudioChunks (s : State) : Nat → Nat → Prop where
  | here (a : Nat) : AudioChunks s a a
  | audio (a b : Nat) (f : AgacFields) : audioChunkAt s a f → AudioChunks s (a + 12 + f.csize.toNat) b → AudioChunks s a b

/-- No readable chunk stands at `a`: the stream is over, the magic is unknown, or the header is cut short or illegal (45 R247,
R253). -/
def noChunkAt (s : State) (a : Nat) : Prop :=
  (∀ f, ¬ audioChunkAt s a f) ∧ ∀ f ftype, ¬ frameChunkAt s a f ftype

/-- `ScanChunks` (45 R247) from record `a`, its frame chunk number `idx`, of a file of `count` frames: the entries recorded. The
scan ends at the counted frames or where no readable chunk stands; every I-frame passed is recorded, nothing else is. -/
inductive ScanTable (s : State) (count : Nat) : Nat → Nat → List OtEntry → Prop where
  | counted (a idx : Nat) : count ≤ idx → ScanTable s count a idx []
  | stopped (a idx : Nat) : idx < count → noChunkAt s a → ScanTable s count a idx []
  | audio (a idx : Nat) (f : AgacFields) (ot : List OtEntry) : idx < count → audioChunkAt s a f →
      ScanTable s count (a + 12 + f.csize.toNat) idx ot → ScanTable s count a idx ot
  | intra (a idx : Nat) (f : AgfcFields) (ot : List OtEntry) : idx < count → frameChunkAt s a f .intra →
      ScanTable s count (a + 18 + f.csize.toNat) (idx + 1) ot →
      ScanTable s count a idx (⟨BitVec.ofNat 32 a, BitVec.ofNat 32 idx⟩ :: ot)
  | inter (a idx : Nat) (f : AgfcFields) (ot : List OtEntry) : idx < count → frameChunkAt s a f .inter →
      ScanTable s count (a + 18 + f.csize.toNat) (idx + 1) ot → ScanTable s count a idx ot

/-- The offset table of a file with header `f` (45 R247). -/
def fileTable (s : State) (f : HdrFields) (ot : List OtEntry) : Prop :=
  ScanTable s f.frameCount.toNat (headerLength f.version) 0 ot

/-- The colour whose three bytes stand in the stream from `a` on (30 R93). -/
def streamColour (s : State) (a : Nat) : Colour :=
  ⟨byteAt s .stream s.plat.stream a, byteAt s .stream s.plat.stream (a + 1), byteAt s .stream s.plat.stream (a + 2)⟩

/-- One of the chunk magics stands at `a` (45 R253). -/
def magicAt (s : State) (a : Nat) : Prop :=
  a + 4 ≤ streamLen s ∧
  (bytesAt s .stream s.plat.stream a 4 = [0x41, 0x47, 0x46, 0x43] ∨
    bytesAt s .stream s.plat.stream a 4 = [0x41, 0x47, 0x41, 0x43])

/-- `p` is the first place after `a` where a chunk magic stands (45 R253). -/
def nextMagic (s : State) (a p : Nat) : Prop := a < p ∧ magicAt s p ∧ ∀ x, a < x → x < p → ¬ magicAt s x

/-- A damaged record stands at `a`, before the end of the stream: what `SKIP_FWD` resynchronises from (45 R253). -/
def damagedAt (s : State) (a : Nat) : Prop := a < streamLen s ∧ noChunkAt s a

/-- `SKIP_FWD` (46 R284) looking for a further frame reaches record `b` from record `a`, having passed `n` frame chunks: audio
chunks are passed over, and from a damaged record it goes on at the next chunk magic. -/
inductive SkipReaches (s : State) : Nat → Nat → Nat → Prop where
  | here (a : Nat) : SkipReaches s a 0 a
  | frame (a n b : Nat) (f : AgfcFields) (ftype : FrameType) : frameChunkAt s a f ftype →
      SkipReaches s (a + 18 + f.csize.toNat) n b → SkipReaches s a (n + 1) b
  | audio (a n b : Nat) (f : AgacFields) : audioChunkAt s a f →
      SkipReaches s (a + 12 + f.csize.toNat) n b → SkipReaches s a n b
  | damaged (a p n b : Nat) : damagedAt s a → nextMagic s a p → SkipReaches s p n b → SkipReaches s a n b

/-! ## Header checks -/

/-- One row of the table of 45 R244: whether the check fails, the code of its error and `ERRINFO`. -/
structure HeaderCheck where
  fails : Bool
  code  : BitVec 4
  info  : Word
deriving DecidableEq, Repr

/-- The first failing check of a table. -/
def firstFailing (checks : List HeaderCheck) : Option HeaderCheck := checks.find? fun c => c.fails

/-- Checks 4 to 9 (45 R244), on the header's fields alone. -/
def headerChecks (par : Params) (f : HdrFields) : List HeaderCheck :=
  [⟨decide (f.format.toNat = 0 ∨ 5 ≤ f.format.toNat), 5, 16⟩,
    ⟨decide (16 ≤ f.version.toNat), 5, 17⟩,
    ⟨decide (f.width.toNat = 0 ∨ f.width.toNat % blockWidth f.version ≠ 0), 1, 8⟩,
    ⟨decide (f.height.toNat = 0 ∨ f.height.toNat % blockHeight f.version ≠ 0), 1, 12⟩,
    ⟨decide (f.asize.toNat ≠ 0 ∧ f.bps.toNat ≠ 8 ∧ f.bps.toNat ≠ 16), 1, 36⟩,
    ⟨decide (par.fbCap < f.width.toNat * f.height.toNat), 3, 8⟩]

/-- Checks 4 to 10 (45 R244), once the header's fields are read. -/
def fieldChecks (s : State) (f : HdrFields) : List HeaderCheck :=
  headerChecks s.par f ++ [⟨decide (streamLen s < headerLength f.version), 1, 38⟩]

/-- Checks 1 to 10 (45 R244) of a stream whose header's fields are `f`. -/
def openChecks (s : State) (f : HdrFields) : List HeaderCheck :=
  [⟨!s.plat.srcPresent, 2, 0⟩,
    ⟨decide (streamLen s < 4 ∨ bytesAt s .stream s.plat.stream 0 4 ≠ [0x41, 0x47, 0x4D, 0x56]), 1, 0⟩,
    ⟨decide (streamLen s < 38), 1, 4⟩] ++ fieldChecks s f

/-- `s` after a failed check, detected by `unit`: nothing but the error changes (45 R244, 46 R295). -/
def checkRefused (s : State) (unit : BitVec 4) (c : HeaderCheck) : State :=
  { s with
    err := unit ++ (0 : BitVec 4) ++ c.code
    errInfo := c.info
    status := { s.status with errf := true, vdone := videoDone s } }

/-! ## Sessions -/

/-- `t` is `s` with the decode session of header `f` opened (46 R275) and the offset table `ot`; the record run, if one was under
way, is over. -/
def opened (s t : State) (f : HdrFields) (ot : List OtEntry) : Prop :=
  t = complete { s with
    session := .decOpen
    hdr := f
    status := { s.status with alloc := true, fvalid := false, avalid := false, stale := false, lastkey := false }
    fpos := BitVec.ofNat 32 (headerLength f.version)
    firstChunk := BitVec.ofNat 32 (headerLength f.version)
    frameCtr := 0
    last := ⟨0, 0, 0, 0⟩
    bspos := 0
    blk := 0
    pred := 0
    bslen := 0
    cblen := 0
    ablen := 0
    src := []
    cur := []
    bs := []
    cb := []
    ab := []
    prev := t.prev
    key := t.key
    pal0 := t.pal0
    pal1 := t.pal1
    ot := ot
    cfg := { s.cfg with meRange := if blockSizeCode f.version = 3 then 32 else 7 }
    res := { s.res with x0 := saturate ot.length, x1 := saturate (blockCount f) }
    epoch := s.epoch + 1
    act := .idle } ∧
  (∀ a < framePixels f, Memory.read t.prev a = some Colour.black ∧ Memory.read t.key a = some Colour.black) ∧
  ∀ i < 256,
    Memory.read t.pal0 i =
      some (if paletteTables f.version = 0 then Colour.black else streamColour s (38 + 3 * i)) ∧
    Memory.read t.pal1 i =
      some (if paletteTables f.version = 2 then streamColour s (806 + 3 * i) else Colour.black)

/-- `t` is `s` rewound to the first chunk (46 R283), its result registers `res`. -/
def rewound (s t : State) (res : Quad) : Prop :=
  t = complete { s with
    session := .decOpen
    fpos := s.firstChunk
    frameCtr := 0
    prev := t.prev
    key := t.key
    status := { s.status with fvalid := false, avalid := false, stale := false, lastkey := false }
    last := ⟨0, 0, 0, 0⟩
    bspos := 0
    blk := 0
    pred := 0
    bslen := 0
    cblen := 0
    ablen := 0
    bs := []
    cb := []
    ab := []
    res := res
    epoch := s.epoch + 1 } ∧
  ∀ a < framePixels s.hdr, Memory.read t.prev a = some Colour.black ∧ Memory.read t.key a = some Colour.black

/-- `s` with its session ended (46 R276), its result registers `res`. -/
def ended (s : State) (res : Quad) : State :=
  complete { s with
    session := .closed
    status := { s.status with alloc := false, fvalid := false, avalid := false, stale := false, lastkey := false }
    ot := []
    frameCtr := 0
    fpos := 0
    firstChunk := 0
    last := ⟨0, 0, 0, 0⟩
    bslen := 0
    cblen := 0
    ablen := 0
    bspos := 0
    blk := 0
    pred := 0
    src := []
    cur := []
    prev := []
    key := []
    pal0 := []
    pal1 := []
    bs := []
    cb := []
    ab := []
    res := res
    epoch := s.epoch + 1 }

/-- `s` with its session lost to `MemoryAllocationFailure` (60 R318): ended, with the error. -/
def sessionLost (s : State) (err : BitVec 12) (info : Word) : State :=
  { ended s s.res with err := err, errInfo := info, status := { (ended s s.res).status with errf := true } }

/-- The state a decode command's `StreamCorruption` leaves (60 R318), detected in state `v`: what the operation wrote stays, `CUR`,
`BS` and `CB` are unspecified. -/
def streamDamaged (v : State) (err : BitVec 12) (info : Nat) : State :=
  { v with
    session := .decFault
    cur := []
    bs := []
    cb := []
    epoch := v.epoch + 1
    err := err
    errInfo := BitVec.ofNat 32 info
    status := { v.status with errf := true, vdone := decide (v.hdr.frameCount.toNat ≤ v.frameCtr.toNat) } }

/-- `t` is what `NEXT_FRAME` leaves when the legal frame chunk `f` at `a` is too big for its buffers (60 R310), does not expand (44
R231) or holds a bitstream that raises (46 R280, 60 R311, R318). -/
inductive ChunkRaises (s : State) (a : Nat) (f : AgfcFields) (ftype : FrameType) : State → Prop where
  | tooBig : s.par.bsCap < f.usize.toNat ∨ s.par.cbCap < f.csize.toNat →
      ChunkRaises s a f ftype (sessionLost s 0x103 (BitVec.ofNat 32 a))
  | corrupt (opos : Nat) : f.usize.toNat ≤ s.par.bsCap → f.csize.toNat ≤ s.par.cbCap →
      unpackPayload (bytesAt s .stream s.plat.stream (a + 18) f.csize.toNat) f.usize.toNat = .error opos →
      ChunkRaises s a f ftype (streamDamaged { s with last := f, cblen := f.csize, epoch := s.epoch + 1 } 0x204 opos)
  | frame (bits : List Byte) (blk bspos : Nat) (pred : BitVec 16) : f.usize.toNat ≤ s.par.bsCap → f.csize.toNat ≤ s.par.cbCap →
      unpackPayload (bytesAt s .stream s.plat.stream (a + 18) f.csize.toNat) f.usize.toNat = .ok bits →
      FrameRaises (fillBs bits (fillCb (bytesAt s .stream s.plat.stream (a + 18) f.csize.toNat) { s with last := f })) ftype bits
        blk bspos pred →
      ChunkRaises s a f ftype (streamDamaged { s with
        last := f
        cblen := f.csize
        bslen := f.usize
        bspos := BitVec.ofNat 32 bspos
        blk := BitVec.ofNat 32 blk
        pred := pred
        epoch := s.epoch + 2 } 0x304 blk)

/-! ## Motion search -/

/-- The offset of candidate `k` of 0..8 around a centre: rows top to bottom, each left to right, the centre itself 4 (41
R144). -/
def neighbourOffset (c : Candidate) (step k : Nat) : Int × Int :=
  (c.dx + ((k % 3 : Nat) - 1 : Int) * step, c.dy + ((k / 3 : Nat) - 1 : Int) * step)

/-- Candidate `k` is one of the eight neighbours and valid (41 R143). -/
def validNeighbour (s : State) (ox oy : Nat) (c : Candidate) (step k : Nat) : Prop :=
  k < 9 ∧ k ≠ 4 ∧ (neighbourOffset c step k).1.natAbs ≤ s.cfg.meRange.toNat ∧
  (neighbourOffset c step k).2.natAbs ≤ s.cfg.meRange.toNat ∧
  insideFrame s.hdr (ox + (neighbourOffset c step k).1) (oy + (neighbourOffset c step k).2) = true

/-- The cost of candidate `k` (41 R141). -/
def neighbourCost (s : State) (ox oy : Nat) (c : Candidate) (step k : Nat) : Nat :=
  blockSad s ox oy (neighbourOffset c step k).1 (neighbourOffset c step k).2

/-- `d` is where one step of the search moves from centre `c` (41 R144, R146): it stays unless a valid neighbour is strictly
cheaper, and goes to the first of the cheapest. -/
def bestNeighbour (s : State) (ox oy step : Nat) (c d : Candidate) : Prop :=
  (d = c ∧ ∀ k, validNeighbour s ox oy c step k → c.cost ≤ neighbourCost s ox oy c step k) ∨
  ∃ k, validNeighbour s ox oy c step k ∧ neighbourCost s ox oy c step k < c.cost ∧
    (∀ j, validNeighbour s ox oy c step j →
      neighbourCost s ox oy c step k ≤ neighbourCost s ox oy c step j ∧
      (j < k → neighbourCost s ox oy c step k < neighbourCost s ox oy c step j)) ∧
    d = ⟨(neighbourOffset c step k).1, (neighbourOffset c step k).2, neighbourCost s ox oy c step k⟩

/-- The loop of the three-step search (41 R144): one step at each size, the size halved until it is 0. -/
inductive SearchFrom (s : State) (ox oy : Nat) : Nat → Candidate → Candidate → Prop where
  | ended (c : Candidate) : SearchFrom s ox oy 0 c c
  | step (n : Nat) (c d e : Candidate) : 0 < n → bestNeighbour s ox oy n c d → SearchFrom s ox oy (n / 2) d e →
      SearchFrom s ox oy n c e

/-- `v` is what `ThreeStepSearch(ox, oy)` answers (41 R144). -/
def searchAnswers (s : State) (ox oy : Nat) (v : Candidate) : Prop :=
  SearchFrom s ox oy s.cfg.meStep.toNat ⟨0, 0, blockSad s ox oy 0 0⟩ v

/-! ## Classification -/

/-- `close(c, d, T)` with the tolerance of the profile (42 R162). -/
def withinTolerance (s : State) (c d : Colour) : Prop :=
  let t := if paletteProfile s.hdr.version = 0 then s.cfg.maxDiff15.toNat else s.cfg.maxDiff.toNat
  ((c.r.toNat : Int) - d.r.toNat).natAbs ≤ t ∧ ((c.g.toNat : Int) - d.g.toNat).natAbs ≤ t ∧
  ((c.b.toNat : Int) - d.b.toNat).natAbs ≤ t

/-- The representatives and the indices of the greedy pass over `n` pixels (42 R171): every pixel's index is the lowest
representative it is close to, and representative `j` is the first pixel that has index `j`, after all lower ones. -/
def clustered (s : State) (px : Nat → Colour) (n : Nat) (reps : List Colour) (idx : Nat → Nat) : Prop :=
  reps.length ≤ 4 ∧
  (∀ k < n, ∃ r, reps[idx k]? = some r ∧ withinTolerance s (px k) r ∧
    ∀ j < idx k, ∀ u, reps[j]? = some u → ¬ withinTolerance s (px k) u) ∧
  ∀ j r, reps[j]? = some r → ∃ m < n, px m = r ∧ idx m = j ∧ ∀ k < m, idx k < j

/-- `d` is the least distance of `c` to an entry of a palette (40 R121, R122). -/
def leastDistance (s : State) (second : Bool) (c : Colour) (d : Nat) : Prop :=
  (∃ i < 256, dist1 (paletteAt s second i) c = d) ∧ ∀ i < 256, d ≤ dist1 (paletteAt s second i) c

/-- `EmitColours` (42 R176): the table selected and one operand for each colour. -/
def emits (s : State) (psel : Bool) (cols : List Colour) (ops : List ColourOp) : Prop :=
  if paletteProfile s.hdr.version = 0 then
    psel = false ∧ ops = cols.map fun c =>
      ColourOp.rgb555 (c.r.extractLsb' 3 5 ++ c.g.extractLsb' 3 5 ++ c.b.extractLsb' 3 5)
  else
    (∀ e : Bool → Colour → Nat, (∀ second c, leastDistance s second c (e second c)) →
      (psel = true ↔ paletteProfile s.hdr.version = 2 ∧ (cols.map (e true)).sum < (cols.map (e false)).sum)) ∧
    List.Forall₂ (fun c op => ∃ i : Byte, op = ColourOp.index i ∧
      leastDistance s psel c (dist1 (paletteAt s psel i.toNat) c) ∧
      ∀ j < i.toNat, dist1 (paletteAt s psel i.toNat) c < dist1 (paletteAt s psel j) c) cols ops

/-- The existing coded neighbours of block `k` in the order they are tried, as distances `back` (42 R167). -/
def neighbourBack (h : HdrFields) (k j back : Nat) : Prop :=
  (j = 0 ∧ 0 < k % blocksPerRow h ∧ back = 1) ∨
  (j = 1 ∧ 0 < k / blocksPerRow h ∧ back = blocksPerRow h) ∨
  (j = 2 ∧ 0 < k / blocksPerRow h ∧ 0 < k % blocksPerRow h ∧ back = blocksPerRow h + 1) ∨
  (j = 3 ∧ 0 < k / blocksPerRow h ∧ k % blocksPerRow h + 1 < blocksPerRow h ∧ back = blocksPerRow h - 1)

/-! ## The host -/

/-- The bits of each register the host writes as it stands (10 R20): the arguments, the header registers, the configuration
registers without hardwired or limited values, the window registers. -/
def plainWidth (index : Nat) : Option Nat :=
  if 0x04 ≤ index ∧ index ≤ 0x07 then some 32
  else if 0x10 ≤ index ∧ index ≤ 0x12 then some 32
  else if index = 0x13 ∨ index = 0x14 then some 8
  else if 0x15 ≤ index ∧ index ≤ 0x18 then some 32
  else if index = 0x19 ∨ index = 0x1A then some 16
  else if index = 0x30 ∨ index = 0x31 ∨ index = 0x37 then some 8
  else if index = 0x32 then some 16
  else if index = 0x34 then some 2
  else if index = 0x35 ∨ index = 0x41 then some 32
  else if index = 0x36 then some 1
  else if index = 0x38 then some 7
  else if index = 0x40 then some 4
  else none

/-- A header register (10 R30). -/
def headerIndex (index : Nat) : Prop := 0x10 ≤ index ∧ index ≤ 0x1A

/-- The host may write the register in some session state (10 R20); `CMD` and `WIN_DATA` are not counted. -/
def writableIndex (index : Nat) : Prop :=
  (0x04 ≤ index ∧ index ≤ 0x07) ∨ headerIndex index ∨ (0x29 ≤ index ∧ index ≤ 0x2B) ∨ (0x30 ≤ index ∧ index ≤ 0x39) ∨
  index = 0x40 ∨ index = 0x41

/-- `STATUS` as a number (10 R23). -/
def statusNumber (s : State) : Nat :=
  (if s.status.errf then 1 else 0) + (if s.status.vdone then 2 else 0) + (if s.status.alloc then 4 else 0) +
  (if s.status.fvalid then 8 else 0) + (if s.status.avalid then 16 else 0) + (if s.status.stale then 32 else 0) +
  (if s.plat.srcPresent then 64 else 0) + (if s.status.lastkey then 128 else 0)

/-- `SESSION` as a number (10 R25). -/
def sessionNumber (x : Session) : Nat :=
  match x with
  | .closed => 0
  | .decOpen => 1
  | .decFault => 2
  | .encSetup => 3
  | .encOpen => 4

/-- What each readable register but `WIN_DATA` reads as (10 R20): its index and its number. `OT_COUNT` saturates (log 7). -/
def registerNumbers (s : State) : List (Nat × Nat) :=
  [(0x01, statusNumber s), (0x02, s.err.toNat), (0x03, s.errInfo.toNat), (0x04, s.arg.x0.toNat), (0x05, s.arg.x1.toNat),
    (0x06, s.arg.x2.toNat), (0x07, s.arg.x3.toNat), (0x08, s.res.x0.toNat), (0x09, s.res.x1.toNat), (0x0A, s.res.x2.toNat),
    (0x0B, s.res.x3.toNat), (0x0C, sessionNumber s.session)] ++
  [(0x10, s.hdr.frameCount.toNat), (0x11, s.hdr.width.toNat), (0x12, s.hdr.height.toNat), (0x13, s.hdr.format.toNat),
    (0x14, s.hdr.version.toNat), (0x15, s.hdr.fps.toNat), (0x16, s.hdr.adur.toNat), (0x17, s.hdr.srate.toNat),
    (0x18, s.hdr.asize.toNat), (0x19, s.hdr.channels.toNat), (0x1A, s.hdr.bps.toNat)] ++
  [(0x20, s.frameCtr.toNat), (0x21, s.fpos.toNat), (0x22, s.firstChunk.toNat), (0x23, s.plat.streamLen.toNat),
    (0x24, s.last.fnum.toNat), (0x25, s.last.ftype.toNat), (0x26, s.last.usize.toNat), (0x27, s.last.csize.toNat),
    (0x28, min s.ot.length (2 ^ 32 - 1)), (0x29, s.bslen.toNat), (0x2A, s.cblen.toNat), (0x2B, s.ablen.toNat),
    (0x2C, s.bspos.toNat), (0x2D, s.blk.toNat), (0x2E, s.pred.toNat), (0x2F, s.outlen.toNat)] ++
  [(0x30, s.cfg.maxDiff.toNat), (0x31, s.cfg.maxDiff15.toNat), (0x32, s.cfg.mvThresh.toNat), (0x33, s.cfg.modeEn.toNat),
    (0x34, s.cfg.quality.toNat), (0x35, s.cfg.keyInterval.toNat), (0x36, s.cfg.compEn.toNat), (0x37, s.cfg.meStep.toNat),
    (0x38, s.cfg.meRange.toNat), (0x39, s.cfg.distRatio.toNat), (0x3A, s.hist.total.toNat % 2 ^ 32),
    (0x3B, s.hist.total.toNat / 2 ^ 32), (0x3C, s.hist.distinct.toNat), (0x40, s.winSel.toNat), (0x41, s.winAddr.toNat)]

/-- A memory after a write that takes effect only if `on` holds. -/
def storedIf {α : Type} (on : Prop) (a : Nat) (v : α) (old new : Memory α) : Prop :=
  (on → Memory.read new a = some v ∧ ∀ b, b ≠ a → Memory.read new b = Memory.read old b) ∧ (¬ on → new = old)

/-- `pack(r, g, b)` in the format, as numbers (30 R104). -/
def packedAs (format : Byte) (c : Colour) (w : Word) : Prop :=
  (format = 1 → w.toNat = c.r.toNat / 8 * 2 ^ 10 + c.g.toNat / 8 * 2 ^ 5 + c.b.toNat / 8) ∧
  (format = 2 → w.toNat = c.r.toNat / 8 * 2 ^ 11 + c.g.toNat / 4 * 2 ^ 5 + c.b.toNat / 8) ∧
  (format = 3 → w.toNat = c.r.toNat * 2 ^ 16 + c.g.toNat * 2 ^ 8 + c.b.toNat) ∧
  (format = 4 → w.toNat = c.r.toNat * 2 ^ 24 + c.g.toNat * 2 ^ 16 + c.b.toNat * 2 ^ 8 + 255)

/-- `unpack(v)` in the format (30 R104). -/
def unpackedAs (format : Byte) (v : Word) (c : Colour) : Prop :=
  (format = 1 ∧ c = ⟨v.extractLsb' 10 5 ++ 0#3, v.extractLsb' 5 5 ++ 0#3, v.extractLsb' 0 5 ++ 0#3⟩) ∨
  (format = 2 ∧ c = ⟨v.extractLsb' 11 5 ++ 0#3, v.extractLsb' 5 6 ++ 0#2, v.extractLsb' 0 5 ++ 0#3⟩) ∨
  (format = 3 ∧ c = ⟨v.extractLsb' 16 8, v.extractLsb' 8 8, v.extractLsb' 0 8⟩) ∨
  (format = 4 ∧ c = ⟨v.extractLsb' 24 8, v.extractLsb' 16 8, v.extractLsb' 8 8⟩)

/-! ## Frame steps -/

/-- `n` frame steps in a row, none of which raised. -/
inductive FrameSteps : State → Nat → State → Prop where
  | none (s : State) : FrameSteps s 0 s
  | more (s t u : State) (n : Nat) : frameStep s = .done () t → FrameSteps t n u → FrameSteps s (n + 1) u

/-! ## Invariants -/

/-- Every memory is in canonical form. -/
def memoriesCanonical (s : State) : Bool :=
  Memory.wf s.src && Memory.wf s.cur && Memory.wf s.prev && Memory.wf s.key && Memory.wf s.pal0 && Memory.wf s.pal1 &&
  Memory.wf s.bs && Memory.wf s.cb && Memory.wf s.ab && Memory.wf s.out && Memory.wf s.plat.stream &&
  Memory.wf s.hist.counts

/-- The histogram lists exactly its non-zero counters, of 24-bit colours, and `HIST_DISTINCT` counts them (10 R40). -/
def histogramCoherent (h : Hist) : Bool :=
  Memory.wf h.counts && h.counts.all (fun e => decide (e.1 < 2 ^ 24) && decide (e.2 ≠ 0)) &&
  decide (h.distinct.toNat = h.counts.length)

/-- The hardwired and bounded configuration bits (10 R34, R36). -/
def configHardwired (c : EncCfg) : Bool :=
  !c.modeEn.getLsbD 0 && c.modeEn.getLsbD 2 && decide (c.distRatio.toNat ≤ 256)

/-- `ERR[7:4]` reads 0, the code is one of 60 R310, and `ERRF` says `ERR != 0` (10 R23, R24). -/
def errorCoherent (s : State) : Bool :=
  decide (s.err.extractLsb' 4 4 = 0) && decide ((s.err.extractLsb' 0 4).toNat ≤ 7) &&
  s.status.errf == decide (s.err ≠ 0)

/-- `VDONE` follows its formula, `ALLOC` the session, and a closed session shows no frame (10 R23, 20 R64). -/
def statusCoherent (s : State) : Bool :=
  s.status.vdone == videoDone s && s.status.alloc == decide (s.session ≠ .closed) &&
  (s.status.alloc || !(s.status.fvalid || s.status.avalid || s.status.stale || s.status.lastkey)) &&
  (s.status.fvalid || !s.status.lastkey)

/-- While a session is open its header passed checks 4 to 9 (45 R244). -/
def headerLegal (s : State) : Bool := s.session == .closed || (headerFault s.par s.hdr).isNone

/-- What holds between commands whatever was done (10 R34, R36, R23 to R25, R40; 45 R244). -/
def controlCoherent (s : State) : Bool :=
  decide (s.act = .idle) && configHardwired s.cfg && errorCoherent s && statusCoherent s && headerLegal s &&
  histogramCoherent s.hist

/-- Entries strictly increasing in both `off` and `fidx` (10 R39). -/
def offsetsIncreasing : List OtEntry → Bool
  | [] => true
  | [_] => true
  | e :: f :: rest => decide (e.off.toNat < f.off.toNat) && decide (e.fidx.toNat < f.fidx.toNat) && offsetsIncreasing (f :: rest)

/-- The offset table's entries lie before an offset and a frame number. -/
def offsetsBelow (off fidx : Nat) (ot : List OtEntry) : Bool :=
  ot.all fun e => decide (e.off.toNat < off) && decide (e.fidx.toNat < fidx)

/-- The offset table and the cursors of an open session (10 R39, R32; 45 R249; 47 R301): the table is increasing and fits; in
a decode session `FIRST_CHUNK` is the header's length and the table, `FRAME_CTR` and `FPOS` stay within the file, at or behind
it; in an encode session the table stays within what was written. -/
def cursorsLegal (s : State) : Bool :=
  decide (s.act = .idle) && decide (streamLen s ≤ 2 ^ 32) && offsetsIncreasing s.ot && decide (s.ot.length ≤ s.par.otCap) &&
  match s.session with
  | .closed | .encSetup => decide (s.ot = [])
  | .decOpen | .decFault =>
    offsetsBelow (streamLen s) s.hdr.frameCount.toNat s.ot && decide (s.frameCtr.toNat ≤ s.hdr.frameCount.toNat) &&
    decide (s.firstChunk.toNat = headerLength s.hdr.version) && decide (s.firstChunk.toNat ≤ streamPos s) &&
    decide (streamPos s ≤ streamLen s) &&
    s.ot.all (fun e => decide (s.firstChunk.toNat ≤ e.off.toNat))
  | .encOpen => offsetsBelow s.outlen.toNat s.frameCtr.toNat s.ot

/-! ## Runs of chunks -/

/-- From `a` on, `n` frame chunks with any audio chunks before each of them lead to `b`; `f` is the last frame chunk's
header. -/
inductive FrameChunks (s : State) : Nat → Nat → Nat → AgfcFields → Prop where
  | last (a : Nat) (f : AgfcFields) (ftype : FrameType) : frameChunkAt s a f ftype →
      FrameChunks s a 1 (a + 18 + f.csize.toNat) f
  | frame (a n b : Nat) (f g : AgfcFields) (ftype : FrameType) : frameChunkAt s a f ftype →
      FrameChunks s (a + 18 + f.csize.toNat) n b g → FrameChunks s a (n + 1) b g
  | audio (a n b : Nat) (f : AgacFields) (g : AgfcFields) : audioChunkAt s a f →
      FrameChunks s (a + 12 + f.csize.toNat) n b g → FrameChunks s a n b g

end Sys2Proof.Machine
end

