-- ==== Sys2Proof/Certificates/Slice0/Obligations.lean ====
section
/-! DEFINITION. The statements for the provers. Each docstring names the rules of spec/ it formalises. -/

open Sys2Proof Sys2Proof.Machine

/-! ## Reset and general commands -/

/-- R341: after reset every register of R20's table reads its reset value (whatever the platform supplies; WIN_DATA has no
storage), the session is CLOSED, the histogram and the offset table are empty, no buffer or palette holds a value; the reset
leaves what belongs to the platform alone. A space without a value is the model's form of unspecified contents (log 8). -/
def Obligations.ResetState : Prop :=
  (∀ (p : Platform) (index : Nat), index ≠ 0x42 →
    registerValue { State.reset with plat := p } index =
      if index = 0x01 then (if p.srcPresent then 0x40 else 0)
      else if index = 0x23 then p.streamLen
      else if index = 0x32 then 1
      else if index = 0x33 then 0x3FE
      else if index = 0x34 then 3
      else if index = 0x36 then 1
      else if index = 0x37 then 4
      else if index = 0x38 then 7
      else if index = 0x39 then 128
      else 0) ∧
  State.reset.session = .closed ∧ State.reset.ot = [] ∧ (∀ c, histCount State.reset.hist.counts c = 0) ∧
  predX State.reset.pred = 0 ∧ predY State.reset.pred = 0 ∧
  (∀ a, Memory.read State.reset.src a = none ∧ Memory.read State.reset.cur a = none ∧
    Memory.read State.reset.prev a = none ∧ Memory.read State.reset.key a = none ∧ Memory.read State.reset.bs a = none ∧
    Memory.read State.reset.cb a = none ∧ Memory.read State.reset.ab a = none ∧ Memory.read State.reset.pal0 a = none ∧
    Memory.read State.reset.pal1 a = none) ∧
  ∀ s : State, (softReset s).plat = s.plat ∧ (softReset s).out = s.out

/-- R273: SOFT_RESET runs in every state and leaves the reset state: every register reads as after reset, the session is CLOSED,
nothing is allocated, the histogram is clear; the sink keeps its output. R340: the reset input does the same. -/
def Obligations.SoftResetResets : Prop :=
  (∀ s : State, ∃ t, exec .softReset s = .next t ∧
    (∀ index, registerValue t index = registerValue { State.reset with plat := s.plat } index) ∧
    t.session = .closed ∧ t.status.alloc = false ∧ t.hist = ⟨[], 0, 0⟩ ∧ t.ot = [] ∧ t.out = s.out ∧ t.plat = s.plat) ∧
  ∀ (s : State) (rest : List HostAccess), s.act = .idle →
    step { s with host := .resetPin :: rest } = step { s with host := .write 0 1 :: rest }

/-- R272: NOP runs in every state and only clears the error. -/
def Obligations.NopClearsError : Prop :=
  ∀ s : State, exec .nop s =
    .next { s with err := 0, errInfo := 0, status := { s.status with errf := false, vdone := videoDone s } }

/-- R274: LOAD_QUALITY copies the preset QUALITY names into the four registers, MODE_EN bit 0 forced 0 and bit 2 forced 1;
CUSTOM copies nothing. -/
def Obligations.LoadQualityLoadsPreset : Prop :=
  ∀ s : State,
    (∀ p : Preset,
      (s.cfg.quality = 0 ∧ p = s.par.high) ∨ (s.cfg.quality = 1 ∧ p = s.par.mid) ∨ (s.cfg.quality = 2 ∧ p = s.par.low) →
      exec .loadQuality s = .next (complete { s with cfg := { s.cfg with
        maxDiff := p.maxDiff
        maxDiff15 := p.maxDiff15
        mvThresh := p.mvThresh
        modeEn := (p.modeEn &&& 0x3FE) ||| 0x004 } })) ∧
    (s.cfg.quality = 3 → exec .loadQuality s = .next (complete s))

/-! ## Admission, errors, what commands leave alone -/

/-- R271, R313: a command that the table does not admit in the session changes nothing but the error registers; R22, R92: so
does a CMD write of a code outside the table, bits 31:8 ignored. -/
def Obligations.IllegalCommandsRefused : Prop :=
  (∀ (i : Instr) (s : State) (code : Byte), isCommand i = true → encode i = [code] → admits i s.session = false →
    exec i s = .next (refusedWith (code.setWidth 32) s)) ∧
  ∀ (s : State) (v : Word) (rest : List HostAccess), s.act = .idle → s.host = .write 0 v :: rest →
    decodeCommand (v.setWidth 8) = none →
    step s = .next (refusedWith ((v.setWidth 8).setWidth 32) { s with host := rest })

/-- R289, R279, R277, R293, R294 with R311: an argument out of range is refused, and ERRINFO names it. -/
def Obligations.ArgumentChecks : Prop :=
  ∀ s : State,
    (admits .nearest s.session = true → 1 < s.arg.x1.toNat → exec .nearest s = .next (refusedWith 0x230 s)) ∧
    (admits .decodeBs s.session = true → s.arg.x0 ≠ 1 → s.arg.x0 ≠ 2 → exec .decodeBs s = .next (refusedWith 0x122 s)) ∧
    (admits .lzDecompress s.session = true → s.par.bsCap < s.arg.x0.toNat →
      exec .lzDecompress s = .next (refusedWith 0x120 s)) ∧
    (admits .tss s.session = true →
      let fitsX := s.arg.x0.toNat + blockWidth s.hdr.version ≤ s.hdr.width.toNat
      let fitsY := s.arg.x1.toNat + blockHeight s.hdr.version ≤ s.hdr.height.toNat
      let fitsDx := 0 ≤ (s.arg.x0.toNat : Int) + s.arg.x2.toInt ∧
        (s.arg.x0.toNat : Int) + s.arg.x2.toInt + blockWidth s.hdr.version ≤ s.hdr.width.toNat
      let fitsDy := 0 ≤ (s.arg.x1.toNat : Int) + s.arg.x3.toInt ∧
        (s.arg.x1.toNat : Int) + s.arg.x3.toInt + blockHeight s.hdr.version ≤ s.hdr.height.toNat
      (¬ fitsX → exec .tss s = .next (refusedWith 0x134 s) ∧ exec .blockSad s = .next (refusedWith 0x135 s)) ∧
      (fitsX → ¬ fitsY → exec .tss s = .next (refusedWith 0x234 s) ∧ exec .blockSad s = .next (refusedWith 0x235 s)) ∧
      (fitsX → fitsY → ¬ fitsDx → exec .blockSad s = .next (refusedWith 0x335 s)) ∧
      (fitsX → fitsY → fitsDx → ¬ fitsDy → exec .blockSad s = .next (refusedWith 0x435 s)))

/-- R287: after every command VDONE is 1 exactly when the session is a decode session and FRAME_CTR has reached FRAME_COUNT. -/
def Obligations.VdoneAfterCommand : Prop :=
  ∀ (i : Instr) (s t : State), isCommand i = true → exec i s = .next t →
    (t.status.vdone = true ↔
      (t.session = .decOpen ∨ t.session = .decFault) ∧ t.hdr.frameCount.toNat ≤ t.frameCtr.toNat)

/-- R21, R316: no command but SOFT_RESET writes an argument register; a command that raises leaves every result register; ERRF
says whether ERR is set. -/
def Obligations.ArgumentsAndResults : Prop :=
  ∀ (i : Instr) (s t : State), isCommand i = true → exec i s = .next t →
    (i ≠ .softReset → t.arg = s.arg) ∧ (t.err ≠ 0 → t.res = s.res) ∧ (t.status.errf = true ↔ t.err ≠ 0)

/-- R34 to R36, R41, R46, R343: which commands but SOFT_RESET write the configuration registers; the window registers and the
platform's inputs are no command's to write but SOFT_RESET's, whose effect SoftResetResets states. -/
def Obligations.ConfigurationFrame : Prop :=
  ∀ (i : Instr) (s t : State), isCommand i = true → i ≠ .softReset → exec i s = .next t →
    (i ≠ .loadQuality → i ≠ .openStream → i ≠ .encSetup → t.cfg = s.cfg) ∧
    (i = .openStream ∨ i = .encSetup → t.cfg = { s.cfg with meRange := t.cfg.meRange }) ∧
    t.winSel = s.winSel ∧ t.winAddr = s.winAddr ∧ t.plat = s.plat ∧ t.par = s.par ∧ t.host = s.host

/-- R127, R38: no command changes a palette of a decode session or of an encode session whose header is written, as long as the
session lasts; R40: only HIST_CLEAR, HIST_ACCUM and ENC_SETUP write the histogram, besides SOFT_RESET, whose effect
SoftResetResets states. -/
def Obligations.PalettesAndHistogramFrame : Prop :=
  ∀ (i : Instr) (s t : State), isCommand i = true → i ≠ .softReset → exec i s = .next t →
    (s.session = .decOpen ∨ s.session = .decFault ∨ s.session = .encOpen → t.session ≠ .closed →
      t.pal0 = s.pal0 ∧ t.pal1 = s.pal1) ∧
    (i ≠ .histClear → i ≠ .histAccum → i ≠ .encSetup → t.hist = s.hist)

/-- R207, R280, R318: a command that raises, other than the two that seek, leaves the reference frames, the palettes, the offset
table and the positions as they were, unless the session is lost. R317, R318: the session after a raise: a decode command's
StreamCorruption leaves DEC_FAULT, its IOError leaves DEC_OPEN, MemoryAllocationFailure in an open session ends it, and every
other raise leaves the session as it was. -/
def Obligations.RaiseKeepsReferences : Prop :=
  ∀ (i : Instr) (s t : State), isCommand i = true → exec i s = .next t → t.err ≠ 0 →
    let kind := t.err.extractLsb' 0 4
    let streaming := i = .nextFrame ∨ i = .nextAudio ∨ i = .skipFwd ∨ i = .skipBack ∨ i = .skipTo
    (i ≠ .skipTo → i ≠ .skipBack → t.session ≠ .closed ∨ s.session = .closed →
      t.prev = s.prev ∧ t.key = s.key ∧ t.pal0 = s.pal0 ∧ t.pal1 = s.pal1 ∧ t.ot = s.ot ∧ t.frameCtr = s.frameCtr ∧
      t.fpos = s.fpos ∧ t.hdr = s.hdr ∧ t.status.fvalid = s.status.fvalid ∧ t.status.lastkey = s.status.lastkey ∧
      t.status.stale = s.status.stale) ∧
    (streaming → kind = 4 → t.session = .decFault) ∧
    (streaming → kind = 6 → t.session = .decOpen) ∧
    (streaming ∨ i = .encFrame → kind = 3 → t.session = .closed ∧ t.status.alloc = false) ∧
    (kind = 7 ∨ ¬ streaming ∧ (i ≠ .encFrame ∨ kind ≠ 3) → t.session = s.session)

/-- R67: each command's output is all or nothing: a command that raises leaves OUT and OUTLEN; and only the encode session's
commands and SOFT_RESET write them at all. -/
def Obligations.SinkAllOrNothing : Prop :=
  ∀ (i : Instr) (s t : State), isCommand i = true → exec i s = .next t →
    (t.err ≠ 0 → t.out = s.out ∧ t.outlen = s.outlen) ∧
    (i ≠ .encSetup → i ≠ .encOpen → i ≠ .encFrame → i ≠ .encAudio → i ≠ .encClose → i ≠ .softReset →
      t.out = s.out ∧ t.outlen = s.outlen)

/-! ## Palette and motion units -/

/-- R121, R289: NEAREST answers the lowest index of the least distance, and that distance. -/
def Obligations.NearestIsLowestMinimum : Prop :=
  ∀ s : State, admits .nearest s.session = true → s.arg.x1 = 0 ∨ s.arg.x1 = 1 →
    let table := paletteAt s (s.arg.x1 == 1)
    let p := colourOfWord s.arg.x0
    ∃ i < 256,
      exec .nearest s = .next (complete { s with res := { s.res with
        x0 := BitVec.ofNat 32 i, x1 := BitVec.ofNat 32 (dist1 (table i) p) } }) ∧
      (∀ j < 256, dist1 (table i) p ≤ dist1 (table j) p) ∧ ∀ j < i, dist1 (table i) p < dist1 (table j) p

/-- R124, R290: HIST_CLEAR clears every counter and both totals, and nothing else. -/
def Obligations.HistClearClears : Prop :=
  ∀ s : State, admits .histClear s.session = true →
    ∃ t, exec .histClear s = .next t ∧ t = complete { s with hist := t.hist } ∧
      (∀ c, histCount t.hist.counts c = 0) ∧ t.hist.total = 0 ∧ t.hist.distinct = 0

/-- R123, R40, R291: HIST_ACCUM adds to each colour's counter the pixels of SRC that have it, saturating, and W*H to the total,
which cannot reach its limit (that it would saturate there is the model's choice, log 7); HIST_DISTINCT counts the non-zero counters and is the result. -/
def Obligations.HistAccumCounts : Prop :=
  ∀ s : State, admits .histAccum s.session = true → histogramCoherent s.hist = true →
    ∃ t, exec .histAccum s = .next t ∧
      t = complete { s with hist := t.hist, res := { s.res with x0 := t.hist.distinct } } ∧
      (∀ c, histCount t.hist.counts c =
        min 0xFFFFFFFF (histCount s.hist.counts c + (sourcePixels s).countP fun p => colourKey p == c)) ∧
      t.hist.total.toNat = min (2 ^ 64 - 1) (s.hist.total.toNat + framePixels s.hdr) ∧ histogramCoherent t.hist = true

/-- R126, R292: SELECT_PALETTE selects the most frequent colours, among equals the lower colour first, until the cap or the
coverage threshold is met, and pads both tables with the last one (black if none). -/
def Obligations.SelectPaletteIsGreedy : Prop :=
  ∀ s : State, admits .selectPalette s.session = true → histogramCoherent s.hist = true →
    ∃ (ranked : List (Nat × Word)) (k : Nat),
      let sel := (ranked.take k).map fun e => colourOfKey e.1
      let covered := fun j => s.cfg.distRatio.toNat * s.hist.total.toNat ≤ ((ranked.take j).map fun e => e.2.toNat).sum * 256
      ranked.Perm s.hist.counts ∧
      ranked.Pairwise (fun x y => y.2.toNat < x.2.toNat ∨ (y.2 = x.2 ∧ x.1 < y.1)) ∧
      k ≤ paletteCap s.hdr.version ∧ k ≤ ranked.length ∧
      (k = paletteCap s.hdr.version ∨ k = ranked.length ∨ (0 < k ∧ covered k)) ∧ (∀ j, 0 < j → j < k → ¬ covered j) ∧
      ∃ t, exec .selectPalette s = .next t ∧
        t = complete { s with pal0 := t.pal0, pal1 := t.pal1, res := { s.res with x0 := BitVec.ofNat 32 k } } ∧
        ∀ e < 256, Memory.read t.pal0 e = some (sel.getD e (sel.getLastD Colour.black)) ∧
          Memory.read t.pal1 e = some (sel.getD (e + 256) (sel.getLastD Colour.black))

/-- R141, R142, R294: BLOCK_SAD sums the distances of the block's pixels to the displaced pixels of PREV; ME_RANGE plays no
part. -/
def Obligations.BlockSadSums : Prop :=
  ∀ (s : State) (dx dy : Int), admits .blockSad s.session = true → dx = s.arg.x2.toInt → dy = s.arg.x3.toInt →
    s.arg.x0.toNat + blockWidth s.hdr.version ≤ s.hdr.width.toNat →
    s.arg.x1.toNat + blockHeight s.hdr.version ≤ s.hdr.height.toNat →
    insideFrame s.hdr (s.arg.x0.toNat + dx) (s.arg.x1.toNat + dy) = true →
    exec .blockSad s = .next (complete { s with res := { s.res with
      x0 := BitVec.ofNat 32 ((List.range (blockPixels s.hdr.version)).map fun n =>
        dist1 (colourAt s .src s.src (blockPixelAddr s.hdr s.arg.x0.toNat s.arg.x1.toNat n))
          (colourAt s .prev s.prev
            (blockPixelAddr s.hdr (s.arg.x0.toNat + dx).toNat (s.arg.x1.toNat + dy).toNat n))).sum } })

/-- R143 to R148, R293: TSS answers what the loop of R144 finds: from the centre, at each step size the first of the cheapest
valid neighbours if one is strictly cheaper, the size halved until it is 0. The vector is within ME_RANGE, its block lies in the
frame, its cost is never worse than the centre's, and it is the zero vector unless strictly better. -/
def Obligations.SearchResultBounded : Prop :=
  ∀ s : State, admits .tss s.session = true →
    s.arg.x0.toNat + blockWidth s.hdr.version ≤ s.hdr.width.toNat →
    s.arg.x1.toNat + blockHeight s.hdr.version ≤ s.hdr.height.toNat →
    let ox := s.arg.x0.toNat
    let oy := s.arg.x1.toNat
    ∃ (dx dy : Int) (cost : Nat),
      exec .tss s = .next (complete { s with res := { s.res with
        x0 := BitVec.ofInt 32 dx, x1 := BitVec.ofInt 32 dy, x2 := BitVec.ofNat 32 cost } }) ∧
      searchAnswers s ox oy ⟨dx, dy, cost⟩ ∧
      dx.natAbs ≤ s.cfg.meRange.toNat ∧ dy.natAbs ≤ s.cfg.meRange.toNat ∧ insideFrame s.hdr (ox + dx) (oy + dy) = true ∧
      cost = blockSad s ox oy dx dy ∧ cost ≤ blockSad s ox oy 0 0 ∧
      (dx ≠ 0 ∨ dy ≠ 0 → cost < blockSad s ox oy 0 0)

/-! ## Block codes -/

/-- R195, R196, R98, R193: FILL writes the colour its operand decodes to to every pixel of the block, NORMAL the n-th operand's
colour to pixel n, and nothing else changes but BSPOS and BLK. A code run by itself is the model's form of one turn of R191's
loop (log 3). -/
def Obligations.FillAndNormalWrite : Prop :=
  ∀ (s : State) (r : FrameRun) (psel : Bool), fetchesBlock s r →
    (∀ c, wellFormed (blockCtx s r.ftype) (.fill psel c) = true →
      ∃ t px, exec (.fill psel c) s = .next t ∧ decodesTo s psel c px ∧
        blockWritten s t (encode (.fill psel c)).length s.pred fun _ => px) ∧
    ∀ cs, wellFormed (blockCtx s r.ftype) (.normal psel cs) = true →
      ∃ t px, exec (.normal psel cs) s = .next t ∧
        (∀ n < blockPixels s.hdr.version, ∃ c, cs[n]? = some c ∧ decodesTo s psel c (px n)) ∧
        blockWritten s t (encode (.normal psel cs)).length s.pred px

/-- R197, R203: COPY and SKIP copy the same block of PREV, and nothing else changes but BSPOS and BLK. A code run by itself: log
3. -/
def Obligations.CopyAndSkipCopyPrevious : Prop :=
  ∀ (s : State) (r : FrameRun) (i : Instr), fetchesBlock s r → r.ftype = .inter → i = .copy ∨ i = .skip →
    ∃ t, exec i s = .next t ∧ blockWritten s t 1 s.pred fun n => colourAt s .prev s.prev (blockAddr s n)

/-- R198: ICOPY copies an earlier block of the frame being rebuilt, and nothing else changes but BSPOS and BLK. A code run by
itself: log 3. -/
def Obligations.IcopyCopiesEarlierBlock : Prop :=
  ∀ (s : State) (r : FrameRun) (back : Half), fetchesBlock s r → back ≠ 0 → back.toNat ≤ s.blk.toNat →
    ∃ t, exec (.icopy back) s = .next t ∧
      blockWritten s t 3 s.pred fun n => colourAt s .cur s.cur
        (blockPixelAddr s.hdr (blockX s.hdr (s.blk.toNat - back.toNat)) (blockY s.hdr (s.blk.toNat - back.toNat)) n)

/-- R199, R200: MV and PMV copy the displaced block of PREV and set the predictor to the vector; nothing else changes but BSPOS
and BLK. PMV adds its deltas to the predictor. A code run by itself: log 3. -/
def Obligations.MotionCopiesDisplacedBlock : Prop :=
  ∀ (s : State) (r : FrameRun), fetchesBlock s r → r.ftype = .inter →
    let ox : Int := blockX s.hdr s.blk.toNat
    let oy : Int := blockY s.hdr s.blk.toNat
    let source := fun (dx dy : Int) (n : Nat) =>
      colourAt s .prev s.prev (blockPixelAddr s.hdr (ox + dx).toNat (oy + dy).toNat n)
    (∀ dx dy : Byte, insideFrame s.hdr (ox + dx.toInt) (oy + dy.toInt) = true →
      ∃ t, exec (.mv dx dy) s = .next t ∧ blockWritten s t 3 (dy ++ dx) (source dx.toInt dy.toInt)) ∧
    ∀ (ddx ddy : BitVec 4) (dx dy : Byte),
      dx.toInt = (s.pred.extractLsb' 0 8).toInt + ddx.toInt → dy.toInt = (s.pred.extractLsb' 8 8).toInt + ddy.toInt →
      insideFrame s.hdr (ox + dx.toInt) (oy + dy.toInt) = true →
      ∃ t, exec (.pmv ddx ddy) s = .next t ∧ blockWritten s t 2 (dy ++ dx) (source dx.toInt dy.toInt)

/-- R201, R202, R101, R98, R193: VQ2 and VQ4 write to each pixel the colour that the operand its index selects decodes to,
indices packed most significant first; nothing else changes but BSPOS and BLK. A code run by itself: log 3. -/
def Obligations.VqWritesSelectedColours : Prop :=
  ∀ (s : State) (r : FrameRun) (psel : Bool) (idx : List Byte), fetchesBlock s r →
    (∀ c0 c1, wellFormed (blockCtx s r.ftype) (.vq2 psel c0 c1 idx) = true →
      ∃ t px, exec (.vq2 psel c0 c1 idx) s = .next t ∧
        (∀ n < blockPixels s.hdr.version,
          decodesTo s psel (if (idx.getD (n / 8) 0).getMsbD (n % 8) then c1 else c0) (px n)) ∧
        blockWritten s t (encode (.vq2 psel c0 c1 idx)).length s.pred px) ∧
    ∀ c0 c1 c2 c3, wellFormed (blockCtx s r.ftype) (.vq4 psel c0 c1 c2 c3 idx) = true →
      ∃ t px, exec (.vq4 psel c0 c1 c2 c3 idx) s = .next t ∧
        (∀ n < blockPixels s.hdr.version,
          decodesTo s psel
            (match (idx.getD (n / 4) 0).getMsbD (2 * (n % 4)), (idx.getD (n / 4) 0).getMsbD (2 * (n % 4) + 1) with
            | false, false => c0
            | false, true => c1
            | true, false => c2
            | true, true => c3) (px n)) ∧
        blockWritten s t (encode (.vq4 psel c0 c1 c2 c3 idx)).length s.pred px

/-- R198 to R200, R311, R318: an ICOPY that refers to no earlier block, a vector that leaves the frame and a predictor sum
outside -128..127 raise StreamCorruption at the block, write no pixel and end the decode without a commit. A code run by
itself: log 3; CUR, BS and CB hold no value after it: log 13. -/
def Obligations.BlockCodesRaise : Prop :=
  ∀ (s : State) (r : FrameRun), fetchesBlock s r →
    let ox : Int := blockX s.hdr s.blk.toNat
    let oy : Int := blockY s.hdr s.blk.toNat
    (∀ back : Half, back = 0 ∨ s.blk.toNat < back.toNat →
      ∃ t, exec (.icopy back) s = .next t ∧ blockRaised s t 3) ∧
    (r.ftype = .inter → ∀ dx dy : Byte, insideFrame s.hdr (ox + dx.toInt) (oy + dy.toInt) = false →
      ∃ t, exec (.mv dx dy) s = .next t ∧ blockRaised s t 3) ∧
    (r.ftype = .inter → ∀ ddx ddy : BitVec 4,
      (let dx := predX s.pred + ddx.toInt
       let dy := predY s.pred + ddy.toInt
       dx < -128 ∨ 127 < dx ∨ dy < -128 ∨ 127 < dy ∨ insideFrame s.hdr (ox + dx) (oy + dy) = false) →
      ∃ t, exec (.pmv ddx ddy) s = .next t ∧ blockRaised s t 2)

/-- R191, R204, R206, R279: DECODE_BS of a bitstream of NBLK codes runs them in order, consumes every byte and commits. R204,
R192, R311: bytes left over after NBLK codes raise StreamCorruption with ERRINFO = NBLK; where no well-formed code stands (the
bytes run out, the tag is refused, a colour has bit 15) or a code raises, with ERRINFO = the block; neither commits. CUR, BS and
CB hold no value after a raise: log 13. -/
def Obligations.DecodeBsRunsTheCodes : Prop :=
  ∀ (s : State) (ftype : FrameType), admits .decodeBs s.session = true → frameTypeOf s.arg.x0.toNat = some ftype →
    (∀ codes q, frameBegins s ftype (bsBytes s) codes [] q → codes.length = blockCount s.hdr →
      exec .decodeBs s = .next (complete { s with
        cur := q.cur
        prev := q.cur
        key := if ftype = .intra then q.cur else s.key
        bspos := s.bslen
        blk := BitVec.ofNat 32 (blockCount s.hdr)
        pred := q.pred
        res := { s.res with x0 := BitVec.ofNat 32 (blockCount s.hdr) }
        status := { s.status with
          fvalid := true
          lastkey := decide (ftype = .intra)
          stale := s.status.stale && decide (ftype = .inter) } })) ∧
    ∀ blk bspos pred, FrameRaises s ftype (bsBytes s) blk bspos pred →
      exec .decodeBs s = .next { s with
        cur := []
        bs := []
        cb := []
        epoch := s.epoch + 1
        bspos := BitVec.ofNat 32 bspos
        blk := BitVec.ofNat 32 blk
        pred := pred
        err := 0x304
        errInfo := BitVec.ofNat 32 blk
        status := { s.status with errf := true, vdone := videoDone s } }

/-! ## LZSS -/

/-- R232: for every byte sequence, decompressing its compressed form gives it back and consumes all of it; and what Pack stores,
Unpack gives back, compression enabled or not. R230: Pack never lengthens. -/
def Obligations.LzssRoundTrip : Prop :=
  ∀ bytes : List Byte,
    decompress (compress bytes) bytes.length = .ok (bytes, (compress bytes).length) ∧
    ∀ compEn : Bool,
      unpackPayload (packPayload compEn bytes) bytes.length = .ok bytes ∧ (packPayload compEn bytes).length ≤ bytes.length

/-- R228, R229: Compress emits at each position the longest match of 3 to 15 bytes within 4095 back, of the smallest offset on
ties, else a literal, eight units behind a flag byte whose unused bits are 0; R230: Pack takes its output exactly when COMP_EN is
set and it is shorter. R278: LZ_COMPRESS leaves the compressed bytes of BS in CB and their number in CBLEN and RES[0], COMP_EN
playing no part; R277: LZ_DECOMPRESS with the expected size in ARG[0] leaves the output in BS, that size in BSLEN and the input bytes
consumed in RES[0]; a corrupt input raises at OPOS, with BS unspecified and BSLEN kept. A length that no 32-bit register holds
saturates: log 7. -/
def Obligations.LzCommandsFillBuffers : Prop :=
  (∀ inp, Compressed inp 0 (compress inp)) ∧
  (∀ inp, packPayload false inp = inp ∧ ((compress inp).length < inp.length → packPayload true inp = compress inp) ∧
    (inp.length ≤ (compress inp).length → packPayload true inp = inp)) ∧
  (∀ s : State, admits .lzCompress s.session = true →
    ∃ t, exec .lzCompress s = .next t ∧
      t = complete { s with
        cb := t.cb
        cblen := saturate (compress (bsBytes s)).length
        res := { s.res with x0 := saturate (compress (bsBytes s)).length }
        epoch := s.epoch + 1 } ∧
      ∀ a, Memory.read t.cb a = (compress (bsBytes s))[a]?) ∧
  ∀ s : State, admits .lzDecompress s.session = true → s.arg.x0.toNat ≤ s.par.bsCap →
    (∀ out used, decompress (cbBytes s) s.arg.x0.toNat = .ok (out, used) →
      ∃ t, exec .lzDecompress s = .next t ∧
        t = complete { s with
          bs := t.bs
          bslen := s.arg.x0
          res := { s.res with x0 := BitVec.ofNat 32 used }
          epoch := s.epoch + 1 } ∧
        out.length = s.arg.x0.toNat ∧ ∀ a, Memory.read t.bs a = out[a]?) ∧
    ∀ opos, decompress (cbBytes s) s.arg.x0.toNat = .error opos →
      ∃ t, exec .lzDecompress s = .next t ∧
        t = { s with
          bs := []
          epoch := s.epoch + 1
          err := 0x204
          errInfo := BitVec.ofNat 32 opos
          status := { s.status with errf := true, vdone := videoDone s } }

/-- R225, R226: LIT writes its byte at OPOS; REF copies byte by byte from the output it has itself written, cut at the expected
size; no other byte of BS changes. A unit run by itself is the model's form of one turn of R227's loop (log 3). -/
def Obligations.UnitsWriteOutput : Prop :=
  ∀ (s : State) (r : LzRun), s.act = .lzss r → r.opos < r.n →
    (∀ b : Byte, ∃ t, exec (.lit b) s = .next t ∧
      t = { s with bs := t.bs, act := .lzss { r with ipos := r.ipos + 1, opos := r.opos + 1, k := r.k + 1 } } ∧
      Memory.read t.bs r.opos = some b ∧ ∀ a, a ≠ r.opos → Memory.read t.bs a = Memory.read s.bs a) ∧
    ∀ (offset : BitVec 12) (length : BitVec 4),
      let m := min length.toNat (r.n - r.opos)
      (offset ≠ 0 → offset.toNat ≤ r.opos → ∃ t, exec (.ref offset length) s = .next t ∧
        t = { s with bs := t.bs, act := .lzss { r with ipos := r.ipos + 2, opos := r.opos + m, k := r.k + 1 } } ∧
        (∀ j < m, Memory.read t.bs (r.opos + j) = some (byteAt t .bs t.bs (r.opos + j - offset.toNat))) ∧
        ∀ a, a < r.opos ∨ r.opos + m ≤ a → Memory.read t.bs a = Memory.read s.bs a) ∧
      (offset = 0 ∨ r.opos < offset.toNat → ∃ t, exec (.ref offset length) s = .next t ∧
        t = { s with
          bs := []
          epoch := s.epoch + 1
          err := 0x204
          errInfo := BitVec.ofNat 32 r.opos
          status := { s.status with errf := true, vdone := videoDone s }
          act := .idle })

/-! ## Decode session -/

/-- R325, R244: opening a stream whose first four bytes are not "AGMV" is InvalidHeader and allocates nothing. -/
def Obligations.BadMagicRefused : Prop :=
  ∀ s : State, s.session = .closed → s.status.alloc = false → s.plat.srcPresent = true → s.io = [] → 4 ≤ streamLen s →
    bytesAt s .stream s.plat.stream 0 4 ≠ [0x41, 0x47, 0x4D, 0x56] →
    ∃ t, exec .openStream s = .next t ∧ t.err = 0x101 ∧ t.errInfo = 0 ∧ t.status.errf = true ∧ t.status.alloc = false ∧
      t.session = .closed ∧ t.res = s.res ∧
      t = { s with err := 0x101, errInfo := 0, status := { s.status with errf := true, vdone := false } }

/-- R244, R311, R66: OPEN refuses a stream at the first failing check of R244's table, the error naming the check's field, and
nothing changes but the error; a failed first read is IOError at 0. R275, R245, R247, R64: a stream that passes every check
opens the session at the first chunk, with the palettes read, cleared reference frames and the offset table of R247's scan; with
more I-frames than the table holds it is MemoryAllocationFailure at the record that did not fit, and nothing changes but the
error. That RES[1] saturates where NBLK is 2^32 or more is the model's choice (log 7). -/
def Obligations.OpenOpensOrRefuses : Prop :=
  (∀ (s : State) (f : HdrFields), s.session = .closed → s.io = [] →
    (38 ≤ streamLen s → bytesAt s .stream s.plat.stream 4 34 = (encode (.hdr f)).drop 4) →
    (∀ c, firstFailing (openChecks s f) = some c → exec .openStream s = .next (checkRefused s 1 c)) ∧
    (firstFailing (openChecks s f) = none → s.act = .idle → streamLen s ≤ 2 ^ 32 →
      (∃ ot, fileTable s f ot) ∧
      ∀ ot, fileTable s f ot →
        (ot.length ≤ s.par.otCap → ∃ t, exec .openStream s = .next t ∧ opened s t f ot) ∧
        ∀ e, ot[s.par.otCap]? = some e → exec .openStream s = .next (checkRefused s 1 ⟨true, 3, e.off⟩))) ∧
  ∀ (s : State) (rest : List Bool), s.session = .closed → s.plat.srcPresent = true → 4 ≤ streamLen s → s.io = true :: rest →
    exec .openStream s = .next (checkRefused { s with io := rest } 1 ⟨true, 6, 0⟩)

/-- R244, R245, R247: the header record by itself: in OPEN's record run a header that passes the checks of its fields opens the
session it describes, with the palettes read and the offset table of the scan; the first failing check, and a table with no room
for an I-frame, refuse it. A record run by itself is the model's choice (log 3), and so is that RES[1] saturates where NBLK is 2^32 or more (log 7). -/
def Obligations.HeaderRecordOpens : Prop :=
  ∀ (s : State) (f : HdrFields), s.act = .container .header → s.io = [] →
    (∀ c, firstFailing (fieldChecks s f) = some c → exec (.hdr f) s = .next { checkRefused s 1 c with act := .idle }) ∧
    (firstFailing (fieldChecks s f) = none → streamLen s ≤ 2 ^ 32 → ∀ ot, fileTable s f ot →
      (ot.length ≤ s.par.otCap → ∃ t, exec (.hdr f) s = .next t ∧ opened s t f ot) ∧
      ∀ e, ot[s.par.otCap]? = some e →
        exec (.hdr f) s = .next { checkRefused s 1 ⟨true, 3, e.off⟩ with act := .idle })

/-- R250, R252, R206, R280, R281: a frame chunk whose payload expands to a bitstream of NBLK codes is decoded and committed,
its payload stays in CB, and the cursors pass it: by NEXT_FRAME with any audio chunks before it, and as the record by itself
(log 3). The position 2^32 stands in FPOS as 0 (log 9). -/
def Obligations.FrameChunkDecodes : Prop :=
  ∀ (s : State) (a : Nat) (f : AgfcFields) (ftype : FrameType) (bits : List Byte) (codes : List Instr) (q : Sequencer),
    s.io = [] → streamLen s ≤ 2 ^ 32 → frameTypeOf f.ftype.toNat = some ftype → frameFits a f s = true →
    f.usize.toNat ≤ s.par.bsCap → f.csize.toNat ≤ s.par.cbCap →
    (let payload := bytesAt s .stream s.plat.stream (a + 18) f.csize.toNat
     let u := fillBs bits (fillCb payload { s with last := f })
     unpackPayload payload f.usize.toNat = .ok bits ∧ bitstream (blockCtx s ftype) codes bits ∧
     codes.length = blockCount s.hdr ∧ runCodes u codes = .ok q) →
    let shown := fun (t : State) =>
      t = complete { s with
        act := t.act
        last := f
        cb := t.cb
        cblen := f.csize
        bs := t.bs
        bslen := f.usize
        cur := q.cur
        prev := q.cur
        key := if ftype = .intra then q.cur else s.key
        bspos := f.usize
        blk := BitVec.ofNat 32 (blockCount s.hdr)
        pred := q.pred
        fpos := BitVec.ofNat 32 (a + 18 + f.csize.toNat)
        frameCtr := saturate (s.frameCtr.toNat + 1)
        status := { s.status with
          fvalid := true
          lastkey := decide (ftype = .intra)
          stale := s.status.stale && decide (ftype = .inter) }
        res := ⟨1, f.ftype.setWidth 32, f.usize, f.csize⟩
        epoch := s.epoch + 2 } ∧
      (∀ i, Memory.read t.cb i = (bytesAt s .stream s.plat.stream (a + 18) f.csize.toNat)[i]?) ∧
      ∀ i, Memory.read t.bs i = bits[i]?
    (s.session = .decOpen → s.frameCtr.toNat < s.hdr.frameCount.toNat →
      FrameChunks s (streamPos s) 1 (a + 18 + f.csize.toNat) f →
      ∃ t, exec .nextFrame s = .next t ∧ t.act = s.act ∧ shown t) ∧
    (s.act = .container (.frame a) → ∃ t, exec (.agfc f) s = .next t ∧ t.act = .idle ∧ shown t)

/-- R251, R252, R282: an audio chunk is loaded into CB, expanded into AB and passed by NEXT_AUDIO, and as the record by itself.
The record by itself: log 3. The position 2^32 stands in FPOS as 0 (log 9). -/
def Obligations.AudioChunkDecodes : Prop :=
  ∀ (s : State) (f : AgacFields) (pcm : List Byte), s.io = [] → streamLen s ≤ 2 ^ 32 →
    let a := streamPos s
    let payload := bytesAt s .stream s.plat.stream (a + 12) f.csize.toNat
    audioFits a f s = true → f.size.toNat ≤ s.par.abCap → f.csize.toNat ≤ s.par.cbCap →
    unpackPayload payload f.size.toNat = .ok pcm →
    let shown := fun (t : State) =>
      t = complete { s with
        act := t.act
        cb := t.cb
        cblen := f.csize
        ab := t.ab
        ablen := f.size
        fpos := BitVec.ofNat 32 (a + 12 + f.csize.toNat)
        status := { s.status with avalid := true }
        res := ⟨1, f.size, f.csize, s.res.x3⟩
        epoch := s.epoch + 2 } ∧
      (∀ i, Memory.read t.cb i = payload[i]?) ∧
      ∀ i, Memory.read t.ab i = pcm[i]?
    (s.session = .decOpen → streamHolds s a (encode (.agac f)) →
      ∃ t, exec .nextAudio s = .next t ∧ t.act = s.act ∧ shown t) ∧
    (s.act = .container .audio → ∃ t, exec (.agac f) s = .next t ∧ t.act = .idle ∧ shown t)

/-- R280, R282, R281: an audio chunk before a frame chunk is passed over unread; NEXT_AUDIO where no audio chunk stands answers 0
and moves nothing; nor does NEXT_FRAME after the last frame. R248 to R252, R280, R282, R311, R318: where frames are still to come
but behind the audio chunks no readable frame chunk stands (the stream ends, the magic is unknown, the header is cut short, the
frame type is illegal, the payload passes the end), NEXT_FRAME raises StreamCorruption at that record, and so does NEXT_AUDIO at
a damaged record; a chunk too big for its buffers is MemoryAllocationFailure at the record and loses the session; a payload that
does not expand is StreamCorruption at the output position, and one whose bitstream does not decode at the block, with the
sequencer's cursors as left; and so for the frame chunk by itself. The record by itself: log 3; an FPOS of 0 names the position
2^32: log 9; buffers given up or scrubbed hold no value: log 8. -/
def Obligations.NothingToDecodeOrDamaged : Prop :=
  (∀ s : State, s.session = .decOpen → s.hdr.frameCount.toNat ≤ s.frameCtr.toNat →
    exec .nextFrame s = .next (complete { s with res := { s.res with x0 := 0 } })) ∧
  (∀ (s : State) (a : Nat) (f : AgacFields), s.act = .container (.frame a) → audioFits a f s = true →
    exec (.agac f) s = .next { s with act := .container (.frame (a + 12 + f.csize.toNat)) }) ∧
  (∀ s : State, s.session = .decOpen → s.io = [] →
    (streamLen s ≤ streamPos s ∨ streamHolds s (streamPos s) [0x41, 0x47, 0x46, 0x43]) →
    exec .nextAudio s = .next (complete { s with
      status := { s.status with avalid := false }, res := { s.res with x0 := 0 } })) ∧
  (∀ (s : State) (a : Nat), s.session = .decOpen → s.io = [] → s.frameCtr.toNat < s.hdr.frameCount.toNat →
    AudioChunks s (streamPos s) a →
    (noChunkAt s a → ∃ last, exec .nextFrame s = .next (streamDamaged { s with last := last } 0x104 a) ∧
      (∀ f, streamHolds s a (encode (.agfc f)) → last = f) ∧
      ((∀ f, ¬ streamHolds s a (encode (.agfc f))) → last = s.last)) ∧
    ∀ f ftype t, frameChunkAt s a f ftype → ChunkRaises s a f ftype t → exec .nextFrame s = .next t) ∧
  (∀ (s : State) (a : Nat) (f : AgfcFields), s.act = .container (.frame a) → s.io = [] →
    (frameTypeOf f.ftype.toNat = none ∨ frameFits a f s = false →
      exec (.agfc f) s = .next { streamDamaged { s with last := f } 0x104 a with act := .idle }) ∧
    ∀ ftype t, frameTypeOf f.ftype.toNat = some ftype → frameFits a f s = true → ChunkRaises s a f ftype t →
      exec (.agfc f) s = .next { t with act := .idle }) ∧
  ∀ s : State, s.session = .decOpen → s.io = [] →
    let a := streamPos s
    let damaged := fun (cblen : Word) (epoch : Nat) =>
      streamDamaged { s with cblen := cblen, ab := [], epoch := epoch, status := { s.status with avalid := false } }
    (a < streamLen s → ¬ streamHolds s a [0x41, 0x47, 0x46, 0x43] → (∀ f, ¬ audioChunkAt s a f) →
      exec .nextAudio s = .next (damaged s.cblen s.epoch 0x104 a)) ∧
    ∀ f, audioChunkAt s a f →
      let fits := f.size.toNat ≤ s.par.abCap ∧ f.csize.toNat ≤ s.par.cbCap
      (¬ fits → exec .nextAudio s = .next (sessionLost s 0x103 (BitVec.ofNat 32 a))) ∧
      ∀ opos, fits → unpackPayload (bytesAt s .stream s.plat.stream (a + 12) f.csize.toNat) f.size.toNat = .error opos →
        exec .nextAudio s = .next (damaged f.csize (s.epoch + 1) 0x204 opos)

/-- R276: CLOSE ends the decode session: buffers, palettes and offset table are given up, the cursors are 0, everything the rule
names is kept, and the header registers are host-writable again. Given-up contents hold no value, and `epoch` counts that
(log 8). -/
def Obligations.CloseEndsSession : Prop :=
  ∀ s : State, s.session = .decOpen ∨ s.session = .decFault →
    exec .close s = .next (ended s s.res) ∧
    ∀ (index : Nat) (v : Word), 0x10 ≤ index → index ≤ 0x1A →
      writeRegister index v (ended s s.res) = { ended s s.res with hdr := writeHeader index v s.hdr }

/-- R283: RESET_VIDEO goes back to the first chunk with cleared reference frames, leaves DEC_FAULT, reads nothing and keeps the
palettes, the offset table and the header. Lengths set to 0 leave the byte buffers without a value (log 8). -/
def Obligations.ResetVideoRewinds : Prop :=
  ∀ s : State, s.session = .decOpen ∨ s.session = .decFault → ∃ t, exec .resetVideo s = .next t ∧ rewound s t s.res

/-- R284, R253: SKIP_FWD passes over frame chunks without decoding, going on after a damaged record where the resynchronisation
finds the next magic: the positions and LAST_* move, the reference frames stay, and STALE says so; with nothing to pass, nothing
moves. Where the stream ends, or no magic follows a damaged record, before the frames are passed it raises StreamCorruption at
that record, and the positions stay. CUR, BS and CB hold no value after the raise (log 8). The position 2^32 stands in FPOS as 0
(log 9). -/
def Obligations.SkipForwardPasses : Prop :=
  ∀ s : State, s.session = .decOpen → s.io = [] →
    let n := min s.arg.x0.toNat (s.hdr.frameCount.toNat - s.frameCtr.toNat)
    s.frameCtr.toNat ≤ s.hdr.frameCount.toNat → streamLen s ≤ 2 ^ 32 →
    (n = 0 → exec .skipFwd s = .next (complete { s with
      status := { s.status with avalid := false }, res := { s.res with x0 := 0 } })) ∧
    (∀ (a : Nat) (f : AgfcFields) (ftype : FrameType), 0 < n → SkipReaches s (streamPos s) (n - 1) a →
      frameChunkAt s a f ftype →
      exec .skipFwd s = .next (complete { s with
        fpos := BitVec.ofNat 32 (a + 18 + f.csize.toNat)
        frameCtr := BitVec.ofNat 32 (s.frameCtr.toNat + n)
        last := f
        status := { s.status with avalid := false, stale := true }
        res := { s.res with x0 := BitVec.ofNat 32 n } })) ∧
    ∀ m a : Nat, m < n → SkipReaches s (streamPos s) m a →
      streamLen s ≤ a ∨ damagedAt s a ∧ (∀ p, ¬ nextMagic s a p) →
      ∃ t, exec .skipFwd s = .next t ∧
        t = { s with
          session := .decFault
          last := t.last
          cur := []
          bs := []
          cb := []
          epoch := s.epoch + 1
          err := 0x104
          errInfo := BitVec.ofNat 32 a
          status := { s.status with errf := true, vdone := decide (s.hdr.frameCount.toNat ≤ s.frameCtr.toNat) } }

/-- R253: the resynchronisation scan answers the first later address where a chunk magic stands. -/
def Obligations.ResyncFindsFirstMagic : Prop :=
  ∀ (s : State) (a p : Nat), s.io = [] →
    (nextMagic s a p → resync a s = .done p s) ∧
    ((∀ x, a < x → ¬ magicAt s x) →
      resync a s = .raised { kind := .streamCorruption, unit := 1, info := a } s)

/-- R285: SKIP_BACK past the first frame, or before every recorded I-frame, clamps to frame 0 with a cleared reference frame
instead of underflowing. -/
def Obligations.SkipBackClamps : Prop :=
  ∀ s : State, s.session = .decOpen →
    s.frameCtr.toNat ≤ s.arg.x0.toNat ∨ (∀ e ∈ s.ot, s.frameCtr.toNat - s.arg.x0.toNat - 1 < e.fidx.toNat) →
    ∃ t, exec .skipBack s = .next t ∧ rewound s t { s.res with x0 := 0 }

/-- R285, R286, R261: SKIP_TO and SKIP_BACK seek to the latest recorded I-frame at or before the wanted frame (or rewind where
there is none, SKIP_TO only) and decode forward to it exactly. R286, R318: where a frame on the way raises, the command ends as
NEXT_FRAME does there (NothingToDecodeOrDamaged), the seek and the frames already decoded staying in effect. With no frames at
all SKIP_TO answers 0; that it clears AVALID then is the model's reading (log 18). -/
def Obligations.SeekDecodesForward : Prop :=
  (∀ s : State, s.session = .decOpen → s.hdr.frameCount = 0 →
    exec .skipTo s = .next (complete { s with
      status := { s.status with avalid := false }, res := { s.res with x0 := 0 } })) ∧
  ∀ (s : State) (n : Nat), s.session = .decOpen →
    let seeks := fun (start : State) =>
      ∃ e, otFind n s.ot = some e ∧
        start = { s with fpos := e.off, frameCtr := e.fidx, status := { s.status with avalid := false, stale := true } }
    let through := fun (i : Instr) (start : State) =>
      (∀ u, FrameSteps start (n + 1 - start.frameCtr.toNat) u →
        u.frameCtr.toNat = n + 1 ∧ exec i s = .next (complete { u with res := { u.res with x0 := u.frameCtr } })) ∧
      ∀ k u v, FrameSteps start k u → u.frameCtr.toNat ≤ n → exec .nextFrame u = .next v → v.err ≠ 0 →
        exec i s = .next v ∧
        (v.session ≠ .closed → v.fpos = u.fpos ∧ v.frameCtr = u.frameCtr ∧ v.prev = u.prev ∧ v.key = u.key)
    (s.hdr.frameCount ≠ 0 → n = min s.arg.x0.toNat (s.hdr.frameCount.toNat - 1) →
      ∀ start, seeks start ∨ (otFind n s.ot = none ∧ start = rewind s) → through .skipTo start) ∧
    (s.arg.x0.toNat < s.frameCtr.toNat → n = s.frameCtr.toNat - s.arg.x0.toNat - 1 →
      ∀ start, seeks start → through .skipBack start)

/-! ## Encode session -/

/-- R295, R244, R311: ENC_SETUP with a sink and header registers that pass checks 4 to 9 opens an encode session with cleared
frames, palettes, histogram and sink; the first failing check changes nothing but the error. That RES[0] saturates where NBLK is
2^32 or more is the model's choice (log 7). -/
def Obligations.EncSetupOpens : Prop :=
  ∀ s : State, s.session = .closed →
    (s.plat.snkPresent = true → firstFailing (headerChecks s.par s.hdr) = none →
      ∃ t, exec .encSetup s = .next t ∧
        t = complete { s with
          session := .encSetup
          status := { s.status with alloc := true, fvalid := false, avalid := false, stale := false, lastkey := false }
          prev := t.prev
          key := t.key
          pal0 := t.pal0
          pal1 := t.pal1
          src := []
          cur := []
          bs := []
          cb := []
          ab := []
          ot := []
          hist := ⟨[], 0, 0⟩
          frameCtr := 0
          out := []
          outlen := 0
          fpos := 0
          firstChunk := 0
          last := ⟨0, 0, 0, 0⟩
          bslen := 0
          cblen := 0
          ablen := 0
          bspos := 0
          blk := 0
          pred := 0
          cfg := { s.cfg with meRange := if blockSizeCode s.hdr.version = 3 then 32 else 7 }
          res := { s.res with x0 := saturate (blockCount s.hdr) }
          epoch := s.epoch + 1 } ∧
        (∀ a < framePixels s.hdr, Memory.read t.prev a = some Colour.black ∧ Memory.read t.key a = some Colour.black) ∧
        ∀ i < 256, Memory.read t.pal0 i = some Colour.black ∧ Memory.read t.pal1 i = some Colour.black) ∧
    (s.plat.snkPresent = false → ∃ t, exec .encSetup s = .next t ∧
      t = { s with err := 0x402, errInfo := 0, status := { s.status with errf := true, vdone := videoDone s } }) ∧
    ∀ c, s.plat.snkPresent = true → firstFailing (headerChecks s.par s.hdr) = some c →
      exec .encSetup s = .next (checkRefused s 4 c)

/-- R296, R257: ENC_OPEN appends the header of the eleven registers and the palettes the profile carries, and nothing else of
OUT changes. -/
def Obligations.EncOpenWritesHeader : Prop :=
  ∀ s : State, s.session = .encSetup → s.io = [] → s.outlen.toNat + headerLength s.hdr.version < 2 ^ 32 →
    ∃ t, exec .encOpen s = .next t ∧
      t = complete { s with
        session := .encOpen
        firstChunk := BitVec.ofNat 32 (headerLength s.hdr.version)
        out := t.out
        outlen := BitVec.ofNat 32 (s.outlen.toNat + headerLength s.hdr.version)
        res := { s.res with x0 := BitVec.ofNat 32 (headerLength s.hdr.version) } } ∧
      (∀ i < 38, Memory.read t.out (s.outlen.toNat + i) = (encode (.hdr s.hdr))[i]?) ∧
      (∀ i < 768 * paletteTables s.hdr.version,
        let c := paletteAt s (decide (768 ≤ i)) (i % 768 / 3)
        Memory.read t.out (s.outlen.toNat + 38 + i) = some (if i % 3 = 0 then c.r else if i % 3 = 1 then c.g else c.b)) ∧
      ∀ a, a < s.outlen.toNat ∨ s.outlen.toNat + headerLength s.hdr.version ≤ a →
        Memory.read t.out a = Memory.read s.out a

/-- R297, R258, R230, R161, R206: ENC_FRAME encodes SRC as an I-frame (the first frame, every KEY_INTERVAL-th, or forced by
ARG[0] bit 0) or a P-frame, appends one frame chunk, records an I-frame's offset and commits; CB holds the payload, SRC and
every byte of OUT outside the chunk stay. R67, R301: lengths are exact, and a chunk that OUT cannot take is IOError without a
commit; CUR, BS and CB hold no value then (log 12). At FRAME_CTR = 2^32 - 1 it is refused, and an I-frame that the offset table
has no room for is MemoryAllocationFailure and loses the session. A length that no 32-bit register holds saturates: log 7. -/
def Obligations.EncFrameAppendsChunk : Prop :=
  (∀ s : State, s.session = .encOpen → s.frameCtr = 0xFFFFFFFF → exec .encFrame s = .next (refusedWith 0x42 s)) ∧
  ∀ (s : State) (ftype : FrameType), s.session = .encOpen → s.frameCtr.toNat < 2 ^ 32 - 1 →
    (ftype = .intra ↔ s.frameCtr = 0 ∨ (s.cfg.keyInterval ≠ 0 ∧ s.frameCtr.toNat % s.cfg.keyInterval.toNat = 0) ∨
      s.arg.x0.getLsbD 0 = true) →
    let full := ftype = .intra ∧ s.par.otCap ≤ s.ot.length
    (full → exec .encFrame s = .next (sessionLost s 0x403 s.frameCtr)) ∧
    (¬ full → s.io = [] →
      let p := packFrame ftype s
      let u := encodeFrame p s
      let payload := packPayload s.cfg.compEn p.bytes
      let header : AgfcFields := ⟨s.frameCtr, if ftype = .intra then 1 else 2, u.bslen, saturate payload.length⟩
      let chunk := encode (.agfc header) ++ payload
      (2 ^ 32 ≤ s.outlen.toNat + chunk.length → ∃ t, exec .encFrame s = .next t ∧
        t = { u with
          cur := []
          bs := []
          cb := []
          cblen := saturate payload.length
          epoch := t.epoch
          err := 0x106
          errInfo := s.outlen
          status := { s.status with errf := true, vdone := false } }) ∧
      (s.outlen.toNat + chunk.length < 2 ^ 32 → ∃ t, exec .encFrame s = .next t ∧
        t = complete { u with
          cb := t.cb
          cblen := header.csize
          epoch := t.epoch
          out := t.out
          outlen := BitVec.ofNat 32 (s.outlen.toNat + chunk.length)
          last := header
          ot := if ftype = .intra then s.ot ++ [⟨s.outlen, s.frameCtr⟩] else s.ot
          prev := u.cur
          key := if ftype = .intra then u.cur else s.key
          status := { s.status with
            fvalid := true
            lastkey := decide (ftype = .intra)
            stale := s.status.stale && decide (ftype = .inter) }
          frameCtr := s.frameCtr + 1
          res := ⟨header.ftype.setWidth 32, header.usize, header.csize, s.outlen⟩ } ∧
        t.src = s.src ∧ (∀ i, Memory.read t.cb i = payload[i]?) ∧
        (∀ i < chunk.length, Memory.read t.out (s.outlen.toNat + i) = chunk[i]?) ∧
        ∀ a, a < s.outlen.toNat ∨ s.outlen.toNat + chunk.length ≤ a → Memory.read t.out a = Memory.read s.out a))

/-- R298, R259: ENC_AUDIO appends one audio chunk with the packed bytes of AB; every other byte of OUT stays. That it also runs,
with the whole payload in CB, when the payload is longer than CB_CAP is the model's choice (log 22). R67, R301: a chunk that OUT
cannot take is IOError; CB holds the payload then too (log 12). -/
def Obligations.EncAudioAppendsChunk : Prop :=
  ∀ s : State, s.session = .encOpen → s.io = [] →
    let payload := packPayload s.cfg.compEn (abBytes s)
    let chunk := encode (.agac ⟨s.ablen, BitVec.ofNat 32 payload.length⟩) ++ payload
    (2 ^ 32 ≤ s.outlen.toNat + chunk.length → ∃ t, exec .encAudio s = .next t ∧
      t = { s with
        cb := t.cb
        cblen := BitVec.ofNat 32 payload.length
        epoch := s.epoch + 1
        err := 0x106
        errInfo := s.outlen
        status := { s.status with errf := true, vdone := false } } ∧
      ∀ i, Memory.read t.cb i = payload[i]?) ∧
    (s.outlen.toNat + chunk.length < 2 ^ 32 → ∃ t, exec .encAudio s = .next t ∧
      t = complete { s with
        cb := t.cb
        cblen := BitVec.ofNat 32 payload.length
        epoch := s.epoch + 1
        out := t.out
        outlen := BitVec.ofNat 32 (s.outlen.toNat + chunk.length)
        res := { s.res with x0 := BitVec.ofNat 32 payload.length, x1 := s.outlen } } ∧
      (∀ i, Memory.read t.cb i = payload[i]?) ∧
      (∀ i < chunk.length, Memory.read t.out (s.outlen.toNat + i) = chunk[i]?) ∧
      ∀ a, a < s.outlen.toNat ∨ s.outlen.toNat + chunk.length ≤ a → Memory.read t.out a = Memory.read s.out a)

/-- R299, R260, R276: ENC_CLOSE patches the frame count into bytes 4..7 of OUT in ENC_OPEN (and nothing in ENC_SETUP), reports
the counter and the length, and ends the session; a patch that fails leaves the session open and unpatched. Given-up
contents hold no value (log 8). -/
def Obligations.EncClosePatchesCount : Prop :=
  ∀ s : State,
    (s.session = .encSetup → exec .encClose s = .next (ended s { s.res with x0 := s.frameCtr, x1 := s.outlen })) ∧
    (s.session = .encOpen → s.io = [] → ∃ t, exec .encClose s = .next t ∧
      t = { ended s { s.res with x0 := s.frameCtr, x1 := s.outlen } with
        hdr := { s.hdr with frameCount := s.frameCtr }
        out := t.out } ∧
      (∀ i < 4, Memory.read t.out (4 + i) = (le32Bytes s.frameCtr)[i]?) ∧
      ∀ a, a < 4 ∨ 8 ≤ a → Memory.read t.out a = Memory.read s.out a) ∧
    ∀ rest, s.session = .encOpen → s.io = true :: rest → exec .encClose s = .next { s with
      io := rest
      err := 0x106
      errInfo := 4
      status := { s.status with errf := true, vdone := false } }

/-- R175: the classifier never emits SKIP, the decoder accepts it in a P-frame, and bit 9 of MODE_EN is without effect. -/
def Obligations.SkipNeverEmitted : Prop :=
  (∀ (s : State) (ftype : FrameType) (q : Sequencer),
    (classify s ftype q).code ≠ .skip ∧
    classify { s with cfg := { s.cfg with modeEn := s.cfg.modeEn ^^^ 0x200 } } ftype q = classify s ftype q) ∧
  ∀ (version : Byte) (rest : List Byte), decode (.block ⟨version, .inter⟩) (0x09 :: rest) = .ok (.skip, 1)

/-- R162, R164 to R173, R176: the classifier emits the code of the first step that passes and is enabled: COPY, FILL, ICOPY of
the first close neighbour, MV or PMV of the search's vector, VQ2 or VQ4 of the clustered pixels, else NORMAL; its colour
operands are those of R176. -/
def Obligations.ClassifierTakesFirstStep : Prop :=
  ∀ (s : State) (ftype : FrameType) (q : Sequencer) (v : Candidate),
    let n := blockPixels s.hdr.version
    let ox := blockX s.hdr q.blk
    let oy := blockY s.hdr q.blk
    searchAnswers s ox oy v →
    let px := fun k => colourAt s .src s.src (blockPixelAddr s.hdr ox oy k)
    let enabled := fun m => s.cfg.modeEn.getLsbD m = true
    let code := (classify s ftype q).code
    let copies := ftype = .inter ∧ enabled 3 ∧
      ∀ k < n, withinTolerance s (px k) (colourAt s .prev s.prev (blockPixelAddr s.hdr ox oy k))
    let fills := enabled 1 ∧ ∀ k < n, withinTolerance s (px k) (px 0)
    let close := fun back => back ≤ 65535 ∧ ∀ k < n, withinTolerance s (px k) (colourAt s .cur q.cur
      (blockPixelAddr s.hdr (blockX s.hdr (q.blk - back)) (blockY s.hdr (q.blk - back)) k))
    let refers := fun back => enabled 4 ∧ ∃ j, neighbourBack s.hdr q.blk j back ∧ close back ∧
      ∀ i < j, ∀ b, neighbourBack s.hdr q.blk i b → ¬ close b
    let ddx := v.dx - predX q.pred
    let ddy := v.dy - predY q.pred
    let fits := enabled 6 ∧ -8 ≤ ddx ∧ ddx ≤ 7 ∧ -8 ≤ ddy ∧ ddy ≤ 7
    let moves := ftype = .inter ∧ ¬ (v.dx = 0 ∧ v.dy = 0) ∧ v.cost < s.cfg.mvThresh.toNat * n ∧ (fits ∨ enabled 5)
    let pads := fun (reps : List Colour) m => (List.range m).map fun j => reps.getD j (reps.getLastD Colour.black)
    let two := fun (reps : List Colour) => reps.length ≤ 2 ∧ enabled 7
    (copies → code = .copy) ∧
    (¬ copies → fills → ∃ psel c, code = .fill psel c ∧ emits s psel [px 0] [c]) ∧
    (¬ copies → ¬ fills → ∀ back, refers back → code = .icopy (BitVec.ofNat 16 back)) ∧
    (¬ copies → ¬ fills → (∀ back, ¬ refers back) → moves →
      (fits → code = .pmv (BitVec.ofInt 4 ddx) (BitVec.ofInt 4 ddy)) ∧
      (¬ fits → code = .mv (BitVec.ofInt 8 v.dx) (BitVec.ofInt 8 v.dy))) ∧
    (¬ copies → ¬ fills → (∀ back, ¬ refers back) → ¬ moves → ∀ reps idx, clustered s px n reps idx →
      (two reps → ∃ psel c0 c1 bytes, code = .vq2 psel c0 c1 bytes ∧ emits s psel (pads reps 2) [c0, c1] ∧
        bytes.length = n / 8 ∧ ∀ k < n, (bytes.getD (k / 8) 0).getMsbD (k % 8) = decide (idx k = 1)) ∧
      (¬ two reps → enabled 8 → ∃ psel c0 c1 c2 c3 bytes, code = .vq4 psel c0 c1 c2 c3 bytes ∧
        emits s psel (pads reps 4) [c0, c1, c2, c3] ∧ bytes.length = n / 4 ∧
        ∀ k < n, (bytes.getD (k / 4) 0).getMsbD (2 * (k % 4)) = decide (2 ≤ idx k) ∧
          (bytes.getD (k / 4) 0).getMsbD (2 * (k % 4) + 1) = decide (idx k % 2 = 1))) ∧
    (¬ copies → ¬ fills → (∀ back, ¬ refers back) → ¬ moves →
      (∀ reps idx, clustered s px n reps idx → ¬ two reps ∧ ¬ enabled 8) →
      ∃ psel cs, code = .normal psel cs ∧ emits s psel ((List.range n).map px) cs)

/-- R178: EncodeFrame emits one code for each of the NBLK blocks in raster order, each the classification of its block with CUR
and PRED as a decoder of the codes before it has them. For a legal header, what the decoder makes of the encoder's bitstream,
with the same PREV and palettes, is exactly what the encoder reconstructed: every block code decodes, every byte is consumed,
and CUR, BSPOS, BLK and PRED agree. A number that no 32-bit register holds saturates: log 7. -/
def Obligations.DecoderRebuildsEncoderFrame : Prop :=
  ∀ (s : State) (ftype : FrameType), firstFailing (headerChecks s.par s.hdr) = none →
    ∃ (codes : List Instr) (q : Sequencer),
      let bytes := codes.flatMap encode
      codes.length = blockCount s.hdr ∧ bitstream (blockCtx s ftype) codes bytes ∧
      (∀ k < blockCount s.hdr, ∃ p, runCodes s (codes.take k) = .ok p ∧ codes[k]? = some (classify s ftype p).code) ∧
      (packFrame ftype s).bytes = bytes ∧
      encodeFrame (packFrame ftype s) s = { s with
        cur := q.cur
        bspos := saturate bytes.length
        blk := saturate (blockCount s.hdr)
        pred := q.pred
        bs := Memory.ofList 0 bytes
        bslen := saturate bytes.length
        epoch := s.epoch + 1 } ∧
      decodeBlocks { s with bs := Memory.ofList 0 bytes } ftype bytes.length (blockCount s.hdr) (sequencerStart s) = .ok q ∧
      q.bspos = bytes.length ∧ q.blk = blockCount s.hdr

/-! ## The host's registers and window -/

/-- R41, R68, R38, R104, R303: a write of WIN_DATA moves WIN_ADDR on by one, wrapping, and stores where the window may write: the
palettes in ENC_SETUP, SRC in an encode session as the unpacked pixel, BS, CB and AB while ALLOC = 1; elsewhere and out of range
nothing is stored. A pixel written reads back packed. -/
def Obligations.WindowAccess : Prop :=
  ∀ (s : State) (v : Word) (rest : List HostAccess), s.act = .idle →
    let a := s.winAddr.toNat
    let encodes := s.session = .encSetup ∨ s.session = .encOpen
    let colour : Colour := ⟨v.extractLsb' 16 8, v.extractLsb' 8 8, v.extractLsb' 0 8⟩
    let palette := s.session = .encSetup ∧ a < 256
    let source := s.winSel = 3 ∧ encodes ∧ a < framePixels s.hdr
    ∃ t, step { s with host := .write 0x42 v :: rest } = .next t ∧
      t = { s with
        host := rest
        winAddr := s.winAddr + 1
        pal0 := t.pal0
        pal1 := t.pal1
        src := t.src
        bs := t.bs
        cb := t.cb
        ab := t.ab } ∧
      storedIf (s.winSel = 1 ∧ palette) a colour s.pal0 t.pal0 ∧
      storedIf (s.winSel = 2 ∧ palette) a colour s.pal1 t.pal1 ∧
      (¬ source → t.src = s.src) ∧
      (∀ c, unpackedAs s.hdr.format v c → storedIf source a c s.src t.src ∧
        (source → s.status.alloc = true → packedAs s.hdr.format c (windowValue { t with winAddr := s.winAddr }))) ∧
      storedIf (s.winSel = 7 ∧ s.status.alloc = true ∧ a < s.par.bsCap) a (v.extractLsb' 0 8) s.bs t.bs ∧
      storedIf (s.winSel = 8 ∧ s.status.alloc = true ∧ a < s.par.cbCap) a (v.extractLsb' 0 8) s.cb t.cb ∧
      storedIf (s.winSel = 9 ∧ s.status.alloc = true ∧ a < s.par.abCap) a (v.extractLsb' 0 8) s.ab t.ab

/-- R41, R68, R104: a read of WIN_DATA answers the element at WIN_ADDR and moves WIN_ADDR on by one, wrapping, and changes
nothing else: a palette entry as 0x00RRGGBB, a pixel packed in FORMAT, a byte of BS, CB or AB, an offset-table word while
ALLOC = 1, a byte of OUT in an encode session; spaces 0 and 12 to 15 read 0. Out of range it answers 0, in every session state
(log 16). R20, R23 to R25, R45: a read of any other register answers its number by R20's table, STATUS by R23's bits and SESSION
by R25's codes, 0 where nothing is readable, and changes nothing; OT_COUNT saturates (log 7), an FPOS of 0 is log 9. Where the
value read stands is the model's (log 2). -/
def Obligations.HostReads : Prop :=
  (∀ (s : State) (index : Nat) (rest : List HostAccess), s.act = .idle → index ≠ 0x42 →
    step { s with host := .read index :: rest } =
      .next { s with host := rest, hostData := registerValue s index } ∧
    (∀ n, (index, n) ∈ registerNumbers s → (registerValue s index).toNat = n) ∧
    ((∀ n, (index, n) ∉ registerNumbers s) → registerValue s index = 0)) ∧
  ∀ (s : State) (rest : List HostAccess), s.act = .idle →
    let a := s.winAddr.toNat
    let sel := s.winSel.toNat
    ∃ (t : State) (w : Word), step { s with host := .read 0x42 :: rest } = .next t ∧
      t = { s with host := rest, winAddr := s.winAddr + 1, hostData := w.setWidth 33, epoch := t.epoch } ∧
      (s.status.alloc = true →
        (sel = 1 → a < 256 → w = 0#8 ++ (paletteAt s false a).r ++ (paletteAt s false a).g ++ (paletteAt s false a).b) ∧
        (sel = 2 → a < 256 → w = 0#8 ++ (paletteAt s true a).r ++ (paletteAt s true a).g ++ (paletteAt s true a).b) ∧
        (a < framePixels s.hdr →
          (sel = 3 → packedAs s.hdr.format (colourAt s .src s.src a) w) ∧
          (sel = 4 → packedAs s.hdr.format (colourAt s .prev s.prev a) w) ∧
          (sel = 5 → packedAs s.hdr.format (colourAt s .key s.key a) w) ∧
          (sel = 6 → packedAs s.hdr.format (colourAt s .cur s.cur a) w)) ∧
        (sel = 7 → a < s.par.bsCap → w = (byteAt s .bs s.bs a).setWidth 32) ∧
        (sel = 8 → a < s.par.cbCap → w = (byteAt s .cb s.cb a).setWidth 32) ∧
        (sel = 9 → a < s.par.abCap → w = (byteAt s .ab s.ab a).setWidth 32) ∧
        (sel = 10 → ∀ e, s.ot[a / 2]? = some e → w = if a % 2 = 0 then e.off else e.fidx)) ∧
      (sel = 11 → s.session = .encSetup ∨ s.session = .encOpen → a < s.outlen.toNat →
        w = (byteAt s .out s.out a).setWidth 32) ∧
      (sel = 0 ∨ 12 ≤ sel ∨ ((sel = 1 ∨ sel = 2) ∧ 256 ≤ a) ∨ (3 ≤ sel ∧ sel ≤ 6 ∧ framePixels s.hdr ≤ a) ∨
        (sel = 7 ∧ s.par.bsCap ≤ a) ∨ (sel = 8 ∧ s.par.cbCap ≤ a) ∨ (sel = 9 ∧ s.par.abCap ≤ a) ∨
        (sel = 10 ∧ 2 * s.ot.length ≤ a) ∨ (sel = 11 ∧ s.outlen.toNat ≤ a) → w = 0)

/-- R20, R30, R34, R36, R42, R45: a host write of any register but CMD and WIN_DATA: the register reads back the written bits it
has (a header register only while CLOSED), MODE_EN with its hardwired bits, DIST_RATIO at most 256, a length at most its
buffer's capacity; every other register reads as before; a read-only or reserved index, or a header register of an open
session, changes nothing. DIST_RATIO takes nine bits before it is limited (log 10); the bytes below a length stay (log 11). -/
def Obligations.RegisterWrites : Prop :=
  ∀ (s : State) (index : Nat) (v : Word) (rest : List HostAccess), s.act = .idle → index ≠ 0 → index ≠ 0x42 →
    ∃ t, step { s with host := .write index v :: rest } = .next t ∧
      t = { s with
        host := rest
        arg := t.arg
        hdr := t.hdr
        cfg := t.cfg
        winSel := t.winSel
        winAddr := t.winAddr
        bslen := t.bslen
        cblen := t.cblen
        ablen := t.ablen
        bs := t.bs
        cb := t.cb
        ab := t.ab
        epoch := t.epoch } ∧
      (∀ other, other ≠ index → registerValue t other = registerValue s other) ∧
      (∀ w, plainWidth index = some w → (headerIndex index → s.session = .closed) →
        (registerValue t index).toNat = v.toNat % 2 ^ w) ∧
      (index = 0x33 → (registerValue t 0x33).toNat < 2 ^ 10 ∧ ∀ m < 10, (registerValue t 0x33).getLsbD m =
        if m = 0 then false else if m = 2 then true else v.getLsbD m) ∧
      (index = 0x39 → (registerValue t 0x39).toNat = min (v.toNat % 512) 256) ∧
      (index = 0x29 → (registerValue t 0x29).toNat = min v.toNat s.par.bsCap) ∧
      (index = 0x2A → (registerValue t 0x2A).toNat = min v.toNat s.par.cbCap) ∧
      (index = 0x2B → (registerValue t 0x2B).toNat = min v.toNat s.par.abCap) ∧
      (∀ a, (a < t.bslen.toNat → Memory.read t.bs a = Memory.read s.bs a) ∧
        (a < t.cblen.toNat → Memory.read t.cb a = Memory.read s.cb a) ∧
        (a < t.ablen.toNat → Memory.read t.ab a = Memory.read s.ab a)) ∧
      (¬ writableIndex index ∨ headerIndex index ∧ s.session ≠ .closed → t = { s with host := rest })

/-! ## Encoding -/

/-- R90 to R102: decoding the bytes of any well-formed instruction, whatever follows them, gives it back with its length. -/
def Obligations.DecodeEncodeRoundTrip : Prop :=
  ∀ (ctx : BlockCtx) (i : Instr) (rest : List Byte), wellFormed ctx i = true →
    decode (languageOf ctx i) (encode i ++ rest) = .ok (i, (encode i).length)

/-- R105, R192, R193: whatever block code the decoder accepts is well-formed, and its bytes are the ones read: no reserved
encoding is accepted and no bit is dropped. -/
def Obligations.DecodedBlocksAreWellFormed : Prop :=
  ∀ (ctx : BlockCtx) (bytes : List Byte) (i : Instr) (n : Nat), decode (.block ctx) bytes = .ok (i, n) →
    wellFormed ctx i = true ∧ languageOf ctx i = .block ctx ∧ bytes.take n = encode i ∧ n = (encode i).length

/-- R92, R96 to R102: a word of each language, written out from its encoding, decodes to its instruction. -/
def Obligations.EncodedWordsDecode : Prop :=
  decode .command [0x35] = .ok (.blockSad, 1) ∧
  decode (.block ⟨0x00, .inter⟩) [0x01, 0x00, 0x7C] = .ok (.fill false (.rgb555 0x7C00), 3) ∧
  decode (.block ⟨0x01, .inter⟩) [0x05, 0x02, 0xFD] = .ok (.mv 2 0xFD, 3) ∧
  decode (.block ⟨0x01, .inter⟩) [0x06, 0xD1] = .ok (.pmv 0xD 1, 2) ∧
  decode (.unit false) [0x1F, 0x00] = .ok (.ref 1 15, 2) ∧
  decode .chunk [0x41, 0x47, 0x41, 0x43, 8, 0, 0, 0, 4, 0, 0, 0] = .ok (.agac ⟨8, 4⟩, 12)

/-! ## The step -/

/-- R90, R191, R227, R270: a step runs the instruction that stands where the machine fetches: the command the host writes, the
block code at BSPOS, the unit at IPOS under its flag bit, the record being read. The fetch points of the inner languages are
the model's (log 1, log 3). -/
def Obligations.StepRunsDecoded : Prop :=
  (∀ (s : State) (v : Word) (rest : List HostAccess) (i : Instr) (n : Nat), s.act = .idle → s.host = .write 0 v :: rest →
    decode .command [v.setWidth 8] = .ok (i, n) → step s = exec i { s with host := rest }) ∧
  (∀ (s : State) (r : FrameRun) (i : Instr) (n : Nat), fetchesBlock s r →
    decode (.block (blockCtx s r.ftype))
      (bytesAt s .bs s.bs s.bspos.toNat (min 129 (r.len - s.bspos.toNat))) = .ok (i, n) → step s = exec i s) ∧
  (∀ (s : State) (r : LzRun) (i : Instr) (n : Nat), s.act = .lzss r → r.opos < r.n → r.k < 8 →
    decode (.unit (r.flags.getLsbD (7 - r.k)))
      (bytesAt s .cb s.cb r.ipos (min 2 (s.cblen.toNat - r.ipos))) = .ok (i, n) → step s = exec i s) ∧
  (∀ (s : State) (r : LzRun) (i : Instr) (n : Nat), s.act = .lzss r → r.opos < r.n → 8 ≤ r.k → r.ipos < s.cblen.toNat →
    decode (.unit ((byteAt s .cb s.cb r.ipos).getLsbD 7))
      (bytesAt s .cb s.cb (r.ipos + 1) (min 2 (s.cblen.toNat - (r.ipos + 1)))) = .ok (i, n) →
    step s = exec i { s with
      act := .lzss { r with ipos := r.ipos + 1, flags := byteAt s .cb s.cb r.ipos, k := 0 } }) ∧
  (∀ (s : State) (f : HdrFields), s.act = .container .header → s.io = [] → s.plat.srcPresent = true →
    streamHolds s 0 (encode (.hdr f)) → step s = exec (.hdr f) s) ∧
  (∀ (s : State) (a : Nat) (f : AgfcFields), s.act = .container (.frame a) → s.io = [] →
    streamHolds s a (encode (.agfc f)) → step s = exec (.agfc f) s) ∧
  (∀ (s : State) (a : Nat) (f : AgacFields), s.act = .container (.frame a) → s.io = [] →
    streamHolds s a (encode (.agac f)) → step s = exec (.agac f) s) ∧
  ∀ (s : State) (f : AgacFields), s.act = .container .audio → s.io = [] →
    streamHolds s (streamPos s) (encode (.agac f)) →
    step s = exec (.agac f) { s with status := { s.status with avalid := false } }

/-- R319: the machine never halts or locks up: every step, of every state, answers a next state. -/
def Obligations.StepNeverStops : Prop :=
  ∀ s : State, ∃ t, step s = .next t

/-! ## Invariants -/

/-- Every step keeps every memory in canonical form. The canonical form is the model's own (log 8). -/
def Obligations.StepKeepsMemoriesCanonical : Prop :=
  ∀ s t : State, memoriesCanonical s = true → step s = .next t → memoriesCanonical t = true

/-- R23 to R25, R34, R36, R40, R64, R244: every step between commands keeps the hardwired bits, the error and status bits, the
histogram's counts and the legality of the open session's header. -/
def Obligations.StepKeepsControlCoherent : Prop :=
  ∀ s t : State, controlCoherent s = true → step s = .next t → controlCoherent t = true

/-- R39, R32, R249, R301: every step between commands keeps the offset table strictly increasing and within its capacity, and
the cursors within the file: in a decode session FIRST_CHUNK <= FPOS <= STREAM_LEN and FRAME_CTR <= FRAME_COUNT. That an FPOS of
0 names the position 2^32 there is the model's reading (log 9). -/
def Obligations.StepKeepsCursorsLegal : Prop :=
  ∀ s t : State, cursorsLegal s = true → step s = .next t → cursorsLegal t = true

/-- The reset state satisfies the three invariants. -/
def Obligations.ResetSatisfiesInvariants : Prop :=
  memoriesCanonical State.reset = true ∧ controlCoherent State.reset = true ∧ cursorsLegal State.reset = true
end

