-- ==== Sys2Proof/Laws/State.lean ====
section
/-! SUPPORT. One lemma per field per named update of the state, all true by unfolding. -/

namespace Sys2Proof.Machine

@[simp] theorem setRes0_err (v : Nat) (s : State) : (setRes0 v s).err = s.err := rfl
@[simp] theorem setRes0_errInfo (v : Nat) (s : State) : (setRes0 v s).errInfo = s.errInfo := rfl
@[simp] theorem setRes0_status (v : Nat) (s : State) : (setRes0 v s).status = s.status := rfl
@[simp] theorem setRes0_session (v : Nat) (s : State) : (setRes0 v s).session = s.session := rfl
@[simp] theorem setRes0_arg (v : Nat) (s : State) : (setRes0 v s).arg = s.arg := rfl
@[simp] theorem setRes0_res (v : Nat) (s : State) : (setRes0 v s).res = { s.res with x0 := saturate v } := rfl
@[simp] theorem setRes0_hdr (v : Nat) (s : State) : (setRes0 v s).hdr = s.hdr := rfl
@[simp] theorem setRes0_frameCtr (v : Nat) (s : State) : (setRes0 v s).frameCtr = s.frameCtr := rfl
@[simp] theorem setRes0_fpos (v : Nat) (s : State) : (setRes0 v s).fpos = s.fpos := rfl
@[simp] theorem setRes0_firstChunk (v : Nat) (s : State) : (setRes0 v s).firstChunk = s.firstChunk := rfl
@[simp] theorem setRes0_bspos (v : Nat) (s : State) : (setRes0 v s).bspos = s.bspos := rfl
@[simp] theorem setRes0_blk (v : Nat) (s : State) : (setRes0 v s).blk = s.blk := rfl
@[simp] theorem setRes0_pred (v : Nat) (s : State) : (setRes0 v s).pred = s.pred := rfl
@[simp] theorem setRes0_last (v : Nat) (s : State) : (setRes0 v s).last = s.last := rfl
@[simp] theorem setRes0_bslen (v : Nat) (s : State) : (setRes0 v s).bslen = s.bslen := rfl
@[simp] theorem setRes0_cblen (v : Nat) (s : State) : (setRes0 v s).cblen = s.cblen := rfl
@[simp] theorem setRes0_ablen (v : Nat) (s : State) : (setRes0 v s).ablen = s.ablen := rfl
@[simp] theorem setRes0_outlen (v : Nat) (s : State) : (setRes0 v s).outlen = s.outlen := rfl
@[simp] theorem setRes0_cfg (v : Nat) (s : State) : (setRes0 v s).cfg = s.cfg := rfl
@[simp] theorem setRes0_hist (v : Nat) (s : State) : (setRes0 v s).hist = s.hist := rfl
@[simp] theorem setRes0_winSel (v : Nat) (s : State) : (setRes0 v s).winSel = s.winSel := rfl
@[simp] theorem setRes0_winAddr (v : Nat) (s : State) : (setRes0 v s).winAddr = s.winAddr := rfl
@[simp] theorem setRes0_ot (v : Nat) (s : State) : (setRes0 v s).ot = s.ot := rfl
@[simp] theorem setRes0_src (v : Nat) (s : State) : (setRes0 v s).src = s.src := rfl
@[simp] theorem setRes0_cur (v : Nat) (s : State) : (setRes0 v s).cur = s.cur := rfl
@[simp] theorem setRes0_prev (v : Nat) (s : State) : (setRes0 v s).prev = s.prev := rfl
@[simp] theorem setRes0_key (v : Nat) (s : State) : (setRes0 v s).key = s.key := rfl
@[simp] theorem setRes0_pal0 (v : Nat) (s : State) : (setRes0 v s).pal0 = s.pal0 := rfl
@[simp] theorem setRes0_pal1 (v : Nat) (s : State) : (setRes0 v s).pal1 = s.pal1 := rfl
@[simp] theorem setRes0_bs (v : Nat) (s : State) : (setRes0 v s).bs = s.bs := rfl
@[simp] theorem setRes0_cb (v : Nat) (s : State) : (setRes0 v s).cb = s.cb := rfl
@[simp] theorem setRes0_ab (v : Nat) (s : State) : (setRes0 v s).ab = s.ab := rfl
@[simp] theorem setRes0_out (v : Nat) (s : State) : (setRes0 v s).out = s.out := rfl
@[simp] theorem setRes0_plat (v : Nat) (s : State) : (setRes0 v s).plat = s.plat := rfl
@[simp] theorem setRes0_host (v : Nat) (s : State) : (setRes0 v s).host = s.host := rfl
@[simp] theorem setRes0_hostData (v : Nat) (s : State) : (setRes0 v s).hostData = s.hostData := rfl
@[simp] theorem setRes0_io (v : Nat) (s : State) : (setRes0 v s).io = s.io := rfl
@[simp] theorem setRes0_par (v : Nat) (s : State) : (setRes0 v s).par = s.par := rfl
@[simp] theorem setRes0_act (v : Nat) (s : State) : (setRes0 v s).act = s.act := rfl
@[simp] theorem setRes0_epoch (v : Nat) (s : State) : (setRes0 v s).epoch = s.epoch := rfl

@[simp] theorem setRes1_err (v : Nat) (s : State) : (setRes1 v s).err = s.err := rfl
@[simp] theorem setRes1_errInfo (v : Nat) (s : State) : (setRes1 v s).errInfo = s.errInfo := rfl
@[simp] theorem setRes1_status (v : Nat) (s : State) : (setRes1 v s).status = s.status := rfl
@[simp] theorem setRes1_session (v : Nat) (s : State) : (setRes1 v s).session = s.session := rfl
@[simp] theorem setRes1_arg (v : Nat) (s : State) : (setRes1 v s).arg = s.arg := rfl
@[simp] theorem setRes1_res (v : Nat) (s : State) : (setRes1 v s).res = { s.res with x1 := saturate v } := rfl
@[simp] theorem setRes1_hdr (v : Nat) (s : State) : (setRes1 v s).hdr = s.hdr := rfl
@[simp] theorem setRes1_frameCtr (v : Nat) (s : State) : (setRes1 v s).frameCtr = s.frameCtr := rfl
@[simp] theorem setRes1_fpos (v : Nat) (s : State) : (setRes1 v s).fpos = s.fpos := rfl
@[simp] theorem setRes1_firstChunk (v : Nat) (s : State) : (setRes1 v s).firstChunk = s.firstChunk := rfl
@[simp] theorem setRes1_bspos (v : Nat) (s : State) : (setRes1 v s).bspos = s.bspos := rfl
@[simp] theorem setRes1_blk (v : Nat) (s : State) : (setRes1 v s).blk = s.blk := rfl
@[simp] theorem setRes1_pred (v : Nat) (s : State) : (setRes1 v s).pred = s.pred := rfl
@[simp] theorem setRes1_last (v : Nat) (s : State) : (setRes1 v s).last = s.last := rfl
@[simp] theorem setRes1_bslen (v : Nat) (s : State) : (setRes1 v s).bslen = s.bslen := rfl
@[simp] theorem setRes1_cblen (v : Nat) (s : State) : (setRes1 v s).cblen = s.cblen := rfl
@[simp] theorem setRes1_ablen (v : Nat) (s : State) : (setRes1 v s).ablen = s.ablen := rfl
@[simp] theorem setRes1_outlen (v : Nat) (s : State) : (setRes1 v s).outlen = s.outlen := rfl
@[simp] theorem setRes1_cfg (v : Nat) (s : State) : (setRes1 v s).cfg = s.cfg := rfl
@[simp] theorem setRes1_hist (v : Nat) (s : State) : (setRes1 v s).hist = s.hist := rfl
@[simp] theorem setRes1_winSel (v : Nat) (s : State) : (setRes1 v s).winSel = s.winSel := rfl
@[simp] theorem setRes1_winAddr (v : Nat) (s : State) : (setRes1 v s).winAddr = s.winAddr := rfl
@[simp] theorem setRes1_ot (v : Nat) (s : State) : (setRes1 v s).ot = s.ot := rfl
@[simp] theorem setRes1_src (v : Nat) (s : State) : (setRes1 v s).src = s.src := rfl
@[simp] theorem setRes1_cur (v : Nat) (s : State) : (setRes1 v s).cur = s.cur := rfl
@[simp] theorem setRes1_prev (v : Nat) (s : State) : (setRes1 v s).prev = s.prev := rfl
@[simp] theorem setRes1_key (v : Nat) (s : State) : (setRes1 v s).key = s.key := rfl
@[simp] theorem setRes1_pal0 (v : Nat) (s : State) : (setRes1 v s).pal0 = s.pal0 := rfl
@[simp] theorem setRes1_pal1 (v : Nat) (s : State) : (setRes1 v s).pal1 = s.pal1 := rfl
@[simp] theorem setRes1_bs (v : Nat) (s : State) : (setRes1 v s).bs = s.bs := rfl
@[simp] theorem setRes1_cb (v : Nat) (s : State) : (setRes1 v s).cb = s.cb := rfl
@[simp] theorem setRes1_ab (v : Nat) (s : State) : (setRes1 v s).ab = s.ab := rfl
@[simp] theorem setRes1_out (v : Nat) (s : State) : (setRes1 v s).out = s.out := rfl
@[simp] theorem setRes1_plat (v : Nat) (s : State) : (setRes1 v s).plat = s.plat := rfl
@[simp] theorem setRes1_host (v : Nat) (s : State) : (setRes1 v s).host = s.host := rfl
@[simp] theorem setRes1_hostData (v : Nat) (s : State) : (setRes1 v s).hostData = s.hostData := rfl
@[simp] theorem setRes1_io (v : Nat) (s : State) : (setRes1 v s).io = s.io := rfl
@[simp] theorem setRes1_par (v : Nat) (s : State) : (setRes1 v s).par = s.par := rfl
@[simp] theorem setRes1_act (v : Nat) (s : State) : (setRes1 v s).act = s.act := rfl
@[simp] theorem setRes1_epoch (v : Nat) (s : State) : (setRes1 v s).epoch = s.epoch := rfl

@[simp] theorem setRes2_err (v : Nat) (s : State) : (setRes2 v s).err = s.err := rfl
@[simp] theorem setRes2_errInfo (v : Nat) (s : State) : (setRes2 v s).errInfo = s.errInfo := rfl
@[simp] theorem setRes2_status (v : Nat) (s : State) : (setRes2 v s).status = s.status := rfl
@[simp] theorem setRes2_session (v : Nat) (s : State) : (setRes2 v s).session = s.session := rfl
@[simp] theorem setRes2_arg (v : Nat) (s : State) : (setRes2 v s).arg = s.arg := rfl
@[simp] theorem setRes2_res (v : Nat) (s : State) : (setRes2 v s).res = { s.res with x2 := saturate v } := rfl
@[simp] theorem setRes2_hdr (v : Nat) (s : State) : (setRes2 v s).hdr = s.hdr := rfl
@[simp] theorem setRes2_frameCtr (v : Nat) (s : State) : (setRes2 v s).frameCtr = s.frameCtr := rfl
@[simp] theorem setRes2_fpos (v : Nat) (s : State) : (setRes2 v s).fpos = s.fpos := rfl
@[simp] theorem setRes2_firstChunk (v : Nat) (s : State) : (setRes2 v s).firstChunk = s.firstChunk := rfl
@[simp] theorem setRes2_bspos (v : Nat) (s : State) : (setRes2 v s).bspos = s.bspos := rfl
@[simp] theorem setRes2_blk (v : Nat) (s : State) : (setRes2 v s).blk = s.blk := rfl
@[simp] theorem setRes2_pred (v : Nat) (s : State) : (setRes2 v s).pred = s.pred := rfl
@[simp] theorem setRes2_last (v : Nat) (s : State) : (setRes2 v s).last = s.last := rfl
@[simp] theorem setRes2_bslen (v : Nat) (s : State) : (setRes2 v s).bslen = s.bslen := rfl
@[simp] theorem setRes2_cblen (v : Nat) (s : State) : (setRes2 v s).cblen = s.cblen := rfl
@[simp] theorem setRes2_ablen (v : Nat) (s : State) : (setRes2 v s).ablen = s.ablen := rfl
@[simp] theorem setRes2_outlen (v : Nat) (s : State) : (setRes2 v s).outlen = s.outlen := rfl
@[simp] theorem setRes2_cfg (v : Nat) (s : State) : (setRes2 v s).cfg = s.cfg := rfl
@[simp] theorem setRes2_hist (v : Nat) (s : State) : (setRes2 v s).hist = s.hist := rfl
@[simp] theorem setRes2_winSel (v : Nat) (s : State) : (setRes2 v s).winSel = s.winSel := rfl
@[simp] theorem setRes2_winAddr (v : Nat) (s : State) : (setRes2 v s).winAddr = s.winAddr := rfl
@[simp] theorem setRes2_ot (v : Nat) (s : State) : (setRes2 v s).ot = s.ot := rfl
@[simp] theorem setRes2_src (v : Nat) (s : State) : (setRes2 v s).src = s.src := rfl
@[simp] theorem setRes2_cur (v : Nat) (s : State) : (setRes2 v s).cur = s.cur := rfl
@[simp] theorem setRes2_prev (v : Nat) (s : State) : (setRes2 v s).prev = s.prev := rfl
@[simp] theorem setRes2_key (v : Nat) (s : State) : (setRes2 v s).key = s.key := rfl
@[simp] theorem setRes2_pal0 (v : Nat) (s : State) : (setRes2 v s).pal0 = s.pal0 := rfl
@[simp] theorem setRes2_pal1 (v : Nat) (s : State) : (setRes2 v s).pal1 = s.pal1 := rfl
@[simp] theorem setRes2_bs (v : Nat) (s : State) : (setRes2 v s).bs = s.bs := rfl
@[simp] theorem setRes2_cb (v : Nat) (s : State) : (setRes2 v s).cb = s.cb := rfl
@[simp] theorem setRes2_ab (v : Nat) (s : State) : (setRes2 v s).ab = s.ab := rfl
@[simp] theorem setRes2_out (v : Nat) (s : State) : (setRes2 v s).out = s.out := rfl
@[simp] theorem setRes2_plat (v : Nat) (s : State) : (setRes2 v s).plat = s.plat := rfl
@[simp] theorem setRes2_host (v : Nat) (s : State) : (setRes2 v s).host = s.host := rfl
@[simp] theorem setRes2_hostData (v : Nat) (s : State) : (setRes2 v s).hostData = s.hostData := rfl
@[simp] theorem setRes2_io (v : Nat) (s : State) : (setRes2 v s).io = s.io := rfl
@[simp] theorem setRes2_par (v : Nat) (s : State) : (setRes2 v s).par = s.par := rfl
@[simp] theorem setRes2_act (v : Nat) (s : State) : (setRes2 v s).act = s.act := rfl
@[simp] theorem setRes2_epoch (v : Nat) (s : State) : (setRes2 v s).epoch = s.epoch := rfl

@[simp] theorem setRes3_err (v : Nat) (s : State) : (setRes3 v s).err = s.err := rfl
@[simp] theorem setRes3_errInfo (v : Nat) (s : State) : (setRes3 v s).errInfo = s.errInfo := rfl
@[simp] theorem setRes3_status (v : Nat) (s : State) : (setRes3 v s).status = s.status := rfl
@[simp] theorem setRes3_session (v : Nat) (s : State) : (setRes3 v s).session = s.session := rfl
@[simp] theorem setRes3_arg (v : Nat) (s : State) : (setRes3 v s).arg = s.arg := rfl
@[simp] theorem setRes3_res (v : Nat) (s : State) : (setRes3 v s).res = { s.res with x3 := saturate v } := rfl
@[simp] theorem setRes3_hdr (v : Nat) (s : State) : (setRes3 v s).hdr = s.hdr := rfl
@[simp] theorem setRes3_frameCtr (v : Nat) (s : State) : (setRes3 v s).frameCtr = s.frameCtr := rfl
@[simp] theorem setRes3_fpos (v : Nat) (s : State) : (setRes3 v s).fpos = s.fpos := rfl
@[simp] theorem setRes3_firstChunk (v : Nat) (s : State) : (setRes3 v s).firstChunk = s.firstChunk := rfl
@[simp] theorem setRes3_bspos (v : Nat) (s : State) : (setRes3 v s).bspos = s.bspos := rfl
@[simp] theorem setRes3_blk (v : Nat) (s : State) : (setRes3 v s).blk = s.blk := rfl
@[simp] theorem setRes3_pred (v : Nat) (s : State) : (setRes3 v s).pred = s.pred := rfl
@[simp] theorem setRes3_last (v : Nat) (s : State) : (setRes3 v s).last = s.last := rfl
@[simp] theorem setRes3_bslen (v : Nat) (s : State) : (setRes3 v s).bslen = s.bslen := rfl
@[simp] theorem setRes3_cblen (v : Nat) (s : State) : (setRes3 v s).cblen = s.cblen := rfl
@[simp] theorem setRes3_ablen (v : Nat) (s : State) : (setRes3 v s).ablen = s.ablen := rfl
@[simp] theorem setRes3_outlen (v : Nat) (s : State) : (setRes3 v s).outlen = s.outlen := rfl
@[simp] theorem setRes3_cfg (v : Nat) (s : State) : (setRes3 v s).cfg = s.cfg := rfl
@[simp] theorem setRes3_hist (v : Nat) (s : State) : (setRes3 v s).hist = s.hist := rfl
@[simp] theorem setRes3_winSel (v : Nat) (s : State) : (setRes3 v s).winSel = s.winSel := rfl
@[simp] theorem setRes3_winAddr (v : Nat) (s : State) : (setRes3 v s).winAddr = s.winAddr := rfl
@[simp] theorem setRes3_ot (v : Nat) (s : State) : (setRes3 v s).ot = s.ot := rfl
@[simp] theorem setRes3_src (v : Nat) (s : State) : (setRes3 v s).src = s.src := rfl
@[simp] theorem setRes3_cur (v : Nat) (s : State) : (setRes3 v s).cur = s.cur := rfl
@[simp] theorem setRes3_prev (v : Nat) (s : State) : (setRes3 v s).prev = s.prev := rfl
@[simp] theorem setRes3_key (v : Nat) (s : State) : (setRes3 v s).key = s.key := rfl
@[simp] theorem setRes3_pal0 (v : Nat) (s : State) : (setRes3 v s).pal0 = s.pal0 := rfl
@[simp] theorem setRes3_pal1 (v : Nat) (s : State) : (setRes3 v s).pal1 = s.pal1 := rfl
@[simp] theorem setRes3_bs (v : Nat) (s : State) : (setRes3 v s).bs = s.bs := rfl
@[simp] theorem setRes3_cb (v : Nat) (s : State) : (setRes3 v s).cb = s.cb := rfl
@[simp] theorem setRes3_ab (v : Nat) (s : State) : (setRes3 v s).ab = s.ab := rfl
@[simp] theorem setRes3_out (v : Nat) (s : State) : (setRes3 v s).out = s.out := rfl
@[simp] theorem setRes3_plat (v : Nat) (s : State) : (setRes3 v s).plat = s.plat := rfl
@[simp] theorem setRes3_host (v : Nat) (s : State) : (setRes3 v s).host = s.host := rfl
@[simp] theorem setRes3_hostData (v : Nat) (s : State) : (setRes3 v s).hostData = s.hostData := rfl
@[simp] theorem setRes3_io (v : Nat) (s : State) : (setRes3 v s).io = s.io := rfl
@[simp] theorem setRes3_par (v : Nat) (s : State) : (setRes3 v s).par = s.par := rfl
@[simp] theorem setRes3_act (v : Nat) (s : State) : (setRes3 v s).act = s.act := rfl
@[simp] theorem setRes3_epoch (v : Nat) (s : State) : (setRes3 v s).epoch = s.epoch := rfl

@[simp] theorem recordError_err (e : Raise) (s : State) : (recordError e s).err = e.unit ++ (0 : BitVec 4) ++ e.kind.code := rfl
@[simp] theorem recordError_errInfo (e : Raise) (s : State) : (recordError e s).errInfo = BitVec.ofNat 32 e.info := rfl
@[simp] theorem recordError_status (e : Raise) (s : State) : (recordError e s).status = { s.status with errf := true, vdone := videoDone s } := rfl
@[simp] theorem recordError_session (e : Raise) (s : State) : (recordError e s).session = s.session := rfl
@[simp] theorem recordError_arg (e : Raise) (s : State) : (recordError e s).arg = s.arg := rfl
@[simp] theorem recordError_res (e : Raise) (s : State) : (recordError e s).res = s.res := rfl
@[simp] theorem recordError_hdr (e : Raise) (s : State) : (recordError e s).hdr = s.hdr := rfl
@[simp] theorem recordError_frameCtr (e : Raise) (s : State) : (recordError e s).frameCtr = s.frameCtr := rfl
@[simp] theorem recordError_fpos (e : Raise) (s : State) : (recordError e s).fpos = s.fpos := rfl
@[simp] theorem recordError_firstChunk (e : Raise) (s : State) : (recordError e s).firstChunk = s.firstChunk := rfl
@[simp] theorem recordError_bspos (e : Raise) (s : State) : (recordError e s).bspos = s.bspos := rfl
@[simp] theorem recordError_blk (e : Raise) (s : State) : (recordError e s).blk = s.blk := rfl
@[simp] theorem recordError_pred (e : Raise) (s : State) : (recordError e s).pred = s.pred := rfl
@[simp] theorem recordError_last (e : Raise) (s : State) : (recordError e s).last = s.last := rfl
@[simp] theorem recordError_bslen (e : Raise) (s : State) : (recordError e s).bslen = s.bslen := rfl
@[simp] theorem recordError_cblen (e : Raise) (s : State) : (recordError e s).cblen = s.cblen := rfl
@[simp] theorem recordError_ablen (e : Raise) (s : State) : (recordError e s).ablen = s.ablen := rfl
@[simp] theorem recordError_outlen (e : Raise) (s : State) : (recordError e s).outlen = s.outlen := rfl
@[simp] theorem recordError_cfg (e : Raise) (s : State) : (recordError e s).cfg = s.cfg := rfl
@[simp] theorem recordError_hist (e : Raise) (s : State) : (recordError e s).hist = s.hist := rfl
@[simp] theorem recordError_winSel (e : Raise) (s : State) : (recordError e s).winSel = s.winSel := rfl
@[simp] theorem recordError_winAddr (e : Raise) (s : State) : (recordError e s).winAddr = s.winAddr := rfl
@[simp] theorem recordError_ot (e : Raise) (s : State) : (recordError e s).ot = s.ot := rfl
@[simp] theorem recordError_src (e : Raise) (s : State) : (recordError e s).src = s.src := rfl
@[simp] theorem recordError_cur (e : Raise) (s : State) : (recordError e s).cur = s.cur := rfl
@[simp] theorem recordError_prev (e : Raise) (s : State) : (recordError e s).prev = s.prev := rfl
@[simp] theorem recordError_key (e : Raise) (s : State) : (recordError e s).key = s.key := rfl
@[simp] theorem recordError_pal0 (e : Raise) (s : State) : (recordError e s).pal0 = s.pal0 := rfl
@[simp] theorem recordError_pal1 (e : Raise) (s : State) : (recordError e s).pal1 = s.pal1 := rfl
@[simp] theorem recordError_bs (e : Raise) (s : State) : (recordError e s).bs = s.bs := rfl
@[simp] theorem recordError_cb (e : Raise) (s : State) : (recordError e s).cb = s.cb := rfl
@[simp] theorem recordError_ab (e : Raise) (s : State) : (recordError e s).ab = s.ab := rfl
@[simp] theorem recordError_out (e : Raise) (s : State) : (recordError e s).out = s.out := rfl
@[simp] theorem recordError_plat (e : Raise) (s : State) : (recordError e s).plat = s.plat := rfl
@[simp] theorem recordError_host (e : Raise) (s : State) : (recordError e s).host = s.host := rfl
@[simp] theorem recordError_hostData (e : Raise) (s : State) : (recordError e s).hostData = s.hostData := rfl
@[simp] theorem recordError_io (e : Raise) (s : State) : (recordError e s).io = s.io := rfl
@[simp] theorem recordError_par (e : Raise) (s : State) : (recordError e s).par = s.par := rfl
@[simp] theorem recordError_act (e : Raise) (s : State) : (recordError e s).act = s.act := rfl
@[simp] theorem recordError_epoch (e : Raise) (s : State) : (recordError e s).epoch = s.epoch := rfl

@[simp] theorem complete_err (s : State) : (complete s).err = 0 := rfl
@[simp] theorem complete_errInfo (s : State) : (complete s).errInfo = 0 := rfl
@[simp] theorem complete_status (s : State) : (complete s).status = { s.status with errf := false, vdone := videoDone s } := rfl
@[simp] theorem complete_session (s : State) : (complete s).session = s.session := rfl
@[simp] theorem complete_arg (s : State) : (complete s).arg = s.arg := rfl
@[simp] theorem complete_res (s : State) : (complete s).res = s.res := rfl
@[simp] theorem complete_hdr (s : State) : (complete s).hdr = s.hdr := rfl
@[simp] theorem complete_frameCtr (s : State) : (complete s).frameCtr = s.frameCtr := rfl
@[simp] theorem complete_fpos (s : State) : (complete s).fpos = s.fpos := rfl
@[simp] theorem complete_firstChunk (s : State) : (complete s).firstChunk = s.firstChunk := rfl
@[simp] theorem complete_bspos (s : State) : (complete s).bspos = s.bspos := rfl
@[simp] theorem complete_blk (s : State) : (complete s).blk = s.blk := rfl
@[simp] theorem complete_pred (s : State) : (complete s).pred = s.pred := rfl
@[simp] theorem complete_last (s : State) : (complete s).last = s.last := rfl
@[simp] theorem complete_bslen (s : State) : (complete s).bslen = s.bslen := rfl
@[simp] theorem complete_cblen (s : State) : (complete s).cblen = s.cblen := rfl
@[simp] theorem complete_ablen (s : State) : (complete s).ablen = s.ablen := rfl
@[simp] theorem complete_outlen (s : State) : (complete s).outlen = s.outlen := rfl
@[simp] theorem complete_cfg (s : State) : (complete s).cfg = s.cfg := rfl
@[simp] theorem complete_hist (s : State) : (complete s).hist = s.hist := rfl
@[simp] theorem complete_winSel (s : State) : (complete s).winSel = s.winSel := rfl
@[simp] theorem complete_winAddr (s : State) : (complete s).winAddr = s.winAddr := rfl
@[simp] theorem complete_ot (s : State) : (complete s).ot = s.ot := rfl
@[simp] theorem complete_src (s : State) : (complete s).src = s.src := rfl
@[simp] theorem complete_cur (s : State) : (complete s).cur = s.cur := rfl
@[simp] theorem complete_prev (s : State) : (complete s).prev = s.prev := rfl
@[simp] theorem complete_key (s : State) : (complete s).key = s.key := rfl
@[simp] theorem complete_pal0 (s : State) : (complete s).pal0 = s.pal0 := rfl
@[simp] theorem complete_pal1 (s : State) : (complete s).pal1 = s.pal1 := rfl
@[simp] theorem complete_bs (s : State) : (complete s).bs = s.bs := rfl
@[simp] theorem complete_cb (s : State) : (complete s).cb = s.cb := rfl
@[simp] theorem complete_ab (s : State) : (complete s).ab = s.ab := rfl
@[simp] theorem complete_out (s : State) : (complete s).out = s.out := rfl
@[simp] theorem complete_plat (s : State) : (complete s).plat = s.plat := rfl
@[simp] theorem complete_host (s : State) : (complete s).host = s.host := rfl
@[simp] theorem complete_hostData (s : State) : (complete s).hostData = s.hostData := rfl
@[simp] theorem complete_io (s : State) : (complete s).io = s.io := rfl
@[simp] theorem complete_par (s : State) : (complete s).par = s.par := rfl
@[simp] theorem complete_act (s : State) : (complete s).act = s.act := rfl
@[simp] theorem complete_epoch (s : State) : (complete s).epoch = s.epoch := rfl

@[simp] theorem fillBs_err (bytes : List Byte) (s : State) : (fillBs bytes s).err = s.err := rfl
@[simp] theorem fillBs_errInfo (bytes : List Byte) (s : State) : (fillBs bytes s).errInfo = s.errInfo := rfl
@[simp] theorem fillBs_status (bytes : List Byte) (s : State) : (fillBs bytes s).status = s.status := rfl
@[simp] theorem fillBs_session (bytes : List Byte) (s : State) : (fillBs bytes s).session = s.session := rfl
@[simp] theorem fillBs_arg (bytes : List Byte) (s : State) : (fillBs bytes s).arg = s.arg := rfl
@[simp] theorem fillBs_res (bytes : List Byte) (s : State) : (fillBs bytes s).res = s.res := rfl
@[simp] theorem fillBs_hdr (bytes : List Byte) (s : State) : (fillBs bytes s).hdr = s.hdr := rfl
@[simp] theorem fillBs_frameCtr (bytes : List Byte) (s : State) : (fillBs bytes s).frameCtr = s.frameCtr := rfl
@[simp] theorem fillBs_fpos (bytes : List Byte) (s : State) : (fillBs bytes s).fpos = s.fpos := rfl
@[simp] theorem fillBs_firstChunk (bytes : List Byte) (s : State) : (fillBs bytes s).firstChunk = s.firstChunk := rfl
@[simp] theorem fillBs_bspos (bytes : List Byte) (s : State) : (fillBs bytes s).bspos = s.bspos := rfl
@[simp] theorem fillBs_blk (bytes : List Byte) (s : State) : (fillBs bytes s).blk = s.blk := rfl
@[simp] theorem fillBs_pred (bytes : List Byte) (s : State) : (fillBs bytes s).pred = s.pred := rfl
@[simp] theorem fillBs_last (bytes : List Byte) (s : State) : (fillBs bytes s).last = s.last := rfl
@[simp] theorem fillBs_bslen (bytes : List Byte) (s : State) : (fillBs bytes s).bslen = saturate bytes.length := rfl
@[simp] theorem fillBs_cblen (bytes : List Byte) (s : State) : (fillBs bytes s).cblen = s.cblen := rfl
@[simp] theorem fillBs_ablen (bytes : List Byte) (s : State) : (fillBs bytes s).ablen = s.ablen := rfl
@[simp] theorem fillBs_outlen (bytes : List Byte) (s : State) : (fillBs bytes s).outlen = s.outlen := rfl
@[simp] theorem fillBs_cfg (bytes : List Byte) (s : State) : (fillBs bytes s).cfg = s.cfg := rfl
@[simp] theorem fillBs_hist (bytes : List Byte) (s : State) : (fillBs bytes s).hist = s.hist := rfl
@[simp] theorem fillBs_winSel (bytes : List Byte) (s : State) : (fillBs bytes s).winSel = s.winSel := rfl
@[simp] theorem fillBs_winAddr (bytes : List Byte) (s : State) : (fillBs bytes s).winAddr = s.winAddr := rfl
@[simp] theorem fillBs_ot (bytes : List Byte) (s : State) : (fillBs bytes s).ot = s.ot := rfl
@[simp] theorem fillBs_src (bytes : List Byte) (s : State) : (fillBs bytes s).src = s.src := rfl
@[simp] theorem fillBs_cur (bytes : List Byte) (s : State) : (fillBs bytes s).cur = s.cur := rfl
@[simp] theorem fillBs_prev (bytes : List Byte) (s : State) : (fillBs bytes s).prev = s.prev := rfl
@[simp] theorem fillBs_key (bytes : List Byte) (s : State) : (fillBs bytes s).key = s.key := rfl
@[simp] theorem fillBs_pal0 (bytes : List Byte) (s : State) : (fillBs bytes s).pal0 = s.pal0 := rfl
@[simp] theorem fillBs_pal1 (bytes : List Byte) (s : State) : (fillBs bytes s).pal1 = s.pal1 := rfl
@[simp] theorem fillBs_bs (bytes : List Byte) (s : State) : (fillBs bytes s).bs = Memory.ofList 0 bytes := rfl
@[simp] theorem fillBs_cb (bytes : List Byte) (s : State) : (fillBs bytes s).cb = s.cb := rfl
@[simp] theorem fillBs_ab (bytes : List Byte) (s : State) : (fillBs bytes s).ab = s.ab := rfl
@[simp] theorem fillBs_out (bytes : List Byte) (s : State) : (fillBs bytes s).out = s.out := rfl
@[simp] theorem fillBs_plat (bytes : List Byte) (s : State) : (fillBs bytes s).plat = s.plat := rfl
@[simp] theorem fillBs_host (bytes : List Byte) (s : State) : (fillBs bytes s).host = s.host := rfl
@[simp] theorem fillBs_hostData (bytes : List Byte) (s : State) : (fillBs bytes s).hostData = s.hostData := rfl
@[simp] theorem fillBs_io (bytes : List Byte) (s : State) : (fillBs bytes s).io = s.io := rfl
@[simp] theorem fillBs_par (bytes : List Byte) (s : State) : (fillBs bytes s).par = s.par := rfl
@[simp] theorem fillBs_act (bytes : List Byte) (s : State) : (fillBs bytes s).act = s.act := rfl
@[simp] theorem fillBs_epoch (bytes : List Byte) (s : State) : (fillBs bytes s).epoch = s.epoch + 1 := rfl

@[simp] theorem fillCb_err (bytes : List Byte) (s : State) : (fillCb bytes s).err = s.err := rfl
@[simp] theorem fillCb_errInfo (bytes : List Byte) (s : State) : (fillCb bytes s).errInfo = s.errInfo := rfl
@[simp] theorem fillCb_status (bytes : List Byte) (s : State) : (fillCb bytes s).status = s.status := rfl
@[simp] theorem fillCb_session (bytes : List Byte) (s : State) : (fillCb bytes s).session = s.session := rfl
@[simp] theorem fillCb_arg (bytes : List Byte) (s : State) : (fillCb bytes s).arg = s.arg := rfl
@[simp] theorem fillCb_res (bytes : List Byte) (s : State) : (fillCb bytes s).res = s.res := rfl
@[simp] theorem fillCb_hdr (bytes : List Byte) (s : State) : (fillCb bytes s).hdr = s.hdr := rfl
@[simp] theorem fillCb_frameCtr (bytes : List Byte) (s : State) : (fillCb bytes s).frameCtr = s.frameCtr := rfl
@[simp] theorem fillCb_fpos (bytes : List Byte) (s : State) : (fillCb bytes s).fpos = s.fpos := rfl
@[simp] theorem fillCb_firstChunk (bytes : List Byte) (s : State) : (fillCb bytes s).firstChunk = s.firstChunk := rfl
@[simp] theorem fillCb_bspos (bytes : List Byte) (s : State) : (fillCb bytes s).bspos = s.bspos := rfl
@[simp] theorem fillCb_blk (bytes : List Byte) (s : State) : (fillCb bytes s).blk = s.blk := rfl
@[simp] theorem fillCb_pred (bytes : List Byte) (s : State) : (fillCb bytes s).pred = s.pred := rfl
@[simp] theorem fillCb_last (bytes : List Byte) (s : State) : (fillCb bytes s).last = s.last := rfl
@[simp] theorem fillCb_bslen (bytes : List Byte) (s : State) : (fillCb bytes s).bslen = s.bslen := rfl
@[simp] theorem fillCb_cblen (bytes : List Byte) (s : State) : (fillCb bytes s).cblen = saturate bytes.length := rfl
@[simp] theorem fillCb_ablen (bytes : List Byte) (s : State) : (fillCb bytes s).ablen = s.ablen := rfl
@[simp] theorem fillCb_outlen (bytes : List Byte) (s : State) : (fillCb bytes s).outlen = s.outlen := rfl
@[simp] theorem fillCb_cfg (bytes : List Byte) (s : State) : (fillCb bytes s).cfg = s.cfg := rfl
@[simp] theorem fillCb_hist (bytes : List Byte) (s : State) : (fillCb bytes s).hist = s.hist := rfl
@[simp] theorem fillCb_winSel (bytes : List Byte) (s : State) : (fillCb bytes s).winSel = s.winSel := rfl
@[simp] theorem fillCb_winAddr (bytes : List Byte) (s : State) : (fillCb bytes s).winAddr = s.winAddr := rfl
@[simp] theorem fillCb_ot (bytes : List Byte) (s : State) : (fillCb bytes s).ot = s.ot := rfl
@[simp] theorem fillCb_src (bytes : List Byte) (s : State) : (fillCb bytes s).src = s.src := rfl
@[simp] theorem fillCb_cur (bytes : List Byte) (s : State) : (fillCb bytes s).cur = s.cur := rfl
@[simp] theorem fillCb_prev (bytes : List Byte) (s : State) : (fillCb bytes s).prev = s.prev := rfl
@[simp] theorem fillCb_key (bytes : List Byte) (s : State) : (fillCb bytes s).key = s.key := rfl
@[simp] theorem fillCb_pal0 (bytes : List Byte) (s : State) : (fillCb bytes s).pal0 = s.pal0 := rfl
@[simp] theorem fillCb_pal1 (bytes : List Byte) (s : State) : (fillCb bytes s).pal1 = s.pal1 := rfl
@[simp] theorem fillCb_bs (bytes : List Byte) (s : State) : (fillCb bytes s).bs = s.bs := rfl
@[simp] theorem fillCb_cb (bytes : List Byte) (s : State) : (fillCb bytes s).cb = Memory.ofList 0 bytes := rfl
@[simp] theorem fillCb_ab (bytes : List Byte) (s : State) : (fillCb bytes s).ab = s.ab := rfl
@[simp] theorem fillCb_out (bytes : List Byte) (s : State) : (fillCb bytes s).out = s.out := rfl
@[simp] theorem fillCb_plat (bytes : List Byte) (s : State) : (fillCb bytes s).plat = s.plat := rfl
@[simp] theorem fillCb_host (bytes : List Byte) (s : State) : (fillCb bytes s).host = s.host := rfl
@[simp] theorem fillCb_hostData (bytes : List Byte) (s : State) : (fillCb bytes s).hostData = s.hostData := rfl
@[simp] theorem fillCb_io (bytes : List Byte) (s : State) : (fillCb bytes s).io = s.io := rfl
@[simp] theorem fillCb_par (bytes : List Byte) (s : State) : (fillCb bytes s).par = s.par := rfl
@[simp] theorem fillCb_act (bytes : List Byte) (s : State) : (fillCb bytes s).act = s.act := rfl
@[simp] theorem fillCb_epoch (bytes : List Byte) (s : State) : (fillCb bytes s).epoch = s.epoch + 1 := rfl

@[simp] theorem fillAb_err (bytes : List Byte) (s : State) : (fillAb bytes s).err = s.err := rfl
@[simp] theorem fillAb_errInfo (bytes : List Byte) (s : State) : (fillAb bytes s).errInfo = s.errInfo := rfl
@[simp] theorem fillAb_status (bytes : List Byte) (s : State) : (fillAb bytes s).status = s.status := rfl
@[simp] theorem fillAb_session (bytes : List Byte) (s : State) : (fillAb bytes s).session = s.session := rfl
@[simp] theorem fillAb_arg (bytes : List Byte) (s : State) : (fillAb bytes s).arg = s.arg := rfl
@[simp] theorem fillAb_res (bytes : List Byte) (s : State) : (fillAb bytes s).res = s.res := rfl
@[simp] theorem fillAb_hdr (bytes : List Byte) (s : State) : (fillAb bytes s).hdr = s.hdr := rfl
@[simp] theorem fillAb_frameCtr (bytes : List Byte) (s : State) : (fillAb bytes s).frameCtr = s.frameCtr := rfl
@[simp] theorem fillAb_fpos (bytes : List Byte) (s : State) : (fillAb bytes s).fpos = s.fpos := rfl
@[simp] theorem fillAb_firstChunk (bytes : List Byte) (s : State) : (fillAb bytes s).firstChunk = s.firstChunk := rfl
@[simp] theorem fillAb_bspos (bytes : List Byte) (s : State) : (fillAb bytes s).bspos = s.bspos := rfl
@[simp] theorem fillAb_blk (bytes : List Byte) (s : State) : (fillAb bytes s).blk = s.blk := rfl
@[simp] theorem fillAb_pred (bytes : List Byte) (s : State) : (fillAb bytes s).pred = s.pred := rfl
@[simp] theorem fillAb_last (bytes : List Byte) (s : State) : (fillAb bytes s).last = s.last := rfl
@[simp] theorem fillAb_bslen (bytes : List Byte) (s : State) : (fillAb bytes s).bslen = s.bslen := rfl
@[simp] theorem fillAb_cblen (bytes : List Byte) (s : State) : (fillAb bytes s).cblen = s.cblen := rfl
@[simp] theorem fillAb_ablen (bytes : List Byte) (s : State) : (fillAb bytes s).ablen = saturate bytes.length := rfl
@[simp] theorem fillAb_outlen (bytes : List Byte) (s : State) : (fillAb bytes s).outlen = s.outlen := rfl
@[simp] theorem fillAb_cfg (bytes : List Byte) (s : State) : (fillAb bytes s).cfg = s.cfg := rfl
@[simp] theorem fillAb_hist (bytes : List Byte) (s : State) : (fillAb bytes s).hist = s.hist := rfl
@[simp] theorem fillAb_winSel (bytes : List Byte) (s : State) : (fillAb bytes s).winSel = s.winSel := rfl
@[simp] theorem fillAb_winAddr (bytes : List Byte) (s : State) : (fillAb bytes s).winAddr = s.winAddr := rfl
@[simp] theorem fillAb_ot (bytes : List Byte) (s : State) : (fillAb bytes s).ot = s.ot := rfl
@[simp] theorem fillAb_src (bytes : List Byte) (s : State) : (fillAb bytes s).src = s.src := rfl
@[simp] theorem fillAb_cur (bytes : List Byte) (s : State) : (fillAb bytes s).cur = s.cur := rfl
@[simp] theorem fillAb_prev (bytes : List Byte) (s : State) : (fillAb bytes s).prev = s.prev := rfl
@[simp] theorem fillAb_key (bytes : List Byte) (s : State) : (fillAb bytes s).key = s.key := rfl
@[simp] theorem fillAb_pal0 (bytes : List Byte) (s : State) : (fillAb bytes s).pal0 = s.pal0 := rfl
@[simp] theorem fillAb_pal1 (bytes : List Byte) (s : State) : (fillAb bytes s).pal1 = s.pal1 := rfl
@[simp] theorem fillAb_bs (bytes : List Byte) (s : State) : (fillAb bytes s).bs = s.bs := rfl
@[simp] theorem fillAb_cb (bytes : List Byte) (s : State) : (fillAb bytes s).cb = s.cb := rfl
@[simp] theorem fillAb_ab (bytes : List Byte) (s : State) : (fillAb bytes s).ab = Memory.ofList 0 bytes := rfl
@[simp] theorem fillAb_out (bytes : List Byte) (s : State) : (fillAb bytes s).out = s.out := rfl
@[simp] theorem fillAb_plat (bytes : List Byte) (s : State) : (fillAb bytes s).plat = s.plat := rfl
@[simp] theorem fillAb_host (bytes : List Byte) (s : State) : (fillAb bytes s).host = s.host := rfl
@[simp] theorem fillAb_hostData (bytes : List Byte) (s : State) : (fillAb bytes s).hostData = s.hostData := rfl
@[simp] theorem fillAb_io (bytes : List Byte) (s : State) : (fillAb bytes s).io = s.io := rfl
@[simp] theorem fillAb_par (bytes : List Byte) (s : State) : (fillAb bytes s).par = s.par := rfl
@[simp] theorem fillAb_act (bytes : List Byte) (s : State) : (fillAb bytes s).act = s.act := rfl
@[simp] theorem fillAb_epoch (bytes : List Byte) (s : State) : (fillAb bytes s).epoch = s.epoch + 1 := rfl

@[simp] theorem closeSession_err (s : State) : (closeSession s).err = s.err := rfl
@[simp] theorem closeSession_errInfo (s : State) : (closeSession s).errInfo = s.errInfo := rfl
@[simp] theorem closeSession_status (s : State) : (closeSession s).status = { clearFrameStatus s.status with alloc := false } := rfl
@[simp] theorem closeSession_session (s : State) : (closeSession s).session = .closed := rfl
@[simp] theorem closeSession_arg (s : State) : (closeSession s).arg = s.arg := rfl
@[simp] theorem closeSession_res (s : State) : (closeSession s).res = s.res := rfl
@[simp] theorem closeSession_hdr (s : State) : (closeSession s).hdr = s.hdr := rfl
@[simp] theorem closeSession_frameCtr (s : State) : (closeSession s).frameCtr = 0 := rfl
@[simp] theorem closeSession_fpos (s : State) : (closeSession s).fpos = 0 := rfl
@[simp] theorem closeSession_firstChunk (s : State) : (closeSession s).firstChunk = 0 := rfl
@[simp] theorem closeSession_bspos (s : State) : (closeSession s).bspos = 0 := rfl
@[simp] theorem closeSession_blk (s : State) : (closeSession s).blk = 0 := rfl
@[simp] theorem closeSession_pred (s : State) : (closeSession s).pred = predZero := rfl
@[simp] theorem closeSession_last (s : State) : (closeSession s).last = lastReset := rfl
@[simp] theorem closeSession_bslen (s : State) : (closeSession s).bslen = 0 := rfl
@[simp] theorem closeSession_cblen (s : State) : (closeSession s).cblen = 0 := rfl
@[simp] theorem closeSession_ablen (s : State) : (closeSession s).ablen = 0 := rfl
@[simp] theorem closeSession_outlen (s : State) : (closeSession s).outlen = s.outlen := rfl
@[simp] theorem closeSession_cfg (s : State) : (closeSession s).cfg = s.cfg := rfl
@[simp] theorem closeSession_hist (s : State) : (closeSession s).hist = s.hist := rfl
@[simp] theorem closeSession_winSel (s : State) : (closeSession s).winSel = s.winSel := rfl
@[simp] theorem closeSession_winAddr (s : State) : (closeSession s).winAddr = s.winAddr := rfl
@[simp] theorem closeSession_ot (s : State) : (closeSession s).ot = [] := rfl
@[simp] theorem closeSession_src (s : State) : (closeSession s).src = [] := rfl
@[simp] theorem closeSession_cur (s : State) : (closeSession s).cur = [] := rfl
@[simp] theorem closeSession_prev (s : State) : (closeSession s).prev = [] := rfl
@[simp] theorem closeSession_key (s : State) : (closeSession s).key = [] := rfl
@[simp] theorem closeSession_pal0 (s : State) : (closeSession s).pal0 = [] := rfl
@[simp] theorem closeSession_pal1 (s : State) : (closeSession s).pal1 = [] := rfl
@[simp] theorem closeSession_bs (s : State) : (closeSession s).bs = [] := rfl
@[simp] theorem closeSession_cb (s : State) : (closeSession s).cb = [] := rfl
@[simp] theorem closeSession_ab (s : State) : (closeSession s).ab = [] := rfl
@[simp] theorem closeSession_out (s : State) : (closeSession s).out = s.out := rfl
@[simp] theorem closeSession_plat (s : State) : (closeSession s).plat = s.plat := rfl
@[simp] theorem closeSession_host (s : State) : (closeSession s).host = s.host := rfl
@[simp] theorem closeSession_hostData (s : State) : (closeSession s).hostData = s.hostData := rfl
@[simp] theorem closeSession_io (s : State) : (closeSession s).io = s.io := rfl
@[simp] theorem closeSession_par (s : State) : (closeSession s).par = s.par := rfl
@[simp] theorem closeSession_act (s : State) : (closeSession s).act = s.act := rfl
@[simp] theorem closeSession_epoch (s : State) : (closeSession s).epoch = s.epoch + 1 := rfl

@[simp] theorem scrubFrame_err (s : State) : (scrubFrame s).err = s.err := rfl
@[simp] theorem scrubFrame_errInfo (s : State) : (scrubFrame s).errInfo = s.errInfo := rfl
@[simp] theorem scrubFrame_status (s : State) : (scrubFrame s).status = s.status := rfl
@[simp] theorem scrubFrame_session (s : State) : (scrubFrame s).session = s.session := rfl
@[simp] theorem scrubFrame_arg (s : State) : (scrubFrame s).arg = s.arg := rfl
@[simp] theorem scrubFrame_res (s : State) : (scrubFrame s).res = s.res := rfl
@[simp] theorem scrubFrame_hdr (s : State) : (scrubFrame s).hdr = s.hdr := rfl
@[simp] theorem scrubFrame_frameCtr (s : State) : (scrubFrame s).frameCtr = s.frameCtr := rfl
@[simp] theorem scrubFrame_fpos (s : State) : (scrubFrame s).fpos = s.fpos := rfl
@[simp] theorem scrubFrame_firstChunk (s : State) : (scrubFrame s).firstChunk = s.firstChunk := rfl
@[simp] theorem scrubFrame_bspos (s : State) : (scrubFrame s).bspos = s.bspos := rfl
@[simp] theorem scrubFrame_blk (s : State) : (scrubFrame s).blk = s.blk := rfl
@[simp] theorem scrubFrame_pred (s : State) : (scrubFrame s).pred = s.pred := rfl
@[simp] theorem scrubFrame_last (s : State) : (scrubFrame s).last = s.last := rfl
@[simp] theorem scrubFrame_bslen (s : State) : (scrubFrame s).bslen = s.bslen := rfl
@[simp] theorem scrubFrame_cblen (s : State) : (scrubFrame s).cblen = s.cblen := rfl
@[simp] theorem scrubFrame_ablen (s : State) : (scrubFrame s).ablen = s.ablen := rfl
@[simp] theorem scrubFrame_outlen (s : State) : (scrubFrame s).outlen = s.outlen := rfl
@[simp] theorem scrubFrame_cfg (s : State) : (scrubFrame s).cfg = s.cfg := rfl
@[simp] theorem scrubFrame_hist (s : State) : (scrubFrame s).hist = s.hist := rfl
@[simp] theorem scrubFrame_winSel (s : State) : (scrubFrame s).winSel = s.winSel := rfl
@[simp] theorem scrubFrame_winAddr (s : State) : (scrubFrame s).winAddr = s.winAddr := rfl
@[simp] theorem scrubFrame_ot (s : State) : (scrubFrame s).ot = s.ot := rfl
@[simp] theorem scrubFrame_src (s : State) : (scrubFrame s).src = s.src := rfl
@[simp] theorem scrubFrame_cur (s : State) : (scrubFrame s).cur = [] := rfl
@[simp] theorem scrubFrame_prev (s : State) : (scrubFrame s).prev = s.prev := rfl
@[simp] theorem scrubFrame_key (s : State) : (scrubFrame s).key = s.key := rfl
@[simp] theorem scrubFrame_pal0 (s : State) : (scrubFrame s).pal0 = s.pal0 := rfl
@[simp] theorem scrubFrame_pal1 (s : State) : (scrubFrame s).pal1 = s.pal1 := rfl
@[simp] theorem scrubFrame_bs (s : State) : (scrubFrame s).bs = [] := rfl
@[simp] theorem scrubFrame_cb (s : State) : (scrubFrame s).cb = [] := rfl
@[simp] theorem scrubFrame_ab (s : State) : (scrubFrame s).ab = s.ab := rfl
@[simp] theorem scrubFrame_out (s : State) : (scrubFrame s).out = s.out := rfl
@[simp] theorem scrubFrame_plat (s : State) : (scrubFrame s).plat = s.plat := rfl
@[simp] theorem scrubFrame_host (s : State) : (scrubFrame s).host = s.host := rfl
@[simp] theorem scrubFrame_hostData (s : State) : (scrubFrame s).hostData = s.hostData := rfl
@[simp] theorem scrubFrame_io (s : State) : (scrubFrame s).io = s.io := rfl
@[simp] theorem scrubFrame_par (s : State) : (scrubFrame s).par = s.par := rfl
@[simp] theorem scrubFrame_act (s : State) : (scrubFrame s).act = s.act := rfl
@[simp] theorem scrubFrame_epoch (s : State) : (scrubFrame s).epoch = s.epoch + 1 := rfl

@[simp] theorem commit_err (ftype : FrameType) (s : State) : (commit ftype s).err = s.err := rfl
@[simp] theorem commit_errInfo (ftype : FrameType) (s : State) : (commit ftype s).errInfo = s.errInfo := rfl
@[simp] theorem commit_status (ftype : FrameType) (s : State) : (commit ftype s).status = commitStatus ftype s.status := rfl
@[simp] theorem commit_session (ftype : FrameType) (s : State) : (commit ftype s).session = s.session := rfl
@[simp] theorem commit_arg (ftype : FrameType) (s : State) : (commit ftype s).arg = s.arg := rfl
@[simp] theorem commit_res (ftype : FrameType) (s : State) : (commit ftype s).res = s.res := rfl
@[simp] theorem commit_hdr (ftype : FrameType) (s : State) : (commit ftype s).hdr = s.hdr := rfl
@[simp] theorem commit_frameCtr (ftype : FrameType) (s : State) : (commit ftype s).frameCtr = s.frameCtr := rfl
@[simp] theorem commit_fpos (ftype : FrameType) (s : State) : (commit ftype s).fpos = s.fpos := rfl
@[simp] theorem commit_firstChunk (ftype : FrameType) (s : State) : (commit ftype s).firstChunk = s.firstChunk := rfl
@[simp] theorem commit_bspos (ftype : FrameType) (s : State) : (commit ftype s).bspos = s.bspos := rfl
@[simp] theorem commit_blk (ftype : FrameType) (s : State) : (commit ftype s).blk = s.blk := rfl
@[simp] theorem commit_pred (ftype : FrameType) (s : State) : (commit ftype s).pred = s.pred := rfl
@[simp] theorem commit_last (ftype : FrameType) (s : State) : (commit ftype s).last = s.last := rfl
@[simp] theorem commit_bslen (ftype : FrameType) (s : State) : (commit ftype s).bslen = s.bslen := rfl
@[simp] theorem commit_cblen (ftype : FrameType) (s : State) : (commit ftype s).cblen = s.cblen := rfl
@[simp] theorem commit_ablen (ftype : FrameType) (s : State) : (commit ftype s).ablen = s.ablen := rfl
@[simp] theorem commit_outlen (ftype : FrameType) (s : State) : (commit ftype s).outlen = s.outlen := rfl
@[simp] theorem commit_cfg (ftype : FrameType) (s : State) : (commit ftype s).cfg = s.cfg := rfl
@[simp] theorem commit_hist (ftype : FrameType) (s : State) : (commit ftype s).hist = s.hist := rfl
@[simp] theorem commit_winSel (ftype : FrameType) (s : State) : (commit ftype s).winSel = s.winSel := rfl
@[simp] theorem commit_winAddr (ftype : FrameType) (s : State) : (commit ftype s).winAddr = s.winAddr := rfl
@[simp] theorem commit_ot (ftype : FrameType) (s : State) : (commit ftype s).ot = s.ot := rfl
@[simp] theorem commit_src (ftype : FrameType) (s : State) : (commit ftype s).src = s.src := rfl
@[simp] theorem commit_cur (ftype : FrameType) (s : State) : (commit ftype s).cur = s.cur := rfl
@[simp] theorem commit_prev (ftype : FrameType) (s : State) : (commit ftype s).prev = s.cur := rfl
@[simp] theorem commit_key (ftype : FrameType) (s : State) : (commit ftype s).key = (match ftype with | .intra => s.cur | .inter => s.key) := rfl
@[simp] theorem commit_pal0 (ftype : FrameType) (s : State) : (commit ftype s).pal0 = s.pal0 := rfl
@[simp] theorem commit_pal1 (ftype : FrameType) (s : State) : (commit ftype s).pal1 = s.pal1 := rfl
@[simp] theorem commit_bs (ftype : FrameType) (s : State) : (commit ftype s).bs = s.bs := rfl
@[simp] theorem commit_cb (ftype : FrameType) (s : State) : (commit ftype s).cb = s.cb := rfl
@[simp] theorem commit_ab (ftype : FrameType) (s : State) : (commit ftype s).ab = s.ab := rfl
@[simp] theorem commit_out (ftype : FrameType) (s : State) : (commit ftype s).out = s.out := rfl
@[simp] theorem commit_plat (ftype : FrameType) (s : State) : (commit ftype s).plat = s.plat := rfl
@[simp] theorem commit_host (ftype : FrameType) (s : State) : (commit ftype s).host = s.host := rfl
@[simp] theorem commit_hostData (ftype : FrameType) (s : State) : (commit ftype s).hostData = s.hostData := rfl
@[simp] theorem commit_io (ftype : FrameType) (s : State) : (commit ftype s).io = s.io := rfl
@[simp] theorem commit_par (ftype : FrameType) (s : State) : (commit ftype s).par = s.par := rfl
@[simp] theorem commit_act (ftype : FrameType) (s : State) : (commit ftype s).act = s.act := rfl
@[simp] theorem commit_epoch (ftype : FrameType) (s : State) : (commit ftype s).epoch = s.epoch := rfl

@[simp] theorem rewind_err (s : State) : (rewind s).err = s.err := rfl
@[simp] theorem rewind_errInfo (s : State) : (rewind s).errInfo = s.errInfo := rfl
@[simp] theorem rewind_status (s : State) : (rewind s).status = clearFrameStatus s.status := rfl
@[simp] theorem rewind_session (s : State) : (rewind s).session = s.session := rfl
@[simp] theorem rewind_arg (s : State) : (rewind s).arg = s.arg := rfl
@[simp] theorem rewind_res (s : State) : (rewind s).res = s.res := rfl
@[simp] theorem rewind_hdr (s : State) : (rewind s).hdr = s.hdr := rfl
@[simp] theorem rewind_frameCtr (s : State) : (rewind s).frameCtr = 0 := rfl
@[simp] theorem rewind_fpos (s : State) : (rewind s).fpos = s.firstChunk := rfl
@[simp] theorem rewind_firstChunk (s : State) : (rewind s).firstChunk = s.firstChunk := rfl
@[simp] theorem rewind_bspos (s : State) : (rewind s).bspos = 0 := rfl
@[simp] theorem rewind_blk (s : State) : (rewind s).blk = 0 := rfl
@[simp] theorem rewind_pred (s : State) : (rewind s).pred = predZero := rfl
@[simp] theorem rewind_last (s : State) : (rewind s).last = lastReset := rfl
@[simp] theorem rewind_bslen (s : State) : (rewind s).bslen = 0 := rfl
@[simp] theorem rewind_cblen (s : State) : (rewind s).cblen = 0 := rfl
@[simp] theorem rewind_ablen (s : State) : (rewind s).ablen = 0 := rfl
@[simp] theorem rewind_outlen (s : State) : (rewind s).outlen = s.outlen := rfl
@[simp] theorem rewind_cfg (s : State) : (rewind s).cfg = s.cfg := rfl
@[simp] theorem rewind_hist (s : State) : (rewind s).hist = s.hist := rfl
@[simp] theorem rewind_winSel (s : State) : (rewind s).winSel = s.winSel := rfl
@[simp] theorem rewind_winAddr (s : State) : (rewind s).winAddr = s.winAddr := rfl
@[simp] theorem rewind_ot (s : State) : (rewind s).ot = s.ot := rfl
@[simp] theorem rewind_src (s : State) : (rewind s).src = s.src := rfl
@[simp] theorem rewind_cur (s : State) : (rewind s).cur = s.cur := rfl
@[simp] theorem rewind_prev (s : State) : (rewind s).prev = filled (framePixels s.hdr) Colour.black := rfl
@[simp] theorem rewind_key (s : State) : (rewind s).key = filled (framePixels s.hdr) Colour.black := rfl
@[simp] theorem rewind_pal0 (s : State) : (rewind s).pal0 = s.pal0 := rfl
@[simp] theorem rewind_pal1 (s : State) : (rewind s).pal1 = s.pal1 := rfl
@[simp] theorem rewind_bs (s : State) : (rewind s).bs = [] := rfl
@[simp] theorem rewind_cb (s : State) : (rewind s).cb = [] := rfl
@[simp] theorem rewind_ab (s : State) : (rewind s).ab = [] := rfl
@[simp] theorem rewind_out (s : State) : (rewind s).out = s.out := rfl
@[simp] theorem rewind_plat (s : State) : (rewind s).plat = s.plat := rfl
@[simp] theorem rewind_host (s : State) : (rewind s).host = s.host := rfl
@[simp] theorem rewind_hostData (s : State) : (rewind s).hostData = s.hostData := rfl
@[simp] theorem rewind_io (s : State) : (rewind s).io = s.io := rfl
@[simp] theorem rewind_par (s : State) : (rewind s).par = s.par := rfl
@[simp] theorem rewind_act (s : State) : (rewind s).act = s.act := rfl
@[simp] theorem rewind_epoch (s : State) : (rewind s).epoch = s.epoch + 1 := rfl

@[simp] theorem withSequencer_err (q : Sequencer) (s : State) : (withSequencer q s).err = s.err := rfl
@[simp] theorem withSequencer_errInfo (q : Sequencer) (s : State) : (withSequencer q s).errInfo = s.errInfo := rfl
@[simp] theorem withSequencer_status (q : Sequencer) (s : State) : (withSequencer q s).status = s.status := rfl
@[simp] theorem withSequencer_session (q : Sequencer) (s : State) : (withSequencer q s).session = s.session := rfl
@[simp] theorem withSequencer_arg (q : Sequencer) (s : State) : (withSequencer q s).arg = s.arg := rfl
@[simp] theorem withSequencer_res (q : Sequencer) (s : State) : (withSequencer q s).res = s.res := rfl
@[simp] theorem withSequencer_hdr (q : Sequencer) (s : State) : (withSequencer q s).hdr = s.hdr := rfl
@[simp] theorem withSequencer_frameCtr (q : Sequencer) (s : State) : (withSequencer q s).frameCtr = s.frameCtr := rfl
@[simp] theorem withSequencer_fpos (q : Sequencer) (s : State) : (withSequencer q s).fpos = s.fpos := rfl
@[simp] theorem withSequencer_firstChunk (q : Sequencer) (s : State) : (withSequencer q s).firstChunk = s.firstChunk := rfl
@[simp] theorem withSequencer_bspos (q : Sequencer) (s : State) : (withSequencer q s).bspos = saturate q.bspos := rfl
@[simp] theorem withSequencer_blk (q : Sequencer) (s : State) : (withSequencer q s).blk = saturate q.blk := rfl
@[simp] theorem withSequencer_pred (q : Sequencer) (s : State) : (withSequencer q s).pred = q.pred := rfl
@[simp] theorem withSequencer_last (q : Sequencer) (s : State) : (withSequencer q s).last = s.last := rfl
@[simp] theorem withSequencer_bslen (q : Sequencer) (s : State) : (withSequencer q s).bslen = s.bslen := rfl
@[simp] theorem withSequencer_cblen (q : Sequencer) (s : State) : (withSequencer q s).cblen = s.cblen := rfl
@[simp] theorem withSequencer_ablen (q : Sequencer) (s : State) : (withSequencer q s).ablen = s.ablen := rfl
@[simp] theorem withSequencer_outlen (q : Sequencer) (s : State) : (withSequencer q s).outlen = s.outlen := rfl
@[simp] theorem withSequencer_cfg (q : Sequencer) (s : State) : (withSequencer q s).cfg = s.cfg := rfl
@[simp] theorem withSequencer_hist (q : Sequencer) (s : State) : (withSequencer q s).hist = s.hist := rfl
@[simp] theorem withSequencer_winSel (q : Sequencer) (s : State) : (withSequencer q s).winSel = s.winSel := rfl
@[simp] theorem withSequencer_winAddr (q : Sequencer) (s : State) : (withSequencer q s).winAddr = s.winAddr := rfl
@[simp] theorem withSequencer_ot (q : Sequencer) (s : State) : (withSequencer q s).ot = s.ot := rfl
@[simp] theorem withSequencer_src (q : Sequencer) (s : State) : (withSequencer q s).src = s.src := rfl
@[simp] theorem withSequencer_cur (q : Sequencer) (s : State) : (withSequencer q s).cur = q.cur := rfl
@[simp] theorem withSequencer_prev (q : Sequencer) (s : State) : (withSequencer q s).prev = s.prev := rfl
@[simp] theorem withSequencer_key (q : Sequencer) (s : State) : (withSequencer q s).key = s.key := rfl
@[simp] theorem withSequencer_pal0 (q : Sequencer) (s : State) : (withSequencer q s).pal0 = s.pal0 := rfl
@[simp] theorem withSequencer_pal1 (q : Sequencer) (s : State) : (withSequencer q s).pal1 = s.pal1 := rfl
@[simp] theorem withSequencer_bs (q : Sequencer) (s : State) : (withSequencer q s).bs = s.bs := rfl
@[simp] theorem withSequencer_cb (q : Sequencer) (s : State) : (withSequencer q s).cb = s.cb := rfl
@[simp] theorem withSequencer_ab (q : Sequencer) (s : State) : (withSequencer q s).ab = s.ab := rfl
@[simp] theorem withSequencer_out (q : Sequencer) (s : State) : (withSequencer q s).out = s.out := rfl
@[simp] theorem withSequencer_plat (q : Sequencer) (s : State) : (withSequencer q s).plat = s.plat := rfl
@[simp] theorem withSequencer_host (q : Sequencer) (s : State) : (withSequencer q s).host = s.host := rfl
@[simp] theorem withSequencer_hostData (q : Sequencer) (s : State) : (withSequencer q s).hostData = s.hostData := rfl
@[simp] theorem withSequencer_io (q : Sequencer) (s : State) : (withSequencer q s).io = s.io := rfl
@[simp] theorem withSequencer_par (q : Sequencer) (s : State) : (withSequencer q s).par = s.par := rfl
@[simp] theorem withSequencer_act (q : Sequencer) (s : State) : (withSequencer q s).act = s.act := rfl
@[simp] theorem withSequencer_epoch (q : Sequencer) (s : State) : (withSequencer q s).epoch = s.epoch := rfl

@[simp] theorem clearAvalid_err (s : State) : (clearAvalid s).err = s.err := rfl
@[simp] theorem clearAvalid_errInfo (s : State) : (clearAvalid s).errInfo = s.errInfo := rfl
@[simp] theorem clearAvalid_status (s : State) : (clearAvalid s).status = { s.status with avalid := false } := rfl
@[simp] theorem clearAvalid_session (s : State) : (clearAvalid s).session = s.session := rfl
@[simp] theorem clearAvalid_arg (s : State) : (clearAvalid s).arg = s.arg := rfl
@[simp] theorem clearAvalid_res (s : State) : (clearAvalid s).res = s.res := rfl
@[simp] theorem clearAvalid_hdr (s : State) : (clearAvalid s).hdr = s.hdr := rfl
@[simp] theorem clearAvalid_frameCtr (s : State) : (clearAvalid s).frameCtr = s.frameCtr := rfl
@[simp] theorem clearAvalid_fpos (s : State) : (clearAvalid s).fpos = s.fpos := rfl
@[simp] theorem clearAvalid_firstChunk (s : State) : (clearAvalid s).firstChunk = s.firstChunk := rfl
@[simp] theorem clearAvalid_bspos (s : State) : (clearAvalid s).bspos = s.bspos := rfl
@[simp] theorem clearAvalid_blk (s : State) : (clearAvalid s).blk = s.blk := rfl
@[simp] theorem clearAvalid_pred (s : State) : (clearAvalid s).pred = s.pred := rfl
@[simp] theorem clearAvalid_last (s : State) : (clearAvalid s).last = s.last := rfl
@[simp] theorem clearAvalid_bslen (s : State) : (clearAvalid s).bslen = s.bslen := rfl
@[simp] theorem clearAvalid_cblen (s : State) : (clearAvalid s).cblen = s.cblen := rfl
@[simp] theorem clearAvalid_ablen (s : State) : (clearAvalid s).ablen = s.ablen := rfl
@[simp] theorem clearAvalid_outlen (s : State) : (clearAvalid s).outlen = s.outlen := rfl
@[simp] theorem clearAvalid_cfg (s : State) : (clearAvalid s).cfg = s.cfg := rfl
@[simp] theorem clearAvalid_hist (s : State) : (clearAvalid s).hist = s.hist := rfl
@[simp] theorem clearAvalid_winSel (s : State) : (clearAvalid s).winSel = s.winSel := rfl
@[simp] theorem clearAvalid_winAddr (s : State) : (clearAvalid s).winAddr = s.winAddr := rfl
@[simp] theorem clearAvalid_ot (s : State) : (clearAvalid s).ot = s.ot := rfl
@[simp] theorem clearAvalid_src (s : State) : (clearAvalid s).src = s.src := rfl
@[simp] theorem clearAvalid_cur (s : State) : (clearAvalid s).cur = s.cur := rfl
@[simp] theorem clearAvalid_prev (s : State) : (clearAvalid s).prev = s.prev := rfl
@[simp] theorem clearAvalid_key (s : State) : (clearAvalid s).key = s.key := rfl
@[simp] theorem clearAvalid_pal0 (s : State) : (clearAvalid s).pal0 = s.pal0 := rfl
@[simp] theorem clearAvalid_pal1 (s : State) : (clearAvalid s).pal1 = s.pal1 := rfl
@[simp] theorem clearAvalid_bs (s : State) : (clearAvalid s).bs = s.bs := rfl
@[simp] theorem clearAvalid_cb (s : State) : (clearAvalid s).cb = s.cb := rfl
@[simp] theorem clearAvalid_ab (s : State) : (clearAvalid s).ab = s.ab := rfl
@[simp] theorem clearAvalid_out (s : State) : (clearAvalid s).out = s.out := rfl
@[simp] theorem clearAvalid_plat (s : State) : (clearAvalid s).plat = s.plat := rfl
@[simp] theorem clearAvalid_host (s : State) : (clearAvalid s).host = s.host := rfl
@[simp] theorem clearAvalid_hostData (s : State) : (clearAvalid s).hostData = s.hostData := rfl
@[simp] theorem clearAvalid_io (s : State) : (clearAvalid s).io = s.io := rfl
@[simp] theorem clearAvalid_par (s : State) : (clearAvalid s).par = s.par := rfl
@[simp] theorem clearAvalid_act (s : State) : (clearAvalid s).act = s.act := rfl
@[simp] theorem clearAvalid_epoch (s : State) : (clearAvalid s).epoch = s.epoch := rfl

@[simp] theorem allocate_err (f : HdrFields) (s : State) : (allocate f s).err = s.err := rfl
@[simp] theorem allocate_errInfo (f : HdrFields) (s : State) : (allocate f s).errInfo = s.errInfo := rfl
@[simp] theorem allocate_status (f : HdrFields) (s : State) : (allocate f s).status = { clearFrameStatus s.status with alloc := true } := rfl
@[simp] theorem allocate_session (f : HdrFields) (s : State) : (allocate f s).session = s.session := rfl
@[simp] theorem allocate_arg (f : HdrFields) (s : State) : (allocate f s).arg = s.arg := rfl
@[simp] theorem allocate_res (f : HdrFields) (s : State) : (allocate f s).res = s.res := rfl
@[simp] theorem allocate_hdr (f : HdrFields) (s : State) : (allocate f s).hdr = f := rfl
@[simp] theorem allocate_frameCtr (f : HdrFields) (s : State) : (allocate f s).frameCtr = 0 := rfl
@[simp] theorem allocate_fpos (f : HdrFields) (s : State) : (allocate f s).fpos = s.fpos := rfl
@[simp] theorem allocate_firstChunk (f : HdrFields) (s : State) : (allocate f s).firstChunk = s.firstChunk := rfl
@[simp] theorem allocate_bspos (f : HdrFields) (s : State) : (allocate f s).bspos = 0 := rfl
@[simp] theorem allocate_blk (f : HdrFields) (s : State) : (allocate f s).blk = 0 := rfl
@[simp] theorem allocate_pred (f : HdrFields) (s : State) : (allocate f s).pred = predZero := rfl
@[simp] theorem allocate_last (f : HdrFields) (s : State) : (allocate f s).last = lastReset := rfl
@[simp] theorem allocate_bslen (f : HdrFields) (s : State) : (allocate f s).bslen = 0 := rfl
@[simp] theorem allocate_cblen (f : HdrFields) (s : State) : (allocate f s).cblen = 0 := rfl
@[simp] theorem allocate_ablen (f : HdrFields) (s : State) : (allocate f s).ablen = 0 := rfl
@[simp] theorem allocate_outlen (f : HdrFields) (s : State) : (allocate f s).outlen = s.outlen := rfl
@[simp] theorem allocate_cfg (f : HdrFields) (s : State) : (allocate f s).cfg = { s.cfg with meRange := searchRange f.version } := rfl
@[simp] theorem allocate_hist (f : HdrFields) (s : State) : (allocate f s).hist = s.hist := rfl
@[simp] theorem allocate_winSel (f : HdrFields) (s : State) : (allocate f s).winSel = s.winSel := rfl
@[simp] theorem allocate_winAddr (f : HdrFields) (s : State) : (allocate f s).winAddr = s.winAddr := rfl
@[simp] theorem allocate_ot (f : HdrFields) (s : State) : (allocate f s).ot = [] := rfl
@[simp] theorem allocate_src (f : HdrFields) (s : State) : (allocate f s).src = [] := rfl
@[simp] theorem allocate_cur (f : HdrFields) (s : State) : (allocate f s).cur = [] := rfl
@[simp] theorem allocate_prev (f : HdrFields) (s : State) : (allocate f s).prev = filled (framePixels f) Colour.black := rfl
@[simp] theorem allocate_key (f : HdrFields) (s : State) : (allocate f s).key = filled (framePixels f) Colour.black := rfl
@[simp] theorem allocate_pal0 (f : HdrFields) (s : State) : (allocate f s).pal0 = s.pal0 := rfl
@[simp] theorem allocate_pal1 (f : HdrFields) (s : State) : (allocate f s).pal1 = s.pal1 := rfl
@[simp] theorem allocate_bs (f : HdrFields) (s : State) : (allocate f s).bs = [] := rfl
@[simp] theorem allocate_cb (f : HdrFields) (s : State) : (allocate f s).cb = [] := rfl
@[simp] theorem allocate_ab (f : HdrFields) (s : State) : (allocate f s).ab = [] := rfl
@[simp] theorem allocate_out (f : HdrFields) (s : State) : (allocate f s).out = s.out := rfl
@[simp] theorem allocate_plat (f : HdrFields) (s : State) : (allocate f s).plat = s.plat := rfl
@[simp] theorem allocate_host (f : HdrFields) (s : State) : (allocate f s).host = s.host := rfl
@[simp] theorem allocate_hostData (f : HdrFields) (s : State) : (allocate f s).hostData = s.hostData := rfl
@[simp] theorem allocate_io (f : HdrFields) (s : State) : (allocate f s).io = s.io := rfl
@[simp] theorem allocate_par (f : HdrFields) (s : State) : (allocate f s).par = s.par := rfl
@[simp] theorem allocate_act (f : HdrFields) (s : State) : (allocate f s).act = s.act := rfl
@[simp] theorem allocate_epoch (f : HdrFields) (s : State) : (allocate f s).epoch = s.epoch + 1 := rfl

@[simp] theorem softReset_err (s : State) : (softReset s).err = State.reset.err := rfl
@[simp] theorem softReset_errInfo (s : State) : (softReset s).errInfo = State.reset.errInfo := rfl
@[simp] theorem softReset_status (s : State) : (softReset s).status = State.reset.status := rfl
@[simp] theorem softReset_session (s : State) : (softReset s).session = State.reset.session := rfl
@[simp] theorem softReset_arg (s : State) : (softReset s).arg = State.reset.arg := rfl
@[simp] theorem softReset_res (s : State) : (softReset s).res = State.reset.res := rfl
@[simp] theorem softReset_hdr (s : State) : (softReset s).hdr = State.reset.hdr := rfl
@[simp] theorem softReset_frameCtr (s : State) : (softReset s).frameCtr = State.reset.frameCtr := rfl
@[simp] theorem softReset_fpos (s : State) : (softReset s).fpos = State.reset.fpos := rfl
@[simp] theorem softReset_firstChunk (s : State) : (softReset s).firstChunk = State.reset.firstChunk := rfl
@[simp] theorem softReset_bspos (s : State) : (softReset s).bspos = State.reset.bspos := rfl
@[simp] theorem softReset_blk (s : State) : (softReset s).blk = State.reset.blk := rfl
@[simp] theorem softReset_pred (s : State) : (softReset s).pred = State.reset.pred := rfl
@[simp] theorem softReset_last (s : State) : (softReset s).last = State.reset.last := rfl
@[simp] theorem softReset_bslen (s : State) : (softReset s).bslen = State.reset.bslen := rfl
@[simp] theorem softReset_cblen (s : State) : (softReset s).cblen = State.reset.cblen := rfl
@[simp] theorem softReset_ablen (s : State) : (softReset s).ablen = State.reset.ablen := rfl
@[simp] theorem softReset_outlen (s : State) : (softReset s).outlen = State.reset.outlen := rfl
@[simp] theorem softReset_cfg (s : State) : (softReset s).cfg = State.reset.cfg := rfl
@[simp] theorem softReset_hist (s : State) : (softReset s).hist = State.reset.hist := rfl
@[simp] theorem softReset_winSel (s : State) : (softReset s).winSel = State.reset.winSel := rfl
@[simp] theorem softReset_winAddr (s : State) : (softReset s).winAddr = State.reset.winAddr := rfl
@[simp] theorem softReset_ot (s : State) : (softReset s).ot = State.reset.ot := rfl
@[simp] theorem softReset_src (s : State) : (softReset s).src = State.reset.src := rfl
@[simp] theorem softReset_cur (s : State) : (softReset s).cur = State.reset.cur := rfl
@[simp] theorem softReset_prev (s : State) : (softReset s).prev = State.reset.prev := rfl
@[simp] theorem softReset_key (s : State) : (softReset s).key = State.reset.key := rfl
@[simp] theorem softReset_pal0 (s : State) : (softReset s).pal0 = State.reset.pal0 := rfl
@[simp] theorem softReset_pal1 (s : State) : (softReset s).pal1 = State.reset.pal1 := rfl
@[simp] theorem softReset_bs (s : State) : (softReset s).bs = State.reset.bs := rfl
@[simp] theorem softReset_cb (s : State) : (softReset s).cb = State.reset.cb := rfl
@[simp] theorem softReset_ab (s : State) : (softReset s).ab = State.reset.ab := rfl
@[simp] theorem softReset_out (s : State) : (softReset s).out = s.out := rfl
@[simp] theorem softReset_plat (s : State) : (softReset s).plat = s.plat := rfl
@[simp] theorem softReset_host (s : State) : (softReset s).host = s.host := rfl
@[simp] theorem softReset_hostData (s : State) : (softReset s).hostData = s.hostData := rfl
@[simp] theorem softReset_io (s : State) : (softReset s).io = s.io := rfl
@[simp] theorem softReset_par (s : State) : (softReset s).par = s.par := rfl
@[simp] theorem softReset_act (s : State) : (softReset s).act = State.reset.act := rfl
@[simp] theorem softReset_epoch (s : State) : (softReset s).epoch = s.epoch + 1 := rfl

@[simp] theorem windowAdvance_err (s : State) : (windowAdvance s).err = s.err := rfl
@[simp] theorem windowAdvance_errInfo (s : State) : (windowAdvance s).errInfo = s.errInfo := rfl
@[simp] theorem windowAdvance_status (s : State) : (windowAdvance s).status = s.status := rfl
@[simp] theorem windowAdvance_session (s : State) : (windowAdvance s).session = s.session := rfl
@[simp] theorem windowAdvance_arg (s : State) : (windowAdvance s).arg = s.arg := rfl
@[simp] theorem windowAdvance_res (s : State) : (windowAdvance s).res = s.res := rfl
@[simp] theorem windowAdvance_hdr (s : State) : (windowAdvance s).hdr = s.hdr := rfl
@[simp] theorem windowAdvance_frameCtr (s : State) : (windowAdvance s).frameCtr = s.frameCtr := rfl
@[simp] theorem windowAdvance_fpos (s : State) : (windowAdvance s).fpos = s.fpos := rfl
@[simp] theorem windowAdvance_firstChunk (s : State) : (windowAdvance s).firstChunk = s.firstChunk := rfl
@[simp] theorem windowAdvance_bspos (s : State) : (windowAdvance s).bspos = s.bspos := rfl
@[simp] theorem windowAdvance_blk (s : State) : (windowAdvance s).blk = s.blk := rfl
@[simp] theorem windowAdvance_pred (s : State) : (windowAdvance s).pred = s.pred := rfl
@[simp] theorem windowAdvance_last (s : State) : (windowAdvance s).last = s.last := rfl
@[simp] theorem windowAdvance_bslen (s : State) : (windowAdvance s).bslen = s.bslen := rfl
@[simp] theorem windowAdvance_cblen (s : State) : (windowAdvance s).cblen = s.cblen := rfl
@[simp] theorem windowAdvance_ablen (s : State) : (windowAdvance s).ablen = s.ablen := rfl
@[simp] theorem windowAdvance_outlen (s : State) : (windowAdvance s).outlen = s.outlen := rfl
@[simp] theorem windowAdvance_cfg (s : State) : (windowAdvance s).cfg = s.cfg := rfl
@[simp] theorem windowAdvance_hist (s : State) : (windowAdvance s).hist = s.hist := rfl
@[simp] theorem windowAdvance_winSel (s : State) : (windowAdvance s).winSel = s.winSel := rfl
@[simp] theorem windowAdvance_winAddr (s : State) : (windowAdvance s).winAddr = s.winAddr + 1 := rfl
@[simp] theorem windowAdvance_ot (s : State) : (windowAdvance s).ot = s.ot := rfl
@[simp] theorem windowAdvance_src (s : State) : (windowAdvance s).src = s.src := rfl
@[simp] theorem windowAdvance_cur (s : State) : (windowAdvance s).cur = s.cur := rfl
@[simp] theorem windowAdvance_prev (s : State) : (windowAdvance s).prev = s.prev := rfl
@[simp] theorem windowAdvance_key (s : State) : (windowAdvance s).key = s.key := rfl
@[simp] theorem windowAdvance_pal0 (s : State) : (windowAdvance s).pal0 = s.pal0 := rfl
@[simp] theorem windowAdvance_pal1 (s : State) : (windowAdvance s).pal1 = s.pal1 := rfl
@[simp] theorem windowAdvance_bs (s : State) : (windowAdvance s).bs = s.bs := rfl
@[simp] theorem windowAdvance_cb (s : State) : (windowAdvance s).cb = s.cb := rfl
@[simp] theorem windowAdvance_ab (s : State) : (windowAdvance s).ab = s.ab := rfl
@[simp] theorem windowAdvance_out (s : State) : (windowAdvance s).out = s.out := rfl
@[simp] theorem windowAdvance_plat (s : State) : (windowAdvance s).plat = s.plat := rfl
@[simp] theorem windowAdvance_host (s : State) : (windowAdvance s).host = s.host := rfl
@[simp] theorem windowAdvance_hostData (s : State) : (windowAdvance s).hostData = s.hostData := rfl
@[simp] theorem windowAdvance_io (s : State) : (windowAdvance s).io = s.io := rfl
@[simp] theorem windowAdvance_par (s : State) : (windowAdvance s).par = s.par := rfl
@[simp] theorem windowAdvance_act (s : State) : (windowAdvance s).act = s.act := rfl
@[simp] theorem windowAdvance_epoch (s : State) : (windowAdvance s).epoch = s.epoch := rfl

end Sys2Proof.Machine
end

