-- ==== Sys2Proof/Laws/Memory.lean ====
section
/-! SUPPORT. Storage: what a read finds after a write, and that every operation keeps the canonical form. -/

namespace Sys2Proof.Machine

variable {α : Type}

/-! ## Reads -/

@[simp] theorem Memory.read_nil (a : Nat) : Memory.read ([] : Memory α) a = none := rfl

/-- A read after one write: the written element, else what was there. -/
theorem Memory.read_write (m : Memory α) (a b : Nat) (v : α) :
    Memory.read (Memory.write m a v) b = if b = a then some v else Memory.read m b := by
  induction m with
  | nil => simp [Memory.write, Memory.read]
  | cons e m ih =>
    obtain ⟨c, w⟩ := e
    simp only [Memory.write]
    split
    · simp [Memory.read]
    · split
      · rename_i h; subst h
        simp only [Memory.read]; split <;> rfl
      · simp only [Memory.read, ih]
        grind

@[simp] theorem Memory.read_write_same (m : Memory α) (a : Nat) (v : α) : Memory.read (Memory.write m a v) a = some v := by
  simp [Memory.read_write]

theorem Memory.read_write_other (m : Memory α) {a b : Nat} (v : α) (h : b ≠ a) :
    Memory.read (Memory.write m a v) b = Memory.read m b := by
  simp [Memory.read_write, h]

/-- A read after writing consecutive elements. -/
theorem Memory.read_writeList (vs : List α) (m : Memory α) (a b : Nat) :
    Memory.read (Memory.writeList m a vs) b =
      if a ≤ b ∧ b < a + vs.length then vs[b - a]? else Memory.read m b := by
  induction vs generalizing m a with
  | nil =>
    simp only [Memory.writeList, List.length_nil]
    rw [if_neg (by omega)]
  | cons v vs ih =>
    simp only [Memory.writeList, ih, Memory.read_write, List.length_cons]
    by_cases h : b = a
    · subst h; simp
    · by_cases h2 : a + 1 ≤ b ∧ b < a + 1 + vs.length
      · have : b - a = (b - (a + 1)) + 1 := by omega
        rw [if_pos h2, if_pos (by omega), this, List.getElem?_cons_succ]
      · rw [if_neg h2, if_neg h, if_neg (by omega)]

/-- A read of storage holding exactly a list. -/
theorem Memory.read_ofList (vs : List α) (a b : Nat) :
    Memory.read (Memory.ofList a vs) b = if a ≤ b then vs[b - a]? else none := by
  induction vs generalizing a with
  | nil => simp [Memory.ofList]
  | cons v vs ih =>
    simp only [Memory.ofList, Memory.read, ih]
    by_cases h : b = a
    · subst h; simp
    · rw [if_neg h]
      by_cases h2 : a ≤ b
      · have : b - a = (b - (a + 1)) + 1 := by omega
        rw [if_pos (by omega), if_pos h2, this, List.getElem?_cons_succ]
      · rw [if_neg (by omega), if_neg h2]

/-- A read of cleared storage. -/
theorem Memory.read_filled (n : Nat) (v : α) (a : Nat) :
    Memory.read (filled n v) a = if a < n then some v else none := by
  simp [filled, Memory.read_ofList, List.getElem?_replicate]

/-- A read after forgetting what lies at or beyond `n`. -/
theorem Memory.read_below (m : Memory α) (n a : Nat) :
    Memory.read (Memory.below m n) a = if a < n then Memory.read m a else none := by
  induction m with
  | nil => simp [Memory.below, Memory.read]
  | cons e m ih =>
    obtain ⟨b, v⟩ := e
    simp only [Memory.below, List.filter_cons] at ih ⊢
    by_cases hb : b < n
    · simp only [hb, decide_true, if_true, Memory.read, ih]; grind
    · simp only [hb, decide_false, Memory.read]
      rw [if_neg (by simp), ih]; grind

/-! ## The canonical form -/

/-- The canonical form of a non-empty memory: every later address is greater, and the rest is canonical. -/
theorem Memory.wf_cons (a : Nat) (v : α) (m : Memory α) :
    Memory.wf ((a, v) :: m) = true ↔ (∀ e ∈ m, a < e.1) ∧ Memory.wf m = true := by
  induction m generalizing a v with
  | nil => simp [Memory.wf]
  | cons e m ih =>
    obtain ⟨b, w⟩ := e
    simp only [Memory.wf, Bool.and_eq_true, decide_eq_true_eq]
    constructor
    · rintro ⟨h1, h2⟩
      refine ⟨?_, h2⟩
      intro e he
      rcases List.mem_cons.mp he with rfl | he
      · exact h1
      · have := ((ih b w).mp h2).1 e he; omega
    · rintro ⟨h1, h2⟩
      exact ⟨h1 (b, w) (by simp), h2⟩

/-- The addresses a write leaves: the old ones and the written one. -/
theorem Memory.mem_write {m : Memory α} {a : Nat} {v : α} {e : Nat × α} (h : e ∈ Memory.write m a v) :
    e = (a, v) ∨ e ∈ m := by
  induction m with
  | nil => simpa [Memory.write] using h
  | cons c m ih =>
    obtain ⟨b, w⟩ := c
    simp only [Memory.write] at h
    split at h
    · simpa using h
    · split at h
      · simp only [List.mem_cons] at h ⊢; tauto
      · rcases List.mem_cons.mp h with h | h
        · simp [h]
        · rcases ih h with h | h <;> simp [h]

/-- A write keeps the canonical form. -/
theorem Memory.wf_write {m : Memory α} (h : Memory.wf m = true) (a : Nat) (v : α) : Memory.wf (Memory.write m a v) = true := by
  induction m with
  | nil => rfl
  | cons c m ih =>
    obtain ⟨b, w⟩ := c
    obtain ⟨h1, h2⟩ := (Memory.wf_cons b w m).mp h
    simp only [Memory.write]
    split
    · rename_i hab
      refine (Memory.wf_cons _ _ _).mpr ⟨?_, h⟩
      intro e he
      rcases List.mem_cons.mp he with rfl | he
      · exact hab
      · have := h1 e he; omega
    · split
      · rename_i hab; subst hab
        exact (Memory.wf_cons _ _ _).mpr ⟨h1, h2⟩
      · refine (Memory.wf_cons _ _ _).mpr ⟨?_, ih h2⟩
        intro e he
        rcases Memory.mem_write he with rfl | he
        · simp only; omega
        · exact h1 e he

/-- Consecutive writes keep the canonical form. -/
theorem Memory.wf_writeList {m : Memory α} (h : Memory.wf m = true) (a : Nat) (vs : List α) :
    Memory.wf (Memory.writeList m a vs) = true := by
  induction vs generalizing m a with
  | nil => exact h
  | cons v vs ih => exact ih (Memory.wf_write h a v) (a + 1)

/-- The addresses of storage holding a list. -/
theorem Memory.mem_ofList {vs : List α} {a : Nat} {e : Nat × α} (h : e ∈ Memory.ofList a vs) : a ≤ e.1 := by
  induction vs generalizing a with
  | nil => simp [Memory.ofList] at h
  | cons v vs ih =>
    rcases List.mem_cons.mp h with rfl | h
    · exact Nat.le_refl _
    · have := ih h; omega

/-- Storage holding a list is canonical. -/
theorem Memory.wf_ofList (vs : List α) (a : Nat) : Memory.wf (Memory.ofList a vs) = true := by
  induction vs generalizing a with
  | nil => rfl
  | cons v vs ih => exact (Memory.wf_cons _ _ _).mpr ⟨fun e he => Memory.mem_ofList he, ih (a + 1)⟩

/-- Cleared storage is canonical. -/
theorem Memory.wf_filled (n : Nat) (v : α) : Memory.wf (filled n v) = true := Memory.wf_ofList _ _

/-- Forgetting keeps the canonical form. -/
theorem Memory.wf_below {m : Memory α} (h : Memory.wf m = true) (n : Nat) : Memory.wf (Memory.below m n) = true := by
  induction m with
  | nil => rfl
  | cons c m ih =>
    obtain ⟨b, w⟩ := c
    obtain ⟨h1, h2⟩ := (Memory.wf_cons b w m).mp h
    simp only [Memory.below, List.filter_cons]
    split
    · exact (Memory.wf_cons _ _ _).mpr ⟨fun e he => h1 e (List.mem_filter.mp he).1, ih h2⟩
    · exact ih h2

/-- Writing pixels keeps the canonical form. -/
theorem wf_writePixels {m : Memory Colour} (h : Memory.wf m = true) (hd : HdrFields) (ox oy n : Nat) (cs : List Colour) :
    Memory.wf (writePixels hd ox oy n cs m) = true := by
  induction cs generalizing m n with
  | nil => exact h
  | cons c cs ih => exact ih (Memory.wf_write h _ _) (n + 1)

/-- Writing a block keeps the canonical form. -/
theorem wf_writeBlock {m : Memory Colour} (h : Memory.wf m = true) (hd : HdrFields) (k : Nat) (cs : List Colour) :
    Memory.wf (writeBlock hd k cs m) = true := wf_writePixels h hd _ _ _ _

/-- A pixel write leaves every address outside its pixels alone. -/
theorem read_writePixels_other (hd : HdrFields) (ox oy n : Nat) (cs : List Colour) (m : Memory Colour) (a : Nat)
    (h : ∀ i < cs.length, a ≠ blockPixelAddr hd ox oy (n + i)) :
    Memory.read (writePixels hd ox oy n cs m) a = Memory.read m a := by
  induction cs generalizing m n with
  | nil => rfl
  | cons c cs ih =>
    simp only [writePixels]
    rw [ih (n := n + 1)]
    · exact Memory.read_write_other _ _ (h 0 (by simp))
    · intro i hi
      have := h (i + 1) (by simpa using hi)
      rwa [show n + 1 + i = n + (i + 1) by omega]

/-- The memories of the reset state are canonical. -/
theorem reset_memories_canonical : memoriesCanonical State.reset = true := by decide

/-! ## Reading through the free values -/

@[simp] theorem bytesAt_length (s : State) (sp : Space) (m : ByteMemory) (a n : Nat) : (bytesAt s sp m a n).length = n := by
  simp [bytesAt]

@[simp] theorem readBlock_length (s : State) (sp : Space) (m : Memory Colour) (ox oy : Nat) :
    (readBlock s sp m ox oy).length = blockPixels s.hdr.version := by
  simp [readBlock]

/-- Reading back a whole list. -/
theorem bytesAt_ofList (s : State) (sp : Space) (bytes : List Byte) :
    bytesAt s sp (Memory.ofList 0 bytes) 0 bytes.length = bytes := by
  apply List.ext_getElem (by simp)
  intro i h1 h2
  simp [bytesAt, byteAt, Memory.read_ofList, h2]

end Sys2Proof.Machine
end

