-- ==== Sys2Proof/Laws/Ops.lean ====
section
/-! SUPPORT. What each shared operation can do, said once. -/

namespace Sys2Proof.Machine

/-! ## Sequencing -/

@[simp] theorem Run.bind_done {α β : Type} (a : α) (s : State) (f : α → State → Run β) : (Run.done a s).bind f = f a s := rfl

@[simp] theorem Run.bind_raised {α β : Type} (e : Raise) (s : State) (f : α → State → Run β) :
    (Run.raised e s : Run α).bind f = .raised e s := rfl

/-- A sequence that is done went through its first operation. -/
theorem Run.bind_eq_done {α β : Type} {r : Run α} {f : α → State → Run β} {b : β} {t : State} (h : r.bind f = .done b t) :
    ∃ a s, r = .done a s ∧ f a s = .done b t := by
  cases r with
  | done a s => exact ⟨a, s, rfl, h⟩
  | raised e s => simp at h

/-- A sequence that raised did so in its first operation or after it. -/
theorem Run.bind_eq_raised {α β : Type} {r : Run α} {f : α → State → Run β} {e : Raise} {t : State}
    (h : r.bind f = .raised e t) : r = .raised e t ∨ ∃ a s, r = .done a s ∧ f a s = .raised e t := by
  cases r with
  | done a s => exact .inr ⟨a, s, rfl, h⟩
  | raised e' s => simpa using h

/-- Sequencing is associative. -/
theorem Run.bind_assoc {α β γ : Type} (r : Run α) (f : α → State → Run β) (g : β → State → Run γ) :
    (r.bind f).bind g = r.bind fun a s => (f a s).bind g := by
  cases r <;> rfl

@[simp] theorem check_true (e : Raise) (s : State) : check true e s = .done () s := rfl

@[simp] theorem check_false (e : Raise) (s : State) : check false e s = .raised e s := rfl

/-- A check that passes changes nothing. -/
theorem check_eq_done {ok : Bool} {e : Raise} {s t : State} {u : Unit} (h : check ok e s = .done u t) : ok = true ∧ t = s := by
  cases ok <;> simp [check] at h ⊢; exact h.symm

/-- A check that fails changes nothing. -/
theorem check_eq_raised {ok : Bool} {e e' : Raise} {s t : State} (h : check ok e s = .raised e' t) :
    ok = false ∧ e' = e ∧ t = s := by
  cases ok <;> simp [check] at h ⊢; exact ⟨h.1.symm, h.2.symm⟩

/-! ## Numbers in registers -/

/-- A stored number is the number itself up to the greatest the register holds, and never wraps (47 R301). -/
theorem saturate_toNat (n : Nat) : (saturate n).toNat = min n (2 ^ 32 - 1) := by
  rw [saturate, BitVec.toNat_ofNat]; omega

/-- A number that fits is stored as it is. -/
theorem saturate_of_lt {n : Nat} (h : n < 2 ^ 32) : saturate n = BitVec.ofNat 32 n := by
  rw [saturate, Nat.min_eq_left (by omega)]

/-- A register's own value is stored as it is. -/
@[simp] theorem saturate_ofToNat (w : Word) : saturate w.toNat = w := by
  rw [saturate_of_lt w.isLt, BitVec.ofNat_toNat, BitVec.setWidth_eq]

/-! ## The byte source and the byte sink -/

/-- Without a failure scripted, a read delivers its bytes and changes nothing. -/
theorem memRead_nil (a n : Nat) {s : State} (h : s.io = []) :
    memRead a n s = .done (bytesAt s .stream s.plat.stream a n) s := by
  simp [memRead, h]

/-- A read delivers its bytes or raises `IOError` at its address; either way only the I/O script moves on. -/
theorem memRead_cases (a n : Nat) (s : State) :
    memRead a n s = .done (bytesAt s .stream s.plat.stream a n) { s with io := s.io.tail } ∨
    memRead a n s = .raised ⟨.ioError, unitContainer, a⟩ { s with io := s.io.tail } := by
  unfold memRead
  match h : s.io with
  | [] => left; simp only [List.tail_nil]; rw [← h]
  | true :: rest => right; rfl
  | false :: rest => left; rfl

/-- Without a failure scripted and below the limit, an append adds its bytes. -/
theorem appendOut_nil (bytes : List Byte) {s : State} (h : s.io = []) (hn : s.outlen.toNat + bytes.length < 2 ^ 32) :
    appendOut bytes s = .done () { s with
      out := Memory.writeList s.out s.outlen.toNat bytes
      outlen := BitVec.ofNat 32 (s.outlen.toNat + bytes.length) } := by
  unfold appendOut
  rw [if_neg (by omega)]
  simp [h]

/-- An append that would pass the limit is `IOError`, whatever the platform would have answered. -/
theorem appendOut_full (bytes : List Byte) {s : State} (hn : 2 ^ 32 ≤ s.outlen.toNat + bytes.length) :
    appendOut bytes s = .raised ⟨.ioError, unitContainer, s.outlen.toNat⟩ s := if_pos hn

/-- An append is all or nothing. -/
theorem appendOut_cases (bytes : List Byte) (s : State) :
    (s.outlen.toNat + bytes.length < 2 ^ 32 ∧
      appendOut bytes s = .done () { s with
        out := Memory.writeList s.out s.outlen.toNat bytes
        outlen := BitVec.ofNat 32 (s.outlen.toNat + bytes.length)
        io := s.io.tail }) ∨
    ∃ io, appendOut bytes s = .raised ⟨.ioError, unitContainer, s.outlen.toNat⟩ { s with io := io } := by
  unfold appendOut
  split
  · exact .inr ⟨s.io, rfl⟩
  · split
    · exact .inr ⟨_, rfl⟩
    · exact .inl ⟨by omega, rfl⟩

/-- A patch overwrites its bytes or changes nothing. -/
theorem patchOut_cases (a : Nat) (bytes : List Byte) (s : State) :
    patchOut a bytes s = .done () { s with out := Memory.writeList s.out a bytes, io := s.io.tail } ∨
    patchOut a bytes s = .raised ⟨.ioError, unitContainer, a⟩ { s with io := s.io.tail } := by
  unfold patchOut
  match h : s.io with
  | [] => left; simp
  | true :: rest => right; rfl
  | false :: rest => left; rfl

/-! ## Commands -/

/-- An admitted command runs its operation. -/
theorem runCommand_admitted {code : Nat} {allowed : Session → Bool} {cls : RaiseClass} {op : State → Run Unit} {s : State}
    (h : allowed s.session = true) : runCommand code allowed cls op s = .next (finish cls s (op s)) := by
  simp [runCommand, h]

/-- A command that is not admitted takes `IllegalCommand`. -/
theorem runCommand_refused {code : Nat} {allowed : Session → Bool} {cls : RaiseClass} {op : State → Run Unit} {s : State}
    (h : allowed s.session = false) :
    runCommand code allowed cls op s = .next (takeError .plain s s (illegalCommand code)) := by
  simp [runCommand, h]

@[simp] theorem finish_done (cls : RaiseClass) (s t : State) (u : Unit) : finish cls s (.done u t) = complete t := rfl

@[simp] theorem finish_raised (cls : RaiseClass) (s t : State) (e : Raise) :
    finish cls s (.raised e t) = takeError cls s t e := rfl

/-- A command always answers a next state: it completes, or takes the error it raised, or is not admitted. -/
theorem runCommand_next (code : Nat) (allowed : Session → Bool) (cls : RaiseClass) (op : State → Run Unit) (s : State) :
    ∃ t, runCommand code allowed cls op s = .next t := ⟨_, rfl⟩

/-! ## Errors -/

/-- `IllegalCommand` is recorded in the state before the command, but for the I/O script. -/
theorem takeError_illegal (cls : RaiseClass) (before after : State) (unit : BitVec 4) (info : Nat) :
    takeError cls before after ⟨.illegalCommand, unit, info⟩ =
      recordError ⟨.illegalCommand, unit, info⟩ { before with io := after.io } := by
  cases cls <;> rfl

/-- What a raise can leave: the state before the command but for the I/O script, the lost session, or the state at the raise
with some buffers unspecified and perhaps the session in DEC_FAULT. -/
theorem raiseEffect_cases (cls : RaiseClass) (kind : ErrorKind) (before after : State) :
    raiseEffect cls kind before after = { before with io := after.io } ∨
    raiseEffect cls kind before after = closeSession after ∨
    raiseEffect cls kind before after = after ∨
    (∃ cur bs cb ab epoch, raiseEffect cls kind before after =
      { after with cur := cur, bs := bs, cb := cb, ab := ab, epoch := epoch }) ∨
    (∃ cur bs cb ab epoch, raiseEffect cls kind before after =
      { after with cur := cur, bs := bs, cb := cb, ab := ab, epoch := epoch, session := .decFault }) := by
  cases cls <;> cases kind <;>
    first
    | exact .inl rfl
    | exact .inr (.inl rfl)
    | exact .inr (.inr (.inl rfl))
    | exact .inr (.inr (.inr (.inl ⟨_, _, _, _, _, rfl⟩)))
    | exact .inr (.inr (.inr (.inr ⟨_, _, _, _, _, rfl⟩)))

/-- A raise never writes `RES` beyond what the state at the raise or before the command holds. -/
theorem takeError_res (cls : RaiseClass) (before after : State) (e : Raise) (h : after.res = before.res) :
    (takeError cls before after e).res = before.res := by
  rcases raiseEffect_cases cls e.kind before after with hr | hr | hr | ⟨_, _, _, _, _, hr⟩ | ⟨_, _, _, _, _, hr⟩ <;>
    simp [takeError, hr, h]

/-- The error registers after a raise. -/
theorem takeError_err (cls : RaiseClass) (before after : State) (e : Raise) :
    (takeError cls before after e).err = e.unit ++ (0 : BitVec 4) ++ e.kind.code ∧
    (takeError cls before after e).errInfo = BitVec.ofNat 32 e.info ∧
    (takeError cls before after e).status.errf = true := ⟨rfl, rfl, rfl⟩

/-- No error code is 0. -/
theorem recordError_err_ne_zero (e : Raise) (s : State) : (recordError e s).err ≠ 0 := by
  obtain ⟨kind, unit, info⟩ := e
  cases kind <;> revert unit <;> simp only [recordError_err] <;> decide

/-! ## The offset table -/

/-- `OTFind` answers none only when every entry lies after the frame. -/
theorem otFind_none {t : Nat} {ot : List OtEntry} (h : otFind t ot = none) : ∀ e ∈ ot, t < e.fidx.toNat := by
  induction ot with
  | nil => simp
  | cons c ot ih =>
    simp only [otFind] at h
    match hf : otFind t ot with
    | some f => rw [hf] at h; simp only at h; split at h <;> simp at h
    | none =>
      rw [hf] at h
      simp only at h
      split at h
      · simp at h
      · rename_i hc
        intro e he
        rcases List.mem_cons.mp he with rfl | he
        · omega
        · exact ih hf e he

/-- `OTFind` answers an entry of the table at or before the frame, and no entry at or before it lies later. -/
theorem otFind_some {t : Nat} {ot : List OtEntry} {e : OtEntry} (h : otFind t ot = some e) :
    e ∈ ot ∧ e.fidx.toNat ≤ t ∧ ∀ f ∈ ot, f.fidx.toNat ≤ t → f.fidx.toNat ≤ e.fidx.toNat := by
  induction ot generalizing e with
  | nil => simp [otFind] at h
  | cons c ot ih =>
    simp only [otFind] at h
    match hf : otFind t ot with
    | some f =>
      obtain ⟨h1, h2, h3⟩ := ih hf
      rw [hf] at h
      simp only at h
      split at h
      · rename_i hc
        obtain rfl : c = e := by simpa using h
        refine ⟨by simp, hc.1, ?_⟩
        intro g hg hgt
        rcases List.mem_cons.mp hg with rfl | hg
        · exact Nat.le_refl _
        · have := h3 g hg hgt; omega
      · rename_i hc
        obtain rfl : f = e := by simpa using h
        refine ⟨by simp [h1], h2, ?_⟩
        intro g hg hgt
        rcases List.mem_cons.mp hg with rfl | hg
        · by_contra hlt; exact hc ⟨hgt, by omega⟩
        · exact h3 g hg hgt
    | none =>
      rw [hf] at h
      simp only at h
      split at h
      · rename_i hc
        obtain rfl : c = e := by simpa using h
        refine ⟨by simp, hc, ?_⟩
        intro g hg hgt
        rcases List.mem_cons.mp hg with rfl | hg
        · exact Nat.le_refl _
        · have := otFind_none hf g hg; omega
      · simp at h

end Sys2Proof.Machine
end

