-- ==== Sys2Proof/Laws/Codec.lean ====
section
/-! SUPPORT. What fetching an encoded part gives. -/

namespace Sys2Proof

/-! ## Byte order -/

@[simp] theorem le16_bytes (v : Half) : le16 (v.extractLsb' 0 8) (v.extractLsb' 8 8) = v := by
  apply BitVec.eq_of_toNat_eq
  simp only [le16, BitVec.toNat_append, BitVec.extractLsb'_toNat, Nat.shiftRight_zero]
  have := v.isLt
  rw [← Nat.shiftLeft_add_eq_or_of_lt (by omega)]
  omega

@[simp] theorem le32_bytes (v : Word) :
    le32 (v.extractLsb' 0 8) (v.extractLsb' 8 8) (v.extractLsb' 16 8) (v.extractLsb' 24 8) = v := by
  apply BitVec.eq_of_getLsbD_eq
  intro i hi
  simp only [le32, BitVec.getLsbD_append, BitVec.getLsbD_extractLsb']
  by_cases h0 : i < 8
  · simp [h0]
  · by_cases h1 : i - 8 < 8
    · simp only [h0, h1, if_true, if_false, decide_true, Bool.true_and, decide_false, Bool.false_and]
      rw [show 8 + (i - 8) = i by omega]
    · by_cases h2 : i - 8 - 8 < 8
      · rw [if_neg h0, if_neg h1, if_pos h2, show 16 + (i - 8 - 8) = i by omega]; simp [h2]
      · rw [if_neg h0, if_neg h1, if_neg h2, show 24 + (i - 8 - 8 - 8) = i by omega]
        simp [show i - 8 - 8 - 8 < 8 by omega]

@[simp] theorem le16Bytes_length (v : Half) : (le16Bytes v).length = 2 := rfl

@[simp] theorem le32Bytes_length (v : Word) : (le32Bytes v).length = 4 := rfl

/-! ## Tags -/

/-- The mode of a tag. -/
theorem tagByte_mode (psel : Bool) {mode : Nat} (h : mode < 16) : ((tagByte mode psel).extractLsb' 0 4).toNat = mode := by
  cases psel <;> interval_cases mode <;> rfl

/-- Bits 6:4 of a tag are 0. -/
theorem tagByte_reserved (psel : Bool) {mode : Nat} (h : mode < 16) : (tagByte mode psel).extractLsb' 4 3 = 0 := by
  cases psel <;> interval_cases mode <;> rfl

/-- `PSEL` of a tag. -/
theorem tagByte_psel (psel : Bool) {mode : Nat} (h : mode < 16) : (tagByte mode psel).getLsbD 7 = psel := by
  cases psel <;> interval_cases mode <;> rfl

/-- Decoding goes on to the operands of a legal tag. -/
theorem decodeBlock_tag (ctx : BlockCtx) (psel : Bool) {mode : Nat} (rest : List Byte) (h : mode < 16)
    (ht : tagError ctx mode psel = none) :
    decodeBlock ctx (tagByte mode psel :: rest) = decodeOperands ctx mode psel ⟨rest, 1⟩ := by
  simp only [decodeBlock, tagByte_mode psel h, tagByte_reserved psel h, tagByte_psel psel h, ht]
  simp

/-! ## Operands -/

/-- Fetching as many bytes as a list has. -/
theorem fetchBytes_append (bytes rest : List Byte) (used : Nat) :
    fetchBytes bytes.length ⟨bytes ++ rest, used⟩ = .ok (bytes, ⟨rest, used + bytes.length⟩) := by
  simp [fetchBytes]

/-- Fetching an encoded colour operand of the profile's form. -/
theorem fetchColour_encode {version : Byte} {c : ColourOp} (h : c.fits version = true) (rest : List Byte) (used : Nat) :
    fetchColour version ⟨encodeColour c ++ rest, used⟩ = .ok (c, ⟨rest, used + (encodeColour c).length⟩) := by
  cases c with
  | index i =>
    have h' : ¬ paletteProfile version = 0 := by simpa [ColourOp.fits] using h
    simp [fetchColour, encodeColour, h']
  | rgb555 v =>
    have h' : paletteProfile version = 0 := by simpa [ColourOp.fits] using h
    have hv : ((v.setWidth 16 : Half).extractLsb' 0 15) = v := by
      ext i hi
      simp [BitVec.getElem_extractLsb', BitVec.getLsbD_setWidth, BitVec.getLsbD_eq_getElem, hi]
      omega
    simp [fetchColour, encodeColour, le16Bytes, h', hv]

/-- Fetching encoded colour operands of the profile's form. -/
theorem fetchColours_encode {version : Byte} {cs : List ColourOp} (h : cs.all (·.fits version) = true) (rest : List Byte)
    (used : Nat) :
    fetchColours version cs.length ⟨cs.flatMap encodeColour ++ rest, used⟩ =
      .ok (cs, ⟨rest, used + (cs.flatMap encodeColour).length⟩) := by
  induction cs generalizing used with
  | nil => simp [fetchColours]
  | cons c cs ih =>
    simp only [List.all_cons, Bool.and_eq_true] at h
    simp only [List.length_cons, fetchColours, List.flatMap_cons, List.append_assoc]
    rw [fetchColour_encode h.1]
    simp only [bind, Except.bind]
    rw [ih h.2]
    simp [Nat.add_assoc]

/-- A colour operand takes one or two bytes. -/
theorem encodeColour_length (c : ColourOp) : 1 ≤ (encodeColour c).length ∧ (encodeColour c).length ≤ 2 := by
  cases c <;> simp [encodeColour]

/-- Two bytes an operand at most. -/
theorem flatMap_encodeColour_length (cs : List ColourOp) : (cs.flatMap encodeColour).length ≤ 2 * cs.length := by
  induction cs with
  | nil => simp
  | cons c cs ih =>
    have := encodeColour_length c
    simp only [List.flatMap_cons, List.length_append, List.length_cons]; omega

/-- What the sequencer counts is what the encoder writes. -/
theorem operandLength_eq (c : ColourOp) : Machine.operandLength c = (encodeColour c).length := by
  cases c <;> rfl

/-! ## Records -/

/-- Records start with their magic. -/
theorem encode_record_magic :
    (∀ f, (encode (.hdr f)).take 4 = magicAgmv) ∧ (∀ f, (encode (.agfc f)).take 4 = magicAgfc) ∧
    (∀ f, (encode (.agac f)).take 4 = magicAgac) := ⟨fun _ => rfl, fun _ => rfl, fun _ => rfl⟩

/-- The lengths of the records' headers. -/
theorem encode_record_length :
    (∀ f, (encode (.hdr f)).length = 38) ∧ (∀ f, (encode (.agfc f)).length = 18) ∧ (∀ f, (encode (.agac f)).length = 12) :=
  ⟨fun _ => rfl, fun _ => rfl, fun _ => rfl⟩

/-- The block sizes. -/
theorem blockPixels_cases (version : Byte) :
    blockPixels version = 8 ∨ blockPixels version = 16 ∨ blockPixels version = 32 ∨ blockPixels version = 64 := by
  unfold blockPixels blockWidth blockHeight
  have : blockSizeCode version < 4 := (version.extractLsb' 2 2).isLt
  interval_cases h : blockSizeCode version <;> simp

/-- Blocks are not empty. -/
theorem block_positive (version : Byte) : 0 < blockWidth version ∧ 0 < blockHeight version := by
  unfold blockWidth blockHeight
  constructor <;> split <;> decide

end Sys2Proof
end

