-- ==== Sys2Proof/Laws/PerInstr.lean ====
section
/-! SUPPORT. The per-instruction family `EncodedLength`: a well-formed instruction is encoded in 1 to 129 bytes (30 R97: the
longest is `NORMAL` of an 8x8 block with two-byte operands). -/

namespace Sys2Proof.Laws.EncodedLength

/-- The instruction's encoding is not empty and fits what the sequencer fetches at once. -/
def Statement (i : Instr) : Prop :=
  ∀ ctx, wellFormed ctx i = true → 1 ≤ (encode i).length ∧ (encode i).length ≤ 129

theorem nop : Statement .nop := fun _ _ => by simp [encode]
theorem softReset : Statement .softReset := fun _ _ => by simp [encode]
theorem loadQuality : Statement .loadQuality := fun _ _ => by simp [encode]
theorem openStream : Statement .openStream := fun _ _ => by simp [encode]
theorem nextFrame : Statement .nextFrame := fun _ _ => by simp [encode]
theorem nextAudio : Statement .nextAudio := fun _ _ => by simp [encode]
theorem resetVideo : Statement .resetVideo := fun _ _ => by simp [encode]
theorem skipFwd : Statement .skipFwd := fun _ _ => by simp [encode]
theorem skipBack : Statement .skipBack := fun _ _ => by simp [encode]
theorem skipTo : Statement .skipTo := fun _ _ => by simp [encode]
theorem close : Statement .close := fun _ _ => by simp [encode]
theorem lzDecompress : Statement .lzDecompress := fun _ _ => by simp [encode]
theorem lzCompress : Statement .lzCompress := fun _ _ => by simp [encode]
theorem decodeBs : Statement .decodeBs := fun _ _ => by simp [encode]
theorem nearest : Statement .nearest := fun _ _ => by simp [encode]
theorem histClear : Statement .histClear := fun _ _ => by simp [encode]
theorem histAccum : Statement .histAccum := fun _ _ => by simp [encode]
theorem selectPalette : Statement .selectPalette := fun _ _ => by simp [encode]
theorem tss : Statement .tss := fun _ _ => by simp [encode]
theorem blockSad : Statement .blockSad := fun _ _ => by simp [encode]
theorem encSetup : Statement .encSetup := fun _ _ => by simp [encode]
theorem encOpen : Statement .encOpen := fun _ _ => by simp [encode]
theorem encFrame : Statement .encFrame := fun _ _ => by simp [encode]
theorem encAudio : Statement .encAudio := fun _ _ => by simp [encode]
theorem encClose : Statement .encClose := fun _ _ => by simp [encode]
theorem fill (psel : Bool) (c : ColourOp) : Statement (.fill psel c) := by
  intro _ _
  have := encodeColour_length c
  simp only [encode, List.length_cons]; omega
theorem normal (psel : Bool) (cs : List ColourOp) : Statement (.normal psel cs) := by
  intro ctx h
  simp only [wellFormed, Bool.and_eq_true, beq_iff_eq] at h
  have := flatMap_encodeColour_length cs
  have := blockPixels_cases ctx.version
  simp only [encode, List.length_cons]; omega
theorem copy : Statement .copy := fun _ _ => by simp [encode]
theorem icopy (back : Half) : Statement (.icopy back) := fun _ _ => by simp [encode]
theorem mv (dx dy : Byte) : Statement (.mv dx dy) := fun _ _ => by simp [encode]
theorem pmv (ddx ddy : BitVec 4) : Statement (.pmv ddx ddy) := fun _ _ => by simp [encode]
theorem vq2 (psel : Bool) (c0 c1 : ColourOp) (idx : List Byte) : Statement (.vq2 psel c0 c1 idx) := by
  intro ctx h
  simp only [wellFormed, Bool.and_eq_true, beq_iff_eq] at h
  have := encodeColour_length c0
  have := encodeColour_length c1
  have := blockPixels_cases ctx.version
  simp only [encode, List.length_cons, List.length_append]; omega
theorem vq4 (psel : Bool) (c0 c1 c2 c3 : ColourOp) (idx : List Byte) : Statement (.vq4 psel c0 c1 c2 c3 idx) := by
  intro ctx h
  simp only [wellFormed, Bool.and_eq_true, beq_iff_eq] at h
  have := encodeColour_length c0
  have := encodeColour_length c1
  have := encodeColour_length c2
  have := encodeColour_length c3
  have := blockPixels_cases ctx.version
  simp only [encode, List.length_cons, List.length_append]; omega
theorem skip : Statement .skip := fun _ _ => by simp [encode]
theorem lit (b : Byte) : Statement (.lit b) := fun _ _ => by simp [encode]
theorem ref (offset : BitVec 12) (length : BitVec 4) : Statement (.ref offset length) := fun _ _ => by simp [encode]
theorem hdr (f : HdrFields) : Statement (.hdr f) := fun _ _ => by simp [encode, magicAgmv]
theorem agfc (f : AgfcFields) : Statement (.agfc f) := fun _ _ => by simp [encode, magicAgfc]
theorem agac (f : AgacFields) : Statement (.agac f) := fun _ _ => by simp [encode, magicAgac]

end Sys2Proof.Laws.EncodedLength
end

