-- ==== Sys2Proof/Laws/Units.lean ====
section
/-! SUPPORT. What the units' shared loops can do: the sequencer, the decompressor's copy, nearest colour, the search. -/

namespace Sys2Proof.Machine

/-! ## The sequencer -/

/-- A block code that decodes moves on by its own length and one block, and keeps the canonical form. -/
theorem applyBlock_ok {s : State} {i : Instr} {q t : Sequencer} (h : applyBlock s i q = .ok t) :
    t.blk = q.blk + 1 ∧ t.bspos = q.bspos + (encode i).length ∧ (Memory.wf q.cur = true → Memory.wf t.cur = true) := by
  cases i <;> simp only [applyBlock, reduceCtorEq] at h
  case fill psel c =>
    obtain rfl := Except.ok.inj h
    exact ⟨rfl, by simp [putBlock, encode, operandLength_eq, Nat.add_comm], fun hw => wf_writeBlock hw _ _ _⟩
  case normal psel cs =>
    obtain rfl := Except.ok.inj h
    refine ⟨rfl, ?_, fun hw => wf_writeBlock hw _ _ _⟩
    have : (cs.map operandLength).sum = (cs.flatMap encodeColour).length := by
      rw [List.length_flatMap]; congr 1; exact List.map_congr_left fun c _ => operandLength_eq c
    simp [putBlock, encode, this, Nat.add_comm]
  case copy => obtain rfl := Except.ok.inj h; exact ⟨rfl, rfl, fun hw => wf_writeBlock hw _ _ _⟩
  case skip => obtain rfl := Except.ok.inj h; exact ⟨rfl, rfl, fun hw => wf_writeBlock hw _ _ _⟩
  case icopy back =>
    simp only [icopyBlock] at h
    split at h
    · simp at h
    · obtain rfl := Except.ok.inj h; exact ⟨rfl, rfl, fun hw => wf_writeBlock hw _ _ _⟩
  case mv dx dy =>
    simp only [mvBlock, motionBlock] at h
    split at h
    · obtain rfl := Except.ok.inj h; exact ⟨rfl, rfl, fun hw => wf_writeBlock hw _ _ _⟩
    · simp at h
  case pmv ddx ddy =>
    simp only [pmvBlock, motionBlock] at h
    split at h
    · simp at h
    · split at h
      · obtain rfl := Except.ok.inj h; exact ⟨rfl, rfl, fun hw => wf_writeBlock hw _ _ _⟩
      · simp at h
  case vq2 psel c0 c1 idx =>
    obtain rfl := Except.ok.inj h
    refine ⟨rfl, ?_, fun hw => wf_writeBlock hw _ _ _⟩
    simp only [putBlock, encode, operandLength_eq, List.length_cons, List.length_append]; omega
  case vq4 psel c0 c1 c2 c3 idx =>
    obtain rfl := Except.ok.inj h
    refine ⟨rfl, ?_, fun hw => wf_writeBlock hw _ _ _⟩
    simp only [putBlock, encode, operandLength_eq, List.length_cons, List.length_append]; omega

/-- A block code that raises writes no pixel and leaves `BLK` and `PRED`. -/
theorem applyBlock_error {s : State} {i : Instr} {q t : Sequencer} (h : applyBlock s i q = .error t) :
    t.cur = q.cur ∧ t.blk = q.blk ∧ t.pred = q.pred := by
  cases i <;> simp only [applyBlock, fillBlock, normalBlock, copyBlock, skipBlock, vq2Block, vq4Block, reduceCtorEq] at h
  case icopy back =>
    simp only [icopyBlock] at h
    split at h
    · obtain rfl := Except.error.inj h; exact ⟨rfl, rfl, rfl⟩
    · simp at h
  case mv dx dy =>
    simp only [mvBlock, motionBlock] at h
    split at h
    · simp at h
    · obtain rfl := Except.error.inj h; exact ⟨rfl, rfl, rfl⟩
  case pmv ddx ddy =>
    simp only [pmvBlock, motionBlock] at h
    split at h
    · obtain rfl := Except.error.inj h; exact ⟨rfl, rfl, rfl⟩
    · split at h
      · simp at h
      · obtain rfl := Except.error.inj h; exact ⟨rfl, rfl, rfl⟩
  all_goals obtain rfl := Except.error.inj h; exact ⟨rfl, rfl, rfl⟩

/-- A decoded run of blocks moves `BLK` on by its number and keeps the canonical form. -/
theorem decodeBlocks_ok {s : State} {ftype : FrameType} {len n : Nat} {q t : Sequencer}
    (h : decodeBlocks s ftype len n q = .ok t) :
    t.blk = q.blk + n ∧ (Memory.wf q.cur = true → Memory.wf t.cur = true) := by
  induction n generalizing q with
  | zero => obtain rfl := Except.ok.inj h; exact ⟨rfl, id⟩
  | succ n ih =>
    simp only [decodeBlocks] at h
    match hd : decodeOneBlock s ftype len q with
    | .error r => rw [hd] at h; simp at h
    | .ok r =>
      rw [hd] at h
      simp only [decodeOneBlock] at hd
      split at hd
      · simp at hd
      · obtain ⟨h1, _, h3⟩ := applyBlock_ok hd
        obtain ⟨h4, h5⟩ := ih h
        exact ⟨by omega, fun hw => h5 (h3 hw)⟩

/-- A run of blocks that raises keeps the canonical form, and `BLK` names the block it raised at. -/
theorem decodeBlocks_error {s : State} {ftype : FrameType} {len n : Nat} {q t : Sequencer}
    (h : decodeBlocks s ftype len n q = .error t) :
    q.blk ≤ t.blk ∧ t.blk < q.blk + n ∧ (Memory.wf q.cur = true → Memory.wf t.cur = true) := by
  induction n generalizing q with
  | zero => simp [decodeBlocks] at h
  | succ n ih =>
    simp only [decodeBlocks] at h
    match hd : decodeOneBlock s ftype len q with
    | .error r =>
      rw [hd] at h
      obtain rfl := Except.error.inj h
      simp only [decodeOneBlock] at hd
      split at hd
      · obtain rfl := Except.error.inj hd; exact ⟨Nat.le_refl _, by simp only [advance]; omega, id⟩
      · obtain ⟨h1, h2, _⟩ := applyBlock_error hd
        exact ⟨by omega, by omega, fun hw => by rw [h1]; exact hw⟩
    | .ok r =>
      rw [hd] at h
      simp only [decodeOneBlock] at hd
      split at hd
      · simp at hd
      · obtain ⟨h1, _, h3⟩ := applyBlock_ok hd
        obtain ⟨h4, h5, h6⟩ := ih h
        exact ⟨by omega, by omega, fun hw => h6 (h3 hw)⟩

/-- A frame decode writes only `CUR`, `BSPOS`, `BLK`, `PRED`, whether it is done or raised. -/
theorem decodeFrame_cases (ftype : FrameType) (len : Nat) (s : State) :
    (∃ q, decodeFrame ftype len s = .done () (withSequencer q s)) ∨
    (∃ q e, decodeFrame ftype len s = .raised e (withSequencer q s) ∧ e.kind = .streamCorruption ∧ e.unit = unitFrame) := by
  simp only [decodeFrame]
  split
  · rename_i q _; exact .inr ⟨q, _, rfl, rfl, rfl⟩
  · rename_i q _
    simp only [frameEnd]
    split
    · exact .inl ⟨q, rfl⟩
    · exact .inr ⟨q, _, rfl, rfl, rfl⟩

/-! ## LZSS -/

/-- A copy appends its bytes. -/
theorem copyBack_length (offset n : Nat) (out : List Byte) : (copyBack offset n out).length = out.length + n := by
  induction n generalizing out with
  | zero => rfl
  | succ n ih => rw [copyBack, ih]; simp; omega

/-- A copy keeps what was there. -/
theorem copyBack_drop (offset n : Nat) (out : List Byte) : (copyBack offset n out).drop n = out := by
  induction n generalizing out with
  | zero => rfl
  | succ n ih =>
    rw [copyBack, ← List.drop_drop, ih]
    rfl

/-- A reference never writes past the expected size. -/
theorem expandRef_length {offset length n : Nat} {out out' : List Byte} (h : expandRef offset length n out = some out') :
    offset ≠ 0 ∧ offset ≤ out.length ∧ out'.length = out.length + min length (n - out.length) := by
  simp only [expandRef] at h
  split at h
  · simp at h
  · obtain rfl := Option.some.inj h
    rename_i hc
    exact ⟨fun h => hc (.inl h), Nat.not_lt.mp fun h => hc (.inr h), copyBack_length _ _ _⟩

/-! ## Palette and search -/

/-- The best entry so far stays the best of those seen and the lowest among equals. -/
theorem nearestFrom_spec (table : Nat → Colour) (p : Colour) (n i : Nat) (best : Nat × Nat)
    (hb : best.2 = dist1 (table best.1) p) (hlt : best.1 < i)
    (hmin : ∀ j < i, best.2 ≤ dist1 (table j) p) (hlow : ∀ j < best.1, best.2 < dist1 (table j) p) :
    (nearestFrom table p n i best).2 = dist1 (table (nearestFrom table p n i best).1) p ∧
    (nearestFrom table p n i best).1 < i + n ∧
    (∀ j < i + n, (nearestFrom table p n i best).2 ≤ dist1 (table j) p) ∧
    ∀ j < (nearestFrom table p n i best).1, (nearestFrom table p n i best).2 < dist1 (table j) p := by
  induction n generalizing i best with
  | zero => exact ⟨hb, hlt, hmin, hlow⟩
  | succ n ih =>
    simp only [nearestFrom]
    rw [show i + (n + 1) = i + 1 + n by omega]
    split
    · rename_i hc
      refine ih (i + 1) _ rfl (by simp) ?_ ?_
      · intro j hj
        rcases Nat.lt_succ_iff_lt_or_eq.mp hj with hj | rfl
        · have := hmin j hj; simp only; omega
        · exact Nat.le_refl _
      · intro j hj
        have := hmin j hj; simp only; omega
    · rename_i hc
      refine ih (i + 1) best hb (by omega) ?_ hlow
      intro j hj
      rcases Nat.lt_succ_iff_lt_or_eq.mp hj with hj | rfl
      · exact hmin j hj
      · omega

/-- One pixel adds one to `HIST_TOTAL`, which saturates. -/
theorem histPixel_total_toNat (h : Hist) (c : Nat) :
    (histPixel h c).total.toNat = min (2 ^ 64 - 1) (h.total.toNat + 1) := by
  have := h.total.isLt
  by_cases ht : h.total = BitVec.allOnes 64
  · simp [histPixel, ht]
  · have : h.total.toNat ≠ 2 ^ 64 - 1 := fun hn => ht (BitVec.eq_of_toNat_eq (by simpa using hn))
    have one : (1 : BitVec 64).toNat = 1 := rfl
    simp only [histPixel, if_neg ht, BitVec.toNat_add, one]
    omega

end Sys2Proof.Machine
end

