-- ==== Sys2Proof/Tests/Slice0.lean ====
section
/-! SUPPORT. Tests: ill-formed terms the check refuses, one word of every instruction written out from the spec's encoding,
one-step checks against the spec's own vectors (95_test_vectors), and for every statement with hypotheses a state that meets
them. -/

namespace Sys2Proof.Tests

open Sys2Proof.Machine

/- The tests are checked one after another: each is cheap, but many at once wait on each other with a thread stack each. -/
set_option Elab.async false

/-! ## Small states -/

/-- Small capacities, and the presets of 42 R163's shape. -/
def smallPar : Params where
  fbCap := 256
  bsCap := 600
  cbCap := 700
  abCap := 64
  otCap := 4
  high := ⟨0, 0, 1, 0x3FE⟩
  mid := ⟨2, 3, 2, 0x3FE⟩
  low := ⟨8, 9, 3, 0x3FF⟩

/-- The state after an instruction that answers a next state. -/
def ran (i : Instr) (s : State) : Option State :=
  match exec i s with
  | .next t => some t
  | .fault _ => none
  | .refused _ => none

/-- The same, from the state itself where there is none. -/
def after (i : Instr) (s : State) : State := (ran i s).getD s

/-- The state after one step. -/
def stepped (s : State) : Option State :=
  match step s with
  | .next t => some t
  | .fault _ => none
  | .refused _ => none

/-- The header of program P3 (95): 8x4, XRGB1555, DIRECT15, 4x4 blocks, three frames. -/
def p3Header : HdrFields := ⟨3, 8, 4, 1, 0, 15, 0, 8000, 8, 1, 8⟩

/-- The stream of program P3 (95): header, I-frame at 38, audio at 62, P-frames at 78 and 100; 122 bytes. -/
def p3 : List Byte :=
  [0x41, 0x47, 0x4D, 0x56, 3, 0, 0, 0, 8, 0, 0, 0, 4, 0, 0, 0, 1, 0, 0x0F, 0, 0, 0, 0, 0, 0, 0, 0x40, 0x1F, 0, 0, 8, 0, 0, 0,
    1, 0, 8, 0] ++
  [0x41, 0x47, 0x46, 0x43, 0, 0, 0, 0, 1, 0, 6, 0, 0, 0, 6, 0, 0, 0, 0x01, 0x00, 0x7C, 0x01, 0x1F, 0x00] ++
  [0x41, 0x47, 0x41, 0x43, 8, 0, 0, 0, 4, 0, 0, 0, 0x80, 0x80, 0x17, 0x00] ++
  [0x41, 0x47, 0x46, 0x43, 1, 0, 0, 0, 2, 0, 4, 0, 0, 0, 4, 0, 0, 0, 0x03, 0x05, 0xFC, 0x00] ++
  [0x41, 0x47, 0x46, 0x43, 2, 0, 0, 0, 2, 0, 4, 0, 0, 0, 4, 0, 0, 0, 0x03, 0x05, 0x04, 0x00]

/-- No session, P3 attached, a sink present. -/
def closedState : State :=
  { State.reset with
    par := smallPar
    plat := ⟨Memory.ofList 0 p3, 122, true, true⟩ }

/-- P3 opened: at frame 0 (P3 step 1). -/
def openState : State :=
  { closedState with
    session := .decOpen
    status := { statusReset with alloc := true }
    hdr := p3Header
    fpos := 38
    firstChunk := 38
    prev := filled 32 Colour.black
    key := filled 32 Colour.black
    pal0 := filled 256 Colour.black
    pal1 := filled 256 Colour.black
    ot := [⟨38, 0⟩]
    res := ⟨1, 2, 0, 0⟩
    epoch := 1 }

/-- P3's frame 0: the left block red, the right one blue. -/
def redBlue : Memory Colour :=
  Memory.ofList 0 ((List.range 32).map fun a => if a % 8 < 4 then ⟨0xF8, 0, 0⟩ else ⟨0, 0, 0xF8⟩)

/-- P3 after its first frame (P3 step 2): `FPOS` at the audio chunk. -/
def shownState : State :=
  { openState with
    status := { statusReset with alloc := true, fvalid := true, lastkey := true }
    cur := redBlue
    prev := redBlue
    key := redBlue
    bs := Memory.ofList 0 [0x01, 0x00, 0x7C, 0x01, 0x1F, 0x00]
    bslen := 6
    cb := Memory.ofList 0 [0x01, 0x00, 0x7C, 0x01, 0x1F, 0x00]
    cblen := 6
    last := ⟨0, 1, 6, 6⟩
    bspos := 6
    blk := 2
    fpos := 62
    frameCtr := 1
    res := ⟨1, 1, 6, 6⟩
    epoch := 3 }

/-- Pixel `a` of an 8-wide test frame. -/
def testPixel (a : Nat) : Colour := ⟨BitVec.ofNat 8 (8 * (a % 8)), BitVec.ofNat 8 (8 * (a / 8)), 0⟩

/-- An encode session in ENC_SETUP: 8x4, RGB888, DIRECT15, 4x4 blocks, `SRC` loaded. -/
def setupState : State :=
  { closedState with
    session := .encSetup
    status := { statusReset with alloc := true }
    hdr := ⟨0, 8, 4, 3, 0, 30, 0, 0, 0, 0, 0⟩
    prev := filled 32 Colour.black
    key := filled 32 Colour.black
    pal0 := filled 256 Colour.black
    pal1 := filled 256 Colour.black
    src := Memory.ofList 0 ((List.range 32).map testPixel)
    res := ⟨2, 0, 0, 0⟩
    epoch := 1 }

/-- The encode session with its header written. -/
def encState : State :=
  { setupState with
    session := .encOpen
    firstChunk := 38
    out := Memory.ofList 0 (encode (.hdr setupState.hdr))
    outlen := 38
    res := ⟨38, 0, 0, 0⟩ }

/-- A frame decode under way at block `k` of an 8x8 frame (T-BLK-1's `PREV`), 4x4 blocks. -/
def frameState (version : Byte) (ftype : FrameType) (k : Nat) : State :=
  { closedState with
    hdr := { hdrReset with width := 8, height := 8, format := 3, version := version }
    prev := Memory.ofList 0 ((List.range 64).map testPixel)
    cur := Memory.ofList 0 ((List.range 64).map testPixel)
    pal0 := Memory.ofList 0 ((List.range 256).map fun i => ⟨BitVec.ofNat 8 i, BitVec.ofNat 8 i, BitVec.ofNat 8 i⟩)
    pal1 := Memory.ofList 0 ((List.range 256).map fun i => ⟨BitVec.ofNat 8 (255 - i), 0, BitVec.ofNat 8 i⟩)
    blk := BitVec.ofNat 32 k
    act := .frame ⟨ftype, 16⟩ }

/-- A decompression to `n` bytes under way: `out` written, two input bytes read, one unit done. -/
def unitState (n : Nat) (out : List Byte) : State :=
  { closedState with
    bs := Memory.ofList 0 out
    cb := Memory.ofList 0 [0x80, 0x41, 0x1F, 0x00]
    cblen := 4
    act := .lzss ⟨n, 2, out.length, 0x80, 1⟩ }

/-! ## Ill-formed terms -/

theorem test_illformed_copy_in_intra : wellFormed ⟨0, .intra⟩ .copy = false := by decide
theorem test_illformed_skip_in_intra : wellFormed ⟨0, .intra⟩ .skip = false := by decide
theorem test_illformed_mv_in_intra : wellFormed ⟨0, .intra⟩ (.mv 0 0) = false := by decide
theorem test_illformed_pmv_in_intra : wellFormed ⟨0, .intra⟩ (.pmv 0 0) = false := by decide
theorem test_illformed_fill_psel_without_second_table : wellFormed ⟨1, .inter⟩ (.fill true (.index 0)) = false := by decide
theorem test_illformed_fill_operand_form :
    wellFormed ⟨0, .intra⟩ (.fill false (.index 0)) = false ∧ wellFormed ⟨1, .intra⟩ (.fill false (.rgb555 0)) = false := by
  decide
theorem test_illformed_normal_length : wellFormed ⟨1, .intra⟩ (.normal false (List.replicate 15 (.index 0))) = false := by
  decide
theorem test_illformed_normal_operand_form :
    wellFormed ⟨9, .intra⟩ (.normal false (List.replicate 8 (.rgb555 0))) = false := by decide
theorem test_illformed_vq2_index_length : wellFormed ⟨1, .intra⟩ (.vq2 false (.index 0) (.index 1) [0]) = false := by decide
theorem test_illformed_vq2_operand_form :
    wellFormed ⟨1, .intra⟩ (.vq2 false (.index 0) (.rgb555 1) [0, 0]) = false := by decide
theorem test_illformed_vq4_index_length :
    wellFormed ⟨1, .intra⟩ (.vq4 false (.index 0) (.index 1) (.index 2) (.index 3) [0, 0]) = false := by decide
theorem test_illformed_vq4_operand_form :
    wellFormed ⟨1, .intra⟩ (.vq4 false (.index 0) (.index 1) (.index 2) (.rgb555 3) [0, 0, 0, 0]) = false := by decide
theorem test_wellformed_longest :
    wellFormed ⟨0x0C, .intra⟩ (.normal false (List.replicate 64 (.rgb555 0x7FFF))) = true ∧
    (encode (.normal false (List.replicate 64 (.rgb555 0x7FFF)))).length = 129 := by decide +kernel

/-! ## Words -/

/-- Every command code of 30 R92's table. -/
theorem test_decode_commands :
    [0x00, 0x01, 0x02, 0x10, 0x11, 0x12, 0x13, 0x14, 0x15, 0x16, 0x17].map decodeCommand =
      [Instr.nop, .softReset, .loadQuality, .openStream, .nextFrame, .nextAudio, .resetVideo, .skipFwd, .skipBack, .skipTo,
        .close].map some ∧
    [0x20, 0x21, 0x22, 0x30, 0x31, 0x32, 0x33, 0x34, 0x35, 0x40, 0x41, 0x42, 0x43, 0x44].map decodeCommand =
      [Instr.lzDecompress, .lzCompress, .decodeBs, .nearest, .histClear, .histAccum, .selectPalette, .tss, .blockSad,
        .encSetup, .encOpen, .encFrame, .encAudio, .encClose].map some := by decide +kernel

/-- No other code names a command (30 R92). -/
theorem test_decode_command_count :
    ((List.range 256).filter fun c => (decodeCommand (BitVec.ofNat 8 c)).isSome).length = 25 := by decide +kernel

/-- FILL (T-BLK-1): tag 0x01, colour 0x7C00 little-endian. -/
theorem test_decode_fill :
    decode (.block ⟨0, .inter⟩) [0x01, 0x00, 0x7C, 0x04] = .ok (.fill false (.rgb555 0x7C00), 3) := by decide
/-- NORMAL of a 2x4 block, one-byte operands (T-BLK-3). -/
theorem test_decode_normal :
    decode (.block ⟨0x09, .intra⟩) [0x02, 0x0A, 0x14, 0x1E, 0x28, 0x32, 0x3C, 0x46, 0x50] =
      .ok (.normal false [.index 10, .index 20, .index 30, .index 40, .index 50, .index 60, .index 70, .index 80], 9) := by
  decide
theorem test_decode_copy : decode (.block ⟨0, .inter⟩) [0x03, 0x09] = .ok (.copy, 1) := by decide
/-- ICOPY (T-BLK-1): `back` is a `u16`. -/
theorem test_decode_icopy : decode (.block ⟨0, .intra⟩) [0x04, 0x01, 0x02] = .ok (.icopy 0x0201, 3) := by decide
theorem test_decode_mv : decode (.block ⟨0, .inter⟩) [0x05, 0x02, 0xFD] = .ok (.mv 2 0xFD, 3) := by decide
/-- PMV (T-BLK-2): `ddx` in the high nibble. -/
theorem test_decode_pmv : decode (.block ⟨0, .inter⟩) [0x06, 0xD1] = .ok (.pmv 0xD 1, 2) := by decide
/-- VQ2 (T-BLK-1). -/
theorem test_decode_vq2 :
    decode (.block ⟨0, .inter⟩) [0x07, 0xFF, 0x7F, 0x1F, 0x00, 0xA5, 0x0F] =
      .ok (.vq2 false (.rgb555 0x7FFF) (.rgb555 0x001F) [0xA5, 0x0F], 7) := by decide
/-- VQ4 of a 2x4 block from the second table (T-BLK-4). -/
theorem test_decode_vq4 :
    decode (.block ⟨0x0A, .intra⟩) [0x88, 0x00, 0x01, 0x02, 0xFF, 0x1B, 0xE4] =
      .ok (.vq4 true (.index 0) (.index 1) (.index 2) (.index 255) [0x1B, 0xE4], 7) := by decide
theorem test_decode_skip : decode (.block ⟨0, .inter⟩) [0x09] = .ok (.skip, 1) := by decide
/-- T-LZ-6: literal 00, then REF 1, 9 is the word 0x0019. -/
theorem test_decode_units :
    decode (.unit true) [0x00, 0x19] = .ok (.lit 0, 1) ∧ decode (.unit false) [0x19, 0x00] = .ok (.ref 1 9, 2) := by decide
/-- P3's three kinds of record. -/
theorem test_decode_records :
    decode .header p3 = .ok (.hdr p3Header, 38) ∧ decode .chunk (p3.drop 38) = .ok (.agfc ⟨0, 1, 6, 6⟩, 18) ∧
    decode .chunk (p3.drop 62) = .ok (.agac ⟨8, 4⟩, 12) := by decide +kernel
/-- T-BLK-8, 10 to 13, 17 and a truncated code: refused by name. -/
theorem test_decode_refuses :
    decode (.block ⟨0, .intra⟩) [0x03] = .error ⟨.interInIntra, 1⟩ ∧ decode (.block ⟨0, .inter⟩) [0x00] = .error ⟨.reservedMode, 1⟩ ∧
    decode (.block ⟨0, .inter⟩) [0x0A] = .error ⟨.reservedMode, 1⟩ ∧ decode (.block ⟨0, .inter⟩) [0x13] = .error ⟨.reservedTagBits, 1⟩ ∧
    decode (.block ⟨2, .inter⟩) [0x83] = .error ⟨.pselNotAllowed, 1⟩ ∧
    decode (.block ⟨0, .inter⟩) [0x01, 0x00, 0x80] = .error ⟨.colourBit15, 3⟩ ∧
    decode (.block ⟨0, .inter⟩) [0x01, 0x00] = .error ⟨.truncated, 1⟩ ∧ decode .command [0x7F] = .error ⟨.unknownCommand, 0⟩ := by
  decide

/-- The words of the opcode table: a command, a block code, the two units under their flag, the three magics. -/
theorem test_table_words :
    decodeTableWord 8 0x22 = some .decodeBs ∧ decodeTableWord 8 0x03 = some .copy ∧
    decodeTableWord 9 0x155 = some (.lit 0xAA) ∧ decodeTableWord 17 0x3E = some (.ref 1 15) ∧
    decodeTableWord 32 0x564D4741 = some (.hdr hdrReset) ∧ decodeTableWord 32 0x43464741 = some (.agfc lastReset) ∧
    decodeTableWord 32 0x43414741 = some (.agac ⟨0, 0⟩) := by decide +kernel

/-- A word stored where the machine fetches runs as the first instruction after reset. -/
theorem test_fetch_word :
    step (State.reset.withFetchWord 8 0x00) = exec .nop State.reset ∧
    (stepped (State.reset.withFetchWord 8 0x03)).map (·.blk) = some 1 ∧
    (stepped (State.reset.withFetchWord 9 0x155)).map (Memory.read ·.bs 0) = some (some 0xAA) := by
  refine ⟨rfl, ?_, ?_⟩ <;> decide +kernel

/-! ## The spec's vectors -/

/-- T-CMD-1, T-CMD-3: a refused command, then NOP. -/
theorem test_refused_then_nop :
    let t := after .nextFrame closedState
    t.err = 0x407 ∧ t.errInfo = 0x11 ∧ t.status.errf = true ∧ t.session = .closed ∧
    (ran .nop t).map (fun u => (u.err, u.errInfo, u.status.errf)) = some (0, 0, false) := by decide +kernel

/-- T-CMD-10. -/
theorem test_soft_reset :
    (ran .softReset encState).map (fun t => (t.session, t.cfg, t.outlen, t.hdr)) =
      some (.closed, cfgReset, 0, hdrReset) := by decide +kernel

/-- 46 R274: preset LOW of `smallPar`, whose `mode_en` has bit 0 set. -/
theorem test_load_quality :
    (ran .loadQuality { closedState with cfg := { cfgReset with quality := 2 } }).map
      (fun t => (t.cfg.maxDiff, t.cfg.maxDiff15, t.cfg.mvThresh, t.cfg.modeEn)) = some (8, 9, 3, 0x3FE) := by decide +kernel

/-- P3 step 1. -/
theorem test_open : ran .openStream closedState = some openState := by decide +kernel

/-- T-CON-2: `width = 6`. -/
theorem test_open_bad_width :
    (ran .openStream { closedState with plat := ⟨Memory.ofList 0 (p3.set 8 6), 122, true, true⟩ }).map
      (fun t => (t.err, t.errInfo, t.session)) = some (0x101, 8, .closed) := by decide +kernel

/-- P3 step 2. -/
theorem test_next_frame : ran .nextFrame openState = some shownState ∧ statusByte shownState = 0xCC := by decide +kernel

/-- P3 step 6: the corrupt frame at 100. -/
theorem test_next_frame_corrupt :
    (ran .nextFrame { shownState with fpos := 100, frameCtr := 2 }).map
      (fun t => (t.err, t.errInfo, t.session, t.fpos)) = some (0x304, 1, .decFault, 100) ∧
    (ran .nextFrame { shownState with fpos := 100, frameCtr := 2 }).map (fun t => (t.frameCtr, t.bspos, t.blk)) =
      some (2, 4, 1) := by decide +kernel

/-- P3 step 3. -/
theorem test_next_audio :
    (ran .nextAudio shownState).map (fun t => (t.ab.map (·.2), t.ablen, t.fpos, t.res, statusByte t)) =
      some (List.replicate 8 0x80, 8, 78, ⟨1, 8, 4, 6⟩, 0xDC) := by decide +kernel

/-- P3 step 8. -/
theorem test_reset_video :
    (ran .resetVideo { shownState with session := .decFault }).map
      (fun t => (t.session, t.fpos, Memory.read t.prev 31, t.ot, statusByte t)) =
      some (.decOpen, 38, some Colour.black, [⟨38, 0⟩], 0x44) := by decide +kernel

/-- P3 steps 9 and 10: seek to frame 1, then skip past the rest. -/
theorem test_skip_to :
    (ran .skipTo { openState with arg := ⟨1, 0, 0, 0⟩ }).map (fun t => (t.fpos, t.frameCtr, Memory.read t.prev 7, t.res.x0)) =
      some (100, 2, some ⟨0xF8, 0, 0⟩, 2) := by decide +kernel
theorem test_skip_fwd :
    (ran .skipFwd { shownState with fpos := 100, frameCtr := 2, arg := ⟨5, 0, 0, 0⟩ }).map
      (fun t => (t.fpos, t.frameCtr, t.last, t.res.x0, statusByte t)) = some (122, 3, ⟨2, 2, 4, 4⟩, 1, 0xEE) := by decide +kernel

/-- T-CON-6: the chunk magic at 78 is destroyed; the scan finds the next one at 100. -/
theorem test_skip_fwd_resync :
    (ran .skipFwd { shownState with plat := ⟨Memory.ofList 0 (p3.set 78 0), 122, true, true⟩, arg := ⟨1, 0, 0, 0⟩ }).map
      (fun t => (t.fpos, t.frameCtr, t.res.x0, t.status.stale)) = some (122, 2, 1, true) := by decide +kernel

/-- P1 steps 15 and 17 on P3: back past the start, and back by one. -/
theorem test_skip_back :
    (ran .skipBack { shownState with arg := ⟨5, 0, 0, 0⟩ }).map (fun t => (t.fpos, t.frameCtr, t.res.x0, t.status.fvalid)) =
      some (38, 0, 0, false) ∧
    (ran .skipBack { shownState with fpos := 100, frameCtr := 2, arg := ⟨1, 0, 0, 0⟩ }).map
      (fun t => (t.fpos, t.frameCtr, t.res.x0, t.status.stale, t.status.lastkey)) = some (62, 1, 1, false, true) := by
  decide +kernel

/-- P3 step 12. -/
theorem test_close :
    (ran .close shownState).map (fun t => (t.session, statusByte t, t.ot, t.fpos, t.hdr)) =
      some (.closed, 0x40, [], 0, p3Header) := by decide +kernel

/-- T-LZ-6, 8, 10, 11. -/
theorem test_compress :
    compress (List.replicate 10 0x00) = [0x80, 0x00, 0x19, 0x00] ∧
    compress [0x41, 0x42, 0x41, 0x42, 0x41, 0x42, 0x41, 0x42] = [0xC0, 0x41, 0x42, 0x26, 0x00] ∧
    compress [1, 2, 3, 4, 5, 6, 7, 8, 9] = [0xFF, 1, 2, 3, 4, 5, 6, 7, 8, 0x80, 9] ∧
    compress (List.replicate 20 0x55) = [0x80, 0x55, 0x1F, 0x00, 0x14, 0x00] := by decide +kernel

/-- T-LZ-13, 14, 16, 18, 19, 20. -/
theorem test_decompress :
    decompress [0x80, 0x41, 0x1F, 0x00] 5 = .ok (List.replicate 5 0x41, 4) ∧
    decompress [0xFF, 1, 2, 3, 9, 9] 3 = .ok ([1, 2, 3], 4) ∧ decompress [0x00, 0x10, 0x00] 1 = .error 0 ∧
    decompress [0x80, 0x41, 0x03, 0x00] 4 = .error 1 ∧ decompress [0x80] 1 = .error 0 ∧
    decompress [0x80, 0x41, 0x13] 4 = .error 1 := by decide +kernel

/-- P4's LZ_COMPRESS and LZ_DECOMPRESS, of ten zeros. -/
theorem test_lz_commands :
    (ran .lzCompress { setupState with bs := Memory.ofList 0 (List.replicate 10 0), bslen := 10 }).map
      (fun t => (t.cb.map (·.2), t.cblen, t.res.x0)) = some ([0x80, 0x00, 0x19, 0x00], 4, 4) ∧
    (ran .lzDecompress { setupState with
      cb := Memory.ofList 0 [0x80, 0x00, 0x19, 0x00], cblen := 4, arg := ⟨10, 0, 0, 0⟩ }).map
      (fun t => (t.bs.map (·.2), t.bslen, t.res.x0)) = some (List.replicate 10 0, 10, 4) := by decide +kernel

/-- T-LZ-13 by its units: the literal done, the reference is cut at the expected size. -/
theorem test_units :
    (ran (.lit 0x41) (unitState 5 [])).map (fun t => (Memory.read t.bs 0, t.act)) =
      some (some 0x41, .lzss ⟨5, 3, 1, 0x80, 2⟩) ∧
    (ran (.ref 1 15) (unitState 5 [0x41])).map (fun t => (t.bs.map (·.2), t.act)) =
      some (List.replicate 5 0x41, .lzss ⟨5, 4, 5, 0x80, 2⟩) := by decide +kernel

/-- T-BLK-1: FILL, ICOPY, MV, VQ2 over an 8x8 P-frame. -/
def blk1 : List Byte :=
  [0x01, 0x00, 0x7C, 0x04, 0x01, 0x00, 0x05, 0x02, 0xFD, 0x07, 0xFF, 0x7F, 0x1F, 0x00, 0xA5, 0x0F]

/-- A decode session holding a bitstream for the 8x8 frame. -/
def bitstreamState (bytes : List Byte) (ftype : Word) : State :=
  { frameState 0 .inter 0 with
    act := .idle
    session := .decOpen
    status := { statusReset with alloc := true }
    bs := Memory.ofList 0 bytes
    bslen := BitVec.ofNat 32 bytes.length
    arg := ⟨ftype, 0, 0, 0⟩ }

theorem test_decode_bs :
    (ran .decodeBs (bitstreamState blk1 2)).map (fun t => (t.bspos, t.blk, t.pred, t.err, t.res.x0)) =
      some (16, 4, 0xFD02, 0, 4) ∧
    (ran .decodeBs (bitstreamState blk1 2)).map
      (fun t => [0, 7, 32, 36, 37, 44, 52, 60].map (Memory.read t.prev)) =
      some ([⟨0xF8, 0, 0⟩, ⟨0xF8, 0, 0⟩, ⟨0x10, 0x08, 0⟩, ⟨0, 0, 0xF8⟩, ⟨0xF8, 0xF8, 0xF8⟩, ⟨0xF8, 0xF8, 0xF8⟩,
        ⟨0xF8, 0xF8, 0xF8⟩, ⟨0, 0, 0xF8⟩].map some) := by decide +kernel

/-- T-BLK-6 and T-BLK-16. -/
theorem test_decode_bs_corrupt :
    (ran .decodeBs (bitstreamState [3, 3, 3, 3, 3] 2)).map (fun t => (t.err, t.errInfo, t.session)) =
      some (0x304, 4, .decOpen) ∧
    (ran .decodeBs (bitstreamState [0x01, 0x00, 0x7C, 0x04, 0x02, 0x00, 3, 3] 2)).map (fun t => (t.err, t.errInfo)) =
      some (0x304, 1) := by decide +kernel

/-- T-BLK-2's blocks: SKIP at block 1, MV at 2, PMV at 3 from the predictor (2, -3). -/
theorem test_motion_blocks :
    (ran .skip (frameState 0 .inter 1)).map (fun t => Memory.read t.cur 4) = some (some ⟨0x20, 0, 0⟩) ∧
    (ran (.mv 2 0xFD) (frameState 0 .inter 2)).map (fun t => (Memory.read t.cur 32, t.pred)) =
      some (some ⟨0x10, 0x08, 0⟩, 0xFD02) ∧
    (ran (.pmv 0xD 1) { frameState 0 .inter 3 with pred := 0xFD02 }).map (fun t => (Memory.read t.cur 36, t.pred)) =
      some (some ⟨0x18, 0x10, 0⟩, 0xFEFF) := by decide +kernel

/-- T-BLK-4's colours, at a 4x4 block: VQ4 from the second table. -/
theorem test_vq4_block :
    (ran (.vq4 true (.index 0) (.index 1) (.index 2) (.index 255) [0x1B, 0xE4, 0, 0]) (frameState 2 .intra 0)).map
      (fun t => [0, 1, 2, 3, 8].map (Memory.read t.cur)) =
      some ([⟨0xFF, 0, 0⟩, ⟨0xFE, 0, 1⟩, ⟨0xFD, 0, 2⟩, ⟨0, 0, 0xFF⟩, ⟨0, 0, 0xFF⟩].map some) := by decide +kernel

/-- T-PAL-1's table. -/
def palState : State :=
  { setupState with
    pal0 := Memory.ofList 0 ([⟨0, 0, 0⟩, ⟨255, 0, 0⟩, ⟨0, 255, 0⟩, ⟨255, 0, 0⟩] ++ List.replicate 252 ⟨10, 10, 10⟩) }

theorem test_nearest :
    [0xAB050505].map
      (fun v => (ran .nearest { palState with arg := ⟨v, 0, 0, 0⟩ }).map (fun t => (t.res.x0, t.res.x1))) =
      [some (0, 15)] := by decide +kernel

/-- T-PAL-2 on a 4x4 frame, the second accumulation. -/
def histState : State :=
  { setupState with
    hdr := { setupState.hdr with width := 4, height := 4 }
    src := Memory.ofList 0 (List.replicate 16 ⟨255, 0, 0⟩)
    hist := ⟨[(0xFF0000, 16)], 16, 1⟩ }

theorem test_hist :
    (ran .histAccum histState).map (fun t => (t.hist, t.res.x0)) = some (⟨[(0xFF0000, 32)], 32, 1⟩, 1) ∧
    (ran .histClear histState).map (·.hist) = some Hist.empty := by decide +kernel

/-- T-PAL-3, `DIST_RATIO = 128`. -/
theorem test_select_palette :
    (ran .selectPalette { setupState with
      hdr := { setupState.hdr with version := 1 }
      hist := ⟨[(0xFF, 5), (0xFF00, 10), (0x101010, 3), (0x202020, 2), (0xFF0000, 10)], 30, 5⟩ }).map
      (fun t => (t.res.x0, [0, 1, 255].map (Memory.read t.pal0), Memory.read t.pal1 0)) =
      some (2, [some ⟨0, 255, 0⟩, some ⟨255, 0, 0⟩, some ⟨255, 0, 0⟩], some ⟨255, 0, 0⟩) := by decide +kernel

/-- An 8x8 encode session (T-ME-0): `SRC` all `100000`, `PREV` all `000800`. -/
def sadState : State :=
  { setupState with
    hdr := { setupState.hdr with height := 8 }
    src := Memory.ofList 0 (List.replicate 64 ⟨0x10, 0, 0⟩)
    prev := Memory.ofList 0 (List.replicate 64 ⟨0, 0x08, 0⟩) }

theorem test_block_sad :
    (ran .blockSad sadState).map (·.res.x0) = some 384 ∧
    (ran .blockSad { sadState with arg := ⟨0, 0, 0xFFFFFFFF, 0⟩ }).map (fun t => (t.err, t.errInfo)) =
      some (0x407, 0x335) := by decide +kernel

/-- P4 step 8: `PREV` red, blue, green, white by quarters, `SRC`'s first block blue. -/
def tssState : State :=
  { sadState with
    prev := Memory.ofList 0 ((List.range 64).map fun a =>
      if a % 8 < 4 then (if a < 32 then ⟨0xF8, 0, 0⟩ else ⟨0, 0xF8, 0⟩) else if a < 32 then ⟨0, 0, 0xF8⟩ else ⟨0xF8, 0xF8, 0xF8⟩)
    src := Memory.ofList 0 ((List.range 64).map fun a => if a % 8 < 4 ∧ a < 32 then ⟨0, 0, 0xF8⟩ else Colour.black) }

theorem test_tss :
    (ran .tss tssState).map (fun t => (t.res.x0, t.res.x1, t.res.x2)) = some (4, 0, 0) ∧
    (ran .tss { tssState with arg := ⟨5, 0, 0, 0⟩ }).map (fun t => (t.err, t.errInfo)) = some (0x407, 0x134) := by
  decide +kernel

/-- T-CMD-13 and T-CMD-12. -/
theorem test_enc_setup :
    (ran .encSetup { closedState with hdr := ⟨0, 8, 4, 3, 0, 30, 0, 0, 0, 0, 0⟩ }) = some { setupState with src := [] } ∧
    (ran .encSetup { closedState with hdr := ⟨0, 8, 8, 1, 0x0C, 0, 0, 0, 0, 0, 0⟩ }).map
      (fun t => (t.session, t.cfg.meRange, t.res.x0)) = some (.encSetup, 32, 1) ∧
    (ran .encSetup { closedState with hdr := ⟨0, 6, 4, 3, 0, 0, 0, 0, 0, 0, 0⟩ }).map (fun t => (t.err, t.errInfo, t.session)) =
      some (0x401, 8, .closed) := by decide +kernel

/-- 45 R257 at DIRECT15: the header alone. -/
theorem test_enc_open : ran .encOpen setupState = some encState := by decide +kernel

/-- T-CON-3's chunk layout and T-CLS-2: two uniform blocks, an I-frame. -/
theorem test_enc_frame :
    (ran .encFrame { encState with src := Memory.ofList 0 (List.replicate 32 ⟨0xF8, 0, 0⟩) }).map
      (fun t => (t.out.drop 38).map (·.2)) =
      some [0x41, 0x47, 0x46, 0x43, 0, 0, 0, 0, 1, 0, 6, 0, 0, 0, 6, 0, 0, 0, 0x01, 0x00, 0x7C, 0x01, 0x00, 0x7C] ∧
    (ran .encFrame { encState with src := Memory.ofList 0 (List.replicate 32 ⟨0xF8, 0, 0⟩) }).map
      (fun t => (t.ot, t.frameCtr, t.res, t.status.lastkey)) = some ([⟨38, 0⟩], 1, ⟨1, 6, 6, 38⟩, true) := by decide +kernel

/-- T-CON-4. -/
theorem test_enc_audio :
    (ran .encAudio { encState with ab := Memory.ofList 0 (List.replicate 8 0x80), ablen := 8 }).map
      (fun t => ((t.out.drop 38).map (·.2), t.res.x0, t.res.x1)) =
      some ([0x41, 0x47, 0x41, 0x43, 8, 0, 0, 0, 4, 0, 0, 0, 0x80, 0x80, 0x17, 0x00], 4, 38) := by decide +kernel

/-- P1 step 9. -/
theorem test_enc_close :
    (ran .encClose { encState with frameCtr := 2 }).map
      (fun t => ((t.out.take 8).map (·.2), t.hdr.frameCount, t.res.x0, t.res.x1, t.session)) =
      some ([0x41, 0x47, 0x4D, 0x56, 2, 0, 0, 0], 2, 2, 38, .closed) := by decide +kernel

/-- 30 R104: `(FF, 80, 07)` in the four formats. -/
theorem test_pack_pixel :
    [1, 2, 3, 4].map (fun f => packPixel f ⟨0xFF, 0x80, 0x07⟩) = [0x7E00, 0xFC00, 0xFF8007, 0xFF8007FF] ∧
    unpackPixel 1 0xFFFF = some ⟨0xF8, 0xF8, 0xF8⟩ ∧ unpackPixel 4 0x12345678 = some ⟨0x12, 0x34, 0x56⟩ := by
  decide +kernel

/-- T-CMD-14, T-CMD-15. -/
theorem test_configuration_writes :
    registerValue (writeRegister 0x33 0 closedState) 0x33 = 0x004 ∧
    registerValue (writeRegister 0x33 0x3FF closedState) 0x33 = 0x3FE ∧
    registerValue (writeRegister 0x39 300 closedState) 0x39 = 256 := by decide +kernel

/-! ## Witnesses: the hypotheses of the statements can be met

Each theorem names its statement and gives, for each clause, a state and operands that meet all its hypotheses. -/

/-- An instruction that answers a next state answers `after`. -/
theorem exec_after {i : Instr} {s : State} (h : (ran i s).isSome = true) : exec i s = .next (after i s) := by
  unfold after ran at *
  cases hx : exec i s <;> simp [hx] at h ⊢

/-- A step that answers a next state. -/
theorem step_next {s : State} (h : (stepped s).isSome = true) : ∃ t, step s = .next t := by
  unfold stepped at h
  cases hx : step s <;> simp [hx] at h ⊢

/-- A computation that succeeds has a result. -/
theorem isOk_ok {ε α : Type} {r : Except ε α} (h : r.isOk = true) : ∃ q, r = .ok q := by
  cases r with
  | ok q => exact ⟨q, rfl⟩
  | error e => cases h

/-- The state after a frame step. -/
def frameAfter (s : State) : State :=
  match frameStep s with
  | .done _ t => t
  | .raised _ t => t

/-- A frame step that does not raise. -/
theorem frameStep_after {s : State} (h : (match frameStep s with | .done _ _ => true | .raised _ _ => false) = true) :
    frameStep s = .done () (frameAfter s) := by
  unfold frameAfter
  cases hx : frameStep s <;> simp [hx] at h ⊢

/-- P3 at its corrupt frame: `NEXT_FRAME` raises here. -/
def corruptState : State := { shownState with fpos := 100, frameCtr := 2 }

theorem witness_ResetState : (0x41 : Nat) ≠ 0x42 := by decide

theorem witness_SoftResetResets : State.reset.act = .idle := by decide

theorem witness_LoadQualityLoadsPreset :
    (∀ q : BitVec 2, let s := { closedState with cfg := { cfgReset with quality := q } }
      q = 3 ∨ (s.cfg.quality = 0 ∧ smallPar.high = s.par.high) ∨ (s.cfg.quality = 1 ∧ smallPar.mid = s.par.mid) ∨
        (s.cfg.quality = 2 ∧ smallPar.low = s.par.low)) ∧ closedState.cfg.quality = 3 := by decide

theorem witness_IllegalCommandsRefused :
    (isCommand .nextFrame = true ∧ encode .nextFrame = [0x11] ∧ admits .nextFrame closedState.session = false) ∧
    (let s := { closedState with host := [.write 0 0xFFFFFF45] }
     s.act = .idle ∧ s.host = .write 0 0xFFFFFF45 :: [] ∧ decodeCommand ((0xFFFFFF45 : Word).setWidth 8) = none) := by decide

theorem witness_ArgumentChecks :
    (admits .nearest setupState.session = true ∧ 1 < (2 : Word).toNat) ∧
    (admits .decodeBs setupState.session = true ∧ (0 : Word) ≠ 1 ∧ (3 : Word) ≠ 2) ∧
    (admits .lzDecompress setupState.session = true ∧ setupState.par.bsCap < (601 : Word).toNat) := by decide +kernel

/-- An 8x8 frame of 4x4 blocks: the first column and row that do not fit, and the first displacements that leave it. -/
theorem witness_ArgumentChecks_motion :
    (admits .tss sadState.session = true ∧ sadState.hdr.width = 8 ∧ sadState.hdr.height = 8) ∧
    ¬ 5 + blockWidth sadState.hdr.version ≤ sadState.hdr.width.toNat ∧
    4 + blockWidth sadState.hdr.version ≤ sadState.hdr.width.toNat ∧
    ¬ 5 + blockHeight sadState.hdr.version ≤ sadState.hdr.height.toNat ∧
    4 + blockHeight sadState.hdr.version ≤ sadState.hdr.height.toNat ∧ (0xFFFFFFFF : Word).toInt = -1 := by decide +kernel

/-- `BLOCK_SAD` at the argument that each of its four checks refuses. -/
theorem witness_ArgumentChecks_infos :
    [(⟨5, 0, 0, 0⟩ : Quad), ⟨4, 5, 0, 0⟩, ⟨4, 4, 1, 0⟩, ⟨4, 4, 0, 1⟩].map
      (fun q => (ran .blockSad { sadState with arg := q }).map (·.errInfo)) =
      [some 0x135, some 0x235, some 0x335, some 0x435] := by decide +kernel

theorem witness_VdoneAfterCommand :
    isCommand .nop = true ∧ exec .nop { openState with frameCtr := 3 } = .next (after .nop { openState with frameCtr := 3 }) ∧
    (after .nop { openState with frameCtr := 3 }).status.vdone = true :=
  ⟨by decide, exec_after (by decide +kernel), by decide +kernel⟩

theorem witness_ArgumentsAndResults :
    isCommand .nextFrame = true ∧ exec .nextFrame corruptState = .next (after .nextFrame corruptState) ∧
    Instr.nextFrame ≠ .softReset ∧ (after .nextFrame corruptState).err ≠ 0 :=
  ⟨by decide, exec_after (by decide +kernel), by decide, by decide +kernel⟩

theorem witness_ConfigurationFrame :
    (isCommand .nextFrame = true ∧ Instr.nextFrame ≠ .softReset ∧
      exec .nextFrame openState = .next (after .nextFrame openState)) ∧
    isCommand .openStream = true ∧ Instr.openStream ≠ .softReset ∧
      exec .openStream closedState = .next (after .openStream closedState) :=
  ⟨⟨by decide, by decide, exec_after (by decide +kernel)⟩, by decide, by decide, exec_after (by decide +kernel)⟩

theorem witness_PalettesAndHistogramFrame :
    isCommand .nextFrame = true ∧ Instr.nextFrame ≠ .softReset ∧
    exec .nextFrame openState = .next (after .nextFrame openState) ∧ openState.session = .decOpen ∧
    (after .nextFrame openState).session ≠ .closed :=
  ⟨by decide, by decide, exec_after (by decide +kernel), by decide +kernel, by decide +kernel⟩

/-- A raise of each kind: a corrupt frame, a failed read, a chunk too big for `BS`, a command out of place; and `OPEN` without a
source, `ENC_FRAME` with a full table. -/
theorem witness_RaiseKeepsReferences :
    (isCommand .nextFrame = true ∧ Instr.nextFrame ≠ .skipTo ∧ Instr.nextFrame ≠ .skipBack ∧
      exec .nextFrame corruptState = .next (after .nextFrame corruptState) ∧ (after .nextFrame corruptState).err = 0x304 ∧
      (after .nextFrame corruptState).session ≠ .closed) ∧
    ((ran .nextFrame { openState with io := [true] }).map (·.err) = some 0x106 ∧
      (ran .nextFrame { openState with par := { smallPar with bsCap := 5 } }).map (·.err) = some 0x103 ∧
      (ran .nextFrame closedState).map (·.err) = some 0x407) ∧
    (ran .openStream { closedState with plat := ⟨[], 0, false, true⟩ }).map (·.err) = some 0x102 ∧
    (ran .encFrame { encState with par := { smallPar with otCap := 0 } }).map (·.err) = some 0x403 :=
  ⟨⟨by decide, by decide, by decide, exec_after (by decide +kernel), by decide +kernel, by decide +kernel⟩, by decide +kernel,
    by decide +kernel, by decide +kernel⟩

theorem witness_SinkAllOrNothing :
    (isCommand .encOpen = true ∧ exec .encOpen { setupState with io := [true] } =
      .next (after .encOpen { setupState with io := [true] }) ∧ (after .encOpen { setupState with io := [true] }).err ≠ 0) ∧
    isCommand .nextFrame = true ∧ exec .nextFrame openState = .next (after .nextFrame openState) :=
  ⟨⟨by decide, exec_after (by decide +kernel), by decide +kernel⟩, by decide, exec_after (by decide +kernel)⟩

theorem witness_NearestIsLowestMinimum :
    admits .nearest palState.session = true ∧ palState.arg.x1 = 0 ∧
    admits .nearest { palState with arg := ⟨0, 1, 0, 0⟩ }.session = true := by decide +kernel

theorem witness_HistClearClears : admits .histClear histState.session = true := by decide +kernel

/-- The second state's counter is one below saturation. -/
theorem witness_HistAccumCounts :
    admits .histAccum histState.session = true ∧ histogramCoherent histState.hist = true ∧
    histogramCoherent ⟨[(0, 0xFFFFFFFE)], 0xFFFFFFFE, 1⟩ = true := by decide +kernel

theorem witness_SelectPaletteIsGreedy :
    admits .selectPalette histState.session = true ∧ histogramCoherent histState.hist = true ∧
    histogramCoherent Hist.empty = true := by decide +kernel

/-- The block at the far corner, displaced by (-4, -4). -/
theorem witness_BlockSadSums :
    let s := { sadState with arg := ⟨4, 4, 0xFFFFFFFC, 0xFFFFFFFC⟩ }
    admits .blockSad s.session = true ∧ (-4 : Int) = s.arg.x2.toInt ∧ (-4 : Int) = s.arg.x3.toInt ∧
    s.arg.x0.toNat + blockWidth s.hdr.version ≤ s.hdr.width.toNat ∧
    s.arg.x1.toNat + blockHeight s.hdr.version ≤ s.hdr.height.toNat ∧
    insideFrame s.hdr (s.arg.x0.toNat + -4) (s.arg.x1.toNat + -4) = true := by decide +kernel

theorem witness_SearchResultBounded :
    let s := { sadState with arg := ⟨4, 4, 0, 0⟩ }
    admits .tss s.session = true ∧ s.arg.x0.toNat + blockWidth s.hdr.version ≤ s.hdr.width.toNat ∧
    s.arg.x1.toNat + blockHeight s.hdr.version ≤ s.hdr.height.toNat := by decide +kernel

/-- The last block of the frame, in each profile that selects a table. -/
theorem witness_FillAndNormalWrite :
    (fetchesBlock (frameState 2 .intra 3) ⟨.intra, 16⟩ ∧
      wellFormed (blockCtx (frameState 2 .intra 3) .intra) (.fill true (.index 255)) = true) ∧
    fetchesBlock (frameState 0 .inter 3) ⟨.inter, 16⟩ ∧
      wellFormed (blockCtx (frameState 0 .inter 3) .inter) (.normal false (List.replicate 16 (.rgb555 0x7FFF))) = true := by
  unfold fetchesBlock; decide +kernel

theorem witness_CopyAndSkipCopyPrevious : fetchesBlock (frameState 0 .inter 3) ⟨.inter, 16⟩ := by
  unfold fetchesBlock; decide +kernel

/-- The furthest back that exists. -/
theorem witness_IcopyCopiesEarlierBlock :
    fetchesBlock (frameState 0 .intra 3) ⟨.intra, 16⟩ ∧ (3 : Half) ≠ 0 ∧
    (3 : Half).toNat ≤ (frameState 0 .intra 3).blk.toNat := by unfold fetchesBlock; decide +kernel

/-- MV to the top left corner; PMV from a predictor that the deltas bring back inside. -/
theorem witness_MotionCopiesDisplacedBlock :
    let s := { frameState 0 .inter 3 with pred := 0xFDFF }
    fetchesBlock s ⟨.inter, 16⟩ ∧
    insideFrame s.hdr ((blockX s.hdr s.blk.toNat : Int) + (0xFC : Byte).toInt)
      ((blockY s.hdr s.blk.toNat : Int) + (0xFC : Byte).toInt) = true ∧
    (0xFC : Byte).toInt = (s.pred.extractLsb' 0 8).toInt + (0xD : BitVec 4).toInt ∧
    (0xFE : Byte).toInt = (s.pred.extractLsb' 8 8).toInt + (0x1 : BitVec 4).toInt ∧
    insideFrame s.hdr ((blockX s.hdr s.blk.toNat : Int) + (0xFC : Byte).toInt)
      ((blockY s.hdr s.blk.toNat : Int) + (0xFE : Byte).toInt) = true := by unfold fetchesBlock; decide +kernel

theorem witness_VqWritesSelectedColours :
    fetchesBlock (frameState 2 .intra 3) ⟨.intra, 16⟩ ∧
    wellFormed (blockCtx (frameState 2 .intra 3) .intra) (.vq2 true (.index 0) (.index 1) [0xA5, 0x0F]) = true ∧
    wellFormed (blockCtx (frameState 2 .intra 3) .intra)
      (.vq4 false (.index 0) (.index 1) (.index 2) (.index 3) [0x1B, 0xE4, 0, 0xFF]) = true := by
  unfold fetchesBlock; decide +kernel

theorem witness_BlockCodesRaise :
    let s := { frameState 0 .inter 0 with pred := 0x807F }
    fetchesBlock s ⟨.inter, 16⟩ ∧ s.blk.toNat < (1 : Half).toNat ∧
    insideFrame s.hdr ((blockX s.hdr s.blk.toNat : Int) + (0xFF : Byte).toInt) (blockY s.hdr s.blk.toNat + (0 : Byte).toInt) =
      false ∧
    127 < predX s.pred + (1 : BitVec 4).toInt ∧ predY s.pred + (0xF : BitVec 4).toInt < -128 := by
  unfold fetchesBlock; decide +kernel

/-- T-BLK-1. -/
def blk1Codes : List Instr :=
  [.fill false (.rgb555 0x7C00), .icopy 1, .mv 2 0xFD, .vq2 false (.rgb555 0x7FFF) (.rgb555 0x001F) [0xA5, 0x0F]]

/-- T-BLK-1. -/
theorem witness_DecodeBsRunsTheCodes :
    let s := bitstreamState blk1 2
    admits .decodeBs s.session = true ∧ frameTypeOf s.arg.x0.toNat = some .inter ∧
    (∃ q, frameBegins s .inter (bsBytes s) blk1Codes [] q) ∧ blk1Codes.length = blockCount s.hdr := by
  obtain ⟨q, hq⟩ := isOk_ok (r := runCodes (bitstreamState blk1 2) blk1Codes) (by decide +kernel)
  refine ⟨by decide +kernel, by decide +kernel, ⟨q, ?_, by decide +kernel, hq⟩, by decide +kernel⟩
  unfold bitstream; decide +kernel

/-- A byte left over (T-BLK-6); a reserved tag at block 1, one byte fetched; an ICOPY that refers before block 0. -/
theorem witness_DecodeBsRunsTheCodes_raises :
    (let s := bitstreamState [3, 3, 3, 3, 3] 2
     admits .decodeBs s.session = true ∧ frameTypeOf s.arg.x0.toNat = some .inter ∧
     ∃ pred, FrameRaises s .inter (bsBytes s) 4 4 pred) ∧
    (∃ pred, FrameRaises (bitstreamState [3, 0] 2) .inter (bsBytes (bitstreamState [3, 0] 2)) 1 2 pred) ∧
    FrameRaises (bitstreamState [4, 1, 0] 2) .inter (bsBytes (bitstreamState [4, 1, 0] 2)) 0 3 predZero := by
  refine ⟨⟨by decide +kernel, by decide +kernel, ?_⟩, ?_, ?_⟩
  · obtain ⟨q, hq⟩ := isOk_ok (r := runCodes (bitstreamState [3, 3, 3, 3, 3] 2) [.copy, .copy, .copy, .copy]) (by decide +kernel)
    refine ⟨q.pred, .leftOver [.copy, .copy, .copy, .copy] [3] q ⟨?_, by decide +kernel, hq⟩ (by decide +kernel) (by decide)⟩
    unfold bitstream; decide +kernel
  · obtain ⟨q, hq⟩ := isOk_ok (r := runCodes (bitstreamState [3, 0] 2) [.copy]) (by decide +kernel)
    refine ⟨q.pred, .refused [.copy] [0] q 1 ⟨?_, by decide +kernel, hq⟩ (by decide +kernel) ?_ ?_⟩
    · unfold bitstream; decide +kernel
    · intro i more _ hl h
      have tag : ∀ m < 10, ∀ psel : Bool, 0 < m → tagByte m psel ≠ 0 := by decide
      cases i <;> simp only [languageOf, reduceCtorEq] at hl <;>
        exact tag _ (by decide) _ (by decide) (List.cons.inj h).1.symm
    · intro e h
      have hd : decode (.block (blockCtx (bitstreamState [3, 0] 2) .inter)) [0] = .error ⟨.reservedMode, 1⟩ := by decide +kernel
      rw [hd] at h
      cases h
      rfl
  · refine .raised [] (.icopy 1) [] _ (advance 3 (sequencerStart (bitstreamState [4, 1, 0] 2))) ⟨?_, by decide +kernel, rfl⟩
      (by decide +kernel) (by decide +kernel) (by decide +kernel) (by decide +kernel)
    unfold bitstream; decide +kernel

theorem witness_LzCommandsFillBuffers :
    admits .lzCompress setupState.session = true ∧
    (let s := { setupState with cb := Memory.ofList 0 [0x80, 0x41, 0x1F, 0x00], cblen := 4, arg := ⟨5, 0, 0, 0⟩ }
     admits .lzDecompress s.session = true ∧ s.arg.x0.toNat ≤ s.par.bsCap ∧
     decompress (cbBytes s) s.arg.x0.toNat = .ok (List.replicate 5 0x41, 4)) ∧
    (let s := { setupState with cb := Memory.ofList 0 [0x80, 0x41, 0x03, 0x00], cblen := 4, arg := ⟨600, 0, 0, 0⟩ }
     s.arg.x0.toNat ≤ s.par.bsCap ∧ decompress (cbBytes s) s.arg.x0.toNat = .error 1) := by decide +kernel

/-- A reference that reaches to the start, one beyond it, and offset 0. -/
theorem witness_UnitsWriteOutput :
    (unitState 5 [0x41]).act = .lzss ⟨5, 2, 1, 0x80, 1⟩ ∧ 1 < 5 ∧ (1 : BitVec 12) ≠ 0 ∧ (1 : BitVec 12).toNat ≤ 1 ∧
    1 < (2 : BitVec 12).toNat := by decide

theorem witness_BadMagicRefused :
    let s := { closedState with plat := ⟨Memory.ofList 0 (p3.set 3 0x58), 122, true, true⟩ }
    s.session = .closed ∧ s.status.alloc = false ∧ s.plat.srcPresent = true ∧ s.io = [] ∧ 4 ≤ streamLen s ∧
    bytesAt s .stream s.plat.stream 0 4 ≠ [0x41, 0x47, 0x4D, 0x56] := by decide +kernel

/-- P3's first frame chunk. -/
def p3Frame0 : AgfcFields := ⟨0, 1, 6, 6⟩

/-- P3's second frame chunk, behind the audio chunk. -/
def p3Frame1 : AgfcFields := ⟨1, 2, 4, 4⟩

/-- P3's third frame chunk. -/
def p3Frame2 : AgfcFields := ⟨2, 2, 4, 4⟩

theorem p3_frame0 (s : State) (h : s.plat = closedState.plat) : frameChunkAt s 38 p3Frame0 .intra := by
  unfold frameChunkAt streamHolds frameFits streamLen bytesAt byteAt
  rw [h]
  refine ⟨⟨by decide +kernel, ?_⟩, by decide +kernel, by decide +kernel⟩
  rfl

theorem p3_audio (s : State) (h : s.plat = closedState.plat) : audioChunkAt s 62 ⟨8, 4⟩ := by
  unfold audioChunkAt streamHolds audioFits streamLen bytesAt byteAt
  rw [h]
  refine ⟨⟨by decide +kernel, ?_⟩, by decide +kernel⟩
  rfl

theorem p3_frame1 (s : State) (h : s.plat = closedState.plat) : frameChunkAt s 78 p3Frame1 .inter := by
  unfold frameChunkAt streamHolds frameFits streamLen bytesAt byteAt
  rw [h]
  refine ⟨⟨by decide +kernel, ?_⟩, by decide +kernel, by decide +kernel⟩
  rfl

theorem p3_frame2 (s : State) (h : s.plat = closedState.plat) : frameChunkAt s 100 p3Frame2 .inter := by
  unfold frameChunkAt streamHolds frameFits streamLen bytesAt byteAt
  rw [h]
  refine ⟨⟨by decide +kernel, ?_⟩, by decide +kernel, by decide +kernel⟩
  rfl

/-- From the audio chunk at 62, both P-frames of P3. -/
theorem p3_chunks (s : State) (h : s.plat = closedState.plat) :
    FrameChunks s 62 1 100 p3Frame1 ∧ FrameChunks s 62 2 122 p3Frame2 :=
  ⟨.audio 62 1 100 ⟨8, 4⟩ p3Frame1 (p3_audio s h) (.last 78 p3Frame1 .inter (p3_frame1 s h)),
    .audio 62 2 122 ⟨8, 4⟩ p3Frame2 (p3_audio s h)
      (.frame 78 1 122 p3Frame1 p3Frame2 .inter (p3_frame1 s h) (.last 100 p3Frame2 .inter (p3_frame2 s h)))⟩

/-- `SKIP_FWD` from the audio chunk at 62 comes to the third frame and to the end of the stream. -/
theorem p3_skips (s : State) (h : s.plat = closedState.plat) : SkipReaches s 62 1 100 ∧ SkipReaches s 62 2 122 :=
  ⟨.audio 62 1 100 ⟨8, 4⟩ (p3_audio s h) (.frame 78 0 100 p3Frame1 .inter (p3_frame1 s h) (.here 100)),
    .audio 62 2 122 ⟨8, 4⟩ (p3_audio s h)
      (.frame 78 1 122 p3Frame1 .inter (p3_frame1 s h) (.frame 100 0 122 p3Frame2 .inter (p3_frame2 s h) (.here 122)))⟩

/-- P3's offset table: its one I-frame. -/
theorem p3_table (s : State) (h : s.plat = closedState.plat) : fileTable s p3Header [⟨38, 0⟩] :=
  .intra 38 0 p3Frame0 [] (by decide) (p3_frame0 s h)
    (.audio 62 1 ⟨8, 4⟩ [] (by decide) (p3_audio s h)
      (.inter 78 1 p3Frame1 [] (by decide) (p3_frame1 s h)
        (.inter 100 2 p3Frame2 [] (by decide) (p3_frame2 s h) (.counted 122 3 (by decide)))))

/-- A header of one palette and no frames, and a stream of 806 bytes that holds both. -/
def paletteHeader : HdrFields := { p3Header with frameCount := 0, version := 1 }

def paletteState : State :=
  { closedState with plat := ⟨Memory.ofList 0 (encode (.hdr paletteHeader) ++ List.replicate 768 7), 806, true, true⟩ }

/-- P3 with only its first `n` bytes. -/
def cutState (n : BitVec 33) : State := { closedState with plat := ⟨Memory.ofList 0 p3, n, true, true⟩ }

/-- P3 with room for its I-frame and without; a stream with a palette. -/
theorem witness_OpenOpensOrRefuses :
    (let s := closedState
     s.act = .idle ∧ s.session = .closed ∧ s.io = [] ∧ 38 ≤ streamLen s ∧
     bytesAt s .stream s.plat.stream 4 34 = (encode (.hdr p3Header)).drop 4 ∧
     firstFailing (openChecks s p3Header) = none ∧ streamLen s ≤ 2 ^ 32 ∧ fileTable s p3Header [⟨38, 0⟩] ∧
     [(⟨38, 0⟩ : OtEntry)].length ≤ s.par.otCap) ∧
    (let s := { closedState with par := { smallPar with otCap := 0 } }
     firstFailing (openChecks s p3Header) = none ∧ fileTable s p3Header [⟨38, 0⟩] ∧
     [(⟨38, 0⟩ : OtEntry)][s.par.otCap]? = some ⟨38, 0⟩) ∧
    (let s := paletteState
     bytesAt s .stream s.plat.stream 4 34 = (encode (.hdr paletteHeader)).drop 4 ∧
     firstFailing (openChecks s paletteHeader) = none ∧ paletteTables paletteHeader.version = 1 ∧
     fileTable s paletteHeader []) := by
  refine ⟨⟨by decide +kernel, by decide +kernel, by decide +kernel, by decide +kernel, by decide +kernel, by decide +kernel,
    by decide +kernel, p3_table _ (by decide +kernel), by decide +kernel⟩, ⟨by decide +kernel, p3_table _ (by decide +kernel),
    by decide +kernel⟩, by decide +kernel, by decide +kernel, by decide, .counted _ _ (by decide)⟩

/-- No source, streams one byte too short for the magic, the header and the palette; a first read that fails. -/
theorem witness_OpenOpensOrRefuses_refusals :
    firstFailing (openChecks { closedState with plat := ⟨[], 0, false, true⟩ } p3Header) = some ⟨true, 2, 0⟩ ∧
    firstFailing (openChecks (cutState 3) p3Header) = some ⟨true, 1, 0⟩ ∧
    firstFailing (openChecks (cutState 4) p3Header) = some ⟨true, 1, 4⟩ ∧
    firstFailing (openChecks (cutState 37) p3Header) = some ⟨true, 1, 4⟩ ∧
    firstFailing (openChecks (cutState 38) p3Header) = none ∧
    firstFailing (openChecks { paletteState with plat := { paletteState.plat with streamLen := 805 } } paletteHeader) =
      some ⟨true, 1, 38⟩ ∧
    (let s := { closedState with io := [true] }
     s.session = .closed ∧ s.plat.srcPresent = true ∧ 4 ≤ streamLen s ∧ s.io = true :: []) := by decide +kernel

/-- Checks 4 to 9 at the edges of their ranges. -/
theorem witness_headerChecks :
    firstFailing (headerChecks smallPar { p3Header with format := 5 }) = some ⟨true, 5, 16⟩ ∧
    firstFailing (headerChecks smallPar { p3Header with format := 4 }) = none ∧
    firstFailing (headerChecks smallPar { p3Header with version := 0x10 }) = some ⟨true, 5, 17⟩ ∧
    firstFailing (headerChecks smallPar { p3Header with width := 9, height := 9 }) = some ⟨true, 1, 8⟩ ∧
    firstFailing (headerChecks smallPar { p3Header with height := 0 }) = some ⟨true, 1, 12⟩ ∧
    firstFailing (headerChecks smallPar { p3Header with asize := 1, bps := 12 }) = some ⟨true, 1, 36⟩ ∧
    firstFailing (headerChecks smallPar { p3Header with width := 64, height := 8 }) = some ⟨true, 3, 8⟩ := by decide +kernel

theorem witness_HeaderRecordOpens :
    (let s := { closedState with act := .container .header }
     s.act = .container .header ∧ s.io = [] ∧ firstFailing (fieldChecks s p3Header) = none ∧ streamLen s ≤ 2 ^ 32 ∧
     fileTable s p3Header [⟨38, 0⟩] ∧ [(⟨38, 0⟩ : OtEntry)].length ≤ s.par.otCap) ∧
    (let s := { closedState with act := .container .header, par := { smallPar with otCap := 0 } }
     firstFailing (fieldChecks s p3Header) = none ∧ fileTable s p3Header [⟨38, 0⟩] ∧
     [(⟨38, 0⟩ : OtEntry)][s.par.otCap]? = some ⟨38, 0⟩) ∧
    (let s := { closedState with act := .container .header }
     firstFailing (fieldChecks s paletteHeader) = some ⟨true, 1, 38⟩) :=
  ⟨⟨by decide +kernel, by decide +kernel, by decide +kernel, by decide +kernel, p3_table _ (by decide +kernel), by decide +kernel⟩,
    ⟨by decide +kernel, p3_table _ (by decide +kernel), by decide +kernel⟩, by decide +kernel⟩

/-- A P-frame behind an audio chunk, by NEXT_FRAME; an I-frame record by itself. -/
theorem witness_FrameChunkDecodes :
    (let s := shownState
     let payload := bytesAt s .stream s.plat.stream (78 + 18) p3Frame1.csize.toNat
     let u := fillBs [0x03, 0x05, 0xFC, 0x00] (fillCb payload { s with last := p3Frame1 })
     s.io = [] ∧ streamLen s ≤ 2 ^ 32 ∧ frameTypeOf p3Frame1.ftype.toNat = some .inter ∧ frameFits 78 p3Frame1 s = true ∧
     p3Frame1.usize.toNat ≤ s.par.bsCap ∧ p3Frame1.csize.toNat ≤ s.par.cbCap ∧
     unpackPayload payload p3Frame1.usize.toNat = .ok [0x03, 0x05, 0xFC, 0x00] ∧
     bitstream (blockCtx s .inter) [.copy, .mv 0xFC 0] [0x03, 0x05, 0xFC, 0x00] ∧
     [Instr.copy, .mv 0xFC 0].length = blockCount s.hdr ∧ (∃ q, runCodes u [.copy, .mv 0xFC 0] = .ok q) ∧
     s.session = .decOpen ∧ s.frameCtr.toNat < s.hdr.frameCount.toNat ∧
     FrameChunks s (streamPos s) 1 (78 + 18 + p3Frame1.csize.toNat) p3Frame1) ∧
    (let s := { openState with act := .container (.frame 38) }
     let bits : List Byte := [0x01, 0x00, 0x7C, 0x01, 0x1F, 0x00]
     let codes : List Instr := [.fill false (.rgb555 0x7C00), .fill false (.rgb555 0x001F)]
     let payload := bytesAt s .stream s.plat.stream (38 + 18) p3Frame0.csize.toNat
     let u := fillBs bits (fillCb payload { s with last := p3Frame0 })
     s.io = [] ∧ streamLen s ≤ 2 ^ 32 ∧ frameTypeOf p3Frame0.ftype.toNat = some .intra ∧ frameFits 38 p3Frame0 s = true ∧
     p3Frame0.usize.toNat ≤ s.par.bsCap ∧ p3Frame0.csize.toNat ≤ s.par.cbCap ∧
     unpackPayload payload p3Frame0.usize.toNat = .ok bits ∧ bitstream (blockCtx s .intra) codes bits ∧
     codes.length = blockCount s.hdr ∧ ∃ q, runCodes u codes = .ok q) := by
  refine ⟨⟨by decide +kernel, by decide +kernel, by decide, by decide +kernel, by decide +kernel, by decide +kernel,
    by decide +kernel, ?_, by decide +kernel, isOk_ok (by decide +kernel), by decide +kernel, by decide +kernel, ?_⟩,
    ⟨by decide +kernel, by decide +kernel, by decide, by decide +kernel, by decide +kernel, by decide +kernel,
    by decide +kernel, ?_, by decide +kernel, isOk_ok (by decide +kernel)⟩⟩
  · unfold bitstream; decide +kernel
  · have h : streamPos shownState = 62 := by decide +kernel
    rw [h]
    exact (p3_chunks shownState (by decide +kernel)).1
  · unfold bitstream; decide +kernel

theorem witness_AudioChunkDecodes :
    let s := { shownState with act := .container .audio }
    s.io = [] ∧ streamLen s ≤ 2 ^ 32 ∧ audioFits (streamPos s) ⟨8, 4⟩ s = true ∧ (8 : Word).toNat ≤ s.par.abCap ∧
    (4 : Word).toNat ≤ s.par.cbCap ∧
    unpackPayload (bytesAt s .stream s.plat.stream (streamPos s + 12) 4) 8 = .ok (List.replicate 8 0x80) ∧
    s.session = .decOpen ∧ streamHolds s (streamPos s) (encode (.agac ⟨8, 4⟩)) := by unfold streamHolds; decide +kernel

theorem witness_NothingToDecodeOrDamaged :
    (let s := { shownState with fpos := 122, frameCtr := 3 }
     s.session = .decOpen ∧ s.hdr.frameCount.toNat ≤ s.frameCtr.toNat ∧ s.io = [] ∧ streamLen s ≤ streamPos s) ∧
    (let s := { shownState with act := .container (.frame 62) }
     s.act = .container (.frame 62) ∧ audioFits 62 ⟨8, 4⟩ s = true) ∧
    openState.session = .decOpen ∧ openState.io = [] ∧ streamHolds openState (streamPos openState) [0x41, 0x47, 0x46, 0x43] := by
  unfold streamHolds; decide +kernel

theorem witness_CloseEndsSession :
    shownState.session = .decOpen ∧ (after .nextFrame corruptState).session = .decFault := by decide +kernel

theorem witness_ResetVideoRewinds :
    shownState.session = .decOpen ∧ (after .nextFrame corruptState).session = .decFault := by decide +kernel

/-- P3 with the magic at 78 destroyed. -/
def tornState : State := { shownState with plat := ⟨Memory.ofList 0 (p3.set 78 0), 122, true, true⟩ }

/-- At 78 a damaged record stands, and the next magic is at 100. -/
theorem torn_at_78 : damagedAt tornState 78 ∧ nextMagic tornState 78 100 := by
  have first : (bytesAt tornState .stream tornState.plat.stream 78 1) = [0] := by decide +kernel
  have head : ∀ (b : Byte) (bs : List Byte), streamHolds tornState 78 (b :: bs) → b = 0 := by
    intro b bs h
    have h1 := congrArg (·.take 1) h.2
    simp only [bytesAt, List.length_cons, List.range_succ_eq_map, List.map_cons, List.take_succ_cons, List.take_zero] at h1
    simp only [bytesAt, List.range_one, List.map_cons, List.map_nil] at first
    exact (List.cons.inj h1).1.symm.trans (List.cons.inj first).1
  refine ⟨⟨by decide +kernel, fun f h => ?_, fun f ftype h => ?_⟩, by decide, ?_, fun x h1 h2 => ?_⟩
  · exact absurd (head _ _ h.1) (by decide)
  · exact absurd (head _ _ h.1) (by decide)
  · unfold magicAt; decide +kernel
  · have near : ∀ x < 100, 78 < x → ¬ magicAt tornState x := by unfold magicAt; decide +kernel
    exact near x h2 h1

/-- P3 with one byte replaced, its session as `s` has it. -/
def patched (s : State) (a : Nat) (b : Byte) : State := { s with plat := ⟨Memory.ofList 0 (p3.set a b), 122, true, true⟩ }

/-- The end of the stream, and a destroyed magic, with a frame still to come. -/
theorem witness_NothingToDecodeOrDamaged_frame :
    (let s := { shownState with fpos := 122, frameCtr := 2 }
     s.session = .decOpen ∧ s.io = [] ∧ s.frameCtr.toNat < s.hdr.frameCount.toNat ∧ AudioChunks s (streamPos s) 122 ∧
     noChunkAt s 122) ∧
    (let s := { tornState with fpos := 78 }
     s.session = .decOpen ∧ s.io = [] ∧ s.frameCtr.toNat < s.hdr.frameCount.toNat ∧ AudioChunks s (streamPos s) 78 ∧
     noChunkAt s 78) := by
  have len : streamLen shownState = 122 := by decide +kernel
  refine ⟨⟨by decide +kernel, by decide +kernel, by decide +kernel, .here 122, fun f h => ?_, fun f ftype h => ?_⟩,
    by decide +kernel, by decide +kernel, by decide +kernel, .here 78, torn_at_78.1.2⟩
  · have bound : 122 + (encode (.agac f)).length ≤ 122 := len ▸ h.1.1
    have some : (encode (.agac f)).length = 12 := rfl
    omega
  · have bound : 122 + (encode (.agfc f)).length ≤ 122 := len ▸ h.1.1
    have some : (encode (.agfc f)).length = 18 := rfl
    omega

/-- Behind an audio chunk, a frame chunk one byte too big for BS; a payload whose first unit refers to nothing. -/
theorem witness_NothingToDecodeOrDamaged_payload :
    (let s := { shownState with par := { smallPar with bsCap := 3 } }
     AudioChunks s (streamPos s) 78 ∧ frameChunkAt s 78 p3Frame1 .inter ∧ ¬ p3Frame1.usize.toNat ≤ s.par.bsCap) ∧
    (let s := patched openState 48 7
     let f : AgfcFields := ⟨0, 1, 7, 6⟩
     s.session = .decOpen ∧ s.io = [] ∧ AudioChunks s (streamPos s) 38 ∧ frameChunkAt s 38 f .intra ∧
     f.usize.toNat ≤ s.par.bsCap ∧ f.csize.toNat ≤ s.par.cbCap ∧
     unpackPayload (bytesAt s .stream s.plat.stream (38 + 18) f.csize.toNat) f.usize.toNat = .error 0) := by
  refine ⟨⟨?_, p3_frame1 _ rfl, by decide +kernel⟩, by decide +kernel, by decide +kernel, .here 38, ⟨⟨by decide +kernel, ?_⟩,
    by decide +kernel, by decide +kernel⟩, by decide +kernel, by decide +kernel, by decide +kernel⟩
  · exact .audio 62 78 ⟨8, 4⟩ (p3_audio _ rfl) (.here 78)
  · decide +kernel

/-- P3 where its third frame is read. -/
def fetchState : State := { corruptState with act := .container (.frame 100) }

/-- Its payload unpacked, before the decode. -/
def unpackedState : State :=
  fillBs [0x03, 0x05, 0x04, 0x00]
    (fillCb (bytesAt fetchState .stream fetchState.plat.stream (100 + 18) p3Frame2.csize.toNat) { fetchState with last := p3Frame2 })

/-- The sequencer after the frame's first code, a COPY. -/
def oneCopied : Sequencer :=
  match runCodes unpackedState [.copy] with
  | .ok q => q
  | .error q => q

/-- The frame's second code is a vector that leaves the frame. -/
theorem third_frame_raises : FrameRaises unpackedState .inter [0x03, 0x05, 0x04, 0x00] 1 4 oneCopied.pred := by
  have h : FrameRaises unpackedState .inter [0x03, 0x05, 0x04, 0x00] 1 (advance 3 oneCopied).bspos oneCopied.pred := by
    refine .raised [.copy] (.mv 4 0) [] oneCopied (advance 3 oneCopied) ⟨?_, by decide +kernel, by decide +kernel⟩
      (by decide +kernel) (by decide +kernel) (by decide +kernel) (by decide +kernel)
    unfold bitstream; decide +kernel
  have e : (advance 3 oneCopied).bspos = 4 := by decide +kernel
  rwa [e] at h

/-- P3's third frame, by NEXT_FRAME and by the record itself; a frame type of 3, and a payload past the end, for the record by
itself. -/
theorem witness_NothingToDecodeOrDamaged_bitstream :
    (let s := fetchState
     s.session = .decOpen ∧ s.io = [] ∧ s.frameCtr.toNat < s.hdr.frameCount.toNat ∧ AudioChunks s (streamPos s) 100 ∧
     s.act = .container (.frame 100) ∧ frameChunkAt s 100 p3Frame2 .inter ∧ ∃ t, ChunkRaises s 100 p3Frame2 .inter t) ∧
    frameTypeOf (3 : Half).toNat = none ∧ frameFits 100 { p3Frame2 with csize := 5 } fetchState = false :=
  ⟨⟨by decide +kernel, by decide +kernel, by decide +kernel, .here 100, rfl, p3_frame2 _ (by decide +kernel),
    _, .frame [0x03, 0x05, 0x04, 0x00] 1 4 oneCopied.pred (by decide +kernel) (by decide +kernel) (by decide +kernel)
      third_frame_raises⟩, by decide, by decide +kernel⟩

/-- NEXT_AUDIO at a destroyed magic; a chunk one byte too big for AB; a payload that ends at output byte 8 of 9. -/
theorem witness_NothingToDecodeOrDamaged_audio :
    (let s := { tornState with fpos := 78 }
     s.session = .decOpen ∧ s.io = [] ∧ streamPos s < streamLen s ∧ ¬ streamHolds s (streamPos s) [0x41, 0x47, 0x46, 0x43] ∧
     ∀ f, ¬ audioChunkAt s (streamPos s) f) ∧
    (let s := { shownState with par := { smallPar with abCap := 7 } }
     audioChunkAt s (streamPos s) ⟨8, 4⟩ ∧ ¬ (8 : Word).toNat ≤ s.par.abCap) ∧
    (let s := patched shownState 66 9
     audioChunkAt s (streamPos s) ⟨9, 4⟩ ∧ (9 : Word).toNat ≤ s.par.abCap ∧ (4 : Word).toNat ≤ s.par.cbCap ∧
     unpackPayload (bytesAt s .stream s.plat.stream (streamPos s + 12) 4) 9 = .error 8) := by
  refine ⟨⟨by decide +kernel, by decide +kernel, by decide +kernel, ?_, torn_at_78.1.2.1⟩, ⟨p3_audio _ rfl, by decide +kernel⟩,
    ⟨⟨by decide +kernel, ?_⟩, by decide +kernel⟩, by decide +kernel, by decide +kernel, by decide +kernel⟩
  · unfold streamHolds; decide +kernel
  · decide +kernel

/-- Nothing to pass at the last frame; two frames passed from the audio chunk, with room for more asked; a frame passed behind a
damaged record; the end of the stream before the frames promised; a damaged record without a later magic. -/
theorem witness_SkipForwardPasses :
    (let s := { shownState with fpos := 122, frameCtr := 3, arg := ⟨7, 0, 0, 0⟩ }
     s.session = .decOpen ∧ s.io = [] ∧ s.frameCtr.toNat ≤ s.hdr.frameCount.toNat ∧ streamLen s ≤ 2 ^ 32 ∧
     min s.arg.x0.toNat (s.hdr.frameCount.toNat - s.frameCtr.toNat) = 0) ∧
    (let s := { shownState with arg := ⟨7, 0, 0, 0⟩ }
     s.session = .decOpen ∧ s.io = [] ∧ s.frameCtr.toNat ≤ s.hdr.frameCount.toNat ∧ streamLen s ≤ 2 ^ 32 ∧
     min s.arg.x0.toNat (s.hdr.frameCount.toNat - s.frameCtr.toNat) = 2 ∧ streamPos s = 62 ∧
     SkipReaches s 62 (2 - 1) 100 ∧ frameChunkAt s 100 p3Frame2 .inter) ∧
    (damagedAt tornState 78 ∧ nextMagic tornState 78 100 ∧ SkipReaches tornState 78 0 100) ∧
    (let s := { shownState with hdr := { p3Header with frameCount := 9 }, arg := ⟨7, 0, 0, 0⟩ }
     2 < min s.arg.x0.toNat (s.hdr.frameCount.toNat - s.frameCtr.toNat) ∧ streamPos s = 62 ∧ SkipReaches s 62 2 122 ∧
     streamLen s ≤ 122) ∧
    (let s := { tornState with plat := ⟨Memory.ofList 0 ((p3.set 78 0).set 100 0), 122, true, true⟩ }
     ∀ p, 78 < p → ¬ magicAt s p) := by
  refine ⟨by decide +kernel, ⟨by decide +kernel, by decide +kernel, by decide +kernel, by decide +kernel, by decide +kernel,
    by decide +kernel, (p3_skips _ (by decide +kernel)).1, p3_frame2 _ (by decide +kernel)⟩, ⟨torn_at_78.1, torn_at_78.2,
    .damaged 78 100 0 100 torn_at_78.1 torn_at_78.2 (.here 100)⟩,
    ⟨by decide +kernel, by decide +kernel, (p3_skips _ (by decide +kernel)).2, by decide +kernel⟩, ?_⟩
  intro s p h1 h2
  have far : ∀ x < 120, 78 < x → ¬ magicAt s x := by unfold magicAt; decide +kernel
  have hlen : streamLen s = 122 := by decide +kernel
  have := h2.1
  exact far p (by omega) h1 h2

/-- P3 with the magic at 78 destroyed: the next is at 100, and after that there is none. -/
theorem witness_ResyncFindsFirstMagic :
    tornState.io = [] ∧ nextMagic tornState 78 100 ∧ ∀ x, 100 < x → ¬ magicAt tornState x := by
  have hlen : streamLen tornState = 122 := by decide +kernel
  have far : ∀ x < 120, 100 < x → ¬ magicAt tornState x := by unfold magicAt; decide +kernel
  refine ⟨by decide +kernel, torn_at_78.2, fun x h1 h2 => ?_⟩
  have := h2.1
  exact far x (by omega) h1 h2

/-- Back to exactly the start, and an offset table whose only I-frame lies after the frame wanted. -/
theorem witness_SkipBackClamps :
    (let s := { shownState with arg := ⟨1, 0, 0, 0⟩ }
     s.session = .decOpen ∧ s.frameCtr.toNat ≤ s.arg.x0.toNat) ∧
    (let s := { corruptState with arg := ⟨1, 0, 0, 0⟩, ot := [⟨78, 1⟩] }
     s.session = .decOpen ∧ ∀ e ∈ s.ot, s.frameCtr.toNat - s.arg.x0.toNat - 1 < e.fidx.toNat) := by decide +kernel

/-- P3 at frame 0 with the seek's `STALE` set: where both seeks start decoding. -/
def seekState : State :=
  { corruptState with
    arg := ⟨1, 0, 0, 0⟩
    fpos := 38
    frameCtr := 0
    status := { corruptState.status with avalid := false, stale := true } }

theorem witness_SeekDecodesForward :
    (let s := { corruptState with arg := ⟨1, 0, 0, 0⟩ }
     s.session = .decOpen ∧ s.hdr.frameCount ≠ 0 ∧ 1 = min s.arg.x0.toNat (s.hdr.frameCount.toNat - 1) ∧
     otFind 1 s.ot = some ⟨38, 0⟩ ∧ FrameSteps seekState 2 (frameAfter (frameAfter seekState)) ∧
     s.arg.x0.toNat < s.frameCtr.toNat ∧ 0 = s.frameCtr.toNat - s.arg.x0.toNat - 1 ∧ otFind 0 s.ot = some ⟨38, 0⟩ ∧
     FrameSteps seekState 1 (frameAfter seekState)) ∧
    otFind 0 [⟨78, 1⟩] = none ∧
    FrameSteps (rewind { corruptState with ot := [⟨78, 1⟩] }) 1 (frameAfter (rewind { corruptState with ot := [⟨78, 1⟩] })) := by
  have one : FrameSteps seekState 1 (frameAfter seekState) := .more _ _ _ _ (frameStep_after (by decide +kernel)) (.none _)
  refine ⟨⟨by decide +kernel, by decide +kernel, by decide +kernel, by decide +kernel, ?_, by decide +kernel, by decide +kernel,
    by decide +kernel, one⟩, by decide +kernel, .more _ _ _ _ (frameStep_after (by decide +kernel)) (.none _)⟩
  exact .more _ _ _ _ (frameStep_after (by decide +kernel)) (.more _ _ _ _ (frameStep_after (by decide +kernel)) (.none _))

/-- A seek to P3's third frame, which raises there with two frames decoded; and no frames at all. -/
theorem witness_SeekDecodesForward_raises :
    (let s := { corruptState with arg := ⟨2, 0, 0, 0⟩ }
     let start := { seekState with arg := ⟨2, 0, 0, 0⟩ }
     let u := frameAfter (frameAfter start)
     s.session = .decOpen ∧ s.hdr.frameCount ≠ 0 ∧ 2 = min s.arg.x0.toNat (s.hdr.frameCount.toNat - 1) ∧
     otFind 2 s.ot = some ⟨38, 0⟩ ∧ FrameSteps start 2 u ∧ u.frameCtr.toNat ≤ 2 ∧
     exec .nextFrame u = .next (after .nextFrame u) ∧ (after .nextFrame u).err ≠ 0) ∧
    (let s := { openState with hdr := { p3Header with frameCount := 0 } }
     s.session = .decOpen ∧ s.hdr.frameCount = 0) := by
  refine ⟨⟨by decide +kernel, by decide +kernel, by decide +kernel, by decide +kernel, ?_, by decide +kernel, rfl,
    by decide +kernel⟩, by decide +kernel⟩
  exact .more _ _ _ _ (frameStep_after (by decide +kernel)) (.more _ _ _ _ (frameStep_after (by decide +kernel)) (.none _))

theorem witness_EncSetupOpens :
    (let s := { closedState with hdr := ⟨0, 8, 4, 3, 0, 30, 0, 0, 0, 0, 0⟩ }
     s.session = .closed ∧ s.plat.snkPresent = true ∧ firstFailing (headerChecks s.par s.hdr) = none) ∧
    State.reset.session = .closed ∧ State.reset.plat.snkPresent = false ∧
    closedState.session = .closed ∧ closedState.plat.snkPresent = true ∧
    firstFailing (headerChecks closedState.par closedState.hdr) = some ⟨true, 5, 16⟩ := by decide +kernel

theorem witness_EncOpenWritesHeader :
    setupState.session = .encSetup ∧ setupState.io = [] ∧
    setupState.outlen.toNat + headerLength setupState.hdr.version < 2 ^ 32 := by decide +kernel

/-- The session's second frame, a P-frame. -/
def encState2 : State := after .encFrame encState

/-- The encoded length of a chunk stays far below the sink's limit. -/
theorem witness_EncFrameAppendsChunk :
    (encState.session = .encOpen ∧ encState.io = [] ∧ encState.frameCtr.toNat < 2 ^ 32 - 1 ∧
      (FrameType.intra = .intra ↔ encState.frameCtr = 0 ∨ (encState.cfg.keyInterval ≠ 0 ∧
        encState.frameCtr.toNat % encState.cfg.keyInterval.toNat = 0) ∨ encState.arg.x0.getLsbD 0 = true) ∧
      encState.ot.length < encState.par.otCap ∧
      encState.outlen.toNat + (18 + (packPayload true (packFrame .intra encState).bytes).length) < 2 ^ 32) ∧
    encState2.session = .encOpen ∧ encState2.io = [] ∧ encState2.frameCtr.toNat < 2 ^ 32 - 1 ∧
      (FrameType.inter = .intra ↔ encState2.frameCtr = 0 ∨ (encState2.cfg.keyInterval ≠ 0 ∧
        encState2.frameCtr.toNat % encState2.cfg.keyInterval.toNat = 0) ∨ encState2.arg.x0.getLsbD 0 = true) ∧
      encState2.outlen.toNat + (18 + (packPayload true (packFrame .inter encState2).bytes).length) < 2 ^ 32 := by
  decide +kernel

/-- The counter's limit, and an offset table without room. -/
theorem witness_EncFrameAppendsChunk_refused :
    (let s := { encState with frameCtr := 0xFFFFFFFF }
     s.session = .encOpen ∧ s.frameCtr = 0xFFFFFFFF) ∧
    (let s := { encState with par := { smallPar with otCap := 0 } }
     s.session = .encOpen ∧ s.frameCtr.toNat < 2 ^ 32 - 1 ∧ s.frameCtr = 0 ∧ s.par.otCap ≤ s.ot.length) := by decide +kernel

/-- A sink that has one byte left takes no chunk. -/
theorem witness_EncFrameAppendsChunk_full :
    let s := { encState with outlen := 0xFFFFFFFF }
    s.session = .encOpen ∧ s.io = [] ∧ s.frameCtr = 0 ∧ s.ot.length < s.par.otCap ∧
    2 ^ 32 ≤ s.outlen.toNat + (encode (.agfc ⟨s.frameCtr, 1, 0, 0⟩)).length ∧
    2 ^ 32 ≤ s.outlen.toNat + (encode (.agac ⟨s.ablen, 0⟩)).length := by
  decide +kernel

theorem witness_EncAudioAppendsChunk :
    let s := { encState with ab := Memory.ofList 0 (List.replicate 8 0x80), ablen := 8 }
    let payload := packPayload s.cfg.compEn (abBytes s)
    s.session = .encOpen ∧ s.io = [] ∧
    s.outlen.toNat + (encode (.agac ⟨s.ablen, BitVec.ofNat 32 payload.length⟩) ++ payload).length < 2 ^ 32 := by
  decide +kernel

theorem witness_EncClosePatchesCount :
    setupState.session = .encSetup ∧ (encState.session = .encOpen ∧ encState.io = []) ∧
    { encState with io := [true] }.session = .encOpen ∧ { encState with io := [true] }.io = true :: [] := by decide +kernel

/-- An encode session whose block 0 holds the given pixels, its search step 0, its eligible modes given. -/
def classState (px : List Colour) (modes : BitVec 10) : State :=
  { setupState with
    src := Memory.ofList 0 ((List.range 32).map fun a =>
      if a % 8 < 4 then px.getD (a / 8 * 4 + a % 8) Colour.black else Colour.black)
    cur := filled 32 Colour.black
    cfg := { cfgReset with meStep := 0, modeEn := modes } }

/-- With step 0 the search answers the centre. -/
theorem class_search (px : List Colour) (modes : BitVec 10) (ox oy : Nat) :
    searchAnswers (classState px modes) ox oy ⟨0, 0, blockSad (classState px modes) ox oy 0 0⟩ := .ended _

/-- A block of two colours, checked: its clustering. -/
def checked : List Colour := (List.range 16).map fun n => if n % 2 = 0 then ⟨0xF8, 0, 0⟩ else ⟨0, 0, 0xF8⟩

/-- Pixel `k` of block 0 of an encode session's `SRC`. -/
def classPixel (s : State) (k : Nat) : Colour := colourAt s .src s.src (blockPixelAddr s.hdr 0 0 k)

theorem checked_clusters :
    clustered (classState checked 0x184) (classPixel (classState checked 0x184)) 16 [⟨0xF8, 0, 0⟩, ⟨0, 0, 0xF8⟩] (· % 2) := by
  have near : ∀ k < 16, withinTolerance (classState checked 0x184) (classPixel (classState checked 0x184) k)
      (if k % 2 = 0 then ⟨0xF8, 0, 0⟩ else ⟨0, 0, 0xF8⟩) := by unfold withinTolerance; decide +kernel
  have far : ∀ k < 16, k % 2 = 1 → ¬ withinTolerance (classState checked 0x184)
      (classPixel (classState checked 0x184) k) ⟨0xF8, 0, 0⟩ := by unfold withinTolerance; decide +kernel
  have found : ∀ k < 16, [(⟨0xF8, 0, 0⟩ : Colour), ⟨0, 0, 0xF8⟩][k % 2]? =
      some (if k % 2 = 0 then ⟨0xF8, 0, 0⟩ else ⟨0, 0, 0xF8⟩) := by decide
  refine ⟨by decide, fun k hk => ⟨_, found k hk, near k hk, fun j hj u hu => ?_⟩, fun j r hj => ?_⟩
  · have h1 : k % 2 = 1 := by simp only at hj; omega
    obtain rfl : j = 0 := by simp only at hj; omega
    obtain rfl : (⟨0xF8, 0, 0⟩ : Colour) = u := by simpa using hu
    exact far k hk h1
  · match j, hj with
    | 0, hj =>
      refine ⟨0, by decide, ?_, rfl, by simp⟩
      rw [← Option.some.inj hj]; decide +kernel
    | 1, hj =>
      refine ⟨1, by decide, ?_, rfl, by decide⟩
      rw [← Option.some.inj hj]; decide +kernel
    | j + 2, hj => simp at hj

/-- COPY, FILL (I-frame), ICOPY at block 1, VQ2, VQ4 with VQ2 not eligible, NORMAL with nothing else eligible. -/
theorem witness_ClassifierTakesFirstStep :
    (let s := classState [] 0x3FE
     FrameType.inter = .inter ∧ s.cfg.modeEn.getLsbD 3 = true ∧
     ∀ k < 16, withinTolerance s (classPixel s k) (colourAt s .prev s.prev (blockPixelAddr s.hdr 0 0 k))) ∧
    (let s := classState [] 0x3FE
     FrameType.intra ≠ .inter ∧ s.cfg.modeEn.getLsbD 1 = true ∧ ∀ k < 16, withinTolerance s (classPixel s k) (classPixel s 0)) ∧
    (let s := classState [] 0x014
     s.cfg.modeEn.getLsbD 1 = false ∧ s.cfg.modeEn.getLsbD 4 = true ∧ neighbourBack s.hdr 1 0 1 ∧
     ∀ k < 16, withinTolerance s (colourAt s .src s.src (blockPixelAddr s.hdr 4 0 k))
       (colourAt s .cur s.cur (blockPixelAddr s.hdr 0 0 k))) ∧
    ((classState checked 0x184).cfg.modeEn.getLsbD 1 = false ∧ (classState checked 0x184).cfg.modeEn.getLsbD 4 = false ∧
      (classState checked 0x184).cfg.modeEn.getLsbD 7 = true ∧
      clustered (classState checked 0x184) (classPixel (classState checked 0x184)) 16 [⟨0xF8, 0, 0⟩, ⟨0, 0, 0xF8⟩] (· % 2)) ∧
    ((classState checked 0x104).cfg.modeEn.getLsbD 7 = false ∧ (classState checked 0x104).cfg.modeEn.getLsbD 8 = true ∧
      clustered (classState checked 0x104) (classPixel (classState checked 0x104)) 16 [⟨0xF8, 0, 0⟩, ⟨0, 0, 0xF8⟩] (· % 2)) ∧
    ((classState checked 0x004).cfg.modeEn.getLsbD 7 = false ∧ (classState checked 0x004).cfg.modeEn.getLsbD 8 = false) := by
  refine ⟨⟨rfl, by decide +kernel, ?_⟩, ⟨by decide, by decide +kernel, ?_⟩, ⟨by decide +kernel, by decide +kernel, ?_, ?_⟩,
    ⟨by decide +kernel, by decide +kernel, by decide +kernel, checked_clusters⟩,
    ⟨by decide +kernel, by decide +kernel, checked_clusters⟩, by decide +kernel, by decide +kernel⟩
  · unfold withinTolerance; decide +kernel
  · unfold withinTolerance; decide +kernel
  · unfold neighbourBack; decide +kernel
  · unfold withinTolerance; decide +kernel

/-- P4's block, FILL not eligible, one search step of 4: the vector (4, 0) of cost 0. -/
def movedState : State := { tssState with cfg := { cfgReset with meStep := 4, modeEn := 0x064 } }

/-- One step of the search stays at the centre when every neighbour inside the frame costs no less. -/
theorem moved_stays (step : Nat) (_h : step = 2 ∨ step = 1) : bestNeighbour movedState 0 0 step ⟨4, 0, 0⟩ ⟨4, 0, 0⟩ :=
  .inl ⟨rfl, fun _ _ => Nat.zero_le _⟩

theorem witness_ClassifierTakesFirstStep_motion :
    searchAnswers movedState 0 0 ⟨4, 0, 0⟩ ∧ movedState.cfg.modeEn.getLsbD 1 = false ∧
    movedState.cfg.modeEn.getLsbD 3 = false ∧ movedState.cfg.modeEn.getLsbD 4 = false ∧
    0 < movedState.cfg.mvThresh.toNat * 16 ∧ movedState.cfg.modeEn.getLsbD 6 = true ∧ predX predZero = 0 ∧
    predY predZero = 0 := by
  have first : bestNeighbour movedState 0 0 4 ⟨0, 0, blockSad movedState 0 0 0 0⟩ ⟨4, 0, 0⟩ := by
    have valid : ∀ j < 9, validNeighbour movedState 0 0 ⟨0, 0, blockSad movedState 0 0 0 0⟩ 4 j →
        j < 5 → False := by unfold validNeighbour; decide +kernel
    have cost : neighbourCost movedState 0 0 ⟨0, 0, blockSad movedState 0 0 0 0⟩ 4 5 = 0 := by decide +kernel
    refine .inr ⟨5, ?_, ?_, fun j hj => ⟨?_, fun hlt => (valid j hj.1 hj hlt).elim⟩, ?_⟩
    · unfold validNeighbour; decide +kernel
    · rw [cost]; decide +kernel
    · rw [cost]; exact Nat.zero_le _
    · rw [cost]; decide
  have step : movedState.cfg.meStep.toNat = 4 := by decide +kernel
  refine ⟨?_, by decide +kernel⟩
  unfold searchAnswers
  rw [step]
  exact .step 4 _ _ _ (by decide) first (.step 2 _ _ _ (by decide) (moved_stays 2 (.inl rfl))
    (.step 1 _ _ _ (by decide) (moved_stays 1 (.inr rfl)) (.ended _)))

theorem witness_DecoderRebuildsEncoderFrame : firstFailing (headerChecks encState.par encState.hdr) = none := by decide +kernel

/-- The last element of each writable space, and the first address beyond it. -/
theorem witness_WindowAccess :
    (let s := { encState with winSel := 3, winAddr := 31 }
     s.act = .idle ∧ s.winSel = 3 ∧ s.session = .encOpen ∧ s.status.alloc = true ∧ s.winAddr.toNat < framePixels s.hdr ∧
     unpackedAs s.hdr.format 0x123456 ⟨0x12, 0x34, 0x56⟩) ∧
    framePixels encState.hdr ≤ (32 : Word).toNat ∧
    (setupState.session = .encSetup ∧ (255 : Word).toNat < 256 ∧ encState.session ≠ .encSetup) ∧
    ((599 : Word).toNat < openState.par.bsCap ∧ (699 : Word).toNat < openState.par.cbCap ∧
      (63 : Word).toNat < openState.par.abCap ∧ openState.status.alloc = true ∧ closedState.status.alloc = false) := by
  unfold unpackedAs; decide +kernel

/-- Each space at its last element, and the first address beyond it. -/
theorem witness_HostReads :
    (openState.act = .idle ∧ openState.status.alloc = true ∧ (255 : Word).toNat < 256 ∧
      (31 : Word).toNat < framePixels openState.hdr ∧ framePixels openState.hdr ≤ (32 : Word).toNat ∧
      (599 : Word).toNat < openState.par.bsCap ∧ openState.par.bsCap ≤ (600 : Word).toNat ∧
      openState.ot[(1 : Nat) / 2]? = some ⟨38, 0⟩ ∧ 2 * openState.ot.length ≤ (2 : Word).toNat) ∧
    (encState.session = .encOpen ∧ (37 : Word).toNat < encState.outlen.toNat ∧ encState.outlen.toNat ≤ (38 : Word).toNat) ∧
    (closedState.status.alloc = false ∧ 2 * closedState.ot.length ≤ (0 : Word).toNat) := by decide +kernel

/-- STATUS with P3's session open, a header register, and indices at which nothing is readable. -/
theorem witness_HostReads_registers :
    openState.act = .idle ∧ (0x01, 0x44) ∈ registerNumbers openState ∧ (0x0C, 1) ∈ registerNumbers openState ∧
    (0x11, 8) ∈ registerNumbers openState ∧ (0x41, 0) ∈ registerNumbers openState ∧
    ∀ index ∈ [0x00, 0x0D, 0x0F, 0x1B, 0x1F, 0x3D, 0x3F, 0x43], index ∉ (registerNumbers openState).map (·.1) := by
  decide +kernel

/-- Indices at the edges of the register map's ranges. -/
theorem witness_RegisterWrites :
    (closedState.act = .idle ∧ (0x04 : Nat) ≠ 0 ∧ (0x41 : Nat) ≠ 0x42 ∧ plainWidth 0x04 = some 32 ∧ plainWidth 0x1A = some 16 ∧
      plainWidth 0x41 = some 32) ∧
    (headerIndex 0x1A ∧ closedState.session = .closed ∧ openState.session ≠ .closed) ∧
    ∀ index ∈ [0x01, 0x03, 0x08, 0x0F, 0x1B, 0x28, 0x2C, 0x2F, 0x3A, 0x3F, 0x43], ¬ writableIndex index := by
  unfold writableIndex headerIndex; decide +kernel

theorem witness_DecodeEncodeRoundTrip :
    wellFormed ⟨2, .inter⟩ (.vq2 true (.index 0) (.index 255) [0xA5, 0x0F]) = true ∧ wellFormed ⟨0, .inter⟩ (.ref 0xFFF 15) = true ∧
    wellFormed ⟨0, .inter⟩ (.hdr p3Header) = true := by decide +kernel

theorem witness_DecodedBlocksAreWellFormed :
    decode (.block ⟨0, .inter⟩) blk1 = .ok (.fill false (.rgb555 0x7C00), 3) := by decide

/-- The state before each language's fetch. -/
theorem witness_StepRunsDecoded :
    (let s := { openState with host := [.write 0 0x11] }
     s.act = .idle ∧ s.host = .write 0 0x11 :: [] ∧ decode .command [(0x11 : Word).setWidth 8] = .ok (.nextFrame, 1)) ∧
    (let s := { frameState 0 .inter 3 with bs := Memory.ofList 0 blk1, bspos := 9 }
     fetchesBlock s ⟨.inter, 16⟩ ∧ decode (.block (blockCtx s .inter))
       (bytesAt s .bs s.bs s.bspos.toNat (min 129 (16 - s.bspos.toNat))) =
         .ok (.vq2 false (.rgb555 0x7FFF) (.rgb555 0x001F) [0xA5, 0x0F], 7)) ∧
    (let s := unitState 5 [0x41]
     s.act = .lzss ⟨5, 2, 1, 0x80, 1⟩ ∧ decode (.unit ((0x80 : Byte).getLsbD (7 - 1)))
       (bytesAt s .cb s.cb 2 (min 2 (s.cblen.toNat - 2))) = .ok (.ref 1 15, 2)) ∧
    (let s := { unitState 5 [] with act := .lzss ⟨5, 0, 0, 0, 8⟩ }
     s.act = .lzss ⟨5, 0, 0, 0, 8⟩ ∧ 0 < s.cblen.toNat ∧ decode (.unit ((byteAt s .cb s.cb 0).getLsbD 7))
       (bytesAt s .cb s.cb 1 (min 2 (s.cblen.toNat - 1))) = .ok (.lit 0x41, 1)) ∧
    (let s := { closedState with act := .container .header }
     s.act = .container .header ∧ s.io = [] ∧ s.plat.srcPresent = true ∧ streamHolds s 0 (encode (.hdr p3Header))) ∧
    (let s := { openState with act := .container (.frame 38) }
     s.act = .container (.frame 38) ∧ s.io = [] ∧ streamHolds s 38 (encode (.agfc p3Frame0))) ∧
    (let s := { shownState with act := .container (.frame 62) }
     s.act = .container (.frame 62) ∧ s.io = [] ∧ streamHolds s 62 (encode (.agac ⟨8, 4⟩))) ∧
    (let s := { shownState with act := .container .audio }
     s.act = .container .audio ∧ s.io = [] ∧ streamHolds s (streamPos s) (encode (.agac ⟨8, 4⟩))) := by
  unfold fetchesBlock streamHolds; decide +kernel

/-- The three invariants hold together, and the step runs a command. -/
theorem witness_invariants :
    let s := { shownState with host := [.write 0 0x14], arg := ⟨1, 0, 0, 0⟩ }
    memoriesCanonical s = true ∧ controlCoherent s = true ∧ cursorsLegal s = true ∧ ∃ t, step s = .next t :=
  ⟨by decide +kernel, by decide +kernel, by decide +kernel, step_next (by decide +kernel)⟩

end Sys2Proof.Tests
end

section
/-! The rules that proofs about commands go through: what a run leaves, which part of the state an operation inside a command can
write, and, for each operation the commands share, that it writes no more than that part. -/

namespace Sys2Proof.Machine

/-! ## What a run leaves -/

/-- The run's answer and state satisfy `done` when it is done, its raise and state satisfy `raised` when it raised. -/
def Run.Post {α : Type} (r : Run α) (done : α → State → Prop) (raised : Raise → State → Prop) : Prop :=
  match r with
  | .done a t => done a t
  | .raised e t => raised e t

/-- The run leaves a state that satisfies `P`, whether it is done or raised. -/
abbrev Run.Keeps {α : Type} (P : State → Prop) (r : Run α) : Prop := r.Post (fun _ t => P t) (fun _ t => P t)

/-- A sequence satisfies what its second operation ensures from every result of the first. -/
theorem Run.Post.bind {α β : Type} {r : Run α} {f : α → State → Run β} {D : α → State → Prop}
    {D' : β → State → Prop} {R : Raise → State → Prop} (h : r.Post D R) (hf : ∀ a t, D a t → (f a t).Post D' R) :
    (r.bind f).Post D' R := by
  cases r with
  | done a t => exact hf a t h
  | raised e t => exact h

theorem Run.Post.mono {α : Type} {r : Run α} {D D' : α → State → Prop} {R R' : Raise → State → Prop} (h : r.Post D R)
    (hd : ∀ a t, D a t → D' a t) (hr : ∀ e t, R e t → R' e t) : r.Post D' R' := by
  cases r with
  | done a t => exact hd a t h
  | raised e t => exact hr e t h

/-- A check keeps whatever holds, and has passed if the run goes on. -/
theorem check_post {P : State → Prop} {s : State} (h : P s) (ok : Bool) (e : Raise) :
    (check ok e s).Post (fun _ t => P t ∧ ok = true) (fun _ t => P t) := by
  cases ok with
  | true => exact ⟨h, rfl⟩
  | false => exact h

/-! ## What an operation inside a command can write -/

/-- `o` with the working registers and buffers of one chunk taken from `t`: the sequencer's part, `BS`, `CB`, `LAST_*`. -/
def overScratch (o t : State) : State :=
  { o with
    io := t.io, epoch := t.epoch, last := t.last, bslen := t.bslen, cblen := t.cblen, bs := t.bs, cb := t.cb, cur := t.cur,
    bspos := t.bspos, blk := t.blk, pred := t.pred }

/-- `o` with everything taken from `t` that the commands of an open session work on: besides the scratch part the audio buffer,
the reference frames, the two cursors of the file and the status bits. -/
def overWork (o t : State) : State :=
  { overScratch o t with
    ablen := t.ablen, ab := t.ab, prev := t.prev, key := t.key, fpos := t.fpos, frameCtr := t.frameCtr, status := t.status }

/-- From `o` to `t` nothing was written but the scratch part. -/
def OnlyScratch (o t : State) : Prop := t = overScratch o t

/-- From `o` to `t` nothing was written but the working part. -/
def OnlyWork (o t : State) : Prop := t = overWork o t

theorem OnlyScratch.refl (s : State) : OnlyScratch s s := rfl

theorem OnlyWork.refl (s : State) : OnlyWork s s := rfl

theorem OnlyWork.trans {o s t : State} (h : OnlyWork o s) (h' : OnlyWork s t) : OnlyWork o t :=
  Eq.trans h' (congrArg (overWork · t) h :)

theorem OnlyScratch.onlyWork {o t : State} (h : OnlyScratch o t) : OnlyWork o t := by
  unfold OnlyWork; rw [h]; rfl

/-- The cursors and the offset table of a decode session stay within the file (10 R32, R39; 45 R249). -/
structure DecodeCursors (s : State) : Prop where
  bound : streamLen s ≤ 2 ^ 32
  first : s.firstChunk.toNat = headerLength s.hdr.version
  low : s.firstChunk.toNat ≤ streamPos s
  high : streamPos s ≤ streamLen s
  counter : s.frameCtr.toNat ≤ s.hdr.frameCount.toNat
  table : ∀ e ∈ s.ot, s.firstChunk.toNat ≤ e.off.toNat ∧ e.off.toNat < streamLen s ∧ e.fidx.toNat < s.hdr.frameCount.toNat

/-- `t` is reached inside a command that began in `o`: only working state was written, `ALLOC` stands, `LASTKEY` still implies
`FVALID`, and the cursors of a decode session are still within the file. -/
structure Within (o t : State) : Prop where
  frame : OnlyWork o t
  alloc : t.status.alloc = o.status.alloc
  lastkey : (o.status.fvalid || !o.status.lastkey) = true → (t.status.fvalid || !t.status.lastkey) = true
  cursors : DecodeCursors o → DecodeCursors t

theorem Within.refl (s : State) : Within s s := ⟨.refl s, rfl, id, id⟩

theorem Within.trans {o s t : State} (h : Within o s) (h' : Within s t) : Within o t where
  frame := h.frame.trans h'.frame
  alloc := h'.alloc.trans h.alloc
  lastkey := fun hk => h'.lastkey (h.lastkey hk)
  cursors := fun hc => h'.cursors (h.cursors hc)

theorem OnlyScratch.decodeCursors {o t : State} (h : OnlyScratch o t) (hc : DecodeCursors o) : DecodeCursors t := by
  rw [h]
  exact ⟨hc.bound, hc.first, hc.low, hc.high, hc.counter, hc.table⟩

theorem OnlyScratch.within {o t : State} (h : OnlyScratch o t) : Within o t where
  frame := h.onlyWork
  alloc := (congrArg (fun x : State => x.status.alloc) h :)
  lastkey := by rw [h]; exact id
  cursors := h.decodeCursors

/-- A command's answer: it wrote what `P` allows, and `RES`. -/
def Answers (P : State → Prop) (u : State) : Prop := ∃ v, P v ∧ u = { v with res := u.res }

theorem Answers.mono {P Q : State → Prop} {u : State} (h : Answers P u) (hPQ : ∀ v, P v → Q v) : Answers Q u := by
  obtain ⟨v, hv, hu⟩ := h
  exact ⟨v, hPQ v hv, hu⟩

/-- A property that the outcomes the platform has scripted have no part in. -/
def IoFree (P : State → Prop) : Prop := ∀ s io, P s → P { s with io := io }

theorem onlyScratch_ioFree (o : State) : IoFree (OnlyScratch o) := fun _ io h =>
  (congrArg (fun x : State => { x with io := io }) h :)

/-! ## The byte source, the sink and the buffers -/

/-- A read moves only the I/O script on (20 R66). -/
theorem memRead_keeps {P : State → Prop} (hP : IoFree P) {s : State} (h : P s) (a n : Nat) : (memRead a n s).Keeps P := by
  rcases memRead_cases a n s with hr | hr <;> rw [hr] <;> exact hP s _ h

theorem recordAt_keeps {P : State → Prop} (hP : IoFree P) {s : State} (h : P s) (a : Nat) : (recordAt a s).Keeps P := by
  unfold recordAt
  split
  · exact h
  · split
    · exact h
    · exact (memRead_keeps hP h a 4).bind fun _ _ ht => ht

theorem frameHeader_keeps {P : State → Prop} (hP : IoFree P) {s : State} (h : P s) (a : Nat) :
    (frameHeader a s).Keeps P := by
  unfold frameHeader
  split
  · exact h
  · exact (memRead_keeps hP h _ _).bind fun _ _ ht => ht

theorem audioHeader_keeps {P : State → Prop} (hP : IoFree P) {s : State} (h : P s) (a : Nat) :
    (audioHeader a s).Keeps P := by
  unfold audioHeader
  split
  · exact h
  · exact (memRead_keeps hP h _ _).bind fun _ _ ht => ht

/-- The search for a frame chunk only reads, and finds one at or behind its start. -/
theorem findFrame_post {P : State → Prop} (hP : IoFree P) (fuel a : Nat) {s : State} (h : P s) :
    (findFrame fuel a s).Post (fun r t => P t ∧ a ≤ r.1) (fun _ t => P t) := by
  induction fuel generalizing a s with
  | zero => exact h
  | succ fuel ih =>
    refine (recordAt_keeps hP h a).bind fun kind t ht => ?_
    cases kind with
    | ended => exact ht
    | bad => exact ht
    | frame =>
      refine (frameHeader_keeps hP ht a).bind fun f u hu => ?_
      cases f with
      | none => exact hu
      | some f => exact ⟨hu, Nat.le_refl a⟩
    | audio =>
      refine (audioHeader_keeps hP ht a).bind fun f u hu => ?_
      cases f with
      | none => exact hu
      | some f =>
        dsimp only
        split
        · exact (ih (a + 12 + f.csize.toNat) hu).mono (fun r v hv => ⟨hv.1, by omega⟩) fun _ _ hv => hv
        · exact hu

theorem fillBs_onlyScratch {o s : State} (h : OnlyScratch o s) (bytes : List Byte) : OnlyScratch o (fillBs bytes s) :=
  (congrArg (fillBs bytes) h :)

theorem fillCb_onlyScratch {o s : State} (h : OnlyScratch o s) (bytes : List Byte) : OnlyScratch o (fillCb bytes s) :=
  (congrArg (fillCb bytes) h :)

theorem withSequencer_onlyScratch {o s : State} (h : OnlyScratch o s) (q : Sequencer) : OnlyScratch o (withSequencer q s) :=
  (congrArg (withSequencer q) h :)

theorem loadPayload_keeps {o s : State} (h : OnlyScratch o s) (p n : Nat) : (loadPayload p n s).Keeps (OnlyScratch o) := by
  unfold loadPayload
  split
  · exact fillCb_onlyScratch h []
  · exact (memRead_keeps (onlyScratch_ioFree o) h p n).bind fun bytes _ ht => fillCb_onlyScratch ht bytes

theorem unpackInto_keeps {P : State → Prop} {s : State} (h : P s) (payload : List Byte) (usize : Nat) :
    (unpackInto payload usize s).Keeps P := by
  unfold unpackInto
  split <;> exact h

theorem decodeFrame_keeps {o s : State} (h : OnlyScratch o s) (ftype : FrameType) (len : Nat) :
    (decodeFrame ftype len s).Keeps (OnlyScratch o) := by
  rcases decodeFrame_cases ftype len s with ⟨q, hr⟩ | ⟨q, e, hr, -⟩ <;> rw [hr] <;> exact withSequencer_onlyScratch h q

/-! ## Frame chunks -/

/-- `ReadFrameChunk` writes `LAST_*`, and the chunk it accepts lies inside the stream (45 R250). -/
theorem frameChecks_post {o s : State} (h : OnlyScratch o s) (a : Nat) (f : AgfcFields) :
    (frameChecks a f s).Post (fun _ t => OnlyScratch o t ∧ a + 18 + f.csize.toNat ≤ streamLen o)
      (fun _ t => OnlyScratch o t) := by
  have hlast : OnlyScratch o { s with last := f } := (congrArg (fun x : State => { x with last := f }) h :)
  have hlen : streamLen s = streamLen o := (congrArg streamLen h :)
  unfold frameChecks
  split
  · exact hlast
  · split
    · rename_i hfit
      exact ⟨hlast, by simpa [frameFits, hlen] using hfit⟩
    · exact hlast

/-- The end of `FrameStep` on a state: the commit, `FPOS` behind the chunk, `FRAME_CTR` one on (46 R280). -/
def frameDone (ftype : FrameType) (p : Nat) (v : State) : State :=
  { commit ftype v with fpos := BitVec.ofNat 32 p, frameCtr := saturate (v.frameCtr.toNat + 1) }

theorem frameBody_post {o s : State} (h : OnlyScratch o s) (a : Nat) (f : AgfcFields) :
    (frameBody a f s).Post
      (fun _ t => ∃ ftype v, OnlyScratch o v ∧ a + 18 + f.csize.toNat ≤ streamLen o ∧
        t = frameDone ftype (a + 18 + f.csize.toNat) v)
      (fun _ t => OnlyScratch o t) := by
  refine (frameChecks_post h a f).bind fun ftype s1 ⟨h1, hfit⟩ => ?_
  refine (check_post h1 _ _).bind fun _ s2 ⟨h2, _⟩ => ?_
  refine (loadPayload_keeps h2 _ _).bind fun _ s3 h3 => ?_
  refine (unpackInto_keeps h3 _ _).bind fun out s4 h4 => ?_
  refine (decodeFrame_keeps (fillBs_onlyScratch h4 out) _ _).bind fun _ s5 h5 => ?_
  exact ⟨ftype, s5, h5, hfit, rfl⟩

/-- `FrameStep` ends behind a chunk that lies at or behind `FPOS` inside the stream; a raise leaves everything but the scratch
part. -/
theorem frameStep_post (s : State) :
    (frameStep s).Post
      (fun _ t => ∃ ftype v p, OnlyScratch s v ∧ streamPos s < p ∧ p ≤ streamLen s ∧ t = frameDone ftype p v)
      (fun _ t => OnlyScratch s t) := by
  refine (findFrame_post (onlyScratch_ioFree s) _ _ (.refl s)).bind fun r t ⟨ht, ha⟩ => ?_
  refine (frameBody_post ht r.1 r.2).mono ?_ fun _ _ hv => hv
  rintro _ u ⟨ftype, v, hv, hfit, hu⟩
  exact ⟨ftype, v, _, hv, by omega, hfit, hu⟩

/-- A record boundary that `FPOS` is set to is the one it names, 2^32 included (log 9). -/
theorem streamPos_of_fpos {s : State} {p : Nat} (h : s.fpos = BitVec.ofNat 32 p) (h0 : 0 < p) (hp : p ≤ 2 ^ 32) :
    streamPos s = p := by
  unfold streamPos
  rcases Nat.lt_or_eq_of_le hp with hlt | rfl
  · have hn : s.fpos.toNat = p := by rw [h, BitVec.toNat_ofNat]; omega
    rw [if_neg fun h0 => by rw [h0] at hn; simp at hn; omega, hn]
  · rw [if_pos (by rw [h]; rfl)]

theorem headerLength_pos (version : Byte) : 0 < headerLength version := by unfold headerLength; omega

theorem DecodeCursors.firstChunk_pos {s : State} (h : DecodeCursors s) : 0 < s.firstChunk.toNat := by
  rw [h.first]; exact headerLength_pos _

/-- New positions within the file keep the cursors legal. -/
theorem DecodeCursors.moved {s t : State} (h : DecodeCursors s) (hw : OnlyWork s t)
    (hlow : s.firstChunk.toNat ≤ streamPos t) (hhigh : streamPos t ≤ streamLen s)
    (hctr : t.frameCtr.toNat ≤ s.hdr.frameCount.toNat) : DecodeCursors t := by
  have hfirst : t.firstChunk = s.firstChunk := (congrArg State.firstChunk hw :)
  have hhdr : t.hdr = s.hdr := (congrArg State.hdr hw :)
  have hlen : streamLen t = streamLen s := (congrArg streamLen hw :)
  have hot : t.ot = s.ot := (congrArg State.ot hw :)
  exact ⟨by rw [hlen]; exact h.bound, by rw [hfirst, hhdr]; exact h.first, by rwa [hfirst], by rwa [hlen], by rwa [hhdr],
    by rw [hot, hfirst, hlen, hhdr]; exact h.table⟩

/-- `LASTKEY` is set with `FVALID` only (43 R206). -/
theorem commitStatus_lastkey (ftype : FrameType) (st : Status) :
    ((commitStatus ftype st).fvalid || !(commitStatus ftype st).lastkey) = true := by
  cases ftype <;> rfl

theorem commitStatus_alloc (ftype : FrameType) (st : Status) : (commitStatus ftype st).alloc = st.alloc := by
  cases ftype <;> rfl

theorem frameDone_onlyWork {o v : State} (h : OnlyScratch o v) (ftype : FrameType) (p : Nat) :
    OnlyWork o (frameDone ftype p v) := h.onlyWork.trans rfl

/-- A completed frame step keeps to the session's working state as long as a frame was left to decode. -/
theorem frameDone_within {o s v : State} (ho : Within o s) (h : OnlyScratch s v) (ftype : FrameType) {p : Nat}
    (hp : streamPos s < p) (hlen : p ≤ streamLen s)
    (hleft : DecodeCursors o → s.frameCtr.toNat < s.hdr.frameCount.toNat) : Within o (frameDone ftype p v) where
  frame := ho.frame.trans (frameDone_onlyWork h ftype p)
  alloc := ((commitStatus_alloc ftype v.status).trans (congrArg (fun x : State => x.status.alloc) h :)).trans ho.alloc
  lastkey := fun _ => commitStatus_lastkey ftype v.status
  cursors := fun hd => by
    have hc := ho.cursors hd
    have hpos : streamPos (frameDone ftype p v) = p := streamPos_of_fpos rfl (by omega) (hlen.trans hc.bound)
    have hctr : (frameDone ftype p v).frameCtr = saturate (s.frameCtr.toNat + 1) :=
      (congrArg (fun x : State => saturate (x.frameCtr.toNat + 1)) h :)
    have := hc.low
    have := hleft hd
    refine hc.moved (frameDone_onlyWork h ftype p) (by omega) (by omega) ?_
    rw [hctr, saturate_toNat]; omega

theorem frameStep_keeps {o s : State} (ho : Within o s)
    (hleft : DecodeCursors o → s.frameCtr.toNat < s.hdr.frameCount.toNat) : (frameStep s).Keeps (Within o) := by
  refine (frameStep_post s).mono ?_ fun _ _ ht => ho.trans ht.within
  rintro _ t ⟨ftype, v, p, hv, hp, hlen, rfl⟩
  exact frameDone_within ho hv ftype hp hlen hleft

/-- A command that works inside an open session: it answers having written the working part and `RES`, or raises having
written the working part. -/
def Run.Works (s : State) (r : Run Unit) : Prop := r.Post (fun _ u => Answers (Within s) u) (fun _ u => Within s u)

theorem nextFrameOp_works (s : State) : (nextFrameOp s).Works s := by
  unfold nextFrameOp
  split
  · exact ⟨s, .refl s, rfl⟩
  · rename_i hleft
    exact (frameStep_keeps (.refl s) fun _ => by omega).bind fun _ t ht => ⟨t, ht, rfl⟩

end Sys2Proof.Machine
end

section
/-! The commands of an open session: each keeps to its working state. -/

namespace Sys2Proof.Machine

/-! ## Audio chunks -/

theorem clearAvalid_within (s : State) : Within s (clearAvalid s) where
  frame := rfl
  alloc := rfl
  lastkey := id
  cursors := fun h => ⟨h.bound, h.first, h.low, h.high, h.counter, h.table⟩

/-- The end of `NEXT_AUDIO` on a state: `AB` filled, `FPOS` behind the chunk, `AVALID` (46 R282). -/
def audioDone (out : List Byte) (p : Nat) (v : State) : State :=
  { fillAb out v with fpos := BitVec.ofNat 32 p, status := { v.status with avalid := true } }

theorem audioDone_within {s v : State} (h : OnlyScratch s v) (out : List Byte) {p : Nat} (hp : streamPos s < p)
    (hlen : p ≤ streamLen s) : Within s (audioDone out p v) := by
  have hwork : OnlyWork s (audioDone out p v) := h.onlyWork.trans rfl
  refine ⟨hwork, h.within.alloc, h.within.lastkey, fun hc => ?_⟩
  have hpos : streamPos (audioDone out p v) = p := streamPos_of_fpos rfl (by omega) (hlen.trans hc.bound)
  have hctr : (audioDone out p v).frameCtr = s.frameCtr := (congrArg State.frameCtr h :)
  have := hc.low
  exact hc.moved hwork (by omega) (by omega) (by rw [hctr]; exact hc.counter)

theorem audioBody_works {o s : State} (h : OnlyScratch o s) (f : AgacFields) : (audioBody f s).Works o := by
  have hpos : streamPos s = streamPos o := (congrArg streamPos h :)
  have hlen : streamLen s = streamLen o := (congrArg streamLen h :)
  have hrun : (audioBody f s).Post (fun _ u => Answers (Within o) u) (fun _ u => OnlyScratch o u) := by
    refine (check_post h _ _).bind fun _ s1 ⟨h1, hfit⟩ => ?_
    refine (check_post h1 _ _).bind fun _ s2 ⟨h2, _⟩ => ?_
    refine (loadPayload_keeps h2 _ _).bind fun _ s3 h3 => ?_
    refine (unpackInto_keeps h3 _ _).bind fun out s4 h4 => ?_
    have hfit : streamPos s + 12 + f.csize.toNat ≤ streamLen o := by simpa [audioFits, hlen] using hfit
    exact ⟨_, audioDone_within h4 out (by omega) hfit, rfl⟩
  exact hrun.mono (fun _ _ hu => hu) fun _ _ hu => hu.within

theorem nextAudioOp_works (s : State) : (nextAudioOp s).Works s := by
  have hclear := clearAvalid_within s
  have hrun : (nextAudioOp s).Works (clearAvalid s) := by
    refine ((recordAt_keeps (onlyScratch_ioFree _) (.refl _) _).mono (fun _ _ h => h) fun _ _ h => h.within).bind
      fun kind t ht => ?_
    cases kind with
    | bad => exact ht.within
    | frame => exact ⟨t, ht.within, rfl⟩
    | ended => exact ⟨t, ht.within, rfl⟩
    | audio =>
      refine ((audioHeader_keeps (onlyScratch_ioFree _) ht _).mono (fun _ _ h => h) fun _ _ h => h.within).bind
        fun f u hu => ?_
      cases f with
      | none => exact hu.within
      | some f => exact audioBody_works hu f
  exact hrun.mono (fun _ _ hu => hu.mono fun _ hv => hclear.trans hv) fun _ _ hu => hclear.trans hu

/-! ## Positioning -/

theorem resyncFrom_post {o s : State} (h : OnlyScratch o s) (a fuel p : Nat) :
    (resyncFrom a fuel p s).Post (fun q t => OnlyScratch o t ∧ p ≤ q ∧ q ≤ streamLen o) (fun _ t => OnlyScratch o t) := by
  induction fuel generalizing p s with
  | zero => exact h
  | succ fuel ih =>
    have hlen : streamLen s = streamLen o := (congrArg streamLen h :)
    unfold resyncFrom
    split
    · exact h
    · refine (memRead_keeps (onlyScratch_ioFree o) h p 4).bind fun m t ht => ?_
      have hnext : (resyncFrom a fuel (p + 1) t).Post (fun q u => OnlyScratch o u ∧ p ≤ q ∧ q ≤ streamLen o)
          (fun _ u => OnlyScratch o u) := (ih ht (p + 1)).mono (fun _ _ hq => ⟨hq.1, by omega, hq.2.2⟩) fun _ _ hu => hu
      have hhere : OnlyScratch o t ∧ p ≤ p ∧ p ≤ streamLen o := ⟨ht, Nat.le_refl p, by omega⟩
      cases magicKind m with
      | frame => exact hhere
      | audio => exact hhere
      | ended => exact hnext
      | bad => exact hnext

/-- Resynchronisation finds a record boundary behind its start inside the stream (45 R253). -/
theorem resync_post {o s : State} (h : OnlyScratch o s) (a : Nat) :
    (resync a s).Post (fun q t => OnlyScratch o t ∧ a ≤ q ∧ q ≤ streamLen o) (fun _ t => OnlyScratch o t) :=
  (resyncFrom_post h a _ _).mono (fun _ _ hq => ⟨hq.1, by omega, hq.2.2⟩) fun _ _ hu => hu

/-- Where `SKIP_FWD` stops: a record boundary at or behind its start, inside the stream if the start is, and no frame beyond the
target. -/
def SkipEnd (o : State) (target a c : Nat) (r : Nat × Nat) (t : State) : Prop :=
  OnlyScratch o t ∧ a ≤ r.1 ∧ r.1 ≤ max a (streamLen o) ∧ r.2 ≤ max c target

theorem skipFrames_post {o s : State} (h : OnlyScratch o s) (target fuel : Nat) (a c : Nat) :
    (skipFrames target fuel a c s).Post (SkipEnd o target a c) (fun _ t => OnlyScratch o t) := by
  have hio := onlyScratch_ioFree o
  induction fuel generalizing a c s with
  | zero => exact h
  | succ fuel ih =>
    have hresync : ∀ {t}, OnlyScratch o t →
        ((resync a t).bind fun a s => skipFrames target fuel a c s).Post (SkipEnd o target a c)
          (fun _ t => OnlyScratch o t) := by
      intro t ht
      refine (resync_post ht a).bind fun b u ⟨hu, hab, hb⟩ => ?_
      exact (ih hu b c).mono (fun _ _ ⟨h1, h2, h3, h4⟩ => ⟨h1, by omega, by omega, h4⟩) fun _ _ hv => hv
    unfold skipFrames
    split
    · exact ⟨h, Nat.le_refl a, Nat.le_max_left _ _, Nat.le_max_left _ _⟩
    · rename_i hc
      refine (recordAt_keeps hio h a).bind fun kind t ht => ?_
      cases kind with
      | ended => exact ht
      | bad => exact hresync ht
      | audio =>
        refine (audioHeader_keeps hio ht a).bind fun f u hu => ?_
        have hlen : streamLen u = streamLen o := (congrArg streamLen hu :)
        cases f with
        | none => exact hresync hu
        | some f =>
          dsimp only
          split
          · rename_i hfit
            have hfit : a + 12 + f.csize.toNat ≤ streamLen o := by simpa [audioFits, hlen] using hfit
            exact (ih hu _ c).mono (fun _ _ ⟨h1, h2, h3, h4⟩ => ⟨h1, by omega, by omega, h4⟩) fun _ _ hv => hv
          · exact hresync hu
      | frame =>
        refine (frameHeader_keeps hio ht a).bind fun f u hu => ?_
        cases f with
        | none => exact hresync hu
        | some f =>
          have hchecks := frameChecks_post hu a f
          dsimp only
          cases hr : frameChecks a f u with
          | raised e v => rw [hr] at hchecks; exact hresync hchecks
          | done ftype v =>
            rw [hr] at hchecks
            obtain ⟨hv, hfit⟩ := hchecks
            exact (ih hv _ (c + 1)).mono (fun _ _ ⟨h1, h2, h3, h4⟩ => ⟨h1, by omega, by omega, by omega⟩) fun _ _ hw => hw

/-- The end of `SKIP_FWD` on a state (46 R284). -/
def skipDone (p c : Nat) (skipped : Bool) (v : State) : State :=
  { v with
    fpos := BitVec.ofNat 32 p
    frameCtr := BitVec.ofNat 32 c
    status := { v.status with avalid := false, stale := v.status.stale || skipped } }

/-- Positions within the file are legal ones to set, by `SKIP_FWD`. -/
theorem skipDone_within {s v : State} (h : OnlyScratch s v) {p c : Nat} (skipped : Bool) (hp : streamPos s ≤ p)
    (hlen : DecodeCursors s → p ≤ streamLen s) (hc : DecodeCursors s → c ≤ s.hdr.frameCount.toNat) :
    Within s (skipDone p c skipped v) := by
  have hwork : OnlyWork s (skipDone p c skipped v) := h.onlyWork.trans rfl
  refine ⟨hwork, h.within.alloc, h.within.lastkey, fun hd => ?_⟩
  have := hd.low
  have := hd.firstChunk_pos
  have hpos : streamPos (skipDone p c skipped v) = p := streamPos_of_fpos rfl (by omega) ((hlen hd).trans hd.bound)
  have hctr : (skipDone p c skipped v).frameCtr.toNat ≤ c := (BitVec.toNat_ofNat c 32).trans_le (Nat.mod_le _ _)
  exact hd.moved hwork (by omega) (hpos.trans_le (hlen hd)) (hctr.trans (hc hd))

theorem skipFwdOp_works (s : State) : (skipFwdOp s).Works s := by
  have hskip := skipFrames_post (.refl s) (min (s.frameCtr.toNat + argNat s 0) s.hdr.frameCount.toNat) (streamLen s + 2)
    (streamPos s) s.frameCtr.toNat
  refine (hskip.mono (fun _ _ hr => hr) fun _ _ ht => ht.within).bind fun r t ⟨ht, hlow, hhigh, hctr⟩ => ?_
  refine ⟨_, skipDone_within ht (decide (s.frameCtr.toNat < r.2)) hlow (fun hd => ?_) (fun hd => ?_), rfl⟩
  · have := hd.high; omega
  · have := hd.counter; omega

/-- `Rewind()` goes back to the first chunk and the first frame. -/
theorem rewind_within (s : State) : Within s (rewind s) where
  frame := rfl
  alloc := rfl
  lastkey := fun _ => rfl
  cursors := fun hd => by
    have hfirst := hd.firstChunk_pos
    have hpos : streamPos (rewind s) = s.firstChunk.toNat := if_neg fun h0 : s.firstChunk = 0 => by
      rw [h0] at hfirst; exact absurd hfirst (by decide)
    exact hd.moved rfl hpos.ge (hpos.trans_le (hd.low.trans hd.high)) (Nat.zero_le _)

/-- Every seek starts within the file: at an entry of the table, or rewound. -/
theorem seekTo_within (t : Nat) (s : State) : Within s (seekTo t s) := by
  unfold seekTo
  split
  · exact rewind_within s
  · rename_i e he
    refine ⟨rfl, rfl, id, fun hd => ?_⟩
    obtain ⟨hlow, hhigh, hidx⟩ := hd.table e (otFind_some he).1
    have hfirst := hd.firstChunk_pos
    have hpos : ∀ u : State, u.fpos = e.off → streamPos u = e.off.toNat := fun u hu => by
      rw [streamPos, hu, if_neg fun h0 => by rw [h0] at hlow; simp at hlow; omega]
    refine hd.moved rfl ?_ ?_ hidx.le <;> rw [hpos _ rfl]
    · exact hlow
    · exact hhigh.le

theorem decodeThrough_keeps {o s : State} (h : Within o s) {t : Nat} (ht : DecodeCursors o → t < o.hdr.frameCount.toNat)
    (fuel : Nat) : (decodeThrough t fuel s).Keeps (Within o) := by
  induction fuel generalizing s with
  | zero => exact h
  | succ fuel ih =>
    unfold decodeThrough
    split
    · rename_i hle
      have hhdr : s.hdr = o.hdr := (congrArg State.hdr h.frame :)
      exact (frameStep_keeps h fun hd => by rw [hhdr]; exact hle.trans_lt (ht hd)).bind fun _ u hu => ih hu
    · exact h

theorem seekAndDecode_keeps {t : Nat} {s : State} (ht : DecodeCursors s → t < s.hdr.frameCount.toNat) :
    (seekAndDecode t s).Keeps (Within s) := decodeThrough_keeps (seekTo_within t s) ht (t + 1)

theorem skipBackOp_works (s : State) : (skipBackOp s).Works s := by
  unfold skipBackOp
  split
  · exact ⟨_, rewind_within s, rfl⟩
  · rename_i hle
    split
    · exact ⟨_, rewind_within s, rfl⟩
    · exact (seekAndDecode_keeps fun hd => by have := hd.counter; omega).bind fun _ u hu => ⟨u, hu, rfl⟩

theorem skipToOp_works (s : State) : (skipToOp s).Works s := by
  unfold skipToOp
  split
  · exact ⟨_, clearAvalid_within s, rfl⟩
  · rename_i hcount
    have hpos : 0 < s.hdr.frameCount.toNat := Nat.pos_of_ne_zero fun h0 => hcount (BitVec.eq_of_toNat_eq h0)
    exact (seekAndDecode_keeps fun _ => by omega).bind fun _ u hu => ⟨u, hu, rfl⟩

/-! ## Unit commands -/

/-- A unit command: it answers having written the scratch part and `RES`, or raises having written the scratch part. -/
def Run.Computes (s : State) (r : Run Unit) : Prop :=
  r.Post (fun _ u => Answers (OnlyScratch s) u) (fun _ u => OnlyScratch s u)

theorem Answers.of {P : State → Prop} {v : State} (h : P v) : Answers P v := ⟨v, h, rfl⟩

theorem Answers.setRes0 {P : State → Prop} {u : State} (h : Answers P u) (n : Nat) : Answers P (setRes0 n u) := by
  obtain ⟨v, hv, hu⟩ := h
  exact ⟨v, hv, (congrArg (Machine.setRes0 n) hu :)⟩

theorem Answers.setRes1 {P : State → Prop} {u : State} (h : Answers P u) (n : Nat) : Answers P (setRes1 n u) := by
  obtain ⟨v, hv, hu⟩ := h
  exact ⟨v, hv, (congrArg (Machine.setRes1 n) hu :)⟩

theorem nearestOp_computes (s : State) : (nearestOp s).Computes s :=
  (check_post (.refl s) _ _).bind fun _ _ ht => ((Answers.of ht.1).setRes0 _).setRes1 _

theorem tssOp_computes (s : State) : (tssOp s).Computes s :=
  (check_post (.refl s) _ _).bind fun _ _ ht => (check_post ht.1 _ _).bind fun _ u hu => ⟨u, hu.1, rfl⟩

theorem blockSadOp_computes (s : State) : (blockSadOp s).Computes s :=
  (check_post (.refl s) _ _).bind fun _ _ ht => (check_post ht.1 _ _).bind fun _ _ hu =>
    (check_post hu.1 _ _).bind fun _ _ hv => (check_post hv.1 _ _).bind fun _ w hw => ⟨w, hw.1, rfl⟩

theorem lzDecompressOp_computes (s : State) : (lzDecompressOp s).Computes s := by
  refine (check_post (.refl s) _ _).bind fun _ t ht => ?_
  split
  · exact ⟨_, fillBs_onlyScratch ht.1 _, rfl⟩
  · exact ht.1

theorem lzCompress_answers (s : State) :
    Answers (OnlyScratch s) (setRes0 (compress (bsBytes s)).length (fillCb (compress (bsBytes s)) s)) :=
  ⟨_, fillCb_onlyScratch (.refl s) _, rfl⟩

theorem commit_within {o s : State} (h : OnlyScratch o s) (ftype : FrameType) : Within o (commit ftype s) where
  frame := h.onlyWork.trans rfl
  alloc := (commitStatus_alloc ftype s.status).trans h.within.alloc
  lastkey := fun _ => commitStatus_lastkey ftype s.status
  cursors := fun hd =>
    have hs := h.decodeCursors hd
    ⟨hs.bound, hs.first, hs.low, hs.high, hs.counter, hs.table⟩

theorem decodeBsOp_post (s : State) :
    (decodeBsOp s).Post (fun _ u => Answers (Within s) u) (fun _ u => OnlyScratch s u) := by
  unfold decodeBsOp
  split
  · exact OnlyScratch.refl s
  · rename_i ftype _
    exact (decodeFrame_keeps (.refl s) ftype s.bslen.toNat).bind fun _ t ht => ⟨_, commit_within ht ftype, rfl⟩

end Sys2Proof.Machine
end

section
/-! The commands at the beginning and the end of a session, and those that write the sink: what each leaves. -/

namespace Sys2Proof.Machine

/-! ## The sink -/

/-- From `o` to `v`, `n` bytes were appended to `OUT`, and otherwise only the scratch part was written. -/
def Appended (o : State) (n : Nat) (v : State) : Prop :=
  o.outlen.toNat + n < 2 ^ 32 ∧ ∃ w out, OnlyScratch o w ∧
    v = { w with out := out, outlen := BitVec.ofNat 32 (o.outlen.toNat + n) }

theorem appendOut_post {o s : State} (h : OnlyScratch o s) (bytes : List Byte) :
    (appendOut bytes s).Post (fun _ t => Appended o bytes.length t) (fun _ t => OnlyScratch o t) := by
  have hlen : s.outlen = o.outlen := (congrArg State.outlen h :)
  rcases appendOut_cases bytes s with ⟨hfit, hr⟩ | ⟨io, hr⟩ <;> rw [hr]
  · rw [hlen] at hfit ⊢
    exact ⟨hfit, { s with io := s.io.tail }, _, onlyScratch_ioFree o s _ h, rfl⟩
  · exact onlyScratch_ioFree o s io h

theorem writeFrameChunk_post {o s : State} (h : OnlyScratch o s) (ftype : FrameType) (payload : List Byte) :
    (writeFrameChunk ftype payload s).Post (fun _ t => ∃ n, 0 < n ∧ Appended o n t) (fun _ t => OnlyScratch o t) := by
  refine (appendOut_post h _).bind fun _ t ⟨hfit, w, out, hw, ht⟩ => ⟨_, ?_, hfit, ?_⟩
  · rw [List.length_append, encode_record_length.2.1]; omega
  · refine ⟨{ w with last := chunkFields ftype t }, out, ?_,
      congrArg (fun x : State => { x with last := chunkFields ftype t }) ht⟩
    exact (congrArg (fun x : State => { x with last := chunkFields ftype t }) hw :)

/-- The state `ENC_FRAME` completes in: its chunk appended, then the table entry, the commit, the counter and the results
(46 R297). -/
def FrameWritten (s u : State) : Prop :=
  s.frameCtr.toNat ≠ 2 ^ 32 - 1 ∧ (chooseFrameType s = .intra → s.ot.length < s.par.otCap) ∧
    ∃ n v, 0 < n ∧ Appended s n v ∧ u = frameWritten (chooseFrameType s) s.outlen v

theorem encFrameOp_post (s : State) :
    (encFrameOp s).Post (fun _ u => FrameWritten s u) (fun _ u => OnlyScratch s u) := by
  unfold encFrameOp
  split
  · exact OnlyScratch.refl s
  · rename_i hctr
    split
    · exact OnlyScratch.refl s
    · rename_i hroom
      have hpacked : OnlyScratch s (encodeFrame (packFrame (chooseFrameType s) s) s) :=
        fillBs_onlyScratch (withSequencer_onlyScratch (.refl s) _) _
      refine (writeFrameChunk_post (fillCb_onlyScratch hpacked _) _ _).bind fun _ v ⟨n, hn, hv⟩ => ?_
      exact ⟨hctr, fun hi => Nat.lt_of_not_le fun hle => hroom ⟨hi, hle⟩, n, v, hn, hv, rfl⟩

theorem encAudioOp_post (s : State) :
    (encAudioOp s).Post (fun _ u => Answers (fun v => ∃ n, Appended s n v) u) (fun _ u => OnlyScratch s u) :=
  (appendOut_post (fillCb_onlyScratch (.refl s) _) _).bind fun _ v hv => ⟨v, ⟨_, hv⟩, rfl⟩

/-- Said of a run `r` that equals the command's, so that no use of the lemma evaluates the header image. -/
theorem encOpenOp_post {s : State} {r : Run Unit} (hr : encOpenOp s = r) :
    r.Post
      (fun _ u => ∃ n v, Appended s n v ∧
        u = setRes0 (headerLength v.hdr.version) { v with
          firstChunk := BitVec.ofNat 32 (headerLength v.hdr.version), session := .encOpen })
      (fun _ u => OnlyScratch s u) := by
  subst hr
  unfold encOpenOp
  generalize headerImage s = bytes
  exact (appendOut_post (.refl s) bytes).bind fun _ v hv => ⟨_, v, hv, rfl⟩

/-- `PatchFrameCount` writes `OUT` and `FRAME_COUNT` only. -/
theorem patchFrameCount_post (s : State) :
    (patchFrameCount s).Post
      (fun _ t => ∃ out io n, t = { s with out := out, io := io, hdr := { s.hdr with frameCount := n } })
      (fun _ t => OnlyScratch s t) := by
  unfold patchFrameCount
  split
  · rcases patchOut_cases 4 (le32Bytes s.frameCtr) s with hr | hr <;> rw [hr]
    · exact ⟨_, _, _, rfl⟩
    · exact onlyScratch_ioFree s s _ (.refl s)
  · exact ⟨s.out, s.io, s.hdr.frameCount, rfl⟩

theorem encCloseOp_post (s : State) :
    (encCloseOp s).Post
      (fun _ u => ∃ res out io n, u = closeSession { s with
        res := res, out := out, io := io, hdr := { s.hdr with frameCount := n } })
      (fun _ u => OnlyScratch s u) := by
  refine (patchFrameCount_post s).bind ?_
  rintro _ t ⟨out, io, n, rfl⟩
  exact ⟨_, out, io, n, rfl⟩

/-! ## Opening -/

theorem offsetsIncreasing_append {ot : List OtEntry} {f : OtEntry} (h : offsetsIncreasing ot = true)
    (hf : ∀ e ∈ ot, e.off.toNat < f.off.toNat ∧ e.fidx.toNat < f.fidx.toNat) : offsetsIncreasing (ot ++ [f]) = true := by
  induction ot with
  | nil => rfl
  | cons e ot ih =>
    cases ot with
    | nil => simpa [offsetsIncreasing] using hf e (by simp)
    | cons g rest =>
      simp only [offsetsIncreasing, Bool.and_eq_true] at h
      have := ih h.2 fun x hx => hf x (List.mem_cons_of_mem e hx)
      simpa [offsetsIncreasing, h.1] using this

/-- The state of the scan at record `a`, frame `idx`, in the session `o` opens: only the table was written, and its entries lie
before `a` and `idx` (45 R247). -/
structure ScanState (o : State) (a idx : Nat) (t : State) : Prop where
  frame : t = { o with io := t.io, ot := t.ot }
  start : headerLength o.hdr.version ≤ a
  table : streamLen o ≤ 2 ^ 32 → offsetsIncreasing t.ot = true ∧ t.ot.length ≤ o.par.otCap ∧
    ∀ e ∈ t.ot, headerLength o.hdr.version ≤ e.off.toNat ∧ e.off.toNat < min a (streamLen o) ∧
      e.fidx.toNat < min idx o.hdr.frameCount.toNat

theorem scanState_ioFree (o : State) (a idx : Nat) : IoFree (ScanState o a idx) := fun _ io h =>
  ⟨(congrArg (fun x : State => { x with io := io }) h.frame :), h.start, h.table⟩

/-- Passing over a chunk leaves the table. -/
theorem ScanState.passed {o t : State} {a b i j : Nat} (h : ScanState o a i t) (hab : a ≤ b) (hij : i ≤ j) :
    ScanState o b j t where
  frame := h.frame
  start := h.start.trans hab
  table := fun hlen => by
    obtain ⟨hinc, hcap, hall⟩ := h.table hlen
    exact ⟨hinc, hcap, fun e he => by have := hall e he; omega⟩

/-- An I-frame inside the stream, one of the file's frames, is recorded while the table has room. -/
theorem ScanState.recorded {o t : State} {a b i : Nat} (h : ScanState o a i t) (hab : a < b) (hb : b ≤ streamLen o)
    (hi : i < o.hdr.frameCount.toNat) (hroom : t.ot.length < o.par.otCap) :
    ScanState o b (i + 1) { t with ot := t.ot ++ [⟨BitVec.ofNat 32 a, BitVec.ofNat 32 i⟩] } where
  frame := (congrArg (fun x : State => { x with ot := t.ot ++ [OtEntry.mk (BitVec.ofNat 32 a) (BitVec.ofNat 32 i)] })
    h.frame :)
  start := h.start.trans hab.le
  table := fun hlen => by
    obtain ⟨hinc, hcap, hall⟩ := h.table hlen
    have hcount := o.hdr.frameCount.isLt
    have hoff : (BitVec.ofNat 32 a).toNat = a := by rw [BitVec.toNat_ofNat]; omega
    have hidx : (BitVec.ofNat 32 i).toNat = i := by rw [BitVec.toNat_ofNat]; omega
    have hstart := h.start
    refine ⟨offsetsIncreasing_append hinc fun e he => ?_, by simpa using hroom, fun e he => ?_⟩
    · have := hall e he
      simp only [hoff, hidx]; omega
    · rcases List.mem_append.mp he with he | he
      · have := hall e he; omega
      · rw [List.mem_singleton.mp he]
        simp only [hoff, hidx]; omega

theorem scanChunks_post {o s : State} (fuel : Nat) {a idx : Nat} (h : ScanState o a idx s) :
    (scanChunks fuel a idx s).Post (fun _ t => ∃ b j, ScanState o b j t) (fun _ _ => True) := by
  induction fuel generalizing a idx s with
  | zero => exact ⟨a, idx, h⟩
  | succ fuel ih =>
    have hio := scanState_ioFree o a idx
    unfold scanChunks
    split
    · exact ⟨a, idx, h⟩
    · rename_i hidx
      refine ((recordAt_keeps hio h a).mono (fun _ _ ht => ht) fun _ _ _ => trivial).bind fun kind t ht => ?_
      cases kind with
      | ended => exact ⟨a, idx, ht⟩
      | bad => exact ⟨a, idx, ht⟩
      | audio =>
        refine ((audioHeader_keeps hio ht a).mono (fun _ _ hu => hu) fun _ _ _ => trivial).bind fun f u hu => ?_
        cases f with
        | none => exact ⟨a, idx, hu⟩
        | some f =>
          dsimp only
          split
          · exact ih (hu.passed (by omega) (Nat.le_refl idx))
          · exact ⟨a, idx, hu⟩
      | frame =>
        refine ((frameHeader_keeps hio ht a).mono (fun _ _ hu => hu) fun _ _ _ => trivial).bind fun f u hu => ?_
        cases f with
        | none => exact ⟨a, idx, hu⟩
        | some f =>
          dsimp only
          split
          · exact ⟨a, idx, hu⟩
          · rename_i ftype _
            split
            · rename_i hfit
              have hlen : streamLen u = streamLen o := (congrArg streamLen hu.frame :)
              have hpar : u.par = o.par := (congrArg State.par hu.frame :)
              have hhdr : s.hdr = o.hdr := (congrArg State.hdr h.frame :)
              have hfit : a + 18 + f.csize.toNat ≤ streamLen o := by simpa [frameFits, hlen] using hfit
              cases ftype with
              | inter => exact ih (hu.passed (by omega) (Nat.le_succ idx))
              | intra =>
                dsimp only
                split
                · trivial
                · rename_i hroom
                  rw [hhdr] at hidx
                  rw [hpar] at hroom
                  exact ih (hu.recorded (by omega) hfit (by omega) (by omega))
            · exact ⟨a, idx, hu⟩

/-- The state `OPEN` completes in (46 R275): the header passed its checks, the session was allocated for it, and the scan
filled the table. -/
def Opened (o : State) (u : State) : Prop :=
  ∃ f w cs v b j, headerFault o.par f = none ∧ headerLength f.version ≤ streamLen o ∧ OnlyScratch o w ∧
    ScanState (loadPalettes (paletteTables f.version) cs (allocate f w)) b j v ∧ u = openDone f v

theorem openBody_post {o s : State} (h : OnlyScratch o s) (f : HdrFields) :
    (openBody f s).Post (fun _ u => Opened o u) (fun _ _ => True) := by
  have hpar : s.par = o.par := (congrArg State.par h :)
  have hio := onlyScratch_ioFree o
  unfold openBody
  split
  · trivial
  · rename_i hfault
    rw [hpar] at hfault
    refine ((check_post h _ _).mono (fun _ _ ht => ht) fun _ _ _ => trivial).bind fun _ t ⟨ht, hfit⟩ => ?_
    have hfit : headerLength f.version ≤ streamLen o := by
      rw [show streamLen s = streamLen o from (congrArg streamLen h :)] at hfit
      exact of_decide_eq_true hfit
    have hread : (readPalettes (paletteTables f.version) t).Post (fun _ u => OnlyScratch o u) (fun _ _ => True) := by
      unfold readPalettes
      split
      · exact ht
      · exact (memRead_keeps hio ht _ _).mono (fun _ _ hu => hu) fun _ _ _ => trivial
    refine hread.bind fun bytes w hw => ?_
    refine (scanChunks_post _ (a := headerLength f.version) (idx := 0)
      (o := loadPalettes (paletteTables f.version) (coloursOfBytes bytes) (allocate f w)) ?_).bind
        fun _ v ⟨b, j, hv⟩ => ⟨f, w, _, v, b, j, hfault, hfit, hw, hv, rfl⟩
    exact ⟨rfl, Nat.le_refl _, fun _ => ⟨rfl, Nat.zero_le _, fun e he => by cases he⟩⟩

theorem headerBytes_keeps {P : State → Prop} (hP : IoFree P) {s : State} (h : P s) : (headerBytes s).Keeps P := by
  unfold headerBytes
  split
  · exact h
  · split
    · exact h
    · refine (memRead_keeps hP h 0 4).bind fun m t ht => ?_
      split
      · exact ht
      · split
        · exact ht
        · exact (memRead_keeps hP ht 4 34).bind fun _ _ hu => hu

theorem openOp_post (s : State) : (openOp s).Post (fun _ u => Opened s u) (fun _ _ => True) := by
  refine ((headerBytes_keeps (onlyScratch_ioFree s) (.refl s)).mono (fun _ _ ht => ht) fun _ _ _ => trivial).bind
    fun bytes t ht => ?_
  split
  · exact openBody_post ht _
  · trivial

end Sys2Proof.Machine
end

section
/-! What a command leaves, said once for the 25 host commands: the error it raised and the state that goes with it, or the state
it completed in. -/

namespace Sys2Proof.Machine

/-! ## Raises -/

/-- What a raising command leaves before the error is recorded (60 R318): the state before it, the session lost, the scratch part
written, or, in a decode session, the working part written and perhaps the session in DEC_FAULT. -/
inductive RaiseLeaves (s : State) : State → Prop where
  | before (io : List Bool) : RaiseLeaves s { s with io := io }
  | lost (v : State) : s.session ≠ .closed → Within s v → RaiseLeaves s (closeSession v)
  | scratch (v : State) : OnlyScratch s v → RaiseLeaves s v
  | work (v : State) : s.session = .decOpen → Within s v → RaiseLeaves s v
  | fault (v : State) : s.session = .decOpen → Within s v → RaiseLeaves s { v with session := .decFault }

/-- The state a command of a class may raise in: any where the raise restores the state before it; the working part written by
a streaming command; the scratch part by another. -/
def RaisesIn (cls : RaiseClass) (s u : State) : Prop :=
  (cls = .plain ∨ cls = .opening) ∨ (s.session = .decOpen ∧ Within s u) ∨
    (cls ≠ .streaming ∧ cls ≠ .audio ∧ s.session ≠ .closed ∧ OnlyScratch s u)

/-- Buffers that a raise makes unspecified are working state. -/
theorem Within.scrubbed {s u : State} (h : Within s u) (cur : Memory Colour) (bs cb ab : ByteMemory) (epoch : Nat) :
    Within s { u with cur := cur, bs := bs, cb := cb, ab := ab, epoch := epoch } :=
  h.trans ⟨rfl, rfl, id, fun hd => ⟨hd.bound, hd.first, hd.low, hd.high, hd.counter, hd.table⟩⟩

/-- A raise that wrote only the scratch part leaves the session, loses it, or restores the state before the command, unless its
command is a streaming one. -/
theorem raiseEffect_leaves_of_scratch {cls : RaiseClass} {s u : State} (hstream : cls ≠ .streaming) (haudio : cls ≠ .audio)
    (hopen : s.session ≠ .closed) (h : OnlyScratch s u) (kind : ErrorKind) : RaiseLeaves s (raiseEffect cls kind s u) := by
  have hscrub : OnlyScratch s (scrubFrame u) := (congrArg scrubFrame h :)
  have hbs : OnlyScratch s { u with bs := [], epoch := u.epoch + 1 } :=
    (congrArg (fun x : State => { x with bs := [], epoch := x.epoch + 1 }) h :)
  cases cls with
  | plain => exact .before u.io
  | opening => exact .before u.io
  | streaming => exact absurd rfl hstream
  | audio => exact absurd rfl haudio
  | lzss =>
    cases kind with
    | illegalCommand => exact .before u.io
    | _ => exact .scratch _ hbs
  | bitstream =>
    cases kind with
    | illegalCommand => exact .before u.io
    | _ => exact .scratch _ hscrub
  | encFrame =>
    cases kind with
    | illegalCommand => exact .before u.io
    | memoryAllocationFailure => exact .lost u hopen h.within
    | _ => exact .scratch _ hscrub
  | encOutput =>
    cases kind with
    | illegalCommand => exact .before u.io
    | _ => exact .scratch u h

theorem raiseEffect_leaves {cls : RaiseClass} {s u : State} (h : RaisesIn cls s u) (kind : ErrorKind) :
    RaiseLeaves s (raiseEffect cls kind s u) := by
  obtain (rfl | rfl) | ⟨hopen, hw⟩ | ⟨hstream, haudio, hopen, hscratch⟩ := h
  · exact .before u.io
  · exact .before u.io
  · rcases raiseEffect_cases cls kind s u with hr | hr | hr | ⟨cur, bs, cb, ab, n, hr⟩ | ⟨cur, bs, cb, ab, n, hr⟩ <;>
      rw [hr]
    · exact .before u.io
    · exact .lost u (by rw [hopen]; decide) hw
    · exact .work u hopen hw
    · exact .work _ hopen (hw.scrubbed cur bs cb ab n)
    · exact .fault _ hopen (hw.scrubbed cur bs cb ab n)
  · exact raiseEffect_leaves_of_scratch hstream haudio hopen hscratch kind

/-! ## Completion -/

/-- What a command leaves when its operation is done, before the error registers are cleared. -/
inductive Completes (s : State) : Instr → State → Prop where
  | computed (i : Instr) (u : State) : Answers (OnlyScratch s) u → Completes s i u
  | worked (i : Instr) (u : State) : s.session = .decOpen ∨ s.session = .encSetup → Answers (Within s) u → Completes s i u
  | reset : Completes s .softReset (softReset s)
  | preset (p : Preset) : Completes s .loadQuality { s with cfg := loadPreset p s.cfg }
  | opened (u : State) : Opened s u → Completes s .openStream u
  | rewound : s.session = .decOpen ∨ s.session = .decFault → Completes s .resetVideo { rewind s with session := .decOpen }
  | closed : Completes s .close (closeSession s)
  | ended (res : Quad) (out : ByteMemory) (io : List Bool) (n : Word) :
      Completes s .encClose (closeSession { s with res := res, out := out, io := io, hdr := { s.hdr with frameCount := n } })
  | cleared : Completes s .histClear { s with hist := Hist.empty }
  | counted (res : Quad) : Completes s .histAccum { s with hist := histAccum s, res := res }
  | selected (pal0 pal1 : Memory Colour) (res : Quad) :
      Completes s .selectPalette { s with pal0 := pal0, pal1 := pal1, res := res }
  | setUp : setupFault s = none → Completes s .encSetup (setupSession s)
  | headerWritten (n : Nat) (v : State) : s.session = .encSetup → Appended s n v →
      Completes s .encOpen (setRes0 (headerLength v.hdr.version) { v with
        firstChunk := BitVec.ofNat 32 (headerLength v.hdr.version), session := .encOpen })
  | frameWritten (u : State) : s.session = .encOpen → FrameWritten s u → Completes s .encFrame u
  | audioWritten (u : State) : s.session = .encOpen → Answers (fun v => ∃ n, Appended s n v) u → Completes s .encAudio u

/-- What a command leaves: the error it raised, recorded in the state R318 gives it, or its completion. -/
def CommandLeaves (i : Instr) (s t : State) : Prop :=
  (∃ e r, RaiseLeaves s r ∧ t = recordError e r) ∨ ∃ u, Completes s i u ∧ t = complete u

/-- The command contract (46 R270): a refused command leaves its error, an admitted one what its operation ends in. -/
theorem runCommand_leaves {i : Instr} {code : Nat} {allowed : Session → Bool} {cls : RaiseClass} {op : State → Run Unit}
    {s t : State} (h : runCommand code allowed cls op s = .next t)
    (hop : allowed s.session = true → (op s).Post (fun _ u => Completes s i u) (fun _ u => RaisesIn cls s u)) :
    CommandLeaves i s t := by
  cases ha : allowed s.session with
  | false =>
    rw [runCommand_refused ha] at h
    exact .inl ⟨illegalCommand code, s, .before s.io, (Host.Outcome.next.inj h).symm⟩
  | true =>
    rw [runCommand_admitted ha] at h
    have hpost := hop ha
    cases hr : op s with
    | done x u =>
      rw [hr] at hpost h
      exact .inr ⟨u, hpost, (Host.Outcome.next.inj h).symm⟩
    | raised e u =>
      rw [hr] at hpost h
      exact .inl ⟨e, _, raiseEffect_leaves hpost e.kind, (Host.Outcome.next.inj h).symm⟩

/-! ## Admission by session (46 R271) -/

theorem admitDecOpen_iff {x : Session} : admitDecOpen x = true ↔ x = .decOpen := by cases x <;> decide

theorem admitDecode_iff {x : Session} : admitDecode x = true ↔ x = .decOpen ∨ x = .decFault := by cases x <;> decide

theorem admitBitstream_iff {x : Session} : admitBitstream x = true ↔ x = .decOpen ∨ x = .encSetup := by cases x <;> decide

theorem admitSetup_iff {x : Session} : admitSetup x = true ↔ x = .encSetup := by cases x <;> decide

theorem admitEncOpen_iff {x : Session} : admitEncOpen x = true ↔ x = .encOpen := by cases x <;> decide

theorem admitEncode_iff {x : Session} : admitEncode x = true ↔ x = .encSetup ∨ x = .encOpen := by cases x <;> decide

theorem admitUnit_ne_closed {x : Session} (h : admitUnit x = true) : x ≠ .closed := by rintro rfl; exact absurd h (by decide)

/-! ## The commands -/

/-- A streaming command of an open decode session. -/
theorem Run.Works.leaves {i : Instr} {cls : RaiseClass} {s : State} {r : Run Unit} (h : r.Works s)
    (hopen : s.session = .decOpen) : r.Post (fun _ u => Completes s i u) (fun _ u => RaisesIn cls s u) :=
  h.mono (fun _ u hu => .worked i u (.inl hopen) hu) fun _ _ hu => .inr (.inl ⟨hopen, hu⟩)

/-- A unit command whose only raise is `IllegalCommand`. -/
theorem Run.Computes.leaves {i : Instr} {s : State} {r : Run Unit} (h : r.Computes s) :
    r.Post (fun _ u => Completes s i u) (fun _ u => RaisesIn .plain s u) :=
  h.mono (fun _ u hu => .computed i u hu) fun _ _ _ => .inl (.inl rfl)

/-- A raise that wrote only the scratch part, of a command that is no streaming one. -/
theorem RaisesIn.of_scratch {cls : RaiseClass} {s u : State} (h : OnlyScratch s u) (hopen : s.session ≠ .closed)
    (hstream : cls ≠ .streaming) (haudio : cls ≠ .audio) : RaisesIn cls s u := .inr (.inr ⟨hstream, haudio, hopen, h⟩)

theorem loadQuality_leaves {s t : State} (h : execLoadQuality s = .next t) : CommandLeaves .loadQuality s t := by
  refine runCommand_leaves h fun _ => ?_
  unfold loadQualityOp
  split
  · exact Completes.preset _
  · exact Completes.computed _ s (.of (.refl s))

theorem encSetup_leaves {s t : State} (h : execEncSetup s = .next t) : CommandLeaves .encSetup s t := by
  refine runCommand_leaves h fun _ => ?_
  unfold encSetupOp
  split
  · exact .inl (.inr rfl)
  · rename_i hfault; exact Completes.setUp hfault

theorem lzDecompress_leaves {s t : State} (h : execLzDecompress s = .next t) : CommandLeaves .lzDecompress s t :=
  runCommand_leaves h fun ha => (lzDecompressOp_computes s).mono (fun _ u hu => .computed _ u hu)
    fun _ _ hu => .of_scratch hu (admitUnit_ne_closed ha) (by decide) (by decide)

theorem decodeBs_leaves {s t : State} (h : execDecodeBs s = .next t) : CommandLeaves .decodeBs s t := by
  refine runCommand_leaves h fun ha => ?_
  have hopen := admitBitstream_iff.mp ha
  exact (decodeBsOp_post s).mono (fun _ u hu => .worked _ u hopen hu) fun _ _ hu =>
    .of_scratch hu (by rcases hopen with h | h <;> rw [h] <;> decide) (by decide) (by decide)

theorem encFrame_leaves {s t : State} (h : execEncFrame s = .next t) : CommandLeaves .encFrame s t := by
  refine runCommand_leaves h fun ha => ?_
  have hopen := admitEncOpen_iff.mp ha
  exact (encFrameOp_post s).mono (fun _ u hu => .frameWritten u hopen hu) fun _ _ hu =>
    .of_scratch hu (by rw [hopen]; decide) (by decide) (by decide)

theorem encAudio_leaves {s t : State} (h : execEncAudio s = .next t) : CommandLeaves .encAudio s t := by
  refine runCommand_leaves h fun ha => ?_
  have hopen := admitEncOpen_iff.mp ha
  exact (encAudioOp_post s).mono (fun _ u hu => .audioWritten u hopen hu) fun _ _ hu =>
    .of_scratch hu (by rw [hopen]; decide) (by decide) (by decide)

theorem encOpen_leaves {s t : State} (h : execEncOpen s = .next t) : CommandLeaves .encOpen s t := by
  refine runCommand_leaves h fun ha => ?_
  have hopen := admitSetup_iff.mp ha
  generalize hr : encOpenOp s = r
  refine (encOpenOp_post hr).mono ?_ fun _ _ hu => .of_scratch hu (by rw [hopen]; decide) (by decide) (by decide)
  rintro _ _ ⟨n, v, hv, rfl⟩
  exact .headerWritten n v hopen hv

theorem encClose_leaves {s t : State} (h : execEncClose s = .next t) : CommandLeaves .encClose s t := by
  refine runCommand_leaves h fun ha => ?_
  have hopen : s.session ≠ .closed := by rcases admitEncode_iff.mp ha with h | h <;> rw [h] <;> decide
  refine (encCloseOp_post s).mono ?_ fun _ _ hu => .of_scratch hu hopen (by decide) (by decide)
  rintro _ _ ⟨res, out, io, n, rfl⟩
  exact .ended res out io n

/-- What each of the 25 host commands leaves. -/
theorem exec_command_leaves {i : Instr} {s t : State} (hi : isCommand i = true) (h : exec i s = .next t) :
    CommandLeaves i s t := by
  cases i with
  | nop => exact runCommand_leaves (show execNop s = _ from h) fun _ => Completes.computed _ s (.of (.refl s))
  | softReset => exact runCommand_leaves (show execSoftReset s = _ from h) fun _ => Completes.reset
  | loadQuality => exact loadQuality_leaves h
  | openStream =>
    exact runCommand_leaves h fun _ => (openOp_post s).mono (fun _ u hu => .opened u hu) fun _ _ _ => .inl (.inr rfl)
  | nextFrame => exact runCommand_leaves h fun ha => (nextFrameOp_works s).leaves (admitDecOpen_iff.mp ha)
  | nextAudio => exact runCommand_leaves h fun ha => (nextAudioOp_works s).leaves (admitDecOpen_iff.mp ha)
  | resetVideo => exact runCommand_leaves (show execResetVideo s = _ from h) fun ha =>
      Completes.rewound (admitDecode_iff.mp ha)
  | skipFwd => exact runCommand_leaves h fun ha => (skipFwdOp_works s).leaves (admitDecOpen_iff.mp ha)
  | skipBack => exact runCommand_leaves h fun ha => (skipBackOp_works s).leaves (admitDecOpen_iff.mp ha)
  | skipTo => exact runCommand_leaves h fun ha => (skipToOp_works s).leaves (admitDecOpen_iff.mp ha)
  | close => exact runCommand_leaves (show execClose s = _ from h) fun _ => Completes.closed
  | lzDecompress => exact lzDecompress_leaves h
  | lzCompress => exact runCommand_leaves (show execLzCompress s = _ from h) fun _ =>
      Completes.computed _ _ (lzCompress_answers s)
  | decodeBs => exact decodeBs_leaves h
  | nearest => exact runCommand_leaves h fun _ => (nearestOp_computes s).leaves
  | histClear => exact runCommand_leaves (show execHistClear s = _ from h) fun _ => Completes.cleared
  | histAccum => exact runCommand_leaves (show execHistAccum s = _ from h) fun _ => Completes.counted _
  | selectPalette => exact runCommand_leaves (show execSelectPalette s = _ from h) fun _ => Completes.selected _ _ _
  | tss => exact runCommand_leaves h fun _ => (tssOp_computes s).leaves
  | blockSad => exact runCommand_leaves h fun _ => (blockSadOp_computes s).leaves
  | encSetup => exact encSetup_leaves h
  | encOpen => exact encOpen_leaves h
  | encFrame => exact encFrame_leaves h
  | encAudio => exact encAudio_leaves h
  | encClose => exact encClose_leaves h
  | _ => exact absurd hi (by simp [isCommand, languageOf])

end Sys2Proof.Machine
end

section
/-! The frame of a command: the arguments, the results after a raise, the configuration, and what only the host or the platform
writes. -/

namespace Sys2Proof.Machine

/-- The part of the state that no command but `SOFT_RESET` writes: the arguments, the window registers, the platform's inputs,
the parameters, the host's accesses, and that the machine is between commands. -/
structure HostPart where
  arg     : Quad
  winSel  : BitVec 4
  winAddr : Word
  plat    : Platform
  par     : Params
  host    : List HostAccess
  act     : Activity

/-- The host's part of the state. -/
def hostPart (s : State) : HostPart := ⟨s.arg, s.winSel, s.winAddr, s.plat, s.par, s.host, s.act⟩

theorem OnlyWork.hostPart_eq {s t : State} (h : OnlyWork s t) : hostPart t = hostPart s := (congrArg hostPart h :)

theorem OnlyWork.cfg_eq {s t : State} (h : OnlyWork s t) : t.cfg = s.cfg := (congrArg State.cfg h :)

theorem OnlyWork.res_eq {s t : State} (h : OnlyWork s t) : t.res = s.res := (congrArg State.res h :)

theorem Answers.hostPart_eq {s u : State} (h : Answers (Within s) u) : hostPart u = hostPart s := by
  obtain ⟨v, hv, hu⟩ := h
  exact (congrArg hostPart hu :).trans hv.frame.hostPart_eq

theorem Answers.cfg_eq {s u : State} (h : Answers (Within s) u) : u.cfg = s.cfg := by
  obtain ⟨v, hv, hu⟩ := h
  exact (congrArg State.cfg hu :).trans hv.frame.cfg_eq

theorem Appended.hostPart_eq {s v : State} {n : Nat} (h : Appended s n v) : hostPart v = hostPart s := by
  obtain ⟨_, w, out, hw, rfl⟩ := h
  exact hw.onlyWork.hostPart_eq

theorem Appended.cfg_eq {s v : State} {n : Nat} (h : Appended s n v) : v.cfg = s.cfg := by
  obtain ⟨_, w, out, hw, rfl⟩ := h
  exact hw.onlyWork.cfg_eq

theorem frameWritten_frame (ftype : FrameType) (off : Word) (s : State) :
    hostPart (frameWritten ftype off s) = hostPart s ∧ (frameWritten ftype off s).cfg = s.cfg := by
  cases ftype <;> exact ⟨rfl, rfl⟩

theorem Opened.hostPart_eq {s u : State} (h : Opened s u) : hostPart u = hostPart s := by
  obtain ⟨f, w, cs, v, b, j, -, -, hw, hv, rfl⟩ := h
  exact (congrArg (fun x => hostPart (openDone f x)) hv.frame :).trans hw.onlyWork.hostPart_eq

/-- `OPEN` writes `ME_RANGE` alone of the configuration (10 R35). -/
theorem Opened.cfg_eq {s u : State} (h : Opened s u) : u.cfg = { s.cfg with meRange := u.cfg.meRange } := by
  obtain ⟨f, w, cs, v, b, j, -, -, hw, hv, rfl⟩ := h
  have hcfg : (openDone f v).cfg = { w.cfg with meRange := searchRange f.version } := (congrArg State.cfg hv.frame :)
  rw [hcfg, hw.onlyWork.cfg_eq]

/-- A raise leaves the host's part, the configuration and the results. -/
theorem RaiseLeaves.frame {s r : State} (h : RaiseLeaves s r) :
    hostPart r = hostPart s ∧ r.cfg = s.cfg ∧ r.res = s.res := by
  cases h with
  | before io => exact ⟨rfl, rfl, rfl⟩
  | lost v _ hv => exact ⟨hv.frame.hostPart_eq, hv.frame.cfg_eq, hv.frame.res_eq⟩
  | scratch _ hv => exact ⟨hv.onlyWork.hostPart_eq, hv.onlyWork.cfg_eq, hv.onlyWork.res_eq⟩
  | work _ _ hv => exact ⟨hv.frame.hostPart_eq, hv.frame.cfg_eq, hv.frame.res_eq⟩
  | fault v _ hv => exact ⟨hv.frame.hostPart_eq, hv.frame.cfg_eq, hv.frame.res_eq⟩

theorem Completes.hostPart_eq {i : Instr} {s u : State} (h : Completes s i u) (hi : i ≠ .softReset) :
    hostPart u = hostPart s := by
  cases h with
  | reset => exact absurd rfl hi
  | computed _ _ hu => exact (hu.mono fun _ hv => hv.within).hostPart_eq
  | worked _ _ _ hu => exact hu.hostPart_eq
  | opened _ hu => exact hu.hostPart_eq
  | headerWritten n v _ hv => exact hv.hostPart_eq
  | frameWritten _ _ hu =>
    obtain ⟨-, -, n, v, -, hv, rfl⟩ := hu
    exact (frameWritten_frame _ _ v).1.trans hv.hostPart_eq
  | audioWritten _ _ hu =>
    obtain ⟨v, ⟨n, hv⟩, hu⟩ := hu
    exact (congrArg hostPart hu :).trans hv.hostPart_eq
  | preset | rewound | closed | ended | cleared | counted | selected | setUp => rfl

theorem Completes.cfg_eq {i : Instr} {s u : State} (h : Completes s i u) (hr : i ≠ .softReset) (hl : i ≠ .loadQuality)
    (ho : i ≠ .openStream) (he : i ≠ .encSetup) : u.cfg = s.cfg := by
  cases h with
  | reset => exact absurd rfl hr
  | preset => exact absurd rfl hl
  | opened => exact absurd rfl ho
  | setUp => exact absurd rfl he
  | computed _ _ hu => exact (hu.mono fun _ hv => hv.within).cfg_eq
  | worked _ _ _ hu => exact hu.cfg_eq
  | headerWritten n v _ hv => exact hv.cfg_eq
  | frameWritten _ _ hu =>
    obtain ⟨-, -, n, v, -, hv, rfl⟩ := hu
    exact (frameWritten_frame _ _ v).2.trans hv.cfg_eq
  | audioWritten _ _ hu =>
    obtain ⟨v, ⟨n, hv⟩, hu⟩ := hu
    exact (congrArg State.cfg hu :).trans hv.cfg_eq
  | rewound | closed | ended | cleared | counted | selected => rfl

/-- `OPEN` and `ENC_SETUP` write `ME_RANGE` alone of the configuration. -/
theorem Completes.cfg_opening {i : Instr} {s u : State} (h : Completes s i u) (hi : i = .openStream ∨ i = .encSetup) :
    u.cfg = { s.cfg with meRange := u.cfg.meRange } := by
  have hsame : ∀ {c : EncCfg}, c = s.cfg → c = { s.cfg with meRange := c.meRange } := by rintro _ rfl; rfl
  cases h with
  | computed _ _ hu => exact hsame (hu.mono fun _ hv => hv.within).cfg_eq
  | worked _ _ _ hu => exact hsame hu.cfg_eq
  | opened _ hu => exact hu.cfg_eq
  | setUp => rfl
  | _ => simp at hi

/-- Settles O8: a command either completes and clears the error, or records one over a state whose results are the old ones. -/
theorem argumentsAndResults : Obligations.ArgumentsAndResults := by
  intro i s t hi h
  rcases exec_command_leaves hi h with ⟨e, r, hr, rfl⟩ | ⟨u, hu, rfl⟩
  · obtain ⟨hhost, -, hres⟩ := hr.frame
    exact ⟨fun _ => congrArg HostPart.arg hhost, fun _ => hres, iff_of_true rfl (recordError_err_ne_zero e r)⟩
  · exact ⟨fun hi => congrArg HostPart.arg (hu.hostPart_eq hi), fun herr => absurd rfl herr,
      iff_of_false (by simp) fun herr => herr rfl⟩

/-- Settles O9: neither a raise nor a completion writes the host's part, and the completions that write the configuration are
`LOAD_QUALITY`'s, `OPEN`'s and `ENC_SETUP`'s. -/
theorem configurationFrame : Obligations.ConfigurationFrame := by
  intro i s t hi hreset h
  have hframe : (i ≠ .loadQuality → i ≠ .openStream → i ≠ .encSetup → t.cfg = s.cfg) ∧
      (i = .openStream ∨ i = .encSetup → t.cfg = { s.cfg with meRange := t.cfg.meRange }) ∧ hostPart t = hostPart s := by
    rcases exec_command_leaves hi h with ⟨e, r, hr, rfl⟩ | ⟨u, hu, rfl⟩
    · obtain ⟨hhost, hcfg, -⟩ := hr.frame
      exact ⟨fun _ _ _ => hcfg, fun _ => by rw [recordError_cfg, hcfg], hhost⟩
    · exact ⟨hu.cfg_eq hreset, hu.cfg_opening, hu.hostPart_eq hreset⟩
  obtain ⟨hcfg, hopening, hhost⟩ := hframe
  exact ⟨hcfg, hopening, congrArg HostPart.winSel hhost, congrArg HostPart.winAddr hhost, congrArg HostPart.plat hhost,
    congrArg HostPart.par hhost, congrArg HostPart.host hhost⟩

end Sys2Proof.Machine
end

section
/-! What a step between commands leaves: the host's access, whichever it is. -/

namespace Sys2Proof.Machine

/-! ## The host's writes -/

/-- `o` with everything taken from `t` that the host writes directly: the arguments, the window, the palettes, `SRC`, the byte
buffers and their lengths. -/
def overHost (o t : State) : State :=
  { o with
    arg := t.arg, winSel := t.winSel, winAddr := t.winAddr, pal0 := t.pal0, pal1 := t.pal1, src := t.src, bs := t.bs, cb := t.cb,
    ab := t.ab, bslen := t.bslen, cblen := t.cblen, ablen := t.ablen, epoch := t.epoch }

theorem windowStore_overHost (v : Word) (s : State) : windowStore v s = overHost s (windowStore v s) := by
  unfold windowStore
  split
  case h_3 =>
    unfold windowSource
    split
    · split <;> rfl
    · rfl
  case h_7 => rfl
  all_goals split <;> rfl

theorem writeLength_overHost (index : Nat) (v : Word) (s : State) :
    writeLength index v s = overHost s (writeLength index v s) := by
  unfold writeLength
  split <;> rfl

/-- A register write changes what the host writes directly, a header register of a closed session, or a configuration
register. -/
theorem writeRegister_cases (index : Nat) (v : Word) (s : State) :
    writeRegister index v s = overHost s (writeRegister index v s) ∨
    (s.session = .closed ∧ writeRegister index v s = { s with hdr := writeHeader index v s.hdr }) ∨
    writeRegister index v s = { s with cfg := writeConfig index v s.cfg } := by
  unfold writeRegister
  split
  case h_7 => exact .inl (congrArg (fun x : State => { x with winAddr := x.winAddr + 1 }) (windowStore_overHost v s) :)
  case h_8 =>
    split
    · split
      · rename_i hclosed; exact .inr (.inl ⟨hclosed, rfl⟩)
      · exact .inl rfl
    · split
      · exact .inl (writeLength_overHost index v s)
      · split
        · exact .inr (.inr rfl)
        · exact .inl rfl
  all_goals exact .inl rfl

/-- A register read moves the window on and answers, and writes nothing else. -/
theorem readRegister_eq (index : Nat) (s : State) :
    readRegister index s = { s with
      winAddr := (readRegister index s).winAddr
      hostData := (readRegister index s).hostData
      epoch := (readRegister index s).epoch } := by
  unfold readRegister
  split <;> rfl

/-! ## The step -/

/-- The command table decodes to host commands only. -/
theorem decodeCommand_isCommand {c : Byte} {i : Instr} (h : decodeCommand c = some i) : isCommand i = true := by
  unfold decodeCommand at h
  split at h <;> cases h <;> rfl

/-- What the host's access leaves (46 R270): the command's end, the refusal of an unknown code, the register written or read, or
the reset state. -/
inductive AccessLeaves (s : State) : State → Prop where
  | command (i : Instr) (t : State) : isCommand i = true → exec i s = .next t → AccessLeaves s t
  | unknown (e : Raise) : AccessLeaves s (recordError e s)
  | written (index : Nat) (v : Word) : AccessLeaves s (writeRegister index v s)
  | read (index : Nat) : AccessLeaves s (readRegister index s)
  | reset : AccessLeaves s (softReset s)

theorem hostStep_leaves {access : HostAccess} {s t : State} (h : hostStep exec access s = .next t) : AccessLeaves s t := by
  cases access with
  | read index => obtain rfl := Host.Outcome.next.inj h; exact .read index
  | resetPin => obtain rfl := Host.Outcome.next.inj h; exact .reset
  | write index v =>
    simp only [hostStep] at h
    split at h
    · simp only [issueCommand, decode] at h
      cases hd : decodeCommand (v.setWidth 8) with
      | none => rw [hd] at h; obtain rfl := Host.Outcome.next.inj h; exact .unknown _
      | some i => rw [hd] at h; exact .command i t (decodeCommand_isCommand hd) h
    · obtain rfl := Host.Outcome.next.inj h; exact .written index v

/-- A property of the states between commands that does not depend on the accesses to come holds after every step if every
access keeps it. -/
theorem step_keeps {I : State → Prop} (idle : ∀ s, I s → s.act = .idle) (host : ∀ s rest, I s → I { s with host := rest })
    (access : ∀ s t, I s → AccessLeaves s t → I t) {s t : State} (hs : I s) (h : step s = .next t) : I t := by
  unfold step at h
  rw [idle s hs] at h
  simp only [idleStep] at h
  split at h
  · obtain rfl := Host.Outcome.next.inj h; exact hs
  · exact access _ t (host s _ hs) (hostStep_leaves h)

end Sys2Proof.Machine
end

section
/-! The histogram: its counters are the non-zero ones, and `HIST_DISTINCT` counts them (10 R40, 40 R123). -/

namespace Sys2Proof.Machine

/-- The number of a word made of two parts. -/
theorem append_toNat {n m : Nat} (x : BitVec n) (y : BitVec m) : (x ++ y).toNat = x.toNat * 2 ^ m + y.toNat := by
  rw [BitVec.toNat_append, ← Nat.shiftLeft_add_eq_or_of_lt y.isLt, Nat.shiftLeft_eq]

/-- `0x00RRGGBB` as a number. -/
theorem wordOfColour_toNat (c : Colour) :
    (wordOfColour c).toNat = c.r.toNat * 2 ^ 16 + c.g.toNat * 2 ^ 8 + c.b.toNat := by
  have hzero : (0 : Byte).toNat = 0 := rfl
  rw [wordOfColour, append_toNat, append_toNat, append_toNat, hzero]; omega

theorem colourKey_lt (c : Colour) : colourKey c < 2 ^ 24 := by
  have := c.r.isLt
  have := c.g.isLt
  have := c.b.isLt
  rw [colourKey, wordOfColour_toNat]; omega

theorem Memory.mem_of_read {α : Type} {m : Memory α} {a : Nat} {v : α} (h : Memory.read m a = some v) : (a, v) ∈ m := by
  induction m with
  | nil => simp at h
  | cons e m ih =>
    obtain ⟨b, w⟩ := e
    simp only [Memory.read] at h
    split at h
    · rename_i hab; subst hab; simp [Option.some.inj h]
    · exact List.mem_cons_of_mem _ (ih h)

/-- An address before every stored one holds nothing. -/
theorem Memory.read_eq_none_of_lt {α : Type} {m : Memory α} {a : Nat} (h : ∀ e ∈ m, a < e.1) : Memory.read m a = none := by
  cases hr : Memory.read m a with
  | none => rfl
  | some v => exact absurd (h _ (Memory.mem_of_read hr)) (Nat.lt_irrefl a)

/-- A write to a canonical memory adds an element where none was stored, and replaces the one that was. -/
theorem Memory.length_write {α : Type} {m : Memory α} (h : Memory.wf m = true) (a : Nat) (v : α) :
    (Memory.write m a v).length = if Memory.read m a = none then m.length + 1 else m.length := by
  induction m with
  | nil => rfl
  | cons e m ih =>
    obtain ⟨b, w⟩ := e
    obtain ⟨hlt, hwf⟩ := (Memory.wf_cons b w m).mp h
    rcases Nat.lt_trichotomy a b with hab | rfl | hab
    · have hnone : Memory.read ((b, w) :: m) a = none := Memory.read_eq_none_of_lt fun e he => by
        rcases List.mem_cons.mp he with rfl | he
        · exact hab
        · exact hab.trans (hlt e he)
      simp [Memory.write, hab, hnone]
    · simp [Memory.write, Memory.read]
    · simp only [Memory.write, Memory.read, if_neg (Nat.not_lt_of_gt hab), if_neg (Nat.ne_of_gt hab), List.length_cons, ih hwf]
      split <;> rfl

/-- A canonical memory holds no more elements than its range has addresses. -/
theorem Memory.length_le {α : Type} {m : Memory α} (h : Memory.wf m = true) {lo n : Nat} (hlo : lo ≤ n)
    (hm : ∀ e ∈ m, lo ≤ e.1 ∧ e.1 < n) : m.length ≤ n - lo := by
  induction m generalizing lo with
  | nil => exact Nat.zero_le _
  | cons e m ih =>
    obtain ⟨b, w⟩ := e
    obtain ⟨hlt, hwf⟩ := (Memory.wf_cons b w m).mp h
    have hb := hm (b, w) (by simp)
    have hrest := ih hwf (lo := b + 1) hb.2 fun e he => ⟨hlt e he, (hm e (List.mem_cons_of_mem _ he)).2⟩
    simp only [List.length_cons]
    omega

theorem histogramCoherent_iff (h : Hist) : histogramCoherent h = true ↔
    Memory.wf h.counts = true ∧ (∀ e ∈ h.counts, e.1 < 2 ^ 24 ∧ e.2 ≠ 0) ∧ h.distinct.toNat = h.counts.length := by
  simp only [histogramCoherent, Bool.and_eq_true, List.all_eq_true, decide_eq_true_eq, and_assoc]

/-- Where no listed counter is 0, a colour's count is 0 exactly if it is not listed. -/
theorem histCount_eq_zero {counts : Memory Word} (h : ∀ e ∈ counts, e.2 ≠ 0) (c : Nat) :
    histCount counts c = 0 ↔ Memory.read counts c = none := by
  unfold histCount
  split
  · rename_i n hn
    have hne := h _ (Memory.mem_of_read hn)
    simp only [hn, reduceCtorEq, iff_false]
    exact fun h0 => hne (BitVec.eq_of_toNat_eq h0)
  · rename_i hn; simp [hn]

theorem histPixel_coherent {h : Hist} (hh : histogramCoherent h = true) {c : Nat} (hc : c < 2 ^ 24) :
    histogramCoherent (histPixel h c) = true := by
  obtain ⟨hwf, hall, hdistinct⟩ := (histogramCoherent_iff h).mp hh
  have hzero := histCount_eq_zero (fun e he => (hall e he).2) c
  rw [histogramCoherent_iff]
  by_cases hsat : histCount h.counts c < 0xFFFFFFFF
  · have hcounts : (histPixel h c).counts = Memory.write h.counts c (BitVec.ofNat 32 (histCount h.counts c + 1)) :=
      if_pos hsat
    have hwf' := Memory.wf_write hwf c (BitVec.ofNat 32 (histCount h.counts c + 1))
    have hall' : ∀ e ∈ Memory.write h.counts c (BitVec.ofNat 32 (histCount h.counts c + 1)), e.1 < 2 ^ 24 ∧ e.2 ≠ 0 := by
      intro e he
      rcases Memory.mem_write he with rfl | he
      · refine ⟨hc, fun h0 => ?_⟩
        have hn : (histCount h.counts c + 1) % 2 ^ 32 = 0 :=
          (BitVec.toNat_ofNat _ _).symm.trans (congrArg BitVec.toNat h0)
        omega
      · exact hall e he
    have hlen := Memory.length_le hwf' (Nat.zero_le (2 ^ 24)) fun e he => ⟨Nat.zero_le _, (hall' e he).1⟩
    rw [hcounts]
    refine ⟨hwf', hall', ?_⟩
    have hlength := Memory.length_write hwf c (BitVec.ofNat 32 (histCount h.counts c + 1))
    by_cases hnew : histCount h.counts c = 0
    · rw [if_pos (hzero.mp hnew)] at hlength
      have hone : (histPixel h c).distinct = h.distinct + 1 := if_pos hnew
      have h1 : (1 : Word).toNat = 1 := rfl
      rw [hone, BitVec.toNat_add, h1]
      omega
    · rw [if_neg (mt hzero.mpr hnew)] at hlength
      have hsame : (histPixel h c).distinct = h.distinct := if_neg hnew
      rw [hsame, hlength, hdistinct]
  · have hcounts : (histPixel h c).counts = h.counts := if_neg hsat
    have hsame : (histPixel h c).distinct = h.distinct := if_neg (by omega)
    rw [hcounts, hsame]
    exact ⟨hwf, hall, hdistinct⟩

theorem histAccum_coherent {s : State} (h : histogramCoherent s.hist = true) : histogramCoherent (histAccum s) = true := by
  unfold histAccum
  generalize s.hist = hist at h ⊢
  induction sourcePixels s generalizing hist with
  | nil => exact h
  | cons c cs ih => exact ih _ (histPixel_coherent h (colourKey_lt c))

end Sys2Proof.Machine
end

section
/-! Every step keeps the configuration's hardwired bits, the error and status bits, the open session's header and the histogram
coherent. -/

namespace Sys2Proof.Machine

/-- What `controlCoherent` says besides the error registers and `VDONE`, which the end of every command writes anew. -/
structure SessionCoherent (s : State) : Prop where
  config : configHardwired s.cfg = true
  alloc : s.status.alloc = decide (s.session ≠ .closed)
  shown : (s.status.alloc || !(s.status.fvalid || s.status.avalid || s.status.stale || s.status.lastkey)) = true
  lastkey : (s.status.fvalid || !s.status.lastkey) = true
  header : headerLegal s = true
  hist : histogramCoherent s.hist = true

theorem controlCoherent_iff (s : State) : controlCoherent s = true ↔
    s.act = .idle ∧ SessionCoherent s ∧ errorCoherent s = true ∧ s.status.vdone = videoDone s := by
  simp only [controlCoherent, statusCoherent, Bool.and_eq_true, decide_eq_true_eq, beq_iff_eq]
  constructor
  · rintro ⟨⟨⟨⟨⟨hact, hcfg⟩, herr⟩, ⟨⟨hdone, halloc⟩, hshown⟩, hkey⟩, hhdr⟩, hhist⟩
    exact ⟨hact, ⟨hcfg, halloc, hshown, hkey, hhdr, hhist⟩, herr, hdone⟩
  · rintro ⟨hact, h, herr, hdone⟩
    exact ⟨⟨⟨⟨⟨hact, h.config⟩, herr⟩, ⟨⟨hdone, h.alloc⟩, h.shown⟩, h.lastkey⟩, h.header⟩, h.hist⟩

/-! ## The configuration -/

theorem configHardwired_iff (c : EncCfg) : configHardwired c = true ↔
    c.modeEn.getLsbD 0 = false ∧ c.modeEn.getLsbD 2 = true ∧ c.distRatio.toNat ≤ 256 := by
  simp only [configHardwired, Bool.and_eq_true, Bool.not_eq_true', decide_eq_true_eq, and_assoc]

/-- `MODE_EN` as stored: bit 0 reads 0, bit 2 reads 1, the others as written. -/
theorem modeEnStored_getLsbD (v : BitVec 10) {m : Nat} (hm : m < 10) :
    (modeEnStored v).getLsbD m = if m = 0 then false else if m = 2 then true else v.getLsbD m := by
  have hmask : (0x3FE : BitVec 10).getLsbD m = decide (m ≠ 0) := by interval_cases m <;> rfl
  have hbit : (0x004 : BitVec 10).getLsbD m = decide (m = 2) := by interval_cases m <;> rfl
  rw [modeEnStored, BitVec.getLsbD_or, BitVec.getLsbD_and, hmask, hbit]
  by_cases h0 : m = 0
  · subst h0; simp
  · by_cases h2 : m = 2 <;> simp [h0, h2]

theorem distRatioStored_toNat (v : BitVec 9) : (distRatioStored v).toNat = min v.toNat 256 := by
  unfold distRatioStored
  split
  · rw [Nat.min_eq_right (by omega)]; rfl
  · rw [Nat.min_eq_left (by omega)]

theorem writeConfig_hardwired {c : EncCfg} (h : configHardwired c = true) (index : Nat) (v : Word) :
    configHardwired (writeConfig index v c) = true := by
  rw [configHardwired_iff] at h ⊢
  unfold writeConfig
  split
  case h_4 => exact ⟨modeEnStored_getLsbD _ (by decide), modeEnStored_getLsbD _ (by decide), h.2.2⟩
  case h_10 => exact ⟨h.1, h.2.1, (distRatioStored_toNat _).trans_le (Nat.min_le_right _ _)⟩
  all_goals exact h

theorem loadPreset_hardwired {c : EncCfg} (h : configHardwired c = true) (p : Preset) :
    configHardwired (loadPreset p c) = true := by
  rw [configHardwired_iff] at h ⊢
  exact ⟨modeEnStored_getLsbD _ (by decide), modeEnStored_getLsbD _ (by decide), h.2.2⟩

/-! ## Sessions -/

theorem SessionCoherent.alloc_of_open {s : State} (h : SessionCoherent s) (hopen : s.session ≠ .closed) :
    s.status.alloc = true := by rw [h.alloc]; exact decide_eq_true hopen

theorem SessionCoherent.within {s v : State} (h : SessionCoherent s) (hopen : s.session ≠ .closed) (hv : Within s v) :
    SessionCoherent v where
  config := by rw [hv.frame.cfg_eq]; exact h.config
  alloc := by rw [hv.alloc, h.alloc, show v.session = s.session from (congrArg State.session hv.frame :)]
  shown := by rw [hv.alloc, h.alloc_of_open hopen]; rfl
  lastkey := hv.lastkey h.lastkey
  header := (congrArg headerLegal hv.frame :).trans h.header
  hist := (congrArg (fun x : State => histogramCoherent x.hist) hv.frame :).trans h.hist

theorem SessionCoherent.scratch {s v : State} (h : SessionCoherent s) (hv : OnlyScratch s v) : SessionCoherent v := by
  rw [hv]
  exact ⟨h.config, h.alloc, h.shown, h.lastkey, h.header, h.hist⟩

theorem SessionCoherent.appended {s v : State} {n : Nat} (h : SessionCoherent s) (hv : Appended s n v) :
    SessionCoherent v := by
  obtain ⟨-, w, out, hw, rfl⟩ := hv
  have hs := h.scratch hw
  exact ⟨hs.config, hs.alloc, hs.shown, hs.lastkey, hs.header, hs.hist⟩

theorem SessionCoherent.answers {P : State → Prop} {u : State} (hP : ∀ v, P v → SessionCoherent v) (hu : Answers P u) :
    SessionCoherent u := by
  obtain ⟨v, hv, hu⟩ := hu
  have hs := hP v hv
  rw [hu]
  exact ⟨hs.config, hs.alloc, hs.shown, hs.lastkey, hs.header, hs.hist⟩

/-- One open session may become another: `ALLOC` and the header's legality do not tell them apart. -/
theorem SessionCoherent.switched {s : State} (h : SessionCoherent s) (hopen : s.session ≠ .closed) {x : Session}
    (hx : x ≠ .closed) : SessionCoherent { s with session := x } where
  config := h.config
  alloc := by rw [h.alloc_of_open hopen]; exact (decide_eq_true hx).symm
  shown := h.shown
  lastkey := h.lastkey
  header := by
    have hlegal := h.header
    unfold headerLegal at hlegal ⊢
    rw [beq_eq_false_iff_ne.mpr hopen] at hlegal
    rw [Bool.or_eq_true]
    exact .inr hlegal
  hist := h.hist

theorem closeSession_coherent {s : State} (hcfg : configHardwired s.cfg = true) (hhist : histogramCoherent s.hist = true) :
    SessionCoherent (closeSession s) := ⟨hcfg, rfl, rfl, rfl, rfl, hhist⟩

theorem softReset_coherent (s : State) : SessionCoherent (softReset s) :=
  ⟨show configHardwired cfgReset = true by decide, rfl, rfl, rfl, rfl, rfl⟩

/-- Allocation for a legal header opens a coherent session. -/
theorem allocated_coherent {s u : State} (h : SessionCoherent s) (hopen : u.session ≠ .closed)
    (hcfg : u.cfg = { s.cfg with meRange := u.cfg.meRange })
    (hstatus : u.status = { clearFrameStatus s.status with alloc := true }) (hfault : headerFault u.par u.hdr = none)
    (hhist : histogramCoherent u.hist = true) : SessionCoherent u where
  config := by rw [hcfg]; exact h.config
  alloc := by rw [hstatus]; exact (decide_eq_true hopen).symm
  shown := by rw [hstatus]; rfl
  lastkey := by rw [hstatus]; rfl
  header := by rw [headerLegal, hfault, Option.isNone_none, Bool.or_true]
  hist := hhist

theorem Opened.coherent {s u : State} (h : SessionCoherent s) (hu : Opened s u) : SessionCoherent u := by
  have hcfg := hu.cfg_eq
  obtain ⟨f, w, cs, v, b, j, hfault, -, hw, hv, rfl⟩ := hu
  have hpar : (openDone f v).par = s.par := (congrArg State.par hv.frame :).trans (congrArg State.par hw :)
  have hhdr : (openDone f v).hdr = f := (congrArg State.hdr hv.frame :)
  have hhist : (openDone f v).hist = s.hist := (congrArg State.hist hv.frame :).trans (congrArg State.hist hw :)
  have hstatus : (openDone f v).status = { clearFrameStatus w.status with alloc := true } :=
    (congrArg State.status hv.frame :)
  have hsame : w.status = s.status := (congrArg State.status hw :)
  exact allocated_coherent h (show Session.decOpen ≠ .closed by decide) hcfg (by rw [hstatus, hsame])
    (by rw [hpar, hhdr]; exact hfault)
    (by rw [hhist]; exact h.hist)

theorem setupFault_headerFault {s : State} (h : setupFault s = none) : headerFault s.par s.hdr = none := by
  unfold setupFault at h
  split at h
  · simp at h
  · split at h
    · simp at h
    · rename_i hfault; exact hfault

theorem frameWritten_coherent {s : State} (h : SessionCoherent s) (hopen : s.session ≠ .closed) (ftype : FrameType)
    (off : Word) : SessionCoherent (frameWritten ftype off s) := by
  have hstatus : (frameWritten ftype off s).status = commitStatus ftype s.status := by cases ftype <;> rfl
  have halloc : (frameWritten ftype off s).status.alloc = true := by
    rw [hstatus, commitStatus_alloc, h.alloc_of_open hopen]
  have hsession : (frameWritten ftype off s).session = s.session := by cases ftype <;> rfl
  refine ⟨?_, ?_, ?_, ?_, ?_, ?_⟩
  · cases ftype <;> exact h.config
  · rw [halloc, hsession]; exact (decide_eq_true hopen).symm
  · rw [halloc]; rfl
  · rw [hstatus]; exact commitStatus_lastkey ftype s.status
  · cases ftype <;> exact h.header
  · cases ftype <;> exact h.hist

/-! ## Commands -/

theorem RaiseLeaves.coherent {s r : State} (h : SessionCoherent s) (hr : RaiseLeaves s r) : SessionCoherent r := by
  cases hr with
  | before io => exact ⟨h.config, h.alloc, h.shown, h.lastkey, h.header, h.hist⟩
  | lost v hopen hv =>
    have hs := h.within hopen hv
    exact closeSession_coherent hs.config hs.hist
  | scratch _ hv => exact h.scratch hv
  | work _ hopen hv => exact h.within (by rw [hopen]; decide) hv
  | fault v hopen hv =>
    have hne : s.session ≠ .closed := by rw [hopen]; decide
    have hsame : v.session = s.session := (congrArg State.session hv.frame :)
    exact (h.within hne hv).switched (by rw [hsame]; exact hne) (by decide)

theorem Completes.coherent {i : Instr} {s u : State} (h : SessionCoherent s) (hu : Completes s i u) : SessionCoherent u := by
  cases hu with
  | computed _ _ hu => exact .answers (fun _ hv => h.scratch hv) hu
  | worked _ _ hopen hu =>
    have hne : s.session ≠ .closed := by rcases hopen with h | h <;> rw [h] <;> decide
    exact .answers (fun _ hv => h.within hne hv) hu
  | reset => exact softReset_coherent s
  | preset p => exact ⟨loadPreset_hardwired h.config p, h.alloc, h.shown, h.lastkey, h.header, h.hist⟩
  | opened _ hu => exact hu.coherent h
  | rewound hopen =>
    have hne : s.session ≠ .closed := by rcases hopen with h | h <;> rw [h] <;> decide
    exact (h.within hne (rewind_within s)).switched hne (by decide)
  | closed => exact closeSession_coherent h.config h.hist
  | ended => exact closeSession_coherent h.config h.hist
  | cleared => exact ⟨h.config, h.alloc, h.shown, h.lastkey, h.header, rfl⟩
  | counted => exact ⟨h.config, h.alloc, h.shown, h.lastkey, h.header, histAccum_coherent h.hist⟩
  | selected => exact ⟨h.config, h.alloc, h.shown, h.lastkey, h.header, h.hist⟩
  | setUp hfault =>
    exact allocated_coherent h (show Session.encSetup ≠ .closed by decide) rfl rfl (setupFault_headerFault hfault) rfl
  | headerWritten n v hopen hv =>
    have hsame : v.session = s.session := by obtain ⟨-, w, out, hw, rfl⟩ := hv; exact (congrArg State.session hw :)
    have hs := (h.appended hv).switched (by rw [hsame, hopen]; decide) (x := .encOpen) (by decide)
    exact ⟨hs.config, hs.alloc, hs.shown, hs.lastkey, hs.header, hs.hist⟩
  | frameWritten _ hopen hu =>
    obtain ⟨-, -, n, v, -, hv, rfl⟩ := hu
    have hsame : v.session = s.session := by obtain ⟨-, w, out, hw, rfl⟩ := hv; exact (congrArg State.session hw :)
    exact frameWritten_coherent (h.appended hv) (by rw [hsame, hopen]; decide) _ _
  | audioWritten _ _ hu => exact .answers (fun _ ⟨_, hv⟩ => h.appended hv) hu

theorem errorCoherent_iff (s : State) : errorCoherent s = true ↔
    s.err.extractLsb' 4 4 = 0 ∧ (s.err.extractLsb' 0 4).toNat ≤ 7 ∧ s.status.errf = decide (s.err ≠ 0) := by
  simp only [errorCoherent, Bool.and_eq_true, decide_eq_true_eq, beq_iff_eq, and_assoc]

theorem errorCode_fields (kind : ErrorKind) (unit : BitVec 4) :
    (unit ++ (0 : BitVec 4) ++ kind.code).extractLsb' 4 4 = 0 ∧
      ((unit ++ (0 : BitVec 4) ++ kind.code).extractLsb' 0 4).toNat ≤ 7 := by
  cases kind <;> revert unit <;> decide

/-- The error registers after a raise (10 R24, 60 R310). -/
theorem recordError_errorCoherent (e : Raise) (s : State) : errorCoherent (recordError e s) = true := by
  obtain ⟨hzero, hcode⟩ := errorCode_fields e.kind e.unit
  exact (errorCoherent_iff _).mpr ⟨hzero, hcode, (decide_eq_true (recordError_err_ne_zero e s)).symm⟩

/-- The error registers once cleared. -/
theorem errorCoherent_of_clear {s : State} (herr : s.err = 0) (hf : s.status.errf = false) : errorCoherent s = true := by
  rw [errorCoherent_iff, herr, hf]; decide

theorem recordError_controlCoherent {s : State} (hact : s.act = .idle) (h : SessionCoherent s) (e : Raise) :
    controlCoherent (recordError e s) = true :=
  (controlCoherent_iff _).mpr ⟨hact, ⟨h.config, h.alloc, h.shown, h.lastkey, h.header, h.hist⟩,
    recordError_errorCoherent e s, rfl⟩

theorem complete_controlCoherent {s : State} (hact : s.act = .idle) (h : SessionCoherent s) :
    controlCoherent (complete s) = true :=
  (controlCoherent_iff _).mpr ⟨hact, ⟨h.config, h.alloc, h.shown, h.lastkey, h.header, h.hist⟩,
    errorCoherent_of_clear rfl rfl, rfl⟩

/-- A command leaves the machine between commands. -/
theorem Completes.act_eq {i : Instr} {s u : State} (h : Completes s i u) (hact : s.act = .idle) : u.act = .idle := by
  by_cases hi : i = .softReset
  · subst hi
    cases h with
    | reset => rfl
    | computed _ _ hu => exact (congrArg HostPart.act (hu.mono fun _ hv => hv.within).hostPart_eq).trans hact
    | worked _ _ _ hu => exact (congrArg HostPart.act hu.hostPart_eq).trans hact
  · exact (congrArg HostPart.act (h.hostPart_eq hi)).trans hact

theorem command_controlCoherent {i : Instr} {s t : State} (hs : controlCoherent s = true) (hi : isCommand i = true)
    (h : exec i s = .next t) : controlCoherent t = true := by
  obtain ⟨hact, hsession, -⟩ := (controlCoherent_iff s).mp hs
  rcases exec_command_leaves hi h with ⟨e, r, hr, rfl⟩ | ⟨u, hu, rfl⟩
  · exact recordError_controlCoherent ((congrArg HostPart.act hr.frame.1).trans hact) (hr.coherent hsession) e
  · exact complete_controlCoherent (hu.act_eq hact) (hu.coherent hsession)

/-! ## Register accesses -/

/-- Nothing that `controlCoherent` reads is the host's to write directly, but the configuration and a closed session's header. -/
theorem writeRegister_controlCoherent {s : State} (hs : controlCoherent s = true) (index : Nat) (v : Word) :
    controlCoherent (writeRegister index v s) = true := by
  rcases writeRegister_cases index v s with hw | ⟨hclosed, hw⟩ | hw
  · rw [hw]; exact hs
  · obtain ⟨hact, h, herr, hdone⟩ := (controlCoherent_iff s).mp hs
    have hlegal : ∀ hdr, headerLegal { s with hdr := hdr } = true := fun hdr => by rw [headerLegal, hclosed]; rfl
    have hvideo : ∀ hdr, videoDone { s with hdr := hdr } = videoDone s := fun hdr => by
      rw [videoDone, videoDone, hclosed]; rfl
    rw [hw]
    exact (controlCoherent_iff _).mpr
      ⟨hact, ⟨h.config, h.alloc, h.shown, h.lastkey, hlegal _, h.hist⟩, herr, hdone.trans (hvideo _).symm⟩
  · obtain ⟨hact, h, herr, hdone⟩ := (controlCoherent_iff s).mp hs
    rw [hw]
    exact (controlCoherent_iff _).mpr
      ⟨hact, ⟨writeConfig_hardwired h.config index v, h.alloc, h.shown, h.lastkey, h.header, h.hist⟩, herr, hdone⟩

/-- Settles O58: the invariant is kept by every access of the host; a command keeps it because its completion or its raise keeps
the session coherent and its end writes the error registers and `VDONE` anew. -/
theorem stepKeepsControlCoherent : Obligations.StepKeepsControlCoherent := by
  intro s t hs h
  refine step_keeps (I := fun s => controlCoherent s = true) (fun s hs => ((controlCoherent_iff s).mp hs).1)
    (fun _ _ hs => hs) (fun s t hs ht => ?_) hs h
  obtain ⟨hact, hsession, -⟩ := (controlCoherent_iff s).mp hs
  cases ht with
  | command i _ hi hexec => exact command_controlCoherent hs hi hexec
  | unknown e => exact recordError_controlCoherent hact hsession e
  | written index v => exact writeRegister_controlCoherent hs index v
  | read index => rw [readRegister_eq]; exact hs
  | reset => exact (controlCoherent_iff _).mpr ⟨rfl, softReset_coherent s, errorCoherent_of_clear rfl rfl, rfl⟩

end Sys2Proof.Machine
end

section
/-! Every step keeps the offset table increasing and within its capacity, and the cursors within the file. -/

namespace Sys2Proof.Machine

/-- What `cursorsLegal` says of the session's kind: no table, the cursors of a decode session, or a table within what was
written. -/
def SessionCursors (s : State) : Prop :=
  match s.session with
  | .closed | .encSetup => s.ot = []
  | .decOpen | .decFault => DecodeCursors s
  | .encOpen => ∀ e ∈ s.ot, e.off.toNat < s.outlen.toNat ∧ e.fidx.toNat < s.frameCtr.toNat

theorem sessionCursors_noTable {s : State} (h : s.session = .closed ∨ s.session = .encSetup) :
    SessionCursors s ↔ s.ot = [] := by
  rcases h with h | h <;> rw [SessionCursors, h]

theorem sessionCursors_decode {s : State} (h : s.session = .decOpen ∨ s.session = .decFault) :
    SessionCursors s ↔ DecodeCursors s := by
  rcases h with h | h <;> rw [SessionCursors, h]

theorem sessionCursors_encOpen {s : State} (h : s.session = .encOpen) :
    SessionCursors s ↔ ∀ e ∈ s.ot, e.off.toNat < s.outlen.toNat ∧ e.fidx.toNat < s.frameCtr.toNat := by
  rw [SessionCursors, h]

/-- `cursorsLegal` without the machine's activity. -/
structure CursorsCoherent (s : State) : Prop where
  bound : streamLen s ≤ 2 ^ 32
  increasing : offsetsIncreasing s.ot = true
  fits : s.ot.length ≤ s.par.otCap
  session : SessionCursors s

theorem offsetsBelow_iff (off fidx : Nat) (ot : List OtEntry) :
    offsetsBelow off fidx ot = true ↔ ∀ e ∈ ot, e.off.toNat < off ∧ e.fidx.toNat < fidx := by
  simp only [offsetsBelow, List.all_eq_true, Bool.and_eq_true, decide_eq_true_eq]

/-- The decode session's part of `cursorsLegal`. -/
theorem decodeCursors_iff {s : State} (hbound : streamLen s ≤ 2 ^ 32) : DecodeCursors s ↔
    (offsetsBelow (streamLen s) s.hdr.frameCount.toNat s.ot && decide (s.frameCtr.toNat ≤ s.hdr.frameCount.toNat) &&
      decide (s.firstChunk.toNat = headerLength s.hdr.version) && decide (s.firstChunk.toNat ≤ streamPos s) &&
      decide (streamPos s ≤ streamLen s) && s.ot.all (fun e => decide (s.firstChunk.toNat ≤ e.off.toNat))) = true := by
  simp only [Bool.and_eq_true, decide_eq_true_eq, offsetsBelow_iff, List.all_eq_true]
  constructor
  · intro h
    exact ⟨⟨⟨⟨⟨fun e he => (h.table e he).2, h.counter⟩, h.first⟩, h.low⟩, h.high⟩,
      fun e he => (h.table e he).1⟩
  · rintro ⟨⟨⟨⟨⟨hbelow, hctr⟩, hfirst⟩, hlow⟩, hhigh⟩, habove⟩
    exact ⟨hbound, hfirst, hlow, hhigh, hctr, fun e he => ⟨habove e he, hbelow e he⟩⟩

theorem cursorsLegal_iff (s : State) : cursorsLegal s = true ↔ s.act = .idle ∧ CursorsCoherent s := by
  have hparts : CursorsCoherent s ↔
      streamLen s ≤ 2 ^ 32 ∧ offsetsIncreasing s.ot = true ∧ s.ot.length ≤ s.par.otCap ∧ SessionCursors s :=
    ⟨fun h => ⟨h.bound, h.increasing, h.fits, h.session⟩, fun ⟨hb, hi, hf, hs⟩ => ⟨hb, hi, hf, hs⟩⟩
  simp only [hparts, cursorsLegal, SessionCursors, Bool.and_eq_true, decide_eq_true_eq, and_assoc]
  refine and_congr_right fun _ => and_congr_right fun hbound => and_congr_right fun _ => and_congr_right fun _ => ?_
  cases s.session with
  | closed => exact decide_eq_true_iff
  | encSetup => exact decide_eq_true_iff
  | decOpen => exact (decodeCursors_iff hbound).symm
  | decFault => exact (decodeCursors_iff hbound).symm
  | encOpen => exact offsetsBelow_iff _ _ _

/-! ## Working state and sessions -/

theorem CursorsCoherent.work {s v : State} (h : CursorsCoherent s) (hw : OnlyWork s v)
    (hdecode : DecodeCursors s → DecodeCursors v) (hencode : s.session = .encOpen → v.frameCtr = s.frameCtr) :
    CursorsCoherent v := by
  have hot : v.ot = s.ot := (congrArg State.ot hw :)
  have hpar : v.par = s.par := (congrArg State.par hw :)
  have hout : v.outlen = s.outlen := (congrArg State.outlen hw :)
  have hsession : v.session = s.session := (congrArg State.session hw :)
  refine ⟨(congrArg streamLen hw :).trans_le h.bound, by rw [hot]; exact h.increasing, by rw [hot, hpar]; exact h.fits, ?_⟩
  have hcursors := h.session
  unfold SessionCursors at hcursors ⊢
  rw [hsession, hot, hout]
  cases hx : s.session with
  | closed => rwa [hx] at hcursors
  | encSetup => rwa [hx] at hcursors
  | decOpen => rw [hx] at hcursors; exact hdecode hcursors
  | decFault => rw [hx] at hcursors; exact hdecode hcursors
  | encOpen => rw [hx] at hcursors; rw [hencode hx]; exact hcursors

theorem CursorsCoherent.scratch {s v : State} (h : CursorsCoherent s) (hv : OnlyScratch s v) : CursorsCoherent v :=
  h.work hv.onlyWork hv.decodeCursors fun _ => (congrArg State.frameCtr hv :)

theorem CursorsCoherent.within {s v : State} (h : CursorsCoherent s) (hopen : s.session ≠ .encOpen) (hv : Within s v) :
    CursorsCoherent v := h.work hv.frame hv.cursors fun henc => absurd henc hopen

/-- The results are no cursors. -/
theorem CursorsCoherent.withRes {s : State} (h : CursorsCoherent s) (res : Quad) : CursorsCoherent { s with res := res } where
  bound := h.bound
  increasing := h.increasing
  fits := h.fits
  session := by
    have hcursors := h.session
    unfold SessionCursors at hcursors ⊢
    cases hx : s.session <;> rw [hx] at hcursors
    case decOpen | decFault =>
      exact ⟨hcursors.bound, hcursors.first, hcursors.low, hcursors.high, hcursors.counter, hcursors.table⟩
    all_goals exact hcursors

theorem CursorsCoherent.answers {P : State → Prop} {u : State} (hP : ∀ v, P v → CursorsCoherent v) (hu : Answers P u) :
    CursorsCoherent u := by
  obtain ⟨v, hv, hu⟩ := hu
  rw [hu]
  exact (hP v hv).withRes _

/-- Without a table only the source's length counts, and in a decode session the cursors. -/
theorem CursorsCoherent.of_noTable {s : State} (hbound : streamLen s ≤ 2 ^ 32) (hot : s.ot = [])
    (hsession : s.session = .closed ∨ s.session = .encSetup ∨ s.session = .encOpen) : CursorsCoherent s where
  bound := hbound
  increasing := by rw [hot]; rfl
  fits := by rw [hot]; exact Nat.zero_le _
  session := by
    rcases hsession with h | h | h
    · exact (sessionCursors_noTable (.inl h)).mpr hot
    · exact (sessionCursors_noTable (.inr h)).mpr hot
    · rw [sessionCursors_encOpen h, hot]; simp

theorem closeSession_cursors {s : State} (h : streamLen s ≤ 2 ^ 32) : CursorsCoherent (closeSession s) :=
  .of_noTable h rfl (.inl rfl)

/-- The two states of a decode session have the same cursors. -/
theorem CursorsCoherent.switched {s : State} (h : CursorsCoherent s) (hs : s.session = .decOpen ∨ s.session = .decFault)
    {x : Session} (hx : x = .decOpen ∨ x = .decFault) : CursorsCoherent { s with session := x } where
  bound := h.bound
  increasing := h.increasing
  fits := h.fits
  session := by
    have hc := (sessionCursors_decode hs).mp h.session
    exact (sessionCursors_decode (s := { s with session := x }) hx).mpr
      ⟨hc.bound, hc.first, hc.low, hc.high, hc.counter, hc.table⟩

/-! ## Opening -/

theorem headerLength_lt (version : Byte) : headerLength version < 2 ^ 32 := by
  unfold headerLength paletteTables
  split <;> omega

/-- `OPEN` leaves the cursors at the first chunk and the scan's table, which lies within the file. -/
theorem Opened.cursors {s u : State} (hbound : streamLen s ≤ 2 ^ 32) (hu : Opened s u) : CursorsCoherent u := by
  obtain ⟨f, w, cs, v, b, j, -, hfit, hw, hv, rfl⟩ := hu
  have hlen : streamLen v = streamLen s := (congrArg streamLen hv.frame :).trans (congrArg streamLen hw :)
  have hpar : v.par = w.par := (congrArg State.par hv.frame :)
  have hhdr : v.hdr = f := (congrArg State.hdr hv.frame :)
  have hctr : v.frameCtr = 0 := (congrArg State.frameCtr hv.frame :)
  have hlen' : streamLen (loadPalettes (paletteTables f.version) cs (allocate f w)) = streamLen s := (congrArg streamLen hw :)
  obtain ⟨hinc, hcap, hall⟩ := hv.table (by rw [hlen']; exact hbound)
  have hfirst : (openDone f v).firstChunk.toNat = headerLength f.version := by
    have := headerLength_lt f.version
    exact (BitVec.toNat_ofNat _ _).trans (Nat.mod_eq_of_lt this)
  have hpos : streamPos (openDone f v) = headerLength f.version :=
    streamPos_of_fpos rfl (headerLength_pos _) (headerLength_lt _).le
  refine ⟨hlen.trans_le hbound, hinc, hcap.trans_eq (congrArg Params.otCap hpar.symm), ?_⟩
  refine (sessionCursors_decode (s := openDone f v) (.inl rfl)).mpr ⟨hlen.trans_le hbound, ?_, ?_, ?_, ?_, fun e he => ?_⟩
  · rw [hfirst]; exact congrArg (fun h => headerLength h.version) hhdr.symm
  · rw [hfirst, hpos]
  · rw [hpos]; exact hfit.trans_eq hlen.symm
  · have hzero : (openDone f v).frameCtr.toNat = 0 := congrArg BitVec.toNat hctr
    rw [hzero]; exact Nat.zero_le _
  · obtain ⟨hlow, hhigh, hidx⟩ := hall e he
    rw [hlen'] at hhigh
    have hcount : (openDone f v).hdr.frameCount = f.frameCount := congrArg HdrFields.frameCount hhdr
    have hsame : streamLen (openDone f v) = streamLen s := hlen
    rw [hfirst, hsame, hcount]
    exact ⟨hlow, hhigh.trans_le (Nat.min_le_right _ _), hidx.trans_le (Nat.min_le_right _ _)⟩

/-! ## Writing -/

theorem Appended.fields {s v : State} {n : Nat} (h : Appended s n v) :
    v.ot = s.ot ∧ v.par = s.par ∧ v.plat = s.plat ∧ v.session = s.session ∧ v.frameCtr = s.frameCtr ∧
      v.outlen.toNat = s.outlen.toNat + n := by
  obtain ⟨hfit, w, out, hw, rfl⟩ := h
  exact ⟨(congrArg State.ot hw :), (congrArg State.par hw :), (congrArg State.plat hw :), (congrArg State.session hw :),
    (congrArg State.frameCtr hw :), (BitVec.toNat_ofNat _ _).trans (Nat.mod_eq_of_lt hfit)⟩

/-- An append leaves the table within what was written. -/
theorem CursorsCoherent.appended {s v : State} {n : Nat} (h : CursorsCoherent s) (hopen : s.session = .encOpen)
    (hv : Appended s n v) : CursorsCoherent v := by
  obtain ⟨hot, hpar, hplat, hsession, hctr, hout⟩ := hv.fields
  have hbelow := (sessionCursors_encOpen hopen).mp h.session
  refine ⟨?_, by rw [hot]; exact h.increasing, by rw [hot, hpar]; exact h.fits, ?_⟩
  · rw [streamLen, hplat]; exact h.bound
  · rw [sessionCursors_encOpen (hsession.trans hopen), hot, hctr, hout]
    exact fun e he => ⟨Nat.lt_add_right n (hbelow e he).1, (hbelow e he).2⟩

/-- The fields of a written frame's state that the cursors' legality depends on, besides the table. -/
theorem frameWritten_fields (ftype : FrameType) (off : Word) (s : State) :
    (frameWritten ftype off s).plat = s.plat ∧ (frameWritten ftype off s).par = s.par ∧
      (frameWritten ftype off s).session = s.session ∧ (frameWritten ftype off s).frameCtr = s.frameCtr + 1 ∧
      (frameWritten ftype off s).outlen = s.outlen := by
  cases ftype <;> exact ⟨rfl, rfl, rfl, rfl, rfl⟩

/-- A written frame goes behind what was written and counts one more; an I-frame's entry is the table's new end. -/
theorem FrameWritten.cursors {s u : State} (h : CursorsCoherent s) (hopen : s.session = .encOpen) (hu : FrameWritten s u) :
    CursorsCoherent u := by
  obtain ⟨hlast, hroom, n, v, hn, hv, rfl⟩ := hu
  obtain ⟨hot, hpar, hplat, hsession, hctr, hout⟩ := hv.fields
  have hbelow := (sessionCursors_encOpen hopen).mp h.session
  have hctr' : (v.frameCtr + 1).toNat = s.frameCtr.toNat + 1 := by
    have h1 : (1 : Word).toNat = 1 := rfl
    have := s.frameCtr.isLt
    rw [hctr, BitVec.toNat_add, h1]; omega
  generalize chooseFrameType s = ftype at hroom
  obtain ⟨hplat', hpar', hsession', hctr'', hout'⟩ := frameWritten_fields ftype s.outlen v
  have hbound : streamLen (frameWritten ftype s.outlen v) ≤ 2 ^ 32 := by rw [streamLen, hplat', hplat]; exact h.bound
  cases ftype with
  | inter =>
    have hot' : (frameWritten .inter s.outlen v).ot = s.ot := hot
    refine ⟨hbound, by rw [hot']; exact h.increasing, by rw [hot', hpar', hpar]; exact h.fits, ?_⟩
    rw [sessionCursors_encOpen (hsession'.trans (hsession.trans hopen)), hot', hout', hctr'', hout, hctr']
    intro e he
    have := hbelow e he
    omega
  | intra =>
    have hot' : (frameWritten .intra s.outlen v).ot = s.ot ++ [⟨s.outlen, s.frameCtr⟩] := by rw [← hot, ← hctr]; rfl
    refine ⟨hbound, by rw [hot']; exact offsetsIncreasing_append h.increasing hbelow, ?_, ?_⟩
    · rw [hot', hpar', hpar]
      simpa using hroom rfl
    · rw [sessionCursors_encOpen (hsession'.trans (hsession.trans hopen)), hot', hout', hctr'', hout, hctr']
      intro e he
      rcases List.mem_append.mp he with he | he
      · have := hbelow e he
        omega
      · rw [List.mem_singleton.mp he]
        exact ⟨Nat.lt_add_of_pos_right hn, Nat.lt_succ_self _⟩

/-! ## Commands -/

theorem RaiseLeaves.cursors {s r : State} (h : CursorsCoherent s) (hr : RaiseLeaves s r) : CursorsCoherent r := by
  have hbound : ∀ {v}, Within s v → streamLen v ≤ 2 ^ 32 := fun hv => (congrArg streamLen hv.frame :).trans_le h.bound
  cases hr with
  | before io => exact h.scratch (onlyScratch_ioFree s s io (.refl s))
  | lost v _ hv => exact closeSession_cursors (hbound hv)
  | scratch _ hv => exact h.scratch hv
  | work _ hopen hv => exact h.within (by rw [hopen]; decide) hv
  | fault v hopen hv =>
    have hsame : v.session = .decOpen := (congrArg State.session hv.frame :).trans hopen
    exact (h.within (by rw [hopen]; decide) hv).switched (.inl hsame) (.inr rfl)

theorem Completes.cursors {i : Instr} {s u : State} (hs : cursorsLegal s = true) (hu : Completes s i u) :
    cursorsLegal u = true := by
  obtain ⟨hact, h⟩ := (cursorsLegal_iff s).mp hs
  have hidle := hu.act_eq hact
  have hlegal : CursorsCoherent u → cursorsLegal u = true := fun hc => (cursorsLegal_iff u).mpr ⟨hidle, hc⟩
  cases hu with
  | computed _ _ hu => exact hlegal (.answers (fun _ hv => h.scratch hv) hu)
  | worked _ _ hopen hu =>
    have hne : s.session ≠ .encOpen := by rcases hopen with h | h <;> rw [h] <;> decide
    exact hlegal (.answers (fun _ hv => h.within hne hv) hu)
  | reset => exact hlegal (.of_noTable h.bound rfl (.inl rfl))
  | opened _ hu => exact hlegal (hu.cursors h.bound)
  | rewound hopen =>
    have hne : s.session ≠ .encOpen := by rcases hopen with h | h <;> rw [h] <;> decide
    exact hlegal ((h.within hne (rewind_within s)).switched hopen (.inl rfl))
  | closed => exact hlegal (closeSession_cursors h.bound)
  | ended => exact hlegal (closeSession_cursors h.bound)
  | setUp => exact hlegal (.of_noTable h.bound rfl (.inr (.inl rfl)))
  | headerWritten n v hopen hv =>
    obtain ⟨hot, -, hplat, -⟩ := hv.fields
    have hempty := (sessionCursors_noTable (.inr hopen)).mp h.session
    exact hlegal (.of_noTable (by rw [streamLen, setRes0_plat, hplat]; exact h.bound) (hot.trans hempty) (.inr (.inr rfl)))
  | frameWritten _ hopen hu => exact hlegal (hu.cursors h hopen)
  | audioWritten _ hopen hu => exact hlegal (.answers (fun _ ⟨_, hv⟩ => h.appended hopen hv) hu)
  | preset | cleared | counted | selected => exact hs

theorem command_cursorsLegal {i : Instr} {s t : State} (hs : cursorsLegal s = true) (hi : isCommand i = true)
    (h : exec i s = .next t) : cursorsLegal t = true := by
  obtain ⟨hact, hcursors⟩ := (cursorsLegal_iff s).mp hs
  rcases exec_command_leaves hi h with ⟨e, r, hr, rfl⟩ | ⟨u, hu, rfl⟩
  · exact ((cursorsLegal_iff r).mpr ⟨(congrArg HostPart.act hr.frame.1).trans hact, hr.cursors hcursors⟩ :)
  · exact (hu.cursors hs :)

/-- Of what `cursorsLegal` reads the host writes the header alone, and only of a closed session, which has no table. -/
theorem writeRegister_cursorsLegal {s : State} (hs : cursorsLegal s = true) (index : Nat) (v : Word) :
    cursorsLegal (writeRegister index v s) = true := by
  rcases writeRegister_cases index v s with hw | ⟨hclosed, hw⟩ | hw
  · rw [hw]; exact hs
  · obtain ⟨hact, h⟩ := (cursorsLegal_iff s).mp hs
    rw [hw]
    exact (cursorsLegal_iff _).mpr
      ⟨hact, .of_noTable h.bound ((sessionCursors_noTable (.inl hclosed)).mp h.session) (.inl hclosed)⟩
  · rw [hw]; exact hs

/-- Settles O59: the cursors move only by commands, and each completion or raise leaves them within the file: a chunk is passed
over or decoded only if it lies inside the stream, a seek starts at an entry of the table, and the table grows at its end. -/
theorem stepKeepsCursorsLegal : Obligations.StepKeepsCursorsLegal := by
  intro s t hs h
  refine step_keeps (I := fun s => cursorsLegal s = true) (fun s hs => ((cursorsLegal_iff s).mp hs).1)
    (fun _ _ hs => hs) (fun s t hs ht => ?_) hs h
  cases ht with
  | command i _ hi hexec => exact command_cursorsLegal hs hi hexec
  | unknown e => exact hs
  | written index v => exact writeRegister_cursorsLegal hs index v
  | read index => rw [readRegister_eq]; exact hs
  | reset =>
    obtain ⟨-, h⟩ := (cursorsLegal_iff s).mp hs
    exact (cursorsLegal_iff _).mpr ⟨rfl, .of_noTable h.bound rfl (.inl rfl)⟩

end Sys2Proof.Machine
end

section
/-! The host's reads: a register answers its number, the window the element it is on. -/

namespace Sys2Proof.Machine

/-- The machine between commands takes the host's next access. -/
theorem step_access {s : State} (h : s.act = .idle) (access : HostAccess) (rest : List HostAccess) :
    step { s with host := access :: rest } = hostStep exec access { s with host := rest } := by
  unfold step
  rw [show ({ s with host := access :: rest } : State).act = .idle from h]
  rfl

/-! ## Registers -/

/-- A register of up to 33 bits reads as its number. -/
theorem setWidth33_toNat {w : Nat} (v : BitVec w) (h : w ≤ 33) : (v.setWidth 33).toNat = v.toNat :=
  BitVec.toNat_setWidth_of_le h

theorem statusByte_toNat (s : State) : (statusByte s).toNat = statusNumber s := by
  have hbit : ∀ b : Bool, (BitVec.ofBool b).toNat = if b then 1 else 0 := by decide
  unfold statusByte statusNumber
  simp only [append_toNat, hbit]
  generalize s.status.errf = b0
  generalize s.status.vdone = b1
  generalize s.status.alloc = b2
  generalize s.status.fvalid = b3
  generalize s.status.avalid = b4
  generalize s.status.stale = b5
  generalize s.plat.srcPresent = b6
  generalize s.status.lastkey = b7
  revert b0 b1 b2 b3 b4 b5 b6 b7
  decide

theorem sessionCode_toNat (x : Session) : x.code.toNat = sessionNumber x := by cases x <;> rfl

theorem histTotal_low (n : BitVec 64) : (n.extractLsb' 0 32).toNat = n.toNat % 2 ^ 32 := by
  rw [BitVec.extractLsb'_toNat, Nat.shiftRight_zero]

theorem histTotal_high (n : BitVec 64) : (n.extractLsb' 32 32).toNat = n.toNat / 2 ^ 32 := by
  have := n.isLt
  rw [BitVec.extractLsb'_toNat, Nat.shiftRight_eq_div_pow]
  omega

theorem ofBool_toNat (b : Bool) : (BitVec.ofBool b).toNat = b.toNat := by cases b <;> rfl

/-- Every register of R20's table reads as its number. -/
theorem registerValue_number (s : State) : ∀ p ∈ registerNumbers s, (registerValue s p.1).toNat = p.2 := by
  have hplain : ∀ {w : Nat} (v : BitVec w), w ≤ 33 → (v.setWidth 33).toNat = v.toNat := setWidth33_toNat
  simp only [registerNumbers, List.forall_mem_append, List.forall_mem_cons, List.not_mem_nil, false_imp_iff, implies_true,
    and_true]
  refine ⟨⟨⟨?control, ?header⟩, ?cursors⟩, ?config⟩
  case control =>
    refine ⟨(hplain (statusByte s) (by decide)).trans (statusByte_toNat s), ?_⟩
    simp only [← and_assoc]
    refine ⟨?_, (hplain s.session.code (by decide)).trans (sessionCode_toNat s.session)⟩
    and_intros <;> exact hplain _ (by decide)
  case header => and_intros <;> exact hplain _ (by decide)
  case cursors =>
    have hcount := (hplain (saturate s.ot.length) (by decide)).trans (saturate_toNat s.ot.length)
    refine ⟨hplain _ (by decide), hplain _ (by decide), hplain _ (by decide), rfl, hplain _ (by decide), hplain _ (by decide),
      hplain _ (by decide), hplain _ (by decide), hcount, ?_⟩
    and_intros <;> exact hplain _ (by decide)
  case config =>
    refine ⟨hplain _ (by decide), hplain _ (by decide), hplain _ (by decide), hplain _ (by decide), hplain _ (by decide),
      hplain _ (by decide), (hplain _ (by decide)).trans (ofBool_toNat s.cfg.compEn), hplain _ (by decide),
      hplain _ (by decide), hplain _ (by decide), (hplain _ (by decide)).trans (histTotal_low s.hist.total),
      (hplain _ (by decide)).trans (histTotal_high s.hist.total), ?_⟩
    and_intros <;> exact hplain _ (by decide)

/-- A register outside R20's table reads 0. -/
theorem registerValue_unlisted {s : State} {index : Nat} (h : ∀ n, (index, n) ∉ registerNumbers s) :
    registerValue s index = 0 := by
  have hindex : index ∉ (registerNumbers s).map Prod.fst := fun hmem => by
    obtain ⟨⟨_, n⟩, hn, rfl⟩ := List.mem_map.mp hmem
    exact h n hn
  simp only [registerNumbers, List.map_append, List.map_cons, List.map_nil] at hindex
  unfold registerValue
  split
  case h_55 => rfl
  all_goals exact absurd (by decide) hindex

/-! ## The window -/

/-- Where the spec fixes what the window reads, it reads the element. -/
theorem windowValue_readable {s : State} (h : windowReadable s = true) : windowValue s = windowElement s := by
  rw [windowValue, windowSpecified, h]; rfl

theorem windowValue_outOfRange {s : State} (h : windowInRange s = false) : windowValue s = 0 := by
  have hspec : windowValue s = windowElement s := by
    rw [windowValue, windowSpecified, h, Bool.not_false, Bool.or_true]; rfl
  rw [hspec]
  unfold windowElement
  unfold windowInRange at h
  dsimp only at h ⊢
  split <;> rename_i hsel
  case h_10 =>
    rw [hsel] at h
    have hlen : s.ot.length ≤ s.winAddr.toNat / 2 := by
      have : ¬ s.winAddr.toNat < 2 * s.ot.length := of_decide_eq_false h
      omega
    rw [windowOffset, List.getElem?_eq_none hlen]
  case h_12 => rfl
  all_goals rw [hsel] at h; exact if_neg (of_decide_eq_false h)

/-- The spaces 1 to 10 are read while `ALLOC = 1` (20 R68). -/
theorem windowReadable_owned {s : State} (h : s.status.alloc = true) (hlow : 1 ≤ s.winSel.toNat) (hhigh : s.winSel.toNat ≤ 10) :
    windowReadable s = true := by
  rw [windowReadable, spaceOwned, decide_eq_true hlow, decide_eq_true hhigh]; exact h

/-- `OUT` is read in an encode session (20 R68). -/
theorem windowReadable_out {s : State} (hsel : s.winSel.toNat = 11) (h : s.session = .encSetup ∨ s.session = .encOpen) :
    windowReadable s = true := by
  rw [windowReadable, hsel]
  rcases h with h | h <;> rw [h] <;> rfl

theorem windowValue_eq_element {s : State} {k : Nat} (h : s.status.alloc = true) (hsel : s.winSel.toNat = k) (hlow : 1 ≤ k)
    (hhigh : k ≤ 10) : windowValue s = windowElement s :=
  windowValue_readable (windowReadable_owned h (by omega) (by omega))

/-! ## Pixels (30 R104) -/

theorem to5_toNat (v : Byte) : (to5 v).toNat = v.toNat / 8 := by
  have := v.isLt
  rw [to5, BitVec.extractLsb'_toNat, Nat.shiftRight_eq_div_pow]; omega

theorem to6_toNat (v : Byte) : (to6 v).toNat = v.toNat / 4 := by
  have := v.isLt
  rw [to6, BitVec.extractLsb'_toNat, Nat.shiftRight_eq_div_pow]; omega

/-- A pixel is packed as R104 says, in each of the four formats. -/
theorem packPixel_packedAs (format : Byte) (c : Colour) : packedAs format c (packPixel format c) := by
  have hzero : ∀ n : Nat, (0 : BitVec n).toNat = 0 := fun n => BitVec.toNat_zero
  have hones : (0xFF : Byte).toNat = 255 := rfl
  refine ⟨?_, ?_, ?_, ?_⟩ <;> rintro rfl
  · have hpack : packPixel 1 c = (0 : BitVec 17) ++ to5 c.r ++ to5 c.g ++ to5 c.b := rfl
    simp only [hpack, append_toNat, to5_toNat, hzero]; omega
  · have hpack : packPixel 2 c = (0 : BitVec 16) ++ to5 c.r ++ to6 c.g ++ to5 c.b := rfl
    simp only [hpack, append_toNat, to5_toNat, to6_toNat, hzero]; omega
  · exact wordOfColour_toNat c
  · have hpack : packPixel 4 c = c.r ++ c.g ++ c.b ++ (0xFF : Byte) := rfl
    simp only [hpack, append_toNat, hones]; omega

/-- What a read of a frame buffer inside the frame answers. -/
theorem windowPixel_packedAs {s : State} (sp : Space) (m : Memory Colour) {a : Nat} (h : a < framePixels s.hdr) :
    packedAs s.hdr.format (colourAt s sp m a) (windowPixel s sp m a) := by
  rw [windowPixel, if_pos h]; exact packPixel_packedAs _ _

end Sys2Proof.Machine
end

section
/-! The host's reads, settled, and what a write of `WIN_DATA` stores. -/

namespace Sys2Proof.Machine

/-- The element each space of the session shows while `ALLOC = 1`. -/
theorem windowValue_owned {s : State} (h : s.status.alloc = true) :
    (s.winSel.toNat = 1 → windowValue s = windowPalette s false s.winAddr.toNat) ∧
    (s.winSel.toNat = 2 → windowValue s = windowPalette s true s.winAddr.toNat) ∧
    (s.winSel.toNat = 3 → windowValue s = windowPixel s .src s.src s.winAddr.toNat) ∧
    (s.winSel.toNat = 4 → windowValue s = windowPixel s .prev s.prev s.winAddr.toNat) ∧
    (s.winSel.toNat = 5 → windowValue s = windowPixel s .key s.key s.winAddr.toNat) ∧
    (s.winSel.toNat = 6 → windowValue s = windowPixel s .cur s.cur s.winAddr.toNat) ∧
    (s.winSel.toNat = 7 → windowValue s = windowByte s .bs s.bs s.par.bsCap s.winAddr.toNat) ∧
    (s.winSel.toNat = 8 → windowValue s = windowByte s .cb s.cb s.par.cbCap s.winAddr.toNat) ∧
    (s.winSel.toNat = 9 → windowValue s = windowByte s .ab s.ab s.par.abCap s.winAddr.toNat) ∧
    (s.winSel.toNat = 10 → windowValue s = windowOffset s s.winAddr.toNat) := by
  and_intros <;> intro hsel <;> rw [windowValue_eq_element h hsel (by decide) (by decide), windowElement, hsel] <;> rfl

theorem windowValue_out {s : State} (hsel : s.winSel.toNat = 11) (h : s.session = .encSetup ∨ s.session = .encOpen) :
    windowValue s = windowByte s .out s.out s.outlen.toNat s.winAddr.toNat := by
  rw [windowValue_readable (windowReadable_out hsel h), windowElement, hsel]; rfl

theorem windowPalette_of_lt (s : State) (second : Bool) {a : Nat} (h : a < 256) :
    windowPalette s second a = 0#8 ++ (paletteAt s second a).r ++ (paletteAt s second a).g ++ (paletteAt s second a).b :=
  if_pos h

/-- Spaces 0 and 12 to 15 have no range, the others the range of R68. -/
theorem windowInRange_eq_false {s : State} (h : s.winSel.toNat = 0 ∨ 12 ≤ s.winSel.toNat ∨
    ((s.winSel.toNat = 1 ∨ s.winSel.toNat = 2) ∧ 256 ≤ s.winAddr.toNat) ∨
    (3 ≤ s.winSel.toNat ∧ s.winSel.toNat ≤ 6 ∧ framePixels s.hdr ≤ s.winAddr.toNat) ∨
    (s.winSel.toNat = 7 ∧ s.par.bsCap ≤ s.winAddr.toNat) ∨ (s.winSel.toNat = 8 ∧ s.par.cbCap ≤ s.winAddr.toNat) ∨
    (s.winSel.toNat = 9 ∧ s.par.abCap ≤ s.winAddr.toNat) ∨ (s.winSel.toNat = 10 ∧ 2 * s.ot.length ≤ s.winAddr.toNat) ∨
    (s.winSel.toNat = 11 ∧ s.outlen.toNat ≤ s.winAddr.toNat)) : windowInRange s = false := by
  unfold windowInRange
  dsimp only
  split
  case h_12 => rfl
  all_goals exact decide_eq_false (by omega)

/-- Settles O50: each register of R20's table reads as its number and the others 0; the window reads its element where the spec
fixes it, and that element is 0 out of range. -/
theorem hostReads : Obligations.HostReads := by
  refine ⟨fun s index rest hact hne => ⟨?_, fun n hn => registerValue_number s _ hn, registerValue_unlisted⟩,
    fun s rest hact => ⟨windowRead { s with host := rest }, windowValue s, step_access hact _ _, rfl, fun halloc => ?_,
      fun hsel hopen ha => ?_, fun hrange => windowValue_outOfRange (windowInRange_eq_false hrange)⟩⟩
  · rw [step_access hact]
    exact congrArg Host.Outcome.next (if_neg hne)
  · obtain ⟨h1, h2, h3, h4, h5, h6, h7, h8, h9, h10⟩ := windowValue_owned halloc
    refine ⟨fun hsel ha => (h1 hsel).trans (windowPalette_of_lt s false ha),
      fun hsel ha => (h2 hsel).trans (windowPalette_of_lt s true ha), fun ha => ⟨fun hsel => ?_, fun hsel => ?_, fun hsel => ?_,
        fun hsel => ?_⟩, fun hsel ha => (h7 hsel).trans (if_pos ha), fun hsel ha => (h8 hsel).trans (if_pos ha),
      fun hsel ha => (h9 hsel).trans (if_pos ha), fun hsel e he => ?_⟩
    · rw [h3 hsel]; exact windowPixel_packedAs _ _ ha
    · rw [h4 hsel]; exact windowPixel_packedAs _ _ ha
    · rw [h5 hsel]; exact windowPixel_packedAs _ _ ha
    · rw [h6 hsel]; exact windowPixel_packedAs _ _ ha
    · rw [h10 hsel, windowOffset, he]
  · exact (windowValue_out hsel hopen).trans (if_pos ha)

/-! ## Window writes -/

theorem paletteWritable_iff (s : State) : paletteWritable s = true ↔ s.session = .encSetup ∧ s.winAddr.toNat < 256 := by
  simp only [paletteWritable, Bool.and_eq_true, beq_iff_eq, decide_eq_true_eq]

theorem sourceWritable_iff (s : State) : sourceWritable s = true ↔
    (s.session = .encSetup ∨ s.session = .encOpen) ∧ s.winAddr.toNat < framePixels s.hdr := by
  simp only [sourceWritable, Bool.and_eq_true, Bool.or_eq_true, beq_iff_eq, decide_eq_true_eq]

theorem bufferWritable_iff (s : State) (n : Nat) :
    bufferWritable s n = true ↔ s.status.alloc = true ∧ s.winAddr.toNat < n := by
  simp only [bufferWritable, Bool.and_eq_true, decide_eq_true_eq]

/-- A memory after a write that takes effect only under a condition. -/
def writeIf {α : Type} (on : Bool) (m : Memory α) (a : Nat) (v : α) : Memory α := if on then Memory.write m a v else m

theorem storedIf_writeIf {α : Type} {on : Prop} {b : Bool} (h : on ↔ b = true) (m : Memory α) (a : Nat) (v : α) :
    storedIf on a v m (writeIf b m a v) := by
  refine ⟨fun hon => ?_, fun hoff => ?_⟩
  · rw [writeIf, if_pos (h.mp hon)]
    exact ⟨Memory.read_write_same m a v, fun _ hb => Memory.read_write_other m v hb⟩
  · rw [writeIf, if_neg (mt h.mpr hoff)]

/-- `SRC` after a write of `WIN_DATA` (20 R68, log 17). -/
def sourceAfter (v : Word) (s : State) : Memory Colour :=
  match unpackPixel s.hdr.format v with
  | some c => writeIf (s.winSel.toNat == 3 && sourceWritable s) s.src s.winAddr.toNat c
  | none => s.src

/-- The state a write of `WIN_DATA` stores, space by space: each is written if the window is on it and may write it. -/
def storedState (v : Word) (s : State) : State :=
  { s with
    pal0 := writeIf (s.winSel.toNat == 1 && paletteWritable s) s.pal0 s.winAddr.toNat (colourOfWord v)
    pal1 := writeIf (s.winSel.toNat == 2 && paletteWritable s) s.pal1 s.winAddr.toNat (colourOfWord v)
    src := sourceAfter v s
    bs := writeIf (s.winSel.toNat == 7 && bufferWritable s s.par.bsCap) s.bs s.winAddr.toNat (v.setWidth 8)
    cb := writeIf (s.winSel.toNat == 8 && bufferWritable s s.par.cbCap) s.cb s.winAddr.toNat (v.setWidth 8)
    ab := writeIf (s.winSel.toNat == 9 && bufferWritable s s.par.abCap) s.ab s.winAddr.toNat (v.setWidth 8) }

theorem sourceAfter_other (v : Word) {s : State} (h : s.winSel.toNat ≠ 3) : sourceAfter v s = s.src := by
  unfold sourceAfter
  rw [beq_eq_false_iff_ne.mpr h]
  split <;> rfl

theorem windowStore_eq (v : Word) (s : State) : windowStore v s = storedState v s := by
  unfold windowStore
  dsimp only
  split
  case h_1 hsel => rw [storedState, sourceAfter_other v (by omega), hsel]; cases paletteWritable s <;> rfl
  case h_2 hsel => rw [storedState, sourceAfter_other v (by omega), hsel]; cases paletteWritable s <;> rfl
  case h_3 hsel =>
    unfold windowSource storedState sourceAfter
    rw [hsel]
    cases unpackPixel s.hdr.format v with
    | none => rfl
    | some c => cases sourceWritable s <;> rfl
  case h_4 hsel => rw [storedState, sourceAfter_other v (by omega), hsel]; cases bufferWritable s s.par.bsCap <;> rfl
  case h_5 hsel => rw [storedState, sourceAfter_other v (by omega), hsel]; cases bufferWritable s s.par.cbCap <;> rfl
  case h_6 hsel => rw [storedState, sourceAfter_other v (by omega), hsel]; cases bufferWritable s s.par.abCap <;> rfl
  case h_7 h1 h2 h3 h7 h8 h9 =>
    rw [storedState, sourceAfter_other v h3, beq_eq_false_iff_ne.mpr h1, beq_eq_false_iff_ne.mpr h2, beq_eq_false_iff_ne.mpr h7,
      beq_eq_false_iff_ne.mpr h8, beq_eq_false_iff_ne.mpr h9]
    rfl

/-- The model's pixel is R104's. -/
theorem unpackPixel_of_unpackedAs {format : Byte} {v : Word} {c : Colour} (h : unpackedAs format v c) :
    unpackPixel format v = some c := by
  rcases h with ⟨rfl, rfl⟩ | ⟨rfl, rfl⟩ | ⟨rfl, rfl⟩ | ⟨rfl, rfl⟩ <;> rfl

theorem colourAt_of_read {s : State} {sp : Space} {m : Memory Colour} {a : Nat} {c : Colour}
    (h : Memory.read m a = some c) : colourAt s sp m a = c := by
  rw [colourAt, h]; rfl

/-- A pixel of `SRC` reads back packed while `ALLOC = 1`. -/
theorem windowValue_source {t : State} {c : Colour} (hsel : t.winSel.toNat = 3) (halloc : t.status.alloc = true)
    (ha : t.winAddr.toNat < framePixels t.hdr) (hread : Memory.read t.src t.winAddr.toNat = some c) :
    packedAs t.hdr.format c (windowValue t) := by
  obtain ⟨-, -, hvalue, -⟩ := windowValue_owned halloc
  rw [hvalue hsel, ← colourAt_of_read (s := t) (sp := .src) hread]
  exact windowPixel_packedAs _ _ ha

/-- A space's right to be written, as the model tests it. -/
theorem spaceWritten_iff {sel : BitVec 4} {k : Nat} (hk : k < 16) (on : Prop) {b : Bool} (h : on ↔ b = true) :
    sel = BitVec.ofNat 4 k ∧ on ↔ (sel.toNat == k && b) = true := by
  have hsel : sel = BitVec.ofNat 4 k ↔ sel.toNat = k := by
    rw [← BitVec.toNat_inj, BitVec.toNat_ofNat, Nat.mod_eq_of_lt hk]
  rw [Bool.and_eq_true, beq_iff_eq, hsel, h]

/-- Settles O49: the store is R68's, space by space, and a pixel stored in `SRC` is the one the window packs when it reads
there. -/
theorem windowAccess : Obligations.WindowAccess := by
  intro s v rest hact a encodes colour palette source
  have hpalette := (paletteWritable_iff s).symm
  have hbuffer := fun n => (bufferWritable_iff s n).symm
  have hsource : source ↔ (s.winSel.toNat == 3 && sourceWritable s) = true :=
    spaceWritten_iff (by decide) _ (sourceWritable_iff s).symm
  refine ⟨windowAdvance (storedState v { s with host := rest }),
    (step_access hact _ _).trans (congrArg (fun x => Host.Outcome.next (windowAdvance x)) (windowStore_eq v _)), rfl,
    storedIf_writeIf (spaceWritten_iff (by decide) _ hpalette) _ _ _,
    storedIf_writeIf (spaceWritten_iff (by decide) _ hpalette) _ _ _,
    fun hoff => ?_, fun c hc => ?_, storedIf_writeIf (spaceWritten_iff (by decide) _ (hbuffer _)) _ _ _,
    storedIf_writeIf (spaceWritten_iff (by decide) _ (hbuffer _)) _ _ _,
    storedIf_writeIf (spaceWritten_iff (by decide) _ (hbuffer _)) _ _ _⟩
  · change sourceAfter v s = s.src
    unfold sourceAfter
    split
    · exact if_neg (mt hsource.mpr hoff)
    · rfl
  · have hafter : sourceAfter v s = writeIf (s.winSel.toNat == 3 && sourceWritable s) s.src a c := by
      rw [sourceAfter, unpackPixel_of_unpackedAs hc]
    have hstored : storedIf source a c s.src (sourceAfter v s) := by
      rw [hafter]; exact storedIf_writeIf hsource s.src a c
    refine ⟨hstored, fun hon halloc => ?_⟩
    have ⟨hsel, _, ha⟩ := hon
    exact windowValue_source (t := { windowAdvance (storedState v { s with host := rest }) with winAddr := s.winAddr })
      (congrArg BitVec.toNat hsel) halloc ha (hstored.1 hon).1

end Sys2Proof.Machine
end

section
/-! The host's register writes. -/

namespace Sys2Proof.Machine

/-- The header image after a write of register `index` in a session state. -/
def headerAfter (x : Session) (index : Nat) (v : Word) (h : HdrFields) : HdrFields where
  frameCount := if index = 0x10 ∧ x = .closed then v else h.frameCount
  width := if index = 0x11 ∧ x = .closed then v else h.width
  height := if index = 0x12 ∧ x = .closed then v else h.height
  format := if index = 0x13 ∧ x = .closed then v.setWidth 8 else h.format
  version := if index = 0x14 ∧ x = .closed then v.setWidth 8 else h.version
  fps := if index = 0x15 ∧ x = .closed then v else h.fps
  adur := if index = 0x16 ∧ x = .closed then v else h.adur
  srate := if index = 0x17 ∧ x = .closed then v else h.srate
  asize := if index = 0x18 ∧ x = .closed then v else h.asize
  channels := if index = 0x19 ∧ x = .closed then v.setWidth 16 else h.channels
  bps := if index = 0x1A ∧ x = .closed then v.setWidth 16 else h.bps

/-- The configuration after a write of register `index`. -/
def configAfter (index : Nat) (v : Word) (c : EncCfg) : EncCfg where
  maxDiff := if index = 0x30 then v.setWidth 8 else c.maxDiff
  maxDiff15 := if index = 0x31 then v.setWidth 8 else c.maxDiff15
  mvThresh := if index = 0x32 then v.setWidth 16 else c.mvThresh
  modeEn := if index = 0x33 then modeEnStored (v.setWidth 10) else c.modeEn
  quality := if index = 0x34 then v.setWidth 2 else c.quality
  keyInterval := if index = 0x35 then v else c.keyInterval
  compEn := if index = 0x36 then v.getLsbD 0 else c.compEn
  meStep := if index = 0x37 then v.setWidth 8 else c.meStep
  meRange := if index = 0x38 then v.setWidth 7 else c.meRange
  distRatio := if index = 0x39 then distRatioStored (v.setWidth 9) else c.distRatio

/-- The state after a write of register `index`, which is not `WIN_DATA`, field by field. -/
def writtenState (index : Nat) (v : Word) (s : State) : State :=
  { s with
    arg :=
      { x0 := if index = 0x04 then v else s.arg.x0
        x1 := if index = 0x05 then v else s.arg.x1
        x2 := if index = 0x06 then v else s.arg.x2
        x3 := if index = 0x07 then v else s.arg.x3 }
    hdr := headerAfter s.session index v s.hdr
    cfg := configAfter index v s.cfg
    winSel := if index = 0x40 then v.setWidth 4 else s.winSel
    winAddr := if index = 0x41 then v else s.winAddr
    bslen := if index = 0x29 then lengthStored v s.par.bsCap else s.bslen
    cblen := if index = 0x2A then lengthStored v s.par.cbCap else s.cblen
    ablen := if index = 0x2B then lengthStored v s.par.abCap else s.ablen
    bs := if index = 0x29 then Memory.below s.bs (lengthStored v s.par.bsCap).toNat else s.bs
    cb := if index = 0x2A then Memory.below s.cb (lengthStored v s.par.cbCap).toNat else s.cb
    ab := if index = 0x2B then Memory.below s.ab (lengthStored v s.par.abCap).toNat else s.ab
    epoch := if 0x29 ≤ index ∧ index ≤ 0x2B then s.epoch + 1 else s.epoch }

/-- A header register of an open session, and any register that is no header register, leaves the header. -/
theorem headerAfter_same {x : Session} {index : Nat} (h : ¬ (headerIndex index ∧ x = .closed)) (v : Word) (f : HdrFields) :
    headerAfter x index v f = f := by
  have hoff : ∀ k, headerIndex k → ¬ (index = k ∧ x = .closed) := by rintro _ hk ⟨rfl, hx⟩; exact h ⟨hk, hx⟩
  have hlist : ∀ k ∈ [0x10, 0x11, 0x12, 0x13, 0x14, 0x15, 0x16, 0x17, 0x18, 0x19, 0x1A], ¬ (index = k ∧ x = .closed) :=
    fun k hk => hoff k (by revert k; unfold headerIndex; decide)
  simp only [List.forall_mem_cons] at hlist
  simp only [headerAfter, hlist, if_false]

/-- A register that is no configuration register leaves the configuration. -/
theorem configAfter_same {index : Nat} (h : ¬ (0x30 ≤ index ∧ index ≤ 0x39)) (v : Word) (c : EncCfg) :
    configAfter index v c = c := by
  simp (disch := omega) only [configAfter, if_neg]

theorem headerAfter_closed (index : Nat) (v : Word) (h : HdrFields) :
    headerAfter .closed index v h = writeHeader index v h := by
  unfold writeHeader
  split
  case h_12 =>
    refine headerAfter_same (fun hc => ?_) v h
    obtain ⟨⟨_, _⟩, _⟩ := hc
    simp only [imp_false] at *
    omega
  all_goals rfl

theorem configAfter_eq (index : Nat) (v : Word) (c : EncCfg) : configAfter index v c = writeConfig index v c := by
  unfold writeConfig
  split
  case h_11 => exact configAfter_same (by simp only [imp_false] at *; omega) v c
  all_goals rfl

/-- The model's write is the one field by field. -/
theorem writeRegister_eq_writtenState {index : Nat} (hne : index ≠ 0x42) (v : Word) (s : State) :
    writeRegister index v s = writtenState index v s := by
  have hhdr : ¬ headerIndex index → headerAfter s.session index v s.hdr = s.hdr := fun h =>
    headerAfter_same (fun hc => h hc.1) v s.hdr
  unfold writeRegister
  split
  case h_7 => exact absurd rfl hne
  case h_8 =>
    simp only [imp_false] at *
    split
    · rename_i hheader
      have hcfg := configAfter_same (index := index) (by omega) v s.cfg
      split
      · rename_i hclosed
        rw [← headerAfter_closed, ← hclosed]
        simp (disch := omega) only [writtenState, if_neg, hcfg]
      · rename_i hopen
        have hsame := headerAfter_same (fun hc => hopen hc.2) v s.hdr (index := index)
        simp (disch := omega) only [writtenState, if_neg, hcfg, hsame]
    · rename_i hheader
      rw [← headerIndex] at hheader
      split
      · rename_i hlength
        have hcfg := configAfter_same (index := index) (by omega) v s.cfg
        obtain rfl | rfl | rfl : index = 0x29 ∨ index = 0x2A ∨ index = 0x2B := by omega
        all_goals rw [writtenState, hhdr hheader, hcfg]; rfl
      · split
        · rw [← configAfter_eq]
          simp (disch := omega) only [writtenState, if_neg, hhdr hheader]
        · have hcfg := configAfter_same (index := index) (by omega) v s.cfg
          simp (disch := omega) only [writtenState, if_neg, hhdr hheader, hcfg]
  all_goals
    rw [writtenState, hhdr (by unfold headerIndex; omega), configAfter_same (by omega)]
    rfl

/-! ## What the written state reads -/

/-- Every other register reads as before. -/
theorem registerValue_writtenState_other {index other : Nat} (hne : other ≠ index) (v : Word) (s : State) :
    registerValue (writtenState index v s) other = registerValue s other := by
  have hoff : ∀ k, k ≠ index → (index = k) = False := fun k hk => eq_false hk.symm
  unfold registerValue
  split
  all_goals simp only [writtenState, headerAfter, configAfter, hoff _ hne, false_and, if_false, statusByte]

theorem lengthStored_toNat (v : Word) (n : Nat) : (lengthStored v n).toNat = min v.toNat n := by
  have := v.isLt
  rw [lengthStored, BitVec.toNat_ofNat]; omega

theorem ite_some_cases {p : Prop} [Decidable p] {a w : Nat} {r : Option Nat} (h : (if p then some a else r) = some w) :
    (p ∧ a = w) ∨ r = some w := by
  by_cases hp : p
  · rw [if_pos hp] at h; exact .inl ⟨hp, Option.some.inj h⟩
  · rw [if_neg hp] at h; exact .inr h

theorem setWidth_setWidth33_toNat (v : Word) {w : Nat} (h : w ≤ 33) :
    ((v.setWidth w).setWidth 33).toNat = v.toNat % 2 ^ w := by
  rw [setWidth33_toNat _ h, BitVec.toNat_setWidth]

theorem word_setWidth33_toNat (v : Word) : (v.setWidth 33).toNat = v.toNat % 2 ^ 32 := by
  rw [setWidth33_toNat v (by decide), Nat.mod_eq_of_lt v.isLt]

theorem bit_setWidth33_toNat (v : Word) : ((BitVec.ofBool (v.getLsbD 0)).setWidth 33).toNat = v.toNat % 2 ^ 1 := by
  rw [setWidth33_toNat _ (by decide), ofBool_toNat, BitVec.getLsbD, Nat.testBit_zero]
  rcases Nat.mod_two_eq_zero_or_one v.toNat with h | h <;> simp [h]

/-- The cases of R20's widths, one after another: a register without hardwired or limited bits reads back the bits it has. -/
theorem registerValue_writtenState_plain {index w : Nat} (hw : plainWidth index = some w) (v : Word) {s : State}
    (hclosed : headerIndex index → s.session = .closed) :
    (registerValue (writtenState index v s) index).toNat = v.toNat % 2 ^ w := by
  have hpart := fun {k : Nat} => setWidth_setWidth33_toNat v (w := k)
  have hheader : headerIndex index → writtenState index v s = { writtenState index v s with
      hdr := headerAfter .closed index v s.hdr } := fun h => by rw [← hclosed h]; rfl
  unfold plainWidth at hw
  rcases ite_some_cases hw with ⟨h, rfl⟩ | hw
  · obtain rfl | rfl | rfl | rfl : index = 0x04 ∨ index = 0x05 ∨ index = 0x06 ∨ index = 0x07 := by omega
    all_goals exact word_setWidth33_toNat v
  rcases ite_some_cases hw with ⟨h, rfl⟩ | hw
  · rw [hheader ⟨by omega, by omega⟩]
    obtain rfl | rfl | rfl : index = 0x10 ∨ index = 0x11 ∨ index = 0x12 := by omega
    all_goals exact word_setWidth33_toNat v
  rcases ite_some_cases hw with ⟨h, rfl⟩ | hw
  · rw [hheader ⟨by omega, by omega⟩]
    rcases h with rfl | rfl
    all_goals exact hpart (by decide)
  rcases ite_some_cases hw with ⟨h, rfl⟩ | hw
  · rw [hheader ⟨by omega, by omega⟩]
    obtain rfl | rfl | rfl | rfl : index = 0x15 ∨ index = 0x16 ∨ index = 0x17 ∨ index = 0x18 := by omega
    all_goals exact word_setWidth33_toNat v
  rcases ite_some_cases hw with ⟨h, rfl⟩ | hw
  · rw [hheader ⟨by omega, by omega⟩]
    rcases h with rfl | rfl
    all_goals exact hpart (by decide)
  rcases ite_some_cases hw with ⟨rfl | rfl | rfl, rfl⟩ | hw
  · exact hpart (by decide)
  · exact hpart (by decide)
  · exact hpart (by decide)
  rcases ite_some_cases hw with ⟨rfl, rfl⟩ | hw
  · exact hpart (by decide)
  rcases ite_some_cases hw with ⟨rfl, rfl⟩ | hw
  · exact hpart (by decide)
  rcases ite_some_cases hw with ⟨rfl | rfl, rfl⟩ | hw
  · exact word_setWidth33_toNat v
  · exact word_setWidth33_toNat v
  rcases ite_some_cases hw with ⟨rfl, rfl⟩ | hw
  · exact bit_setWidth33_toNat v
  rcases ite_some_cases hw with ⟨rfl, rfl⟩ | hw
  · exact hpart (by decide)
  rcases ite_some_cases hw with ⟨rfl, rfl⟩ | hw
  · exact hpart (by decide)
  · cases hw

/-- A read-only or reserved register, and a header register of an open session, ignores the write. -/
theorem writtenState_ignored {index : Nat} {s : State}
    (h : ¬ writableIndex index ∨ headerIndex index ∧ s.session ≠ .closed) (v : Word) : writtenState index v s = s := by
  have hhdr : headerAfter s.session index v s.hdr = s.hdr := headerAfter_same (fun hc => by
    rcases h with h | h
    · exact h (.inr (.inl hc.1))
    · exact h.2 hc.2) v s.hdr
  have hindex : ¬ (0x04 ≤ index ∧ index ≤ 0x07) ∧ ¬ (0x29 ≤ index ∧ index ≤ 0x2B) ∧ ¬ (0x30 ≤ index ∧ index ≤ 0x39) ∧
      index ≠ 0x40 ∧ index ≠ 0x41 := by
    unfold writableIndex headerIndex at h; omega
  obtain ⟨harg, hlen, hcfg, hsel, haddr⟩ := hindex
  simp (disch := omega) only [writtenState, if_neg, hhdr, configAfter_same hcfg]

theorem modeEnRead_getLsbD (v : Word) {m : Nat} (hm : m < 10) :
    ((modeEnStored (v.setWidth 10)).setWidth 33).getLsbD m =
      if m = 0 then false else if m = 2 then true else v.getLsbD m := by
  have hlt : m < 33 := by omega
  rw [BitVec.getLsbD_setWidth, modeEnStored_getLsbD _ hm, BitVec.getLsbD_setWidth, decide_eq_true hm, decide_eq_true hlt,
    Bool.true_and, Bool.true_and]

/-- The bytes below a length stay (log 11). -/
theorem read_lengthWritten {index k : Nat} {len len' : Word} {m : ByteMemory} {a : Nat}
    (ha : a < (if index = k then len' else len).toNat) :
    Memory.read (if index = k then Memory.below m len'.toNat else m) a = Memory.read m a := by
  split
  · rename_i hk
    rw [if_pos hk] at ha
    rw [Memory.read_below, if_pos ha]
  · rfl

/-- Settles O51: the write is the one field by field, from which every register's value is read off. -/
theorem registerWrites : Obligations.RegisterWrites := by
  intro s index v rest hact h0 hdata
  have hstep : step { s with host := .write index v :: rest } = .next (writtenState index v { s with host := rest }) := by
    rw [step_access hact, ← writeRegister_eq_writtenState hdata]
    exact if_neg h0
  refine ⟨_, hstep, rfl, fun other hne => registerValue_writtenState_other hne v _,
    fun w hw hclosed => registerValue_writtenState_plain hw v hclosed, ?_, ?_, ?_, ?_, ?_,
    fun a => ⟨read_lengthWritten, read_lengthWritten, read_lengthWritten⟩,
    fun h => writtenState_ignored (s := { s with host := rest }) h v⟩ <;>
    rintro rfl
  · exact ⟨(setWidth33_toNat (modeEnStored (v.setWidth 10)) (by decide)).trans_lt (BitVec.isLt _),
      fun m hm => modeEnRead_getLsbD v hm⟩
  · refine (setWidth33_toNat (distRatioStored (v.setWidth 9)) (by decide)).trans ?_
    rw [distRatioStored_toNat, BitVec.toNat_setWidth]
  · exact (setWidth33_toNat (lengthStored v s.par.bsCap) (by decide)).trans (lengthStored_toNat v s.par.bsCap)
  · exact (setWidth33_toNat (lengthStored v s.par.cbCap) (by decide)).trans (lengthStored_toNat v s.par.cbCap)
  · exact (setWidth33_toNat (lengthStored v s.par.abCap) (by decide)).trans (lengthStored_toNat v s.par.abCap)

end Sys2Proof.Machine
end

section
/-! The byte sink (20 R67): which commands write `OUT` and `OUTLEN`, and that none does when it raises. -/

namespace Sys2Proof.Machine

/-- The byte sink: `OUT` and `OUTLEN`. -/
def sinkPart (s : State) : ByteMemory × Word := (s.out, s.outlen)

theorem sinkPart_eq_iff {s t : State} : sinkPart t = sinkPart s ↔ t.out = s.out ∧ t.outlen = s.outlen := Prod.mk_inj

/-- The commands that may write the sink: the encode session's and `SOFT_RESET`. -/
def writesSink (i : Instr) : Prop :=
  i = .encSetup ∨ i = .encOpen ∨ i = .encFrame ∨ i = .encAudio ∨ i = .encClose ∨ i = .softReset

/-- The sink is no part of an open session's working state. -/
theorem OnlyWork.sinkPart_eq {s t : State} (h : OnlyWork s t) : sinkPart t = sinkPart s := (congrArg sinkPart h :)

theorem Answers.sinkPart_eq {s u : State} (h : Answers (Within s) u) : sinkPart u = sinkPart s := by
  obtain ⟨v, hv, hu⟩ := h
  exact (congrArg sinkPart hu :).trans hv.frame.sinkPart_eq

/-- `OPEN` reads a stream and writes no sink (46 R275). -/
theorem Opened.sinkPart_eq {s u : State} (h : Opened s u) : sinkPart u = sinkPart s := by
  obtain ⟨f, w, cs, v, b, j, -, -, hw, hv, rfl⟩ := h
  exact (congrArg (fun x => sinkPart (openDone f x)) hv.frame :).trans hw.onlyWork.sinkPart_eq

/-- Whatever a raise leaves of the rest of the state (60 R318), it leaves the sink: a lost session too keeps its bytes. -/
theorem RaiseLeaves.sinkPart_eq {s r : State} (h : RaiseLeaves s r) : sinkPart r = sinkPart s := by
  cases h with
  | before io => rfl
  | lost v _ hv => exact hv.frame.sinkPart_eq
  | scratch _ hv => exact hv.onlyWork.sinkPart_eq
  | work _ _ hv => exact hv.frame.sinkPart_eq
  | fault v _ hv => exact hv.frame.sinkPart_eq

/-- A completion that writes the sink is one of an encode session's command or of `SOFT_RESET`. -/
theorem Completes.sinkPart_eq {i : Instr} {s u : State} (h : Completes s i u) (hi : ¬ writesSink i) :
    sinkPart u = sinkPart s := by
  cases h with
  | reset | ended | setUp | headerWritten | frameWritten | audioWritten => exact absurd (by simp [writesSink]) hi
  | computed _ _ hu => exact (hu.mono fun _ hv => hv.within).sinkPart_eq
  | worked _ _ _ hu => exact hu.sinkPart_eq
  | opened _ hu => exact hu.sinkPart_eq
  | preset | rewound | closed | cleared | counted | selected => rfl

/-- Settles O12: a raise leaves the sink, and so does every completion but those of the commands that may write it. -/
theorem sinkAllOrNothing : Obligations.SinkAllOrNothing := by
  intro i s t hi h
  rcases exec_command_leaves hi h with ⟨e, r, hr, rfl⟩ | ⟨u, hu, rfl⟩
  · have hsink := sinkPart_eq_iff.mp hr.sinkPart_eq
    exact ⟨fun _ => hsink, fun _ _ _ _ _ _ => hsink⟩
  · refine ⟨fun herr => absurd rfl herr, fun hsetup hopen hframe haudio hclose hreset => ?_⟩
    exact sinkPart_eq_iff.mp (hu.sinkPart_eq (by simp [writesSink, *]))

end Sys2Proof.Machine
end

section
/-! Encoding and decoding are inverse (30_encoding): an encoded instruction decodes to itself whatever follows it, and an
accepted block code is well-formed and encoded in the bytes that were read. -/

namespace Sys2Proof

/-! ## The fields of an encoded word -/

@[simp] theorem recWord_cons_succ (b : Byte) (rec : List Byte) (i : Nat) : recWord (b :: rec) (i + 1) = recWord rec i := rfl

@[simp] theorem recHalf_cons_succ (b : Byte) (rec : List Byte) (i : Nat) : recHalf (b :: rec) (i + 1) = recHalf rec i := rfl

@[simp] theorem recByte_cons_succ (b : Byte) (rec : List Byte) (i : Nat) : recByte (b :: rec) (i + 1) = recByte rec i := rfl

@[simp] theorem recWord_cons_zero (b0 b1 b2 b3 : Byte) (rec : List Byte) :
    recWord (b0 :: b1 :: b2 :: b3 :: rec) 0 = le32 b0 b1 b2 b3 := rfl

@[simp] theorem recHalf_cons_zero (b0 b1 : Byte) (rec : List Byte) : recHalf (b0 :: b1 :: rec) 0 = le16 b0 b1 := rfl

@[simp] theorem recByte_cons_zero (b : Byte) (rec : List Byte) : recByte (b :: rec) 0 = b := rfl

theorem hdrFields_encode (f : HdrFields) (rest : List Byte) : hdrFields (encode (.hdr f) ++ rest) = f := by
  simp [hdrFields, encode, magicAgmv, le32Bytes, le16Bytes]

theorem agfcFields_encode (f : AgfcFields) (rest : List Byte) : agfcFields (encode (.agfc f) ++ rest) = f := by
  simp [agfcFields, encode, magicAgfc, le32Bytes, le16Bytes]

theorem agacFields_encode (f : AgacFields) (rest : List Byte) : agacFields (encode (.agac f) ++ rest) = f := by
  simp [agacFields, encode, magicAgac, le32Bytes]

/-! ## Sequences of fetches -/

theorem ok_bind {α β : Type} (a : α) (f : α → Except Reject β) : (Except.ok a >>= f) = f a := rfl

/-- A sequence that accepts went through its first part. -/
theorem bind_eq_ok {α β : Type} {x : Except Reject α} {f : α → Except Reject β} {b : β} (h : (x >>= f) = .ok b) :
    ∃ a, x = .ok a ∧ f a = .ok b := by
  cases x with
  | ok a => exact ⟨a, rfl, h⟩
  | error e => cases h

/-! ## Decoding an encoded instruction, language by language -/

theorem decode_encode_command {ctx : BlockCtx} {i : Instr} (hl : languageOf ctx i = .command) (rest : List Byte) :
    decode .command (encode i ++ rest) = .ok (i, (encode i).length) := by
  cases i <;> cases hl <;> rfl

theorem decode_encode_lit (b : Byte) (rest : List Byte) :
    decode (.unit true) (encode (.lit b) ++ rest) = .ok (.lit b, (encode (.lit b)).length) := rfl

theorem decode_encode_ref (offset : BitVec 12) (length : BitVec 4) (rest : List Byte) :
    decode (.unit false) (encode (.ref offset length) ++ rest) =
      .ok (.ref offset length, (encode (.ref offset length)).length) := by
  simp only [encode, le16Bytes, List.cons_append, decode, decodeUnit, Bool.false_eq_true, if_false, le16_bytes,
    BitVec.extractLsb'_append_eq_left, BitVec.extractLsb'_append_eq_right]
  rfl

theorem decode_encode_hdr (f : HdrFields) (rest : List Byte) :
    decode .header (encode (.hdr f) ++ rest) = .ok (.hdr f, (encode (.hdr f)).length) := by
  have hlen : ¬ (encode (.hdr f) ++ rest).length < 38 := by rw [List.length_append, encode_record_length.1]; omega
  simp only [decode, decodeHeader, if_neg hlen, hdrFields_encode]
  rfl

theorem decode_encode_agfc (f : AgfcFields) (rest : List Byte) :
    decode .chunk (encode (.agfc f) ++ rest) = .ok (.agfc f, (encode (.agfc f)).length) := by
  have hlen : ¬ (encode (.agfc f) ++ rest).length < 18 := by rw [List.length_append, encode_record_length.2.1]; omega
  simp only [decode, decodeChunk, if_neg hlen, agfcFields_encode]
  rfl

theorem decode_encode_agac (f : AgacFields) (rest : List Byte) :
    decode .chunk (encode (.agac f) ++ rest) = .ok (.agac f, (encode (.agac f)).length) := by
  have hlen : ¬ (encode (.agac f) ++ rest).length < 12 := by rw [List.length_append, encode_record_length.2.2]; omega
  simp only [decode, decodeChunk, if_neg hlen, agacFields_encode]
  rfl

/-- A block code's tag is legal where the code is well-formed, and its operands are fetched back one after another. -/
theorem decode_encode_block {ctx : BlockCtx} {i : Instr} (hl : languageOf ctx i = .block ctx) (h : wellFormed ctx i = true)
    (rest : List Byte) : decode (.block ctx) (encode i ++ rest) = .ok (i, (encode i).length) := by
  cases i <;> cases hl <;>
    simp only [wellFormed, Bool.and_eq_true, Option.isNone_iff_eq_none, beq_iff_eq] at h <;>
    simp only [decode, encode, List.cons_append, List.append_assoc, List.nil_append]
  case fill psel c =>
    obtain ⟨ht, hc⟩ := h
    rw [decodeBlock_tag ctx psel _ (by decide) ht]
    simp only [decodeOperands, fetchColour_encode hc, ok_bind, List.length_cons, Nat.add_comm 1]
  case normal psel cs =>
    obtain ⟨⟨ht, hlen⟩, hcs⟩ := h
    rw [decodeBlock_tag ctx psel _ (by decide) ht]
    simp only [decodeOperands, ← hlen, fetchColours_encode hcs, ok_bind, List.length_cons, Nat.add_comm 1]
  case copy => rw [decodeBlock_tag ctx false _ (by decide) h]; rfl
  case skip => rw [decodeBlock_tag ctx false _ (by decide) h]; rfl
  case icopy back =>
    rw [decodeBlock_tag ctx false _ (by decide) h]
    exact congrArg (fun b => Except.ok (Instr.icopy b, 3)) (le16_bytes back)
  case mv dx dy => rw [decodeBlock_tag ctx false _ (by decide) h]; rfl
  case pmv ddx ddy =>
    rw [decodeBlock_tag ctx false _ (by decide) h]
    exact congrArg₂ (fun x y => Except.ok (Instr.pmv x y, 2)) BitVec.extractLsb'_append_eq_left
      BitVec.extractLsb'_append_eq_right
  case vq2 psel c0 c1 idx =>
    obtain ⟨⟨⟨ht, h0⟩, h1⟩, hlen⟩ := h
    rw [decodeBlock_tag ctx psel _ (by decide) ht]
    simp only [decodeOperands, fetchColour_encode h0, fetchColour_encode h1, ← hlen, fetchBytes_append, ok_bind,
      List.length_cons, List.length_append, Nat.add_assoc, Nat.add_comm 1]
  case vq4 psel c0 c1 c2 c3 idx =>
    obtain ⟨⟨⟨⟨⟨ht, h0⟩, h1⟩, h2⟩, h3⟩, hlen⟩ := h
    rw [decodeBlock_tag ctx psel _ (by decide) ht]
    simp only [decodeOperands, fetchColour_encode h0, fetchColour_encode h1, fetchColour_encode h2, fetchColour_encode h3,
      ← hlen, fetchBytes_append, ok_bind, List.length_cons, List.length_append, Nat.add_assoc, Nat.add_comm 1]

/-- Settles O52: the language fixes the decoder, and each language's decoder reads its own encoding back. -/
theorem decodeEncodeRoundTrip : Obligations.DecodeEncodeRoundTrip := by
  intro ctx i rest h
  cases i
  case hdr f => exact decode_encode_hdr f rest
  case agfc f => exact decode_encode_agfc f rest
  case agac f => exact decode_encode_agac f rest
  case lit b => exact decode_encode_lit b rest
  case ref offset length => exact decode_encode_ref offset length rest
  case fill | normal | copy | icopy | mv | pmv | vq2 | vq4 | skip => exact decode_encode_block rfl h rest
  all_goals exact decode_encode_command (ctx := ctx) rfl rest

theorem decode_encode (ctx : BlockCtx) (i : Instr) (h : wellFormed ctx i = true) :
    decode (languageOf ctx i) (encode i) = .ok (i, (encode i).length) := by
  have hread := decodeEncodeRoundTrip ctx i [] h
  rwa [List.append_nil] at hread

/-- Settles O54: each word is an encoding, written out, and the round trip reads it. -/
theorem encodedWordsDecode : Obligations.EncodedWordsDecode :=
  ⟨decode_encode ⟨0, .intra⟩ .blockSad rfl, decode_encode ⟨0x00, .inter⟩ (.fill false (.rgb555 0x7C00)) rfl,
    decode_encode ⟨0x01, .inter⟩ (.mv 2 0xFD) rfl, decode_encode ⟨0x01, .inter⟩ (.pmv 0xD 1) rfl,
    decode_encode ⟨0, .intra⟩ (.ref 1 15) rfl, decode_encode ⟨0, .intra⟩ (.agac ⟨8, 4⟩) rfl⟩

/-! ## What an accepted fetch consumed -/

/-- From `r` the bytes `bytes` were fetched, leaving `t` (43 R192). -/
def Consumed (r : Rest) (bytes : List Byte) (t : Rest) : Prop := r.bytes = bytes ++ t.bytes ∧ t.used = r.used + bytes.length

theorem Consumed.append {r t u : Rest} {x y : List Byte} (h : Consumed r x t) (h' : Consumed t y u) :
    Consumed r (x ++ y) u := by
  obtain ⟨hbytes, hused⟩ := h
  obtain ⟨hbytes', hused'⟩ := h'
  exact ⟨by rw [hbytes, hbytes', List.append_assoc], by rw [hused', hused, List.length_append, Nat.add_assoc]⟩

theorem le16Bytes_le16 (lo hi : Byte) : le16Bytes (le16 lo hi) = [lo, hi] :=
  congrArg₂ (fun x y => [x, y]) BitVec.extractLsb'_append_eq_right BitVec.extractLsb'_append_eq_left

theorem fetchBytes_eq_ok {n : Nat} {r t : Rest} {b : List Byte} (h : fetchBytes n r = .ok (b, t)) :
    b.length = n ∧ Consumed r b t := by
  unfold fetchBytes at h
  split at h
  · cases h
  · next hlen =>
    obtain ⟨rfl, rfl⟩ := Prod.mk.inj (Except.ok.inj h)
    have htake : (r.bytes.take n).length = n := by rw [List.length_take]; omega
    exact ⟨htake, (List.take_append_drop n r.bytes).symm, by rw [htake]⟩

/-- An RGB555 operand read from two bytes of which bit 15 is 0 is encoded in them (30 R98). -/
theorem encodeColour_rgb555 {lo hi : Byte} (h : hi.getLsbD 7 = false) :
    encodeColour (.rgb555 ((le16 lo hi).extractLsb' 0 15)) = [lo, hi] := by
  have hword : ((le16 lo hi).extractLsb' 0 15).setWidth 16 = le16 lo hi := by
    apply BitVec.eq_of_getLsbD_eq
    intro i hi16
    by_cases hi15 : i < 15
    · simp [hi15]; omega
    · obtain rfl : i = 15 := by omega
      have hbit : (le16 lo hi).getLsbD 15 = hi.getLsbD 7 := BitVec.getLsbD_append
      rw [hbit, h, BitVec.getLsbD_setWidth, BitVec.getLsbD_extractLsb']
      rfl
  rw [encodeColour, hword, le16Bytes_le16]

theorem fetchColour_eq_ok {version : Byte} {r t : Rest} {c : ColourOp} (h : fetchColour version r = .ok (c, t)) :
    c.fits version = true ∧ Consumed r (encodeColour c) t := by
  unfold fetchColour at h
  split at h
  · next hp =>
    split at h
    · next lo hi rest hbytes =>
      split at h
      · cases h
      · next hbit =>
        obtain ⟨rfl, rfl⟩ := Prod.mk.inj (Except.ok.inj h)
        rw [Consumed, encodeColour_rgb555 (by simpa using hbit)]
        exact ⟨by simpa [ColourOp.fits] using hp, hbytes, rfl⟩
    · cases h
  · next hp =>
    split at h
    · next i rest hbytes =>
      obtain ⟨rfl, rfl⟩ := Prod.mk.inj (Except.ok.inj h)
      exact ⟨by simpa [ColourOp.fits] using hp, hbytes, rfl⟩
    · cases h

theorem fetchColours_eq_ok {version : Byte} {n : Nat} {r t : Rest} {cs : List ColourOp}
    (h : fetchColours version n r = .ok (cs, t)) :
    cs.length = n ∧ cs.all (·.fits version) = true ∧ Consumed r (cs.flatMap encodeColour) t := by
  induction n generalizing r cs with
  | zero =>
    obtain ⟨rfl, rfl⟩ := Prod.mk.inj (Except.ok.inj h)
    exact ⟨rfl, rfl, rfl, rfl⟩
  | succ n ih =>
    obtain ⟨⟨c, u⟩, hc, h⟩ := bind_eq_ok h
    obtain ⟨⟨cs', v⟩, hcs, h⟩ := bind_eq_ok h
    obtain ⟨rfl, rfl⟩ := Prod.mk.inj (Except.ok.inj h)
    obtain ⟨hfits, hcon⟩ := fetchColour_eq_ok hc
    obtain ⟨hlen, hall, hcon'⟩ := ih hcs
    exact ⟨by rw [List.length_cons, hlen], by rw [List.all_cons, hfits, hall]; rfl, hcon.append hcon'⟩

/-! ## Accepted block codes -/

/-- A legal tag selects a table only where the mode has colour operands (43 R192 check 4). -/
theorem psel_of_tagError_eq_none {ctx : BlockCtx} {mode : Nat} {psel : Bool} (h : tagError ctx mode psel = none)
    (hm : modeHasColours mode = false) : psel = false := by
  cases psel with
  | false => rfl
  | true =>
    unfold tagError at h
    split at h
    · cases h
    · split at h
      · cases h
      · rw [if_pos ⟨rfl, .inr (by simp [hm])⟩] at h
        cases h

/-- A tag byte with bits 6:4 zero is made of its mode and `PSEL` (30 R96). -/
theorem tagByte_of_reserved {t : Byte} (h : t.extractLsb' 4 3 = 0) : tagByte (t.extractLsb' 0 4).toNat (t.getLsbD 7) = t := by
  revert t
  decide

/-- What a mode's operands accept is a well-formed code of that mode, encoded in its tag and the bytes they consumed. -/
theorem decodeOperands_eq_ok {ctx : BlockCtx} {mode : Nat} {psel : Bool} {r : Rest} {i : Instr} {n : Nat}
    (h : decodeOperands ctx mode psel r = .ok (i, n)) (ht : tagError ctx mode psel = none) :
    wellFormed ctx i = true ∧ languageOf ctx i = .block ctx ∧
      ∃ ops t, encode i = tagByte mode psel :: ops ∧ Consumed r ops t ∧ n = t.used := by
  have hisNone : (tagError ctx mode psel).isNone = true := Option.isNone_iff_eq_none.mpr ht
  unfold decodeOperands at h
  split at h
  case h_1 => -- FILL
    obtain ⟨⟨c, t⟩, hc, h⟩ := bind_eq_ok h
    obtain ⟨rfl, rfl⟩ := Prod.mk.inj (Except.ok.inj h)
    obtain ⟨hfits, hcon⟩ := fetchColour_eq_ok hc
    exact ⟨by simp [wellFormed, hisNone, hfits], rfl, _, t, rfl, hcon, rfl⟩
  case h_2 => -- NORMAL
    obtain ⟨⟨cs, t⟩, hcs, h⟩ := bind_eq_ok h
    obtain ⟨rfl, rfl⟩ := Prod.mk.inj (Except.ok.inj h)
    obtain ⟨hlen, hfits, hcon⟩ := fetchColours_eq_ok hcs
    exact ⟨by rw [wellFormed, hisNone, hlen, hfits]; simp, rfl, _, t, rfl, hcon, rfl⟩
  case h_3 => -- COPY
    obtain ⟨rfl, rfl⟩ := Prod.mk.inj (Except.ok.inj h)
    obtain rfl := psel_of_tagError_eq_none ht rfl
    exact ⟨hisNone, rfl, [], r, rfl, ⟨rfl, rfl⟩, rfl⟩
  case h_4 => -- ICOPY
    obtain ⟨⟨b, t⟩, hb, h⟩ := bind_eq_ok h
    obtain ⟨rfl, rfl⟩ := Prod.mk.inj (Except.ok.inj h)
    obtain rfl := psel_of_tagError_eq_none ht rfl
    obtain ⟨hlen, hcon⟩ := fetchBytes_eq_ok hb
    obtain ⟨lo, hi, rfl⟩ := List.length_eq_two.mp hlen
    exact ⟨hisNone, rfl, [lo, hi], t, congrArg (tagByte 4 false :: ·) (le16Bytes_le16 lo hi), hcon, rfl⟩
  case h_5 => -- MV
    obtain ⟨⟨b, t⟩, hb, h⟩ := bind_eq_ok h
    obtain ⟨rfl, rfl⟩ := Prod.mk.inj (Except.ok.inj h)
    obtain rfl := psel_of_tagError_eq_none ht rfl
    obtain ⟨hlen, hcon⟩ := fetchBytes_eq_ok hb
    obtain ⟨dx, dy, rfl⟩ := List.length_eq_two.mp hlen
    exact ⟨hisNone, rfl, [dx, dy], t, rfl, hcon, rfl⟩
  case h_6 => -- PMV
    obtain ⟨⟨b, t⟩, hb, h⟩ := bind_eq_ok h
    obtain ⟨rfl, rfl⟩ := Prod.mk.inj (Except.ok.inj h)
    obtain rfl := psel_of_tagError_eq_none ht rfl
    obtain ⟨hlen, hcon⟩ := fetchBytes_eq_ok hb
    obtain ⟨v, rfl⟩ := List.length_eq_one_iff.mp hlen
    exact ⟨hisNone, rfl, [v], t, congrArg (fun w => [tagByte 6 false, w]) BitVec.extractLsb'_append_extractLsb', hcon, rfl⟩
  case h_7 => -- VQ2
    obtain ⟨⟨c0, u⟩, h0, h⟩ := bind_eq_ok h
    obtain ⟨⟨c1, v⟩, h1, h⟩ := bind_eq_ok h
    obtain ⟨⟨idx, t⟩, hidx, h⟩ := bind_eq_ok h
    obtain ⟨rfl, rfl⟩ := Prod.mk.inj (Except.ok.inj h)
    obtain ⟨hfits0, hcon0⟩ := fetchColour_eq_ok h0
    obtain ⟨hfits1, hcon1⟩ := fetchColour_eq_ok h1
    obtain ⟨hlen, hcon⟩ := fetchBytes_eq_ok hidx
    exact ⟨by simp [wellFormed, hisNone, hfits0, hfits1, hlen], rfl, _, t, rfl, (hcon0.append hcon1).append hcon, rfl⟩
  case h_8 => -- VQ4
    obtain ⟨⟨c0, u⟩, h0, h⟩ := bind_eq_ok h
    obtain ⟨⟨c1, v⟩, h1, h⟩ := bind_eq_ok h
    obtain ⟨⟨c2, w⟩, h2, h⟩ := bind_eq_ok h
    obtain ⟨⟨c3, x⟩, h3, h⟩ := bind_eq_ok h
    obtain ⟨⟨idx, t⟩, hidx, h⟩ := bind_eq_ok h
    obtain ⟨rfl, rfl⟩ := Prod.mk.inj (Except.ok.inj h)
    obtain ⟨hfits0, hcon0⟩ := fetchColour_eq_ok h0
    obtain ⟨hfits1, hcon1⟩ := fetchColour_eq_ok h1
    obtain ⟨hfits2, hcon2⟩ := fetchColour_eq_ok h2
    obtain ⟨hfits3, hcon3⟩ := fetchColour_eq_ok h3
    obtain ⟨hlen, hcon⟩ := fetchBytes_eq_ok hidx
    exact ⟨by simp [wellFormed, hisNone, hfits0, hfits1, hfits2, hfits3, hlen], rfl, _, t, rfl,
      (((hcon0.append hcon1).append hcon2).append hcon3).append hcon, rfl⟩
  case h_9 => -- SKIP
    obtain ⟨rfl, rfl⟩ := Prod.mk.inj (Except.ok.inj h)
    obtain rfl := psel_of_tagError_eq_none ht rfl
    exact ⟨hisNone, rfl, [], r, rfl, ⟨rfl, rfl⟩, rfl⟩
  case h_10 => cases h -- every other mode is reserved

/-- Settles O53: past the tag's checks the operands consume exactly the bytes that encode them. -/
theorem decodedBlocksAreWellFormed : Obligations.DecodedBlocksAreWellFormed := by
  intro ctx bytes i n h
  cases bytes with
  | nil => cases h
  | cons b rest =>
    simp only [decode, decodeBlock] at h
    split at h
    · cases h
    · next hreserved =>
      split at h
      · cases h
      · next ht =>
        obtain ⟨hwf, hl, ops, t, henc, ⟨hbytes, hused⟩, rfl⟩ := decodeOperands_eq_ok h ht
        rw [tagByte_of_reserved (not_not.mp hreserved)] at henc
        have hlen : t.used = (encode i).length := by rw [hused, henc, List.length_cons]; exact Nat.add_comm 1 _
        refine ⟨hwf, hl, ?_, hlen⟩
        rw [hlen, henc, show rest = ops ++ t.bytes from hbytes, ← List.cons_append, List.take_left]

end Sys2Proof
end

section
/-! What the block codes that carry colours write (43 R193 to R196, R201, R202): the block's pixels, each once, and nothing
else. -/

namespace Sys2Proof.Machine

/-! ## The pixels of a block -/

/-- A block left to decode lies in the frame's columns. -/
theorem blockX_add_width_le {h : HdrFields} {k : Nat} (hk : k < blockCount h) :
    blockX h k + blockWidth h.version ≤ h.width.toNat := by
  have hrow : 0 < blocksPerRow h := Nat.pos_of_mul_pos_right (Nat.zero_lt_of_lt hk)
  calc blockX h k + blockWidth h.version = (k % blocksPerRow h + 1) * blockWidth h.version := (Nat.succ_mul _ _).symm
    _ ≤ blocksPerRow h * blockWidth h.version := Nat.mul_le_mul_right _ (Nat.mod_lt k hrow)
    _ ≤ h.width.toNat := Nat.div_mul_le_self _ _

/-- Two pixels of a block that lies in the frame's columns have two addresses. -/
theorem blockPixelAddr_injective {h : HdrFields} {ox : Nat} (oy : Nat) (hox : ox + blockWidth h.version ≤ h.width.toNat)
    {n m : Nat} (heq : blockPixelAddr h ox oy n = blockPixelAddr h ox oy m) : n = m := by
  have hw := (block_positive h.version).1
  have hn := Nat.mod_lt n hw
  have hm := Nat.mod_lt m hw
  have hcol : ox + n % blockWidth h.version = ox + m % blockWidth h.version := by
    have hmod := congrArg (· % h.width.toNat) heq
    simp only [blockPixelAddr, pixelAddr, Nat.mul_add_mod'] at hmod
    rwa [Nat.mod_eq_of_lt (hox.trans_lt' (by omega)), Nat.mod_eq_of_lt (hox.trans_lt' (by omega))] at hmod
  have hrow : n / blockWidth h.version = m / blockWidth h.version := by
    simp only [blockPixelAddr, pixelAddr, hcol, Nat.add_right_cancel_iff] at heq
    have := Nat.eq_of_mul_eq_mul_right (by omega) heq
    omega
  rw [← Nat.div_add_mod n (blockWidth h.version), ← Nat.div_add_mod m (blockWidth h.version), hrow]
  omega

/-- Each pixel written is read back: no later pixel of the block has its address. -/
theorem read_writePixels_same {h : HdrFields} {ox : Nat} (oy : Nat) (hox : ox + blockWidth h.version ≤ h.width.toNat)
    (cs : List Colour) (n i : Nat) (hi : i < cs.length) (m : Memory Colour) :
    Memory.read (writePixels h ox oy n cs m) (blockPixelAddr h ox oy (n + i)) = cs[i]? := by
  induction cs generalizing n i m with
  | nil => exact absurd hi (Nat.not_lt_zero i)
  | cons c cs ih =>
    cases i with
    | zero =>
      rw [writePixels, read_writePixels_other]
      · exact Memory.read_write_same _ _ _
      · intro j _ heq
        have := blockPixelAddr_injective oy hox heq
        omega
    | succ i =>
      rw [writePixels, show n + (i + 1) = n + 1 + i by omega]
      exact ih (n + 1) i (Nat.lt_of_succ_lt_succ hi) _

/-! ## A code that writes its block -/

/-- Putting a block's pixels, one colour each, is what `blockWritten` says (43 R194). -/
theorem blockWritten_putBlock {s : State} {r : FrameRun} (h : fetchesBlock s r) (len : Nat) {cs : List Colour}
    {px : Nat → Colour} (hlen : cs.length = blockPixels s.hdr.version)
    (hpx : ∀ n < blockPixels s.hdr.version, cs[n]? = some (px n)) :
    blockWritten s (withSequencer (putBlock s len cs (sequencerOf s)) s) len s.pred px := by
  refine ⟨rfl, fun n hn => ?_, fun a ha => ?_⟩
  · have hread := read_writePixels_same (blockY s.hdr s.blk.toNat) (blockX_add_width_le h.2) cs 0 n (hlen ▸ hn) s.cur
    rw [Nat.zero_add, hpx n hn] at hread
    exact hread
  · refine read_writePixels_other _ _ _ _ _ _ _ fun n hn => ?_
    rw [Nat.zero_add]
    exact ha n (hlen ▸ hn)

/-- A code with a legal tag that puts its block runs to the state `blockWritten` says, past the bytes of its encoding. -/
theorem exec_putBlock {s : State} {r : FrameRun} (h : fetchesBlock s r) {i : Instr} {mode : Nat} {psel : Bool} {len : Nat}
    {cs : List Colour} {px : Nat → Colour} (hexec : exec i s = runBlock s mode psel (applyBlock s i))
    (ht : tagError (blockCtx s r.ftype) mode psel = none)
    (happly : applyBlock s i (sequencerOf s) = .ok (putBlock s len cs (sequencerOf s)))
    (hlen : cs.length = blockPixels s.hdr.version) (hpx : ∀ n < blockPixels s.hdr.version, cs[n]? = some (px n)) :
    ∃ t, exec i s = .next t ∧ blockWritten s t (encode i).length s.pred px := by
  obtain ⟨-, hbytes, -⟩ := applyBlock_ok happly
  obtain rfl : len = (encode i).length := Nat.add_left_cancel hbytes
  refine ⟨_, ?_, blockWritten_putBlock h _ hlen hpx⟩
  obtain ⟨hact, hblk⟩ := h
  simp [hexec, runBlock, hact, hblk, ht, happly]

/-! ## Colour operands -/

theorem from5_extractLsb'_toNat (v : BitVec 15) (start : Nat) :
    (from5 (v.extractLsb' start 5)).toNat = v.toNat / 2 ^ start % 32 * 8 := by
  rw [from5, append_toNat, BitVec.extractLsb'_toNat, Nat.shiftRight_eq_div_pow]
  rfl

/-- The model's colour of an operand is the one R98 and R193 name. -/
theorem decodesTo_operandColour (s : State) (psel : Bool) (c : ColourOp) : decodesTo s psel c (operandColour s psel c) := by
  cases c with
  | rgb555 v =>
    refine ⟨from5_extractLsb'_toNat v 10, from5_extractLsb'_toNat v 5, ?_⟩
    exact (from5_extractLsb'_toNat v 0).trans (by rw [Nat.pow_zero, Nat.div_one])
  | index i => exact ⟨by rintro rfl; rfl, by rintro rfl; rfl⟩

/-! ## FILL and NORMAL -/

/-- Settles O19: `FILL` puts its operand's colour once for every pixel, `NORMAL` its operands' colours in order. -/
theorem fillAndNormalWrite : Obligations.FillAndNormalWrite := by
  intro s r psel h
  refine ⟨fun c hwf => ?_, fun cs hwf => ?_⟩
  · simp only [wellFormed, Bool.and_eq_true, Option.isNone_iff_eq_none] at hwf
    obtain ⟨ht, -⟩ := hwf
    obtain ⟨t, hexec, hwritten⟩ := exec_putBlock (i := .fill psel c) h rfl ht rfl List.length_replicate
      fun n hn => List.getElem?_replicate_of_lt hn
    exact ⟨t, _, hexec, decodesTo_operandColour s psel c, hwritten⟩
  · simp only [wellFormed, Bool.and_eq_true, Option.isNone_iff_eq_none, beq_iff_eq] at hwf
    obtain ⟨⟨ht, hlen⟩, -⟩ := hwf
    have hop : ∀ n < blockPixels s.hdr.version, cs[n]? = some (cs.getD n (.index 0)) := fun n hn => by
      rw [List.getD_eq_getElem?_getD, List.getElem?_eq_getElem (by rw [hlen]; exact hn), Option.getD_some]
    obtain ⟨t, hexec, hwritten⟩ := exec_putBlock (i := .normal psel cs) h rfl ht rfl (by rw [List.length_map, hlen]; rfl)
      (px := fun n => operandColour s psel (cs.getD n (.index 0))) fun n hn => by rw [List.getElem?_map, hop n hn]; rfl
    exact ⟨t, _, hexec, fun n hn => ⟨_, hop n hn, decodesTo_operandColour s psel _⟩, hwritten⟩

/-! ## VQ2 and VQ4 -/

/-- Bit `k` from the top of a byte, as the model reads it. -/
theorem getMsbD_toNat (b : Byte) {k : Nat} (hk : k < 8) : (b.getMsbD k).toNat = (b.toNat >>> (7 - k)) % 2 := by
  rw [BitVec.getMsbD_eq_getLsbD, decide_eq_true hk, Bool.true_and, BitVec.getLsbD, Nat.toNat_testBit, Nat.shiftRight_eq_div_pow,
    show 8 - 1 - k = 7 - k by omega]

theorem vq2Index_eq (idx : List Byte) (n : Nat) : vq2Index idx n = ((idx.getD (n / 8) 0).getMsbD (n % 8)).toNat :=
  (getMsbD_toNat _ (Nat.mod_lt n (by decide))).symm

theorem vq4Index_eq (idx : List Byte) (n : Nat) :
    vq4Index idx n = 2 * ((idx.getD (n / 4) 0).getMsbD (2 * (n % 4))).toNat +
      ((idx.getD (n / 4) 0).getMsbD (2 * (n % 4) + 1)).toNat := by
  have hn := Nat.mod_lt n (show 0 < 4 by decide)
  have hhigh : ∀ x : Nat, x >>> (7 - 2 * (n % 4)) = x >>> (6 - 2 * (n % 4)) / 2 := fun x => by
    rw [show 7 - 2 * (n % 4) = 6 - 2 * (n % 4) + 1 by omega, Nat.shiftRight_succ]
  rw [vq4Index, getMsbD_toNat _ (by omega), getMsbD_toNat _ (by omega), hhigh,
    show 7 - (2 * (n % 4) + 1) = 6 - 2 * (n % 4) by omega]
  omega

/-- Settles O23: the model's index of a pixel is the number R101's bits make, so the operand it takes is the one they select. -/
theorem vqWritesSelectedColours : Obligations.VqWritesSelectedColours := by
  intro s r psel idx h
  have hmap (f : Nat → Colour) : ∀ n < blockPixels s.hdr.version,
      ((List.range (blockPixels s.hdr.version)).map f)[n]? = some (f n) := fun n hn => by
    rw [List.getElem?_map, List.getElem?_range hn]; rfl
  refine ⟨fun c0 c1 hwf => ?_, fun c0 c1 c2 c3 hwf => ?_⟩
  · simp only [wellFormed, Bool.and_eq_true, Option.isNone_iff_eq_none] at hwf
    obtain ⟨⟨⟨ht, -⟩, -⟩, -⟩ := hwf
    obtain ⟨t, hexec, hwritten⟩ := exec_putBlock (i := .vq2 psel c0 c1 idx) h rfl ht rfl (by simp) (hmap _)
    refine ⟨t, _, hexec, fun n _ => ?_, hwritten⟩
    rw [vq2Index_eq]
    cases (idx.getD (n / 8) 0).getMsbD (n % 8) <;> exact decodesTo_operandColour s psel _
  · simp only [wellFormed, Bool.and_eq_true, Option.isNone_iff_eq_none] at hwf
    obtain ⟨⟨⟨⟨⟨ht, -⟩, -⟩, -⟩, -⟩, -⟩ := hwf
    obtain ⟨t, hexec, hwritten⟩ := exec_putBlock (i := .vq4 psel c0 c1 c2 c3 idx) h rfl ht rfl (by simp) (hmap _)
    refine ⟨t, _, hexec, fun n _ => ?_, hwritten⟩
    rw [vq4Index_eq]
    cases (idx.getD (n / 4) 0).getMsbD (2 * (n % 4)) <;>
      cases (idx.getD (n / 4) 0).getMsbD (2 * (n % 4) + 1) <;> exact decodesTo_operandColour s psel _

end Sys2Proof.Machine
end

section
/-! Where a step fetches: in each of the four languages the instruction that stands there runs (30_encoding R90; logs 1
and 3). -/

namespace Sys2Proof.Machine

/-! ## Records in the stream -/

theorem bytesAt_append (s : State) (sp : Space) (m : ByteMemory) (a j k : Nat) :
    bytesAt s sp m a (j + k) = bytesAt s sp m a j ++ bytesAt s sp m (a + j) k := by
  simp [bytesAt, List.range_add, Function.comp_def, Nat.add_assoc]

/-- A stream that holds two pieces one after another holds each where it stands. -/
theorem streamHolds_append {s : State} {a : Nat} {x y : List Byte} (h : streamHolds s a (x ++ y)) :
    streamHolds s a x ∧ streamHolds s (a + x.length) y := by
  obtain ⟨hlen, hbytes⟩ := h
  rw [List.length_append] at hlen hbytes
  rw [bytesAt_append] at hbytes
  obtain ⟨hx, hy⟩ := List.append_inj hbytes (bytesAt_length _ _ _ _ _)
  exact ⟨⟨by omega, hx⟩, by omega, hy⟩

/-- Without a failure scripted, a read of a piece the stream holds delivers it. -/
theorem memRead_of_streamHolds {s : State} (hio : s.io = []) {a n : Nat} {bytes : List Byte} (h : streamHolds s a bytes)
    (hn : bytes.length = n) : memRead a n s = .done bytes s := by
  subst hn
  rw [memRead_nil a _ hio, h.2]

/-- The kind of a record is told by the magic that stands at it (45 R248). -/
theorem recordAt_of_streamHolds {s : State} (hio : s.io = []) {a : Nat} {magic : List Byte} (h : streamHolds s a magic)
    (hlen : magic.length = 4) : recordAt a s = .done (magicKind magic) s := by
  have hend : a + 4 ≤ streamLen s := hlen ▸ h.1
  rw [recordAt, if_neg (by omega), if_neg (by omega), memRead_of_streamHolds hio h hlen]
  rfl

theorem decodeAgfc_encode (f : AgfcFields) : decodeAgfc (encode (.agfc f)) = some f := by
  have hdecode : decode .chunk (encode (.agfc f)) = _ := decode_encode ⟨0, .intra⟩ (.agfc f) rfl
  rw [decodeAgfc, hdecode]

theorem decodeAgac_encode (f : AgacFields) : decodeAgac (encode (.agac f)) = some f := by
  have hdecode : decode .chunk (encode (.agac f)) = _ := decode_encode ⟨0, .intra⟩ (.agac f) rfl
  rw [decodeAgac, hdecode]

/-- A frame chunk's header in the stream: its kind, and its fields. -/
theorem frameChunk_fetched {s : State} (hio : s.io = []) {a : Nat} {f : AgfcFields} (h : streamHolds s a (encode (.agfc f))) :
    recordAt a s = .done .frame s ∧ frameHeader a s = .done (some f) s := by
  obtain ⟨hmagic, hrest⟩ : streamHolds s a magicAgfc ∧ streamHolds s (a + 4) ((encode (.agfc f)).drop 4) :=
    streamHolds_append h
  have hend : a + 18 ≤ streamLen s := h.1
  refine ⟨recordAt_of_streamHolds hio hmagic rfl, ?_⟩
  rw [frameHeader, if_neg (by omega), memRead_of_streamHolds (n := 14) hio hrest rfl]
  exact congrArg (Run.done · s) (decodeAgfc_encode f)

/-- An audio chunk's header in the stream: its kind, and its fields. -/
theorem audioChunk_fetched {s : State} (hio : s.io = []) {a : Nat} {f : AgacFields} (h : streamHolds s a (encode (.agac f))) :
    recordAt a s = .done .audio s ∧ audioHeader a s = .done (some f) s := by
  obtain ⟨hmagic, hrest⟩ : streamHolds s a magicAgac ∧ streamHolds s (a + 4) ((encode (.agac f)).drop 4) :=
    streamHolds_append h
  have hend : a + 12 ≤ streamLen s := h.1
  refine ⟨recordAt_of_streamHolds hio hmagic rfl, ?_⟩
  rw [audioHeader, if_neg (by omega), memRead_of_streamHolds (n := 8) hio hrest rfl]
  exact congrArg (Run.done · s) (decodeAgac_encode f)

/-- The header record in the stream is fetched as it stands (45 R244 checks 1 to 3). -/
theorem fetchHeader_of_streamHolds {s : State} (hio : s.io = []) (hsrc : s.plat.srcPresent = true) {f : HdrFields}
    (h : streamHolds s 0 (encode (.hdr f))) : fetchHeader s = .done (.hdr f) s := by
  obtain ⟨hmagic, hrest⟩ : streamHolds s 0 magicAgmv ∧ streamHolds s 4 ((encode (.hdr f)).drop 4) := streamHolds_append h
  have hend : 0 + 38 ≤ streamLen s := h.1
  have hbytes : headerBytes s = .done (encode (.hdr f)) s := by
    rw [headerBytes, if_neg (by simp [hsrc]), if_neg (by omega), memRead_of_streamHolds (n := 4) hio hmagic rfl, Run.bind_done,
      if_neg (not_not.mpr rfl), if_neg (by omega), memRead_of_streamHolds (n := 34) hio hrest rfl]
    rfl
  have hdecode : decode .header (encode (.hdr f)) = _ := decode_encode ⟨0, .intra⟩ (.hdr f) rfl
  rw [fetchHeader, hbytes, Run.bind_done, hdecode]

/-! ## One step in each language -/

theorem step_command {s : State} {v : Word} {rest : List HostAccess} {i : Instr} {n : Nat} (hact : s.act = .idle)
    (hhost : s.host = .write 0 v :: rest) (h : decode .command [v.setWidth 8] = .ok (i, n)) :
    step s = exec i { s with host := rest } := by
  simp only [step, hact, idleStep, hhost, hostStep, if_true, issueCommand, h]

theorem step_block {s : State} {r : FrameRun} {i : Instr} {n : Nat} (hfetch : fetchesBlock s r)
    (h : decode (.block (blockCtx s r.ftype)) (codeBytes s r.len (sequencerOf s)) = .ok (i, n)) : step s = exec i s := by
  obtain ⟨hact, hblk⟩ := hfetch
  simp only [step, hact, frameRunStep, if_pos hblk, h]

theorem lzUnitStep_of_decode {run : Instr → State → Host.Outcome State Fault Refusal} {r : LzRun} {s : State}
    {i : Instr} {n : Nat}
    (h : decode (.unit (r.flags.getLsbD (7 - r.k))) (bytesAt s .cb s.cb r.ipos (min 2 (s.cblen.toNat - r.ipos))) = .ok (i, n)) :
    lzUnitStep run r s = run i s := by
  rw [lzUnitStep, h]

theorem step_unit {s : State} {r : LzRun} {i : Instr} {n : Nat} (hact : s.act = .lzss r) (hopos : r.opos < r.n) (hk : r.k < 8)
    (h : decode (.unit (r.flags.getLsbD (7 - r.k))) (bytesAt s .cb s.cb r.ipos (min 2 (s.cblen.toNat - r.ipos))) = .ok (i, n)) :
    step s = exec i s := by
  simp only [step, hact, lzRunStep, if_pos hopos, if_pos hk, lzUnitStep_of_decode h]

/-- Where a flag byte is due the step fetches it first, and then the unit under its first bit (44 R227). -/
theorem step_group {s : State} {r : LzRun} {i : Instr} {n : Nat} (hact : s.act = .lzss r) (hopos : r.opos < r.n)
    (hk : 8 ≤ r.k) (hipos : r.ipos < s.cblen.toNat)
    (h : decode (.unit ((byteAt s .cb s.cb r.ipos).getLsbD 7))
      (bytesAt s .cb s.cb (r.ipos + 1) (min 2 (s.cblen.toNat - (r.ipos + 1)))) = .ok (i, n)) :
    step s = exec i { s with act := .lzss { r with ipos := r.ipos + 1, flags := byteAt s .cb s.cb r.ipos, k := 0 } } := by
  simp only [step, hact, lzRunStep, if_pos hopos, if_neg (Nat.not_lt.mpr hk), if_pos hipos]
  exact lzUnitStep_of_decode h

theorem step_header {s : State} {f : HdrFields} (hact : s.act = .container .header) (hio : s.io = [])
    (hsrc : s.plat.srcPresent = true) (h : streamHolds s 0 (encode (.hdr f))) : step s = exec (.hdr f) s := by
  simp only [step, hact, recordRunStep, fetchHeader_of_streamHolds hio hsrc h, runFetched]

theorem step_frameChunk {s : State} {a : Nat} {f : AgfcFields} (hact : s.act = .container (.frame a)) (hio : s.io = [])
    (h : streamHolds s a (encode (.agfc f))) : step s = exec (.agfc f) s := by
  obtain ⟨hkind, hheader⟩ := frameChunk_fetched hio h
  simp only [step, hact, recordRunStep, fetchChunk, hkind, hheader, Run.bind_done, runFetched]

theorem step_audioChunk {s : State} {a : Nat} {f : AgacFields} (hact : s.act = .container (.frame a)) (hio : s.io = [])
    (h : streamHolds s a (encode (.agac f))) : step s = exec (.agac f) s := by
  obtain ⟨hkind, hheader⟩ := audioChunk_fetched hio h
  simp only [step, hact, recordRunStep, fetchChunk, hkind, hheader, Run.bind_done, runFetched]

/-- `NEXT_AUDIO` has cleared `AVALID` when its chunk runs (46 R282). -/
theorem step_audio {s : State} {f : AgacFields} (hact : s.act = .container .audio) (hio : s.io = [])
    (h : streamHolds s (streamPos s) (encode (.agac f))) : step s = exec (.agac f) (clearAvalid s) := by
  obtain ⟨hkind, hheader⟩ := audioChunk_fetched (s := clearAvalid s) hio h
  simp only [step, hact, recordRunStep, hkind, hheader]

/-- Settles O55: clause by clause, the fetch point of each language. -/
theorem stepRunsDecoded : Obligations.StepRunsDecoded :=
  ⟨fun _ _ _ _ _ => step_command, fun _ _ _ _ => step_block, fun _ _ _ _ => step_unit, fun _ _ _ _ => step_group,
    fun _ _ => step_header, fun _ _ _ => step_frameChunk, fun _ _ _ => step_audioChunk, fun _ _ => step_audio⟩

end Sys2Proof.Machine
end

section
/-! NEAREST, HIST_CLEAR and HIST_ACCUM (40 R121, R123, R124): the least distance and its lowest index, and the counts of the
colours of `SRC`. -/

namespace Sys2Proof.Machine

/-! ## The nearest colour -/

theorem absDiff_lt (a b : Byte) : absDiff a b < 2 ^ 8 := by
  have := a.isLt
  have := b.isLt
  unfold absDiff
  split <;> omega

/-- A distance fits its result register. -/
theorem dist1_lt (p q : Colour) : dist1 p q < 2 ^ 32 := by
  have := absDiff_lt p.r q.r
  have := absDiff_lt p.g q.g
  have := absDiff_lt p.b q.b
  unfold dist1
  omega

/-- The loop over entries 1 to 255, begun at entry 0, sees the whole table. -/
theorem nearest_spec (table : Nat → Colour) (p : Colour) :
    (nearest table p).2 = dist1 (table (nearest table p).1) p ∧ (nearest table p).1 < 256 ∧
    (∀ j < 256, (nearest table p).2 ≤ dist1 (table j) p) ∧
    ∀ j < (nearest table p).1, (nearest table p).2 < dist1 (table j) p := by
  refine nearestFrom_spec table p 255 1 _ rfl Nat.one_pos (fun j hj => ?_) fun j hj => absurd hj (Nat.not_lt_zero j)
  obtain rfl : j = 0 := by omega
  exact Nat.le_refl _

/-- The admission table's row (46 R271) is the sessions the command checks for. -/
theorem admits_nearest (x : Session) : admits .nearest x = admitUnit x := by cases x <;> rfl

/-- Of the two table numbers, the argument names the second exactly when it is 1. -/
theorem nearestOp_eq_done {s : State} (harg : s.arg.x1 = 0 ∨ s.arg.x1 = 1) :
    nearestOp s =
      .done () (setRes1 (nearest (paletteAt s (s.arg.x1 == 1)) (colourOfWord s.arg.x0)).2
        (setRes0 (nearest (paletteAt s (s.arg.x1 == 1)) (colourOfWord s.arg.x0)).1 s)) := by
  rcases harg with h | h <;> simp [nearestOp, argNat, h]

/-- Settles O13: the loop keeps the lowest index of the least distance seen, and index and distance fit their registers. -/
theorem nearestIsLowestMinimum : Obligations.NearestIsLowestMinimum := by
  intro s hadmit harg table p
  obtain ⟨hdist, hindex, hmin, hlow⟩ := nearest_spec table p
  rw [hdist] at hmin hlow
  refine ⟨(nearest table p).1, hindex, ?_, hmin, hlow⟩
  have hrun : exec .nearest s = .next (finish .plain s (nearestOp s)) :=
    runCommand_admitted ((admits_nearest s.session).symm.trans hadmit)
  rw [hrun, nearestOp_eq_done harg, finish_done, setRes1, setRes0, saturate_of_lt (hindex.trans (by decide)), hdist,
    saturate_of_lt (dist1_lt _ _)]

/-! ## Clearing and counting -/

theorem admits_histClear (x : Session) : admits .histClear x = admitSetup x := by cases x <;> rfl

theorem admits_histAccum (x : Session) : admits .histAccum x = admitSetup x := by cases x <;> rfl

theorem exec_histClear {s : State} (h : admits .histClear s.session = true) :
    exec .histClear s = .next (complete { s with hist := Hist.empty }) := by
  rw [admits_histClear] at h
  change execHistClear s = _
  rw [execHistClear, runCommand_admitted h, finish_done]

/-- The number of distinct colours is a register's own, so that it is the result as it stands. -/
theorem exec_histAccum {s : State} (h : admits .histAccum s.session = true) :
    exec .histAccum s =
      .next (complete { s with hist := histAccum s, res := { s.res with x0 := (histAccum s).distinct } }) := by
  rw [admits_histAccum] at h
  change execHistAccum s = _
  rw [execHistAccum, runCommand_admitted h, finish_done, setRes0, saturate_ofToNat]

theorem histCount_lt (counts : Memory Word) (c : Nat) : histCount counts c < 2 ^ 32 := by
  unfold histCount
  split
  · exact BitVec.isLt _
  · decide

theorem histCount_write (counts : Memory Word) (c d : Nat) (n : Word) :
    histCount (Memory.write counts c n) d = if d = c then n.toNat else histCount counts d := by
  simp only [histCount, Memory.read_write]
  by_cases h : d = c
  · rw [if_pos h, if_pos h]
  · rw [if_neg h, if_neg h]

/-- One pixel adds one to its colour's counter, which saturates, and leaves every other (40 R123, 47 R301). -/
theorem histCount_histPixel (h : Hist) (c d : Nat) :
    histCount (histPixel h c).counts d = min 0xFFFFFFFF (histCount h.counts d + if c = d then 1 else 0) := by
  have hlt := histCount_lt h.counts d
  by_cases hsat : histCount h.counts c < 0xFFFFFFFF
  · have hcounts : (histPixel h c).counts = Memory.write h.counts c (BitVec.ofNat 32 (histCount h.counts c + 1)) :=
      if_pos hsat
    rw [hcounts, histCount_write, BitVec.toNat_ofNat]
    by_cases hcd : c = d
    · subst hcd; rw [if_pos rfl, if_pos rfl]; omega
    · rw [if_neg (Ne.symm hcd), if_neg hcd]; omega
  · have hcounts : (histPixel h c).counts = h.counts := if_neg hsat
    rw [hcounts]
    split
    · rename_i hcd; subst hcd; omega
    · omega

/-- The counters after a list of pixels. -/
theorem histCount_foldl (cs : List Colour) (h : Hist) (d : Nat) :
    histCount (cs.foldl (fun h c => histPixel h (colourKey c)) h).counts d =
      min 0xFFFFFFFF (histCount h.counts d + cs.countP fun p => colourKey p == d) := by
  induction cs generalizing h with
  | nil =>
    have := histCount_lt h.counts d
    simp only [List.foldl_nil, List.countP_nil]
    omega
  | cons c cs ih =>
    simp only [List.foldl_cons, ih, histCount_histPixel, List.countP_cons, beq_iff_eq]
    omega

/-- The total after a list of pixels. -/
theorem histTotal_foldl (cs : List Colour) (h : Hist) :
    (cs.foldl (fun h c => histPixel h (colourKey c)) h).total.toNat = min (2 ^ 64 - 1) (h.total.toNat + cs.length) := by
  induction cs generalizing h with
  | nil =>
    have := h.total.isLt
    simp only [List.foldl_nil, List.length_nil]
    omega
  | cons c cs ih =>
    simp only [List.foldl_cons, ih, histPixel_total_toNat, List.length_cons]
    omega

/-- Settles O15: by induction on the pixels, each of which adds one to its colour's counter and to the total. -/
theorem histAccumCounts : Obligations.HistAccumCounts := by
  intro s hadmit hcoherent
  have hpixels : (sourcePixels s).length = framePixels s.hdr := by simp [sourcePixels]
  refine ⟨_, exec_histAccum hadmit, rfl, fun c => histCount_foldl _ _ c, ?_, histAccum_coherent hcoherent⟩
  exact hpixels ▸ histTotal_foldl (sourcePixels s) s.hist

/-- Settles O14: an admitted command only puts the empty histogram in place. -/
theorem histClearClears : Obligations.HistClearClears := fun _ hadmit =>
  ⟨_, exec_histClear hadmit, rfl, fun _ => rfl, rfl, rfl⟩

end Sys2Proof.Machine
end

section
/-! SELECT_PALETTE (40 R126): the order of the colours, the greedy selection and its padding. -/

namespace Sys2Proof.Machine

/-! ## The order of the colours -/

/-- `x` stands before `y` in the list `L` of R126: more frequent, or as frequent and the lower colour. -/
def RankedBefore (x y : Nat × Word) : Prop := y.2.toNat < x.2.toNat ∨ (y.2 = x.2 ∧ x.1 < y.1)

theorem insertByCount_perm (x : Nat × Word) (l : List (Nat × Word)) : (insertByCount x l).Perm (x :: l) := by
  induction l with
  | nil => exact .refl _
  | cons y ys ih =>
    unfold insertByCount
    split
    · exact .refl _
    · exact (ih.cons y).trans (.swap x y ys)

theorem sortedByCount_perm (counts : Memory Word) : (sortedByCount counts).Perm counts := by
  induction counts with
  | nil => exact .refl _
  | cons x counts ih => exact (insertByCount_perm x _).trans (ih.cons x)

/-- A colour lower than all the others takes its place before those of no greater count. -/
theorem insertByCount_ranked {x : Nat × Word} {l : List (Nat × Word)} (hx : ∀ y ∈ l, x.1 < y.1)
    (hl : l.Pairwise RankedBefore) : (insertByCount x l).Pairwise RankedBefore := by
  induction l with
  | nil => exact List.pairwise_singleton _ _
  | cons y ys ih =>
    obtain ⟨hy, hys⟩ := List.pairwise_cons.mp hl
    unfold insertByCount
    split
    · rename_i hle
      refine List.pairwise_cons.mpr ⟨fun z hz => ?_, hl⟩
      have hzy : z.2.toNat ≤ y.2.toNat := by
        rcases List.mem_cons.mp hz with rfl | hz
        · exact Nat.le_refl _
        · rcases hy z hz with hlt | ⟨heq, -⟩
          · exact hlt.le
          · rw [heq]
      rcases (hzy.trans hle).lt_or_eq with hlt | heq
      · exact .inl hlt
      · exact .inr ⟨BitVec.eq_of_toNat_eq heq, hx z hz⟩
    · rename_i hgt
      refine List.pairwise_cons.mpr ⟨fun z hz => ?_, ih (fun z hz => hx z (List.mem_cons_of_mem y hz)) hys⟩
      rcases List.mem_cons.mp ((insertByCount_perm x ys).mem_iff.mp hz) with rfl | hz
      · exact .inl (Nat.lt_of_not_le hgt)
      · exact hy z hz

/-- The histogram lists its colours ascending, so that inserting them from the last to the first ranks them. -/
theorem sortedByCount_ranked {counts : Memory Word} (h : Memory.wf counts = true) :
    (sortedByCount counts).Pairwise RankedBefore := by
  induction counts with
  | nil => exact List.Pairwise.nil
  | cons x counts ih =>
    obtain ⟨hlt, hwf⟩ := (Memory.wf_cons x.1 x.2 counts).mp h
    exact insertByCount_ranked (fun y hy => hlt y ((sortedByCount_perm counts).mem_iff.mp hy)) (ih hwf)

/-! ## The selection -/

/-- The pixels that the first `j` colours of a list count. -/
def coveredCount (l : List (Nat × Word)) (j : Nat) : Nat := ((l.take j).map fun e => e.2.toNat).sum

@[simp] theorem coveredCount_zero (l : List (Nat × Word)) : coveredCount l 0 = 0 := by simp [coveredCount]

@[simp] theorem coveredCount_cons_succ (x : Nat × Word) (l : List (Nat × Word)) (j : Nat) :
    coveredCount (x :: l) (j + 1) = x.2.toNat + coveredCount l j := by simp [coveredCount]

/-- `k` colours of `l` are a greedy selection: within the room, stopped by the room, the end of the list or the threshold, and
by the threshold no earlier. `cov` pixels were covered before. -/
structure GreedyStart (threshold room cov : Nat) (l : List (Nat × Word)) (k : Nat) : Prop where
  le_room : k ≤ room
  le_length : k ≤ l.length
  stopped : k = room ∨ k = l.length ∨ (0 < k ∧ threshold ≤ (cov + coveredCount l k) * 256)
  unmet : ∀ j, 0 < j → j < k → ¬ threshold ≤ (cov + coveredCount l j) * 256

/-- A colour that does not meet the threshold is followed by the greedy selection of the rest. -/
theorem GreedyStart.cons {threshold room cov k : Nat} {x : Nat × Word} {l : List (Nat × Word)}
    (h : GreedyStart threshold room (cov + x.2.toNat) l k) (hx : ¬ threshold ≤ (cov + x.2.toNat) * 256) :
    GreedyStart threshold (room + 1) cov (x :: l) (k + 1) where
  le_room := Nat.succ_le_succ h.le_room
  le_length := Nat.succ_le_succ h.le_length
  stopped := by
    rcases h.stopped with hroom | hlength | ⟨-, hmet⟩
    · exact .inl (congrArg (· + 1) hroom)
    · exact .inr (.inl (congrArg (· + 1) hlength))
    · exact .inr (.inr ⟨Nat.succ_pos k, by rwa [coveredCount_cons_succ, ← Nat.add_assoc]⟩)
  unmet := by
    rintro (_ | j) hpos hlt
    · exact absurd hpos (Nat.lt_irrefl 0)
    · rw [coveredCount_cons_succ, ← Nat.add_assoc]
      rcases Nat.eq_zero_or_pos j with rfl | hj
      · simpa using hx
      · exact h.unmet j hj (Nat.lt_of_succ_lt_succ hlt)

theorem selectFrom_greedy (threshold room cov : Nat) (l : List (Nat × Word)) :
    ∃ k, selectFrom threshold room cov l = (l.take k).map (fun e => colourOfKey e.1) ∧
      GreedyStart threshold room cov l k := by
  induction l generalizing room cov with
  | nil =>
    refine ⟨0, ?_, Nat.zero_le _, Nat.le_refl 0, .inr (.inl rfl), fun j _ hj => absurd hj (Nat.not_lt_zero j)⟩
    cases room <;> rfl
  | cons x l ih =>
    cases room with
    | zero => exact ⟨0, rfl, Nat.le_refl 0, Nat.zero_le _, .inl rfl, fun j _ hj => absurd hj (Nat.not_lt_zero j)⟩
    | succ room =>
      unfold selectFrom
      split
      · rename_i hmet
        refine ⟨1, by simp, Nat.succ_le_succ (Nat.zero_le _), by simp, .inr (.inr ⟨Nat.one_pos, ?_⟩),
          fun j hpos hlt => by omega⟩
        rwa [coveredCount_cons_succ, coveredCount_zero, Nat.add_zero]
      · rename_i hunmet
        obtain ⟨k, hsel, hk⟩ := ih room (cov + x.2.toNat)
        exact ⟨k + 1, by rw [hsel]; rfl, hk.cons hunmet⟩

/-! ## The palettes -/

theorem paletteCap_le (version : Byte) : paletteCap version ≤ 512 := by unfold paletteCap; split <;> decide

/-- Every entry is the selected colour of its number, or the last one. -/
theorem paddedPalette_getElem? {sel : List Colour} (h : sel.length ≤ 512) {e : Nat} (he : e < 512) :
    (paddedPalette sel)[e]? = some (sel.getD e (sel.getLastD Colour.black)) := by
  rw [paddedPalette, List.getElem?_append]
  split
  · rename_i hlt; simp [hlt]
  · rename_i hge; rw [List.getElem?_replicate_of_lt (by omega), List.getD_eq_default _ _ (by omega)]

/-- `PAL0` holds the first 256 entries. -/
theorem read_firstTable (entries : List Colour) {e : Nat} (he : e < 256) :
    Memory.read (Memory.ofList 0 (entries.take 256)) e = entries[e]? := by
  rw [Memory.read_ofList, if_pos (Nat.zero_le e), Nat.sub_zero, List.getElem?_take_of_lt he]

/-- `PAL1` holds the entries from 256 on. -/
theorem read_secondTable (entries : List Colour) (e : Nat) :
    Memory.read (Memory.ofList 0 (entries.drop 256)) e = entries[e + 256]? := by
  rw [Memory.read_ofList, if_pos (Nat.zero_le e), Nat.sub_zero, List.getElem?_drop, Nat.add_comm]

theorem admits_selectPalette (x : Session) : admits .selectPalette x = admitSetup x := by cases x <;> rfl

theorem exec_selectPalette {s : State} (h : admits .selectPalette s.session = true) :
    exec .selectPalette s = .next (complete (setRes0 (selectColours s).length { s with
      pal0 := Memory.ofList 0 ((paddedPalette (selectColours s)).take 256)
      pal1 := Memory.ofList 0 ((paddedPalette (selectColours s)).drop 256) })) := by
  rw [admits_selectPalette] at h
  change execSelectPalette s = _
  rw [execSelectPalette, runCommand_admitted h, finish_done]

/-- Settles O16: the insertions rank the colours, and the selection is a greedy beginning of that list. -/
theorem selectPaletteIsGreedy : Obligations.SelectPaletteIsGreedy := by
  intro s hadmit hcoherent
  obtain ⟨hwf, -, -⟩ := (histogramCoherent_iff s.hist).mp hcoherent
  obtain ⟨k, hsel, hgreedy⟩ := selectFrom_greedy (s.cfg.distRatio.toNat * s.hist.total.toNat) (paletteCap s.hdr.version) 0
    (sortedByCount s.hist.counts)
  obtain ⟨hcap, hlength, hstop, hunmet⟩ := hgreedy
  simp only [Nat.zero_add] at hstop hunmet
  have hlen : (selectColours s).length = k := by
    rw [selectColours, hsel, List.length_map, List.length_take, Nat.min_eq_left hlength]
  have hfit : k ≤ 512 := hcap.trans (paletteCap_le _)
  have hentry {e : Nat} (he : e < 512) := paddedPalette_getElem? (hlen.trans_le hfit) he
  refine ⟨sortedByCount s.hist.counts, k, sortedByCount_perm _, sortedByCount_ranked hwf, hcap, hlength, hstop, hunmet,
    _, exec_selectPalette hadmit, ?_, fun e he => ?_⟩
  · rw [hlen, setRes0, saturate_of_lt (by omega)]; rfl
  · rw [← hsel]
    exact ⟨(read_firstTable _ he).trans (hentry (by omega)), (read_secondTable _ e).trans (hentry (by omega))⟩

end Sys2Proof.Machine
end

section
/-! Palettes and histogram across commands (40 R127, 10 R38, R40): which commands write them, and in which sessions. -/

namespace Sys2Proof.Machine

/-! ## The histogram -/

/-- The histogram is no part of an open session's working state. -/
theorem OnlyWork.hist_eq {s t : State} (h : OnlyWork s t) : t.hist = s.hist := (congrArg State.hist h :)

theorem Answers.hist_eq {s u : State} (h : Answers (Within s) u) : u.hist = s.hist := by
  obtain ⟨v, hv, hu⟩ := h
  exact (congrArg State.hist hu :).trans hv.frame.hist_eq

theorem Appended.hist_eq {s v : State} {n : Nat} (h : Appended s n v) : v.hist = s.hist := by
  obtain ⟨_, w, out, hw, rfl⟩ := h
  exact hw.onlyWork.hist_eq

theorem Opened.hist_eq {s u : State} (h : Opened s u) : u.hist = s.hist := by
  obtain ⟨f, w, cs, v, b, j, -, -, hw, hv, rfl⟩ := h
  exact (congrArg (fun x => (openDone f x).hist) hv.frame :).trans hw.onlyWork.hist_eq

/-- A raise leaves the histogram, also when it ends the session (60 R318). -/
theorem RaiseLeaves.hist_eq {s r : State} (h : RaiseLeaves s r) : r.hist = s.hist := by
  cases h with
  | before io => rfl
  | lost v _ hv => exact hv.frame.hist_eq
  | scratch _ hv => exact hv.onlyWork.hist_eq
  | work _ _ hv => exact hv.frame.hist_eq
  | fault v _ hv => exact hv.frame.hist_eq

/-! ## The palettes -/

/-- `PAL0` and `PAL1`. -/
def palettes (s : State) : Memory Colour × Memory Colour := (s.pal0, s.pal1)

theorem palettes_eq_iff {s t : State} : palettes t = palettes s ↔ t.pal0 = s.pal0 ∧ t.pal1 = s.pal1 := Prod.mk_inj

/-- The palettes are no part of an open session's working state. -/
theorem OnlyWork.palettes_eq {s t : State} (h : OnlyWork s t) : palettes t = palettes s := (congrArg palettes h :)

theorem Answers.palettes_eq {s u : State} (h : Answers (Within s) u) : palettes u = palettes s := by
  obtain ⟨v, hv, hu⟩ := h
  exact (congrArg palettes hu :).trans hv.frame.palettes_eq

theorem Appended.palettes_eq {s v : State} {n : Nat} (h : Appended s n v) : palettes v = palettes s := by
  obtain ⟨_, w, out, hw, rfl⟩ := h
  exact hw.onlyWork.palettes_eq

/-- A raise that does not end the session leaves the palettes (60 R318). -/
theorem RaiseLeaves.palettes_eq {s r : State} (h : RaiseLeaves s r) (hopen : r.session ≠ .closed) :
    palettes r = palettes s := by
  cases h with
  | before io => rfl
  | lost v => exact absurd rfl hopen
  | scratch _ hv => exact hv.onlyWork.palettes_eq
  | work _ _ hv => exact hv.frame.palettes_eq
  | fault v _ hv => exact hv.frame.palettes_eq

/-! ## Written frames -/

theorem frameWritten_lookup (ftype : FrameType) (off : Word) (s : State) :
    (frameWritten ftype off s).hist = s.hist ∧ palettes (frameWritten ftype off s) = palettes s := by
  cases ftype <;> exact ⟨rfl, rfl⟩

theorem FrameWritten.lookup_eq {s u : State} (h : FrameWritten s u) : u.hist = s.hist ∧ palettes u = palettes s := by
  obtain ⟨-, -, n, v, -, hv, rfl⟩ := h
  obtain ⟨hhist, hpal⟩ := frameWritten_lookup (chooseFrameType s) s.outlen v
  exact ⟨hhist.trans hv.hist_eq, hpal.trans hv.palettes_eq⟩

/-! ## Completions -/

/-- The commands that may write the histogram (10 R40): the two histogram commands, `ENC_SETUP` and `SOFT_RESET`. -/
def writesHist (i : Instr) : Prop := i = .histClear ∨ i = .histAccum ∨ i = .encSetup ∨ i = .softReset

theorem Completes.hist_eq {i : Instr} {s u : State} (h : Completes s i u) (hi : ¬ writesHist i) : u.hist = s.hist := by
  cases h with
  | reset | cleared | counted | setUp => exact absurd (by simp [writesHist]) hi
  | computed _ _ hu => exact (hu.mono fun _ hv => hv.within).hist_eq
  | worked _ _ _ hu => exact hu.hist_eq
  | opened _ hu => exact hu.hist_eq
  | headerWritten n v _ hv => exact hv.hist_eq
  | frameWritten _ _ hu => exact hu.lookup_eq.1
  | audioWritten _ _ hu =>
    obtain ⟨v, ⟨n, hv⟩, hu⟩ := hu
    exact (congrArg State.hist hu :).trans hv.hist_eq
  | preset | rewound | closed | ended | selected => rfl

/-- The commands but `SOFT_RESET` that load or clear the palettes of a session that goes on: the two that open one, and
`SELECT_PALETTE`. -/
def loadsPalettes (i : Instr) : Prop := i = .openStream ∨ i = .encSetup ∨ i = .selectPalette

theorem Completes.palettes_eq {i : Instr} {s u : State} (h : Completes s i u) (hreset : i ≠ .softReset)
    (hi : ¬ loadsPalettes i) (hopen : u.session ≠ .closed) : palettes u = palettes s := by
  cases h with
  | reset => exact absurd rfl hreset
  | opened | selected | setUp => exact absurd (by simp [loadsPalettes]) hi
  | closed | ended => exact absurd rfl hopen
  | computed _ _ hu => exact (hu.mono fun _ hv => hv.within).palettes_eq
  | worked _ _ _ hu => exact hu.palettes_eq
  | headerWritten n v _ hv => exact hv.palettes_eq
  | frameWritten _ _ hu => exact hu.lookup_eq.2
  | audioWritten _ _ hu =>
    obtain ⟨v, ⟨n, hv⟩, hu⟩ := hu
    exact (congrArg palettes hu :).trans hv.palettes_eq
  | preset | rewound | cleared | counted => rfl

/-! ## The sessions with frozen palettes -/

/-- The sessions whose palettes are the file's: a decode session, and an encode session whose header is written (40 R127). -/
def palettesFrozen (x : Session) : Prop := x = .decOpen ∨ x = .decFault ∨ x = .encOpen

theorem admitClosed_of_frozen {x : Session} (h : palettesFrozen x) : admitClosed x = false := by
  rcases h with rfl | rfl | rfl <;> rfl

theorem admitSetup_of_frozen {x : Session} (h : palettesFrozen x) : admitSetup x = false := by
  rcases h with rfl | rfl | rfl <;> rfl

/-- In those sessions the commands that load palettes are not admitted (46 R271). -/
theorem exec_loadsPalettes_refused {i : Instr} (hi : loadsPalettes i) {s : State} (hs : palettesFrozen s.session) :
    ∃ code, exec i s = .next (takeError .plain s s (illegalCommand code)) := by
  rcases hi with rfl | rfl | rfl
  · exact ⟨0x10, runCommand_refused (admitClosed_of_frozen hs)⟩
  · exact ⟨0x40, runCommand_refused (admitClosed_of_frozen hs)⟩
  · exact ⟨0x33, show execSelectPalette s = _ from runCommand_refused (admitSetup_of_frozen hs)⟩

/-- A command that leaves a session with frozen palettes open leaves its palettes. -/
theorem exec_palettes_eq {i : Instr} {s t : State} (hi : isCommand i = true) (hreset : i ≠ .softReset)
    (h : exec i s = .next t) (hs : palettesFrozen s.session) (hopen : t.session ≠ .closed) : palettes t = palettes s := by
  by_cases hloads : loadsPalettes i
  · obtain ⟨code, hrefused⟩ := exec_loadsPalettes_refused hloads hs
    obtain rfl := Host.Outcome.next.inj (h.symm.trans hrefused)
    rfl
  · rcases exec_command_leaves hi h with ⟨e, r, hr, rfl⟩ | ⟨u, hu, rfl⟩
    · exact hr.palettes_eq hopen
    · exact hu.palettes_eq hreset hloads hopen

/-- Settles O10: the commands that load palettes are refused where the palettes are frozen, and no raise or other completion
writes them; the histogram is written by its writers' completions only. -/
theorem palettesAndHistogramFrame : Obligations.PalettesAndHistogramFrame := by
  intro i s t hi hreset h
  refine ⟨fun hs hopen => palettes_eq_iff.mp (exec_palettes_eq hi hreset h hs hopen), fun hclear haccum hsetup => ?_⟩
  rcases exec_command_leaves hi h with ⟨e, r, hr, rfl⟩ | ⟨u, hu, rfl⟩
  · exact hr.hist_eq
  · exact hu.hist_eq (by simp [writesHist, *])

end Sys2Proof.Machine
end

section
/-! TSS and BLOCK_SAD (41 R141 to R148): the cost of a displacement as a sum, one step of the search as the best neighbour, the
loop as a relation, and what the search keeps. -/

namespace Sys2Proof.Machine

/-! ## The cost of a displacement -/

/-- The cost pixel by pixel (41 R141). -/
theorem blockSad_eq_sum (s : State) (ox oy : Nat) (dx dy : Int) :
    blockSad s ox oy dx dy = ((List.range (blockPixels s.hdr.version)).map fun n =>
      dist1 (colourAt s .src s.src (blockPixelAddr s.hdr ox oy n))
        (colourAt s .prev s.prev (blockPixelAddr s.hdr (ox + dx).toNat (oy + dy).toNat n))).sum := by
  simp only [blockSad, readBlock, List.zipWith_map, List.zipWith_self]

/-- Three channels, each at most `0xFF` apart. -/
theorem dist1_le (p q : Colour) : dist1 p q ≤ 765 := by
  have := absDiff_lt p.r q.r
  have := absDiff_lt p.g q.g
  have := absDiff_lt p.b q.b
  unfold dist1
  omega

/-- The cost of a block of at most 64 pixels fits its result register. -/
theorem blockSad_lt (s : State) (ox oy : Nat) (dx dy : Int) : blockSad s ox oy dx dy < 2 ^ 32 := by
  have hsum : blockSad s ox oy dx dy ≤ blockPixels s.hdr.version * 765 := by
    rw [blockSad_eq_sum]
    refine (List.sum_le_card_nsmul _ 765 fun x hx => ?_).trans_eq (by simp)
    obtain ⟨n, -, rfl⟩ := List.mem_map.mp hx
    exact dist1_le _ _
  have := blockPixels_cases s.hdr.version
  omega

theorem admits_blockSad (x : Session) : admits .blockSad x = admitEncode x := by cases x <;> rfl

theorem insideFrame_iff {h : HdrFields} {x y : Int} :
    insideFrame h x y = true ↔
      (0 ≤ x ∧ x + blockWidth h.version ≤ h.width.toNat) ∧ 0 ≤ y ∧ y + blockHeight h.version ≤ h.height.toNat := by
  simp only [insideFrame, Bool.and_eq_true, decide_eq_true_eq, and_assoc]

/-- Both blocks in the frame: every argument check passes. -/
theorem blockSadOp_eq_done {s : State} (hcol : s.arg.x0.toNat + blockWidth s.hdr.version ≤ s.hdr.width.toNat)
    (hrow : s.arg.x1.toNat + blockHeight s.hdr.version ≤ s.hdr.height.toNat)
    (hin : insideFrame s.hdr (s.arg.x0.toNat + s.arg.x2.toInt) (s.arg.x1.toNat + s.arg.x3.toInt) = true) :
    blockSadOp s =
      .done () (setRes0 (blockSad s s.arg.x0.toNat s.arg.x1.toNat s.arg.x2.toInt s.arg.x3.toInt) s) := by
  obtain ⟨hdcol, hdrow⟩ := insideFrame_iff.mp hin
  simp [blockSadOp, columnFits, rowFits, columnOffsetFits, rowOffsetFits, argNat, argInt, hcol, hrow, hdcol, hdrow]

/-- Settles O17: the checks pass, and the sum fits its register. -/
theorem blockSadSums : Obligations.BlockSadSums := by
  rintro s dx dy hadmit rfl rfl hcol hrow hin
  have hrun : exec .blockSad s = .next (finish .plain s (blockSadOp s)) :=
    runCommand_admitted ((admits_blockSad s.session).symm.trans hadmit)
  rw [hrun, blockSadOp_eq_done hcol hrow hin, finish_done, setRes0, saturate_of_lt (blockSad_lt ..), blockSad_eq_sum]

/-! ## One step of the search -/

section Step

variable {s : State} {ox oy step : Nat} {c d : Candidate}

/-- Candidate `k` around a centre, with its cost. -/
def neighbourAt (s : State) (ox oy : Nat) (c : Candidate) (step k : Nat) : Candidate :=
  ⟨(neighbourOffset c step k).1, (neighbourOffset c step k).2, neighbourCost s ox oy c step k⟩

/-- The direction of candidate `k` of 0..8, rows top to bottom (41 R144). -/
def direction (k : Nat) : Int × Int := ((k % 3 : Nat) - 1, (k / 3 : Nat) - 1)

/-- The visit of candidate `k` of 0..8; the centre, number 4, is passed over (41 R144). -/
def visitNeighbour (s : State) (ox oy : Nat) (c : Candidate) (step : Nat) (best : Candidate) (k : Nat) : Candidate :=
  if k ≠ 4 then visit s ox oy c step best (direction k) else best

/-- The model's list of eight neighbours is the numbers 0 to 8 without the centre's. -/
theorem neighbours_eq_map_direction : neighbours = ((List.range 9).filter (· ≠ 4)).map direction := by decide

theorem searchStep_eq_foldl (s : State) (ox oy step : Nat) (c : Candidate) :
    searchStep s ox oy step c = (List.range 9).foldl (visitNeighbour s ox oy c step) c := by
  rw [searchStep, neighbours_eq_map_direction, List.foldl_map, List.foldl_filter]
  simp only [decide_eq_true_eq]
  rfl

theorem validNeighbour_iff {k : Nat} :
    validNeighbour s ox oy c step k ↔
      k < 9 ∧ k ≠ 4 ∧ validCandidate s ox oy (neighbourOffset c step k).1 (neighbourOffset c step k).2 = true := by
  simp only [validNeighbour, validCandidate, Bool.and_eq_true, decide_eq_true_eq, and_assoc]

/-- A visit moves to a valid neighbour that is strictly cheaper (41 R146). -/
theorem visitNeighbour_of_cheaper {k : Nat} (hk : validNeighbour s ox oy c step k)
    (hlt : neighbourCost s ox oy c step k < d.cost) :
    visitNeighbour s ox oy c step d k = neighbourAt s ox oy c step k := by
  obtain ⟨-, hcentre, hvalid⟩ := validNeighbour_iff.mp hk
  exact (if_pos hcentre).trans (if_pos ⟨hvalid, hlt⟩)

/-- A visit to any other number leaves the running best (41 R146). -/
theorem visitNeighbour_of_not_cheaper {k : Nat} (hk : k < 9)
    (h : validNeighbour s ox oy c step k → d.cost ≤ neighbourCost s ox oy c step k) :
    visitNeighbour s ox oy c step d k = d := by
  by_cases hcentre : k = 4
  · exact if_neg (not_not_intro hcentre)
  · refine (if_pos hcentre).trans (if_neg fun ⟨hvalid, hlt⟩ => ?_)
    exact absurd (h (validNeighbour_iff.mpr ⟨hk, hcentre, hvalid⟩)) (Nat.not_le.mpr hlt)

/-- `bestNeighbour` among the numbers below `n`: the invariant of one step's visits. -/
def bestBelow (s : State) (ox oy step : Nat) (c : Candidate) (n : Nat) (d : Candidate) : Prop :=
  (d = c ∧ ∀ k < n, validNeighbour s ox oy c step k → c.cost ≤ neighbourCost s ox oy c step k) ∨
  ∃ k < n, validNeighbour s ox oy c step k ∧ neighbourCost s ox oy c step k < c.cost ∧
    (∀ j < n, validNeighbour s ox oy c step j →
      neighbourCost s ox oy c step k ≤ neighbourCost s ox oy c step j ∧
      (j < k → neighbourCost s ox oy c step k < neighbourCost s ox oy c step j)) ∧
    d = neighbourAt s ox oy c step k

/-- The running best costs no more than the centre and than every valid neighbour visited. -/
theorem bestBelow.cost_le {n : Nat} (h : bestBelow s ox oy step c n d) :
    d.cost ≤ c.cost ∧ ∀ j < n, validNeighbour s ox oy c step j → d.cost ≤ neighbourCost s ox oy c step j := by
  rcases h with ⟨rfl, hmin⟩ | ⟨k, -, -, hlt, hmin, rfl⟩
  · exact ⟨Nat.le_refl _, hmin⟩
  · exact ⟨hlt.le, fun j hj hvalid => (hmin j hj hvalid).1⟩

/-- A strictly cheaper neighbour is the first of the cheapest so far. -/
theorem bestBelow.move {n : Nat} (h : bestBelow s ox oy step c n d) (hn : validNeighbour s ox oy c step n)
    (hlt : neighbourCost s ox oy c step n < d.cost) :
    bestBelow s ox oy step c (n + 1) (neighbourAt s ox oy c step n) := by
  obtain ⟨hcentre, hseen⟩ := h.cost_le
  refine .inr ⟨n, Nat.lt_succ_self n, hn, hlt.trans_le hcentre, fun j hj hvalid => ?_, rfl⟩
  rcases Nat.lt_succ_iff_lt_or_eq.mp hj with hj | rfl
  · have hcheaper := hlt.trans_le (hseen j hj hvalid)
    exact ⟨hcheaper.le, fun _ => hcheaper⟩
  · exact ⟨Nat.le_refl _, fun hj => absurd hj (Nat.lt_irrefl _)⟩

/-- A neighbour that is not valid, or no cheaper, leaves the running best the first of the cheapest. -/
theorem bestBelow.stay {n : Nat} (h : bestBelow s ox oy step c n d)
    (hn : validNeighbour s ox oy c step n → d.cost ≤ neighbourCost s ox oy c step n) :
    bestBelow s ox oy step c (n + 1) d := by
  rcases h with ⟨rfl, hmin⟩ | ⟨k, hk, hvalid, hlt, hmin, rfl⟩
  · refine .inl ⟨rfl, fun j hj => ?_⟩
    rcases Nat.lt_succ_iff_lt_or_eq.mp hj with hj | rfl
    · exact hmin j hj
    · exact hn
  · refine .inr ⟨k, hk.trans (Nat.lt_succ_self n), hvalid, hlt, fun j hj hj' => ?_, rfl⟩
    rcases Nat.lt_succ_iff_lt_or_eq.mp hj with hj | rfl
    · exact hmin j hj hj'
    · exact ⟨hn hj', fun hjk => absurd hjk hk.asymm⟩

/-- One visit keeps the invariant. -/
theorem bestBelow.visit {n : Nat} (h : bestBelow s ox oy step c n d) (hn : n < 9) :
    bestBelow s ox oy step c (n + 1) (visitNeighbour s ox oy c step d n) := by
  by_cases hcheaper : validNeighbour s ox oy c step n ∧ neighbourCost s ox oy c step n < d.cost
  · obtain ⟨hvalid, hlt⟩ := hcheaper
    rw [visitNeighbour_of_cheaper hvalid hlt]
    exact h.move hvalid hlt
  · have hstay : validNeighbour s ox oy c step n → d.cost ≤ neighbourCost s ox oy c step n := fun hvalid =>
      Nat.le_of_not_lt fun hlt => hcheaper ⟨hvalid, hlt⟩
    rw [visitNeighbour_of_not_cheaper hn hstay]
    exact h.stay hstay

/-- The invariant after the first `n` visits. -/
theorem bestBelow_foldl (s : State) (ox oy step : Nat) (c : Candidate) {n : Nat} (hn : n ≤ 9) :
    bestBelow s ox oy step c n ((List.range n).foldl (visitNeighbour s ox oy c step) c) := by
  induction n with
  | zero => exact .inl ⟨rfl, fun k hk => absurd hk (Nat.not_lt_zero k)⟩
  | succ n ih =>
    rw [List.range_succ, List.foldl_append]
    exact (ih (Nat.le_of_succ_le hn)).visit hn

/-- Every valid neighbour is among the nine numbers. -/
theorem bestBelow.bestNeighbour (h : bestBelow s ox oy step c 9 d) : bestNeighbour s ox oy step c d := by
  rcases h with ⟨hd, hmin⟩ | ⟨k, -, hvalid, hlt, hmin, hd⟩
  · exact .inl ⟨hd, fun k hk => hmin k hk.1 hk⟩
  · exact .inr ⟨k, hvalid, hlt, fun j hj => hmin j hj.1 hj, hd⟩

/-- One step of the search goes to the first of the cheapest valid neighbours, or stays (41 R144, R146). -/
theorem searchStep_bestNeighbour (s : State) (ox oy step : Nat) (c : Candidate) :
    bestNeighbour s ox oy step c (searchStep s ox oy step c) := by
  rw [searchStep_eq_foldl]
  exact (bestBelow_foldl s ox oy step c (Nat.le_refl 9)).bestNeighbour

end Step

/-! ## The loop -/

/-- The loop with fuel for every halving is the relation. -/
theorem searchLoop_searchFrom (s : State) (ox oy : Nat) {fuel n : Nat} (hn : n < 2 ^ fuel) (c : Candidate) :
    SearchFrom s ox oy n c (searchLoop s ox oy fuel n c) := by
  induction fuel generalizing n c with
  | zero =>
    obtain rfl : n = 0 := by omega
    exact .ended c
  | succ fuel ih =>
    rw [searchLoop]
    split
    case isTrue hzero => subst hzero; exact .ended c
    case isFalse hpos =>
      have hhalf : n / 2 < 2 ^ fuel := by omega
      exact .step n c _ _ (Nat.pos_of_ne_zero hpos) (searchStep_bestNeighbour ..) (ih hhalf _)

/-- A centre of cost 0 is never left: no neighbour is strictly cheaper (41 R145). -/
theorem searchFrom_of_cost_eq_zero (s : State) (ox oy : Nat) {c : Candidate} (hc : c.cost = 0) (n : Nat) :
    SearchFrom s ox oy n c c := by
  induction n using Nat.strong_induction_on with
  | h n ih =>
    rcases Nat.eq_zero_or_pos n with rfl | hpos
    · exact .ended c
    · have hstay : bestNeighbour s ox oy n c c := .inl ⟨rfl, fun _ _ => hc.trans_le (Nat.zero_le _)⟩
      exact .step n c c c hpos hstay (ih (n / 2) (Nat.div_lt_self hpos Nat.one_lt_two))

/-- The search answers what the loop of 41 R144 finds, on the early exit of 41 R145 too. -/
theorem threeStepSearch_answers (s : State) (ox oy : Nat) : searchAnswers s ox oy (threeStepSearch s ox oy) := by
  unfold searchAnswers threeStepSearch
  split
  case isTrue hzero =>
    rw [hzero]
    exact searchFrom_of_cost_eq_zero s ox oy rfl _
  case isFalse => exact searchLoop_searchFrom s ox oy s.cfg.meStep.isLt _

/-! ## What the search keeps -/

/-- The properties of 41 R148, which hold of every candidate the search holds. -/
structure SearchSound (s : State) (ox oy : Nat) (v : Candidate) : Prop where
  column : v.dx.natAbs ≤ s.cfg.meRange.toNat
  row : v.dy.natAbs ≤ s.cfg.meRange.toNat
  inside : insideFrame s.hdr (ox + v.dx) (oy + v.dy) = true
  cost_eq : v.cost = blockSad s ox oy v.dx v.dy
  cheaper : v = ⟨0, 0, blockSad s ox oy 0 0⟩ ∨ v.cost < blockSad s ox oy 0 0

section Kept

variable {s : State} {ox oy : Nat}

theorem SearchSound.cost_le {v : Candidate} (h : SearchSound s ox oy v) : v.cost ≤ blockSad s ox oy 0 0 := by
  rcases h.cheaper with rfl | hlt
  · exact Nat.le_refl _
  · exact hlt.le

/-- The centre is a valid candidate wherever the block itself lies in the frame (41 R148). -/
theorem SearchSound.centre (hcol : ox + blockWidth s.hdr.version ≤ s.hdr.width.toNat)
    (hrow : oy + blockHeight s.hdr.version ≤ s.hdr.height.toNat) :
    SearchSound s ox oy ⟨0, 0, blockSad s ox oy 0 0⟩ where
  column := Nat.zero_le _
  row := Nat.zero_le _
  inside := insideFrame_iff.mpr (by dsimp only; omega)
  cost_eq := rfl
  cheaper := .inl rfl

/-- One step stays, or moves to a valid neighbour that is strictly cheaper. -/
theorem SearchSound.bestNeighbour {n : Nat} {c d : Candidate} (h : SearchSound s ox oy c) (hd : bestNeighbour s ox oy n c d) :
    SearchSound s ox oy d := by
  rcases hd with ⟨rfl, -⟩ | ⟨k, ⟨-, -, hcolumn, hrow, hinside⟩, hlt, -, rfl⟩
  · exact h
  · exact ⟨hcolumn, hrow, hinside, rfl, .inr (hlt.trans_le h.cost_le)⟩

theorem SearchSound.searchFrom {n : Nat} {c v : Candidate} (h : SearchSound s ox oy c) (hv : SearchFrom s ox oy n c v) :
    SearchSound s ox oy v := by
  induction hv with
  | ended c => exact h
  | step n c d e _ hd _ ih => exact ih (h.bestNeighbour hd)

end Kept

/-! ## The command -/

theorem admits_tss (x : Session) : admits .tss x = admitEncode x := by cases x <;> rfl

/-- The block in the frame: both argument checks pass. -/
theorem tssOp_eq_done {s : State} (hcol : s.arg.x0.toNat + blockWidth s.hdr.version ≤ s.hdr.width.toNat)
    (hrow : s.arg.x1.toNat + blockHeight s.hdr.version ≤ s.hdr.height.toNat) :
    tssOp s = .done () { s with res := { s.res with
      x0 := BitVec.ofInt 32 (threeStepSearch s s.arg.x0.toNat s.arg.x1.toNat).dx
      x1 := BitVec.ofInt 32 (threeStepSearch s s.arg.x0.toNat s.arg.x1.toNat).dy
      x2 := BitVec.ofNat 32 (threeStepSearch s s.arg.x0.toNat s.arg.x1.toNat).cost } } := by
  simp [tssOp, columnFits, rowFits, argNat, hcol, hrow]

/-- Settles O18: the model's loop is the relation's, and the centre's properties are kept along it. -/
theorem searchResultBounded : Obligations.SearchResultBounded := by
  intro s hadmit hcol hrow ox oy
  have hanswers : searchAnswers s ox oy (threeStepSearch s ox oy) := threeStepSearch_answers s ox oy
  have hsound : SearchSound s ox oy (threeStepSearch s ox oy) := (SearchSound.centre hcol hrow).searchFrom hanswers
  refine ⟨(threeStepSearch s ox oy).dx, (threeStepSearch s ox oy).dy, (threeStepSearch s ox oy).cost, ?_, hanswers,
    hsound.column, hsound.row, hsound.inside, hsound.cost_eq, hsound.cost_le, fun hmoved => ?_⟩
  · have hrun : exec .tss s = .next (finish .plain s (tssOp s)) :=
      runCommand_admitted ((admits_tss s.session).symm.trans hadmit)
    rw [hrun, tssOp_eq_done hcol hrow, finish_done]
  · rcases hsound.cheaper with hcentre | hlt
    · rw [hcentre] at hmoved
      simp at hmoved
    · exact hlt

end Sys2Proof.Machine
end

section
/-! The classifier's steps (42 R164 to R173): when each passes and the code it emits, in the terms of 42's rules. -/

namespace Sys2Proof.Machine

/-! ## Tolerance -/

theorem absDiff_eq_natAbs (a b : Byte) : absDiff a b = ((a.toNat : Int) - b.toNat).natAbs := by
  unfold absDiff
  split <;> omega

/-- The model's test of two colours is R162's. -/
theorem closeTo_iff (s : State) (c d : Colour) : closeTo (tolerance s) c d = true ↔ withinTolerance s c d := by
  simp only [closeTo, absDiff_eq_natAbs, Bool.and_eq_true, decide_eq_true_eq, and_assoc]
  rfl

/-- Source pixel `k` of block `BLK`. -/
def sourcePixel (s : State) (q : Sequencer) (k : Nat) : Colour :=
  colourAt s .src s.src (blockPixelAddr s.hdr (blockX s.hdr q.blk) (blockY s.hdr q.blk) k)

theorem sourceBlock_eq_map (s : State) (q : Sequencer) :
    sourceBlock s q = (List.range (blockPixels s.hdr.version)).map (sourcePixel s q) := rfl

@[simp] theorem sourceBlock_length (s : State) (q : Sequencer) : (sourceBlock s q).length = blockPixels s.hdr.version :=
  readBlock_length ..

theorem blockPixels_pos (version : Byte) : 0 < blockPixels version := by
  have := blockPixels_cases version
  omega

/-- FILL's colour is that of the first pixel (42 R166). -/
theorem sourceBlock_headD (s : State) (q : Sequencer) : (sourceBlock s q).headD Colour.black = sourcePixel s q 0 := by
  obtain ⟨n, hn⟩ := Nat.exists_eq_add_one_of_ne_zero (blockPixels_pos s.hdr.version).ne'
  rw [sourceBlock_eq_map, hn, List.range_succ_eq_map]
  rfl

/-- The source block is close, pixel by pixel, to the block of `m` at `(ox, oy)`. -/
def CloseBlock (s : State) (q : Sequencer) (sp : Space) (m : Memory Colour) (ox oy : Nat) : Prop :=
  ∀ k < blockPixels s.hdr.version, withinTolerance s (sourcePixel s q k) (colourAt s sp m (blockPixelAddr s.hdr ox oy k))

theorem blocksClose_readBlock_iff (s : State) (q : Sequencer) (sp : Space) (m : Memory Colour) (ox oy : Nat) :
    blocksClose (tolerance s) (sourceBlock s q) (readBlock s sp m ox oy) = true ↔ CloseBlock s q sp m ox oy := by
  simp only [blocksClose, sourceBlock_eq_map, readBlock, List.zipWith_map, List.zipWith_self, List.all_map, List.all_eq_true,
    List.mem_range, Function.comp_apply, id_eq, closeTo_iff]
  rfl

/-! ## COPY and FILL -/

/-- Step 1 passes and is enabled (42 R165). -/
def Copies (s : State) (ftype : FrameType) (q : Sequencer) : Prop :=
  ftype = .inter ∧ s.cfg.modeEn.getLsbD 3 = true ∧ CloseBlock s q .prev s.prev (blockX s.hdr q.blk) (blockY s.hdr q.blk)

theorem tryCopy_eq_some_iff {s : State} {ftype : FrameType} {q : Sequencer} {b : BlockCode} :
    tryCopy s ftype q = some b ↔ Copies s ftype q ∧
      b = ⟨.copy, readBlock s .prev s.prev (blockX s.hdr q.blk) (blockY s.hdr q.blk), q.pred⟩ := by
  simp only [tryCopy, blocksClose_readBlock_iff, Option.ite_none_right_eq_some, Option.some.injEq, eq_comm (a := b)]
  rfl

/-- Step 2 passes and is enabled (42 R166). -/
def Fills (s : State) (q : Sequencer) : Prop :=
  s.cfg.modeEn.getLsbD 1 = true ∧
    ∀ k < blockPixels s.hdr.version, withinTolerance s (sourcePixel s q k) (sourcePixel s q 0)

/-- The FILL code of a colour (42 R166, R176). -/
def fillCode (s : State) (c : Colour) (q : Sequencer) : BlockCode :=
  ⟨.fill (emitSelect s [c]) (emitOperand s (emitSelect s [c]) c),
    List.replicate (blockPixels s.hdr.version) (emitted s (emitSelect s [c]) c), q.pred⟩

theorem tryFill_eq_some_iff {s : State} {q : Sequencer} {b : BlockCode} :
    tryFill s q = some b ↔ Fills s q ∧ b = fillCode s (sourcePixel s q 0) q := by
  have hclose : (sourceBlock s q).all (fun p => closeTo (tolerance s) p (sourcePixel s q 0)) = true ↔
      ∀ k < blockPixels s.hdr.version, withinTolerance s (sourcePixel s q k) (sourcePixel s q 0) := by
    simp only [sourceBlock_eq_map, List.all_map, List.all_eq_true, List.mem_range, Function.comp_apply, closeTo_iff]
  simp only [tryFill, sourceBlock_headD, hclose, Option.ite_none_right_eq_some, Option.some.injEq, eq_comm (a := b)]
  rfl

/-! ## ICOPY -/

/-- The candidate is near enough to be named and its reconstructed block is close (42 R167). -/
def ClosePast (s : State) (q : Sequencer) (back : Nat) : Prop :=
  back ≤ 65535 ∧ CloseBlock s q .cur q.cur (blockX s.hdr (q.blk - back)) (blockY s.hdr (q.blk - back))

/-- Step 3 passes with the neighbour `back` blocks before, the first close one, and is enabled (42 R167). -/
def Refers (s : State) (q : Sequencer) (back : Nat) : Prop :=
  s.cfg.modeEn.getLsbD 4 = true ∧ ∃ j, neighbourBack s.hdr q.blk j back ∧ ClosePast s q back ∧
    ∀ i < j, ∀ b, neighbourBack s.hdr q.blk i b → ¬ ClosePast s q b

/-- The ICOPY code of a neighbour (42 R167). -/
def icopyCode (s : State) (q : Sequencer) (back : Nat) : BlockCode :=
  ⟨.icopy (BitVec.ofNat 16 back), readBlock s .cur q.cur (blockX s.hdr (q.blk - back)) (blockY s.hdr (q.blk - back)), q.pred⟩

/-- Candidate `j` of 0..3 in the order they are tried, where it exists (42 R167). -/
def neighbourCandidate (h : HdrFields) (k : Nat) : Nat → Option Nat
  | 0 => if 0 < k % blocksPerRow h then some 1 else none
  | 1 => if 0 < k / blocksPerRow h then some (blocksPerRow h) else none
  | 2 => if 0 < k / blocksPerRow h ∧ 0 < k % blocksPerRow h then some (blocksPerRow h + 1) else none
  | 3 => if 0 < k / blocksPerRow h ∧ k % blocksPerRow h + 1 < blocksPerRow h then some (blocksPerRow h - 1) else none
  | _ => none

theorem neighbourCandidate_eq_some_iff {h : HdrFields} {k j back : Nat} :
    neighbourCandidate h k j = some back ↔ neighbourBack h k j back := by
  match j with
  | 0 | 1 | 2 | 3 => simp [neighbourCandidate, neighbourBack, eq_comm (a := back), and_assoc]
  | j + 4 => simp [neighbourCandidate, neighbourBack]

theorem icopyCandidates_eq_filterMap (h : HdrFields) (k : Nat) :
    icopyCandidates h k = (List.range 4).filterMap (neighbourCandidate h k) := by
  simp only [icopyCandidates, show List.range 4 = [0, 1, 2, 3] from rfl, List.filterMap_cons, List.filterMap_nil,
    neighbourCandidate]
  split_ifs <;> rfl

/-- The test of a candidate that `firstNeighbour` makes. -/
def closePastTest (s : State) (q : Sequencer) (back : Nat) : Bool :=
  decide (back ≤ 65535) && blocksClose (tolerance s) (sourceBlock s q)
    (readBlock s .cur q.cur (blockX s.hdr (q.blk - back)) (blockY s.hdr (q.blk - back)))

theorem closePastTest_iff {s : State} {q : Sequencer} {back : Nat} : closePastTest s q back = true ↔ ClosePast s q back := by
  rw [closePastTest, Bool.and_eq_true, decide_eq_true_eq, blocksClose_readBlock_iff]
  rfl

/-- The search through the candidates stops at the first that is close. -/
theorem firstNeighbour_eq_find? (s : State) (q : Sequencer) (l : List Nat) :
    firstNeighbour s q l = (l.find? (closePastTest s q)).map (icopyCode s q) := by
  induction l with
  | nil => rfl
  | cons back l ih =>
    have hcons : firstNeighbour s q (back :: l) =
        if closePastTest s q back = true then some (icopyCode s q back) else firstNeighbour s q l :=
      if_congr (by simp [closePastTest]) rfl rfl
    rw [hcons, ih]
    by_cases h : closePastTest s q back = true <;> simp [h]

/-- Every candidate has a number below 4. -/
theorem neighbourBack_lt {h : HdrFields} {k j back : Nat} (hj : neighbourBack h k j back) : j < 4 := by
  rcases hj with ⟨rfl, -⟩ | ⟨rfl, -⟩ | ⟨rfl, -⟩ | ⟨rfl, -⟩ <;> decide

theorem find?_icopyCandidates_eq_some_iff {s : State} {q : Sequencer} {back : Nat} :
    (icopyCandidates s.hdr q.blk).find? (closePastTest s q) = some back ↔
      ∃ j, neighbourBack s.hdr q.blk j back ∧ ClosePast s q back ∧
        ∀ i < j, ∀ b, neighbourBack s.hdr q.blk i b → ¬ ClosePast s q b := by
  rw [icopyCandidates_eq_filterMap, List.find?_filterMap, Option.bind_eq_some_iff]
  refine exists_congr fun j => ?_
  rw [List.find?_range_eq_some, neighbourCandidate_eq_some_iff]
  constructor
  · rintro ⟨⟨hclose, -, hfirst⟩, hback⟩
    rw [neighbourCandidate_eq_some_iff.mpr hback, Option.any_some, closePastTest_iff] at hclose
    refine ⟨hback, hclose, fun i hi b hb => ?_⟩
    have hnot := hfirst i hi
    rwa [neighbourCandidate_eq_some_iff.mpr hb, Option.any_some, Bool.not_eq_true', ← Bool.not_eq_true,
      closePastTest_iff] at hnot
  · rintro ⟨hback, hclose, hfirst⟩
    refine ⟨⟨?_, List.mem_range.mpr (neighbourBack_lt hback), fun i hi => ?_⟩, hback⟩
    · rwa [neighbourCandidate_eq_some_iff.mpr hback, Option.any_some, closePastTest_iff]
    · rw [Bool.not_eq_true', ← Bool.not_eq_true, Option.any_eq_true]
      rintro ⟨b, hb, hclose⟩
      exact hfirst i hi b (neighbourCandidate_eq_some_iff.mp hb) (closePastTest_iff.mp hclose)

theorem tryIcopy_eq_some_iff {s : State} {q : Sequencer} {b : BlockCode} :
    tryIcopy s q = some b ↔ ∃ back, Refers s q back ∧ b = icopyCode s q back := by
  simp only [tryIcopy, firstNeighbour_eq_find?, Option.ite_none_right_eq_some, Option.map_eq_some_iff,
    find?_icopyCandidates_eq_some_iff, Refers, modeEnabled, and_assoc, exists_and_left, eq_comm (a := b)]

/-! ## MV and PMV -/

/-- PMV is enabled and both deltas to the predictor fit four bits (42 R170). -/
def FitsPmv (s : State) (q : Sequencer) (v : Candidate) : Prop :=
  s.cfg.modeEn.getLsbD 6 = true ∧ -8 ≤ v.dx - predX q.pred ∧ v.dx - predX q.pred ≤ 7 ∧
    -8 ≤ v.dy - predY q.pred ∧ v.dy - predY q.pred ≤ 7

/-- Step 4 passes with the vector `v`, and one of its modes is enabled (42 R168 to R170). -/
def Moves (s : State) (ftype : FrameType) (q : Sequencer) (v : Candidate) : Prop :=
  ftype = .inter ∧ ¬ (v.dx = 0 ∧ v.dy = 0) ∧ v.cost < s.cfg.mvThresh.toNat * blockPixels s.hdr.version ∧
    (FitsPmv s q v ∨ s.cfg.modeEn.getLsbD 5 = true)

/-- The code of an accepted vector (42 R170). -/
def MotionCoded (s : State) (q : Sequencer) (v : Candidate) (i : Instr) : Prop :=
  (FitsPmv s q v ∧ i = .pmv (BitVec.ofInt 4 (v.dx - predX q.pred)) (BitVec.ofInt 4 (v.dy - predY q.pred))) ∨
    (¬ FitsPmv s q v ∧ s.cfg.modeEn.getLsbD 5 = true ∧ i = .mv (BitVec.ofInt 8 v.dx) (BitVec.ofInt 8 v.dy))

theorem motionCode_eq_some_iff {s : State} {q : Sequencer} {v : Candidate} {i : Instr} :
    motionCode s q v.dx v.dy = some i ↔ MotionCoded s q v i := by
  have hfits : (modeEnabled s 6 = true ∧ fitsI4 (v.dx - predX q.pred) = true ∧ fitsI4 (v.dy - predY q.pred) = true) ↔
      FitsPmv s q v := by
    simp only [fitsI4, Bool.and_eq_true, decide_eq_true_eq, and_assoc]
    rfl
  classical
  simp only [motionCode, hfits, MotionCoded]
  by_cases h : FitsPmv s q v
  · simp [h, eq_comm (a := i)]
  · simp [h, eq_comm (a := i), modeEnabled]

/-- The block a vector leads to, coded as `i` (42 R170). -/
def motionBlockCode (s : State) (q : Sequencer) (v : Candidate) (i : Instr) : BlockCode :=
  ⟨i, readBlock s .prev s.prev ((blockX s.hdr q.blk : Int) + v.dx).toNat ((blockY s.hdr q.blk : Int) + v.dy).toNat,
    predOf v.dx v.dy⟩

theorem Moves.enabled {s : State} {ftype : FrameType} {q : Sequencer} {v : Candidate} (h : Moves s ftype q v) :
    FitsPmv s q v ∨ s.cfg.modeEn.getLsbD 5 = true := by
  obtain ⟨-, -, -, henabled⟩ := h
  exact henabled

theorem MotionCoded.enabled {s : State} {q : Sequencer} {v : Candidate} {i : Instr} (h : MotionCoded s q v i) :
    FitsPmv s q v ∨ s.cfg.modeEn.getLsbD 5 = true := by
  rcases h with ⟨hfits, -⟩ | ⟨-, hmv, -⟩
  · exact .inl hfits
  · exact .inr hmv

theorem tryMotion_eq_some_iff {s : State} {ftype : FrameType} {q : Sequencer} {b : BlockCode} :
    tryMotion s ftype q = some b ↔
      ∃ v i, v = threeStepSearch s (blockX s.hdr q.blk) (blockY s.hdr q.blk) ∧ Moves s ftype q v ∧ MotionCoded s q v i ∧
        b = motionBlockCode s q v i := by
  simp only [tryMotion, Option.ite_none_right_eq_some]
  constructor
  · rintro ⟨⟨hinter, hmoved, hcost⟩, h⟩
    split at h
    case h_1 i hi =>
      have hcoded := motionCode_eq_some_iff.mp hi
      exact ⟨_, i, rfl, ⟨hinter, hmoved, hcost, hcoded.enabled⟩, hcoded, (Option.some.inj h).symm⟩
    case h_2 => cases h
  · rintro ⟨v, i, rfl, ⟨hinter, hmoved, hcost, -⟩, hcoded, rfl⟩
    refine ⟨⟨hinter, hmoved, hcost⟩, ?_⟩
    rw [motionCode_eq_some_iff.mpr hcoded]
    rfl

/-! ## VQ2 and VQ4 -/

/-- VQ2 is enabled and enough for these representatives (42 R171). -/
def TakesVq2 (s : State) (reps : List Colour) : Prop := reps.length ≤ 2 ∧ s.cfg.modeEn.getLsbD 7 = true

theorem tryVq_eq_some_iff {s : State} {q : Sequencer} {b : BlockCode} :
    tryVq s q = some b ↔ ∃ reps idx, cluster (tolerance s) (sourceBlock s q) = some (reps, idx) ∧
      ((TakesVq2 s reps ∧ b = vq2Code s reps idx q) ∨
        (¬ TakesVq2 s reps ∧ s.cfg.modeEn.getLsbD 8 = true ∧ b = vq4Code s reps idx q)) := by
  unfold tryVq
  split
  case h_1 hnone => simp [hnone]
  case h_2 reps idx hsome =>
    have htwo : (reps.length ≤ 2 ∧ modeEnabled s 7 = true) ↔ TakesVq2 s reps := Iff.rfl
    classical
    simp only [hsome, htwo, Option.some.injEq, Prod.mk.injEq, existsAndEq, true_and]
    by_cases h : TakesVq2 s reps
    · simp [h, eq_comm (a := b)]
    · simp [h, eq_comm (a := b), modeEnabled]

/-! ## The order -/

/-- The code is that of the first step that passes (42 R164), or NORMAL. -/
theorem classify_cases (s : State) (ftype : FrameType) (q : Sequencer) :
    tryCopy s ftype q = some (classify s ftype q) ∨ tryFill s q = some (classify s ftype q) ∨
    tryIcopy s q = some (classify s ftype q) ∨ tryMotion s ftype q = some (classify s ftype q) ∨
    tryVq s q = some (classify s ftype q) ∨ classify s ftype q = normalCode s q := by
  unfold classify
  cases h : (((tryCopy s ftype q).or (tryFill s q)).or (tryIcopy s q)).or ((tryMotion s ftype q).or (tryVq s q)) with
  | none => simp
  | some b =>
    simp only [Option.or_eq_some_iff, Option.getD_some] at h ⊢
    tauto

end Sys2Proof.Machine
end

section
/-! The classifier's colours: the operands emitted (42 R176), the representatives of a block (42 R171) and their packed
indices (30 R101). -/

namespace Sys2Proof.Machine

/-! ## Colour operands -/

theorem emitOperand_fits (s : State) (psel : Bool) (c : Colour) : (emitOperand s psel c).fits s.hdr.version = true := by
  unfold emitOperand
  split <;> simp_all [ColourOp.fits]

/-- The table selected is legal in the tag of every mode with colours (43 R192 check 4). -/
theorem tagError_emitSelect (s : State) (ftype : FrameType) (cols : List Colour) {mode : Nat}
    (hm : modeHasColours mode = true) : tagError (blockCtx s ftype) mode (emitSelect s cols) = none := by
  have hmode : mode = 1 ∨ mode = 2 ∨ mode = 7 ∨ mode = 8 := by simpa [modeHasColours, or_assoc] using hm
  have hpsel : ¬ (emitSelect s cols = true ∧
      (paletteProfile (blockCtx s ftype).version ≠ 2 ∨ ¬ modeHasColours mode = true)) := by
    rintro ⟨hsel, hprofile | hcolours⟩
    · simp only [emitSelect, Bool.and_eq_true, beq_iff_eq] at hsel
      exact hprofile hsel.1
    · exact hcolours hm
  have hinter : modeIsInter mode = false := by rcases hmode with rfl | rfl | rfl | rfl <;> rfl
  rw [tagError, if_neg (by omega), if_neg (by simp [hinter]), if_neg hpsel]

/-! ## Representatives -/

/-- Colour `c` is close to representative `j` and to none before it (42 R171). -/
def FirstClose (s : State) (reps : List Colour) (c : Colour) (j : Nat) : Prop :=
  ∃ r, reps[j]? = some r ∧ withinTolerance s c r ∧ ∀ i < j, ∀ u, reps[i]? = some u → ¬ withinTolerance s c u

theorem FirstClose.lt {s : State} {reps : List Colour} {c : Colour} {j : Nat} (h : FirstClose s reps c j) :
    j < reps.length := by
  obtain ⟨r, hr, -⟩ := h
  exact (List.getElem?_eq_some_iff.mp hr).1

/-- Representatives added behind the one found do not change it. -/
theorem firstClose_append_iff {s : State} {reps more : List Colour} {c : Colour} {j : Nat} (hj : j < reps.length) :
    FirstClose s (reps ++ more) c j ↔ FirstClose s reps c j := by
  have hget : ∀ i ≤ j, (reps ++ more)[i]? = reps[i]? := fun i hi => List.getElem?_append_left (hi.trans_lt hj)
  unfold FirstClose
  rw [hget j le_rfl]
  refine exists_congr fun r => and_congr_right fun _ => and_congr_right fun _ => forall₂_congr fun i hi => ?_
  rw [hget i hi.le]

theorem findIdx?_closeTo_eq_some_iff {s : State} {reps : List Colour} {c : Colour} {j : Nat} :
    reps.findIdx? (closeTo (tolerance s) c) = some j ↔ FirstClose s reps c j := by
  rw [List.findIdx?_eq_some_iff_getElem]
  constructor
  · rintro ⟨hj, hclose, hlower⟩
    refine ⟨reps[j], List.getElem?_eq_getElem hj, (closeTo_iff ..).mp hclose, fun i hi u hu => ?_⟩
    obtain ⟨-, rfl⟩ := List.getElem?_eq_some_iff.mp hu
    exact (closeTo_iff ..).not.mp (hlower i hi)
  · rintro ⟨r, hr, hclose, hlower⟩
    obtain ⟨hj, rfl⟩ := List.getElem?_eq_some_iff.mp hr
    exact ⟨hj, (closeTo_iff ..).mpr hclose, fun i hi =>
      (closeTo_iff ..).not.mpr (hlower i hi _ (List.getElem?_eq_getElem (hi.trans hj)))⟩

theorem findIdx?_closeTo_eq_none_iff {s : State} {reps : List Colour} {c : Colour} :
    reps.findIdx? (closeTo (tolerance s) c) = none ↔ ∀ u ∈ reps, ¬ withinTolerance s c u := by
  simp only [List.findIdx?_eq_none_iff, ← closeTo_iff, Bool.not_eq_true]

theorem clustered_iff {s : State} {px : Nat → Colour} {n : Nat} {reps : List Colour} {idx : Nat → Nat} :
    clustered s px n reps idx ↔ reps.length ≤ 4 ∧ (∀ k < n, FirstClose s reps (px k) (idx k)) ∧
      ∀ j r, reps[j]? = some r → ∃ m < n, px m = r ∧ idx m = j ∧ ∀ k < m, idx k < j := Iff.rfl

/-- The greedy pass finds for the pixels `k`, `k + 1`, … what a clustering of all of them says, once it has the
representatives of those before `k`, the first `m` (42 R171). -/
theorem clusterFrom_of_clustered {s : State} {px : Nat → Colour} {n : Nat} {reps : List Colour} {idx : Nat → Nat}
    (h : clustered s px n reps idx) {l k m : Nat} (hn : k + l = n) (hm : m ≤ reps.length) (hseen : ∀ i < k, idx i < m) :
    clusterFrom (tolerance s) ((List.range' k l).map px) (reps.take m) ((List.range k).map idx) =
      some (reps, (List.range n).map idx) := by
  obtain ⟨hfour, hindex, hfirst⟩ := clustered_iff.mp h
  induction l generalizing k m with
  | zero =>
    obtain rfl : k = n := hn
    have hall : reps.length ≤ m := by
      by_contra hlt
      obtain ⟨i, hi, -, rfl, -⟩ := hfirst m _ (List.getElem?_eq_getElem (Nat.not_le.mp hlt))
      exact (hseen i hi).false
    rw [List.take_of_length_le hall]
    rfl
  | succ l ih =>
    have hk : FirstClose s reps (px k) (idx k) := hindex k (by omega)
    have hidx : (List.range k).map idx ++ [idx k] = (List.range (k + 1)).map idx := by simp [List.range_succ]
    have hlen : (reps.take m).length = m := by rw [List.length_take, min_eq_left hm]
    rw [List.range'_succ, List.map_cons, clusterFrom]
    by_cases hold : idx k < m
    · have hfind : (reps.take m).findIdx? (closeTo (tolerance s) (px k)) = some (idx k) := by
        rw [findIdx?_closeTo_eq_some_iff, ← firstClose_append_iff (more := reps.drop m) (by rwa [hlen]), List.take_append_drop]
        exact hk
      rw [hfind]
      dsimp only
      rw [hidx]
      exact ih (by omega) hm fun i hi => (Nat.lt_succ_iff_lt_or_eq.mp hi).elim (hseen i) (· ▸ hold)
    · have hmlt : m < reps.length := (Nat.not_lt.mp hold).trans_lt hk.lt
      obtain ⟨i, hi, hpx, rfl, hbefore⟩ := hfirst m _ (List.getElem?_eq_getElem hmlt)
      obtain rfl : i = k := by
        rcases Nat.lt_trichotomy i k with hik | hik | hik
        · exact absurd (hseen i hik) (Nat.lt_irrefl _)
        · exact hik
        · exact absurd (hbefore k hik) hold
      have hfind : (reps.take (idx i)).findIdx? (closeTo (tolerance s) (px i)) = none := by
        rw [findIdx?_closeTo_eq_none_iff]
        intro u hu
        obtain ⟨j, hj, rfl⟩ := List.mem_take_iff_getElem.mp hu
        obtain ⟨r, -, -, hlower⟩ := hk
        exact hlower j (by omega) _ (List.getElem?_eq_getElem (by omega))
      rw [hfind]
      dsimp only
      rw [if_pos (by omega), hlen, hidx, hpx, List.take_append_getElem]
      exact ih (by omega) hmlt fun j hj => (Nat.lt_succ_iff_lt_or_eq.mp hj).elim
        (fun hlt => (hseen j hlt).trans (Nat.lt_succ_self _)) (· ▸ Nat.lt_succ_self _)

section Extend

variable {s : State} {px : Nat → Colour} {k : Nat} {reps : List Colour} {idx : Nat → Nat}

theorem withinTolerance_self (s : State) (c : Colour) : withinTolerance s c c := by simp [withinTolerance]

theorem clustered.congr (h : clustered s px k reps idx) {idx' : Nat → Nat} (heq : ∀ i < k, idx' i = idx i) :
    clustered s px k reps idx' := by
  obtain ⟨hfour, hindex, hfirst⟩ := clustered_iff.mp h
  refine clustered_iff.mpr ⟨hfour, fun i hi => heq i hi ▸ hindex i hi, fun j r hr => ?_⟩
  obtain ⟨m, hm, hpx, hj, hbefore⟩ := hfirst j r hr
  exact ⟨m, hm, hpx, (heq m hm).trans hj, fun i hi => (heq i (hi.trans hm)).trans_lt (hbefore i hi)⟩

/-- A pixel close to a representative takes the first such. -/
theorem clustered.join (h : clustered s px k reps idx) (hk : FirstClose s reps (px k) (idx k)) :
    clustered s px (k + 1) reps idx := by
  obtain ⟨hfour, hindex, hfirst⟩ := clustered_iff.mp h
  refine clustered_iff.mpr ⟨hfour, fun i hi => ?_, fun j r hr => ?_⟩
  · rcases Nat.lt_succ_iff_lt_or_eq.mp hi with hi | rfl
    · exact hindex i hi
    · exact hk
  · obtain ⟨m, hm, hrest⟩ := hfirst j r hr
    exact ⟨m, hm.trans (Nat.lt_succ_self k), hrest⟩

/-- A pixel close to none is a representative itself while there are fewer than four. -/
theorem clustered.found (h : clustered s px k reps idx) (hfew : reps.length < 4)
    (hnone : ∀ u ∈ reps, ¬ withinTolerance s (px k) u) (hk : idx k = reps.length) :
    clustered s px (k + 1) (reps ++ [px k]) idx := by
  obtain ⟨-, hindex, hfirst⟩ := clustered_iff.mp h
  refine clustered_iff.mpr ⟨by simpa using hfew, fun i hi => ?_, fun j r hr => ?_⟩
  · rcases Nat.lt_succ_iff_lt_or_eq.mp hi with hi | rfl
    · exact (firstClose_append_iff (hindex i hi).lt).mpr (hindex i hi)
    · refine ⟨px i, by simp [hk], withinTolerance_self s _, fun j hj u hu => hnone u ?_⟩
      rw [List.getElem?_append_left (hk ▸ hj)] at hu
      exact List.mem_of_getElem? hu
  · rcases Nat.lt_or_ge j reps.length with hj | hj
    · obtain ⟨m, hm, hrest⟩ := hfirst j r (by rwa [List.getElem?_append_left hj] at hr)
      exact ⟨m, hm.trans (Nat.lt_succ_self k), hrest⟩
    · obtain rfl : j = reps.length := by
        have := (List.getElem?_eq_some_iff.mp hr).1
        simp at this
        omega
      exact ⟨k, Nat.lt_succ_self k, by simpa using hr, hk, fun i hi => (hindex i hi).lt⟩

end Extend

/-- What the greedy pass has after the pixels below `k` is a clustering of them, and stays one (42 R171). -/
theorem clustered_of_clusterFrom {s : State} {px : Nat → Colour} {l k : Nat} {reps reps' : List Colour} {idx idx' : List Nat}
    (h : clusterFrom (tolerance s) ((List.range' k l).map px) reps idx = some (reps', idx')) (hlen : idx.length = k)
    (hk : clustered s px k reps (idx.getD · 0)) :
    idx'.length = k + l ∧ clustered s px (k + l) reps' (idx'.getD · 0) := by
  induction l generalizing k reps idx with
  | zero =>
    obtain ⟨rfl, rfl⟩ := Prod.mk.inj (Option.some.inj h)
    exact ⟨hlen, hk⟩
  | succ l ih =>
    have hadd (j : Nat) : (idx ++ [j]).length = k + 1 := by rw [List.length_append, hlen]; rfl
    have hold (j : Nat) : clustered s px k reps ((idx ++ [j]).getD · 0) :=
      hk.congr fun i hi => by rw [List.getD_append _ _ _ _ (hlen ▸ hi)]
    have hnew (j : Nat) : (idx ++ [j]).getD k 0 = j := by
      rw [List.getD_append_right _ _ _ _ hlen.le, hlen, Nat.sub_self]; rfl
    rw [List.range'_succ, List.map_cons, clusterFrom] at h
    rw [show k + (l + 1) = k + 1 + l by omega]
    split at h
    case h_1 j hfind => exact ih h (hadd j) ((hold j).join (by rw [hnew]; exact findIdx?_closeTo_eq_some_iff.mp hfind))
    case h_2 hfind =>
      split at h
      case isTrue hfew =>
        exact ih h (hadd _) ((hold _).found hfew (findIdx?_closeTo_eq_none_iff.mp hfind) (hnew _))
      case isFalse => cases h

/-- A block's clustering is the answer of the greedy pass (42 R171). -/
theorem cluster_of_clustered {s : State} {q : Sequencer} {reps : List Colour} {idx : Nat → Nat}
    (h : clustered s (sourcePixel s q) (blockPixels s.hdr.version) reps idx) :
    cluster (tolerance s) (sourceBlock s q) = some (reps, (List.range (blockPixels s.hdr.version)).map idx) := by
  have hnone : ∀ i < 0, idx i < 0 := fun i hi => absurd hi (Nat.not_lt_zero i)
  rw [cluster, sourceBlock_eq_map, ← clusterFrom_of_clustered h (Nat.zero_add _) (Nat.zero_le _) hnone, List.range_eq_range']
  rfl

/-- The greedy pass answers with a clustering of the block (42 R171). -/
theorem clustered_of_cluster {s : State} {q : Sequencer} {reps : List Colour} {idx : List Nat}
    (h : cluster (tolerance s) (sourceBlock s q) = some (reps, idx)) :
    idx.length = blockPixels s.hdr.version ∧
      clustered s (sourcePixel s q) (blockPixels s.hdr.version) reps (idx.getD · 0) := by
  rw [cluster, sourceBlock_eq_map, List.range_eq_range'] at h
  have hempty : clustered s (sourcePixel s q) 0 [] (([] : List Nat).getD · 0) := by simp [clustered]
  simpa only [Nat.zero_add] using clustered_of_clusterFrom h rfl hempty

/-! ## Packed indices -/

/-- Digit `j` of the number that a list of digits makes, most significant first. -/
theorem foldl_digit {b : Nat} (hb : 0 < b) (is : List Nat) (hlt : ∀ i ∈ is, i < b) {j : Nat} (hj : j < is.length) :
    is.foldl (fun acc i => acc * b + i) 0 / b ^ (is.length - 1 - j) % b = is[j] := by
  induction is using List.reverseRecOn with
  | nil => exact absurd hj (Nat.not_lt_zero j)
  | append_singleton is i ih =>
    have hi : i < b := hlt i (by simp)
    rw [List.foldl_append, List.foldl_cons, List.foldl_nil, List.length_append, List.length_singleton]
    rcases Nat.lt_or_ge j is.length with hj' | hj'
    · rw [show is.length + 1 - 1 - j = is.length - 1 - j + 1 by omega, Nat.pow_succ', ← Nat.div_div_eq_div_mul,
        Nat.mul_comm _ b, Nat.mul_add_div hb, Nat.div_eq_of_lt hi, Nat.add_zero, List.getElem_append_left hj']
      exact ih (fun i hi => hlt i (by simp [hi])) hj'
    · obtain rfl : j = is.length := by simp at hj; omega
      rw [Nat.add_sub_cancel, Nat.sub_self, Nat.pow_zero, Nat.div_one, Nat.mul_add_mod', Nat.mod_eq_of_lt hi,
        List.getElem_concat_length rfl]

theorem foldl_digits_lt {b : Nat} (is : List Nat) (hlt : ∀ i ∈ is, i < b) :
    is.foldl (fun acc i => acc * b + i) 0 < b ^ is.length := by
  induction is using List.reverseRecOn with
  | nil => exact Nat.one_pos
  | append_singleton is i ih =>
    have hi : i < b := hlt i (by simp)
    have hrest := ih fun i hi => hlt i (by simp [hi])
    rw [List.foldl_append, List.foldl_cons, List.foldl_nil, List.length_append, List.length_singleton, Nat.pow_succ]
    calc _ < (is.foldl (fun acc i => acc * b + i) 0 + 1) * b := by rw [Nat.succ_mul]; omega
      _ ≤ b ^ is.length * b := Nat.mul_le_mul_right b hrest

/-- A byte packed from as many indices as fill it holds each in its bits, most significant first (30 R101). -/
theorem packByte_digit {w : Nat} {is : List Nat} (hw : w * is.length = 8) (hlt : ∀ i ∈ is, i < 2 ^ w) {j : Nat}
    (hj : j < is.length) : ((packByte w is).toNat >>> (w * (is.length - 1 - j))) % 2 ^ w = is[j] := by
  have hbyte : is.foldl (fun acc i => acc * 2 ^ w + i) 0 < 2 ^ 8 := by
    rw [← hw, Nat.pow_mul]
    exact foldl_digits_lt is hlt
  rw [packByte, BitVec.toNat_ofNat, Nat.mod_eq_of_lt hbyte, Nat.shiftRight_eq_div_pow, Nat.pow_mul]
  exact foldl_digit (Nat.two_pow_pos w) is hlt hj

@[simp] theorem packIndices_length (w per m : Nat) (is : List Nat) : (packIndices w per m is).length = m := by
  induction m generalizing is with
  | zero => rfl
  | succ m ih => rw [packIndices, List.length_cons, ih]

theorem packIndices_getD (w per : Nat) {m i : Nat} (hi : i < m) (is : List Nat) :
    (packIndices w per m is).getD i 0 = packByte w ((is.drop (per * i)).take per) := by
  induction m generalizing is i with
  | zero => exact absurd hi (Nat.not_lt_zero i)
  | succ m ih =>
    cases i with
    | zero => rfl
    | succ i =>
      rw [packIndices, List.getD_cons_succ, ih (Nat.lt_of_succ_lt_succ hi), List.drop_drop, Nat.mul_succ, Nat.add_comm]

/-- Index `k` is read back from the byte and the bits it was packed in (30 R101). -/
theorem packIndices_digit {w per m : Nat} (hw : w * per = 8) {is : List Nat} (hlen : is.length = per * m)
    (hlt : ∀ i ∈ is, i < 2 ^ w) {k : Nat} (hk : k < is.length) :
    (((packIndices w per m is).getD (k / per) 0).toNat >>> (w * (per - 1 - k % per))) % 2 ^ w = is[k] := by
  have hper : 0 < per := Nat.pos_of_ne_zero (by rintro rfl; omega)
  have hbyte : k / per < m := Nat.div_lt_of_lt_mul (hlen ▸ hk)
  have hmod : k % per < per := Nat.mod_lt k hper
  have hroom : per * (k / per) + per ≤ is.length := by
    rw [hlen, ← Nat.mul_succ]
    exact Nat.mul_le_mul_left per hbyte
  have hpiece : ((is.drop (per * (k / per))).take per).length = per := by
    rw [List.length_take, List.length_drop]; omega
  have hdigit := packByte_digit (j := k % per) (hw.symm ▸ congrArg (w * ·) hpiece)
    (fun i hi => hlt i (List.mem_of_mem_drop (List.mem_of_mem_take hi))) (hpiece.symm ▸ hmod)
  rw [packIndices_getD w per hbyte]
  simpa only [hpiece, List.getElem_take, List.getElem_drop, Nat.div_add_mod] using hdigit

theorem vq2Index_packIndices {m : Nat} {is : List Nat} (hlen : is.length = 8 * m) (hlt : ∀ i ∈ is, i < 2) {k : Nat}
    (hk : k < is.length) : vq2Index (packIndices 1 8 m is) k = is[k] := by
  have hdigit := packIndices_digit (w := 1) (per := 8) rfl hlen hlt hk
  rwa [Nat.one_mul] at hdigit

theorem vq4Index_packIndices {m : Nat} {is : List Nat} (hlen : is.length = 4 * m) (hlt : ∀ i ∈ is, i < 4) {k : Nat}
    (hk : k < is.length) : vq4Index (packIndices 2 4 m is) k = is[k] := by
  have hdigit := packIndices_digit (w := 2) (per := 4) rfl hlen hlt hk
  rwa [show 2 * (4 - 1 - k % 4) = 6 - 2 * (k % 4) by omega] at hdigit

end Sys2Proof.Machine
end

section
/-! The decoder of the encoder's bitstream (42 R178, 43 R191): every code the classifier emits decodes to the reconstruction
that came with it, and so block by block the whole frame. -/

namespace Sys2Proof.Machine

/-! ## One block -/

/-- The sequencer once a classified block is reconstructed and its code passed (42 R178). -/
def rebuilt (s : State) (b : BlockCode) (q : Sequencer) : Sequencer where
  cur := writeBlock s.hdr q.blk b.pixels q.cur
  bspos := q.bspos + (encode b.code).length
  blk := q.blk + 1
  pred := b.pred

/-- The code can be emitted, and a decoder that meets it makes the reconstruction. -/
structure Rebuilds (s : State) (ftype : FrameType) (q : Sequencer) (b : BlockCode) : Prop where
  wellFormed : wellFormed (blockCtx s ftype) b.code = true
  language : languageOf (blockCtx s ftype) b.code = .block (blockCtx s ftype)
  apply : applyBlock s b.code q = .ok (rebuilt s b q)

/-- What a code that decodes leaves is the reconstruction if its pixels and `PRED` are: the cursors follow. -/
theorem applyBlock_eq_rebuilt {s : State} {b : BlockCode} {q t : Sequencer} (h : applyBlock s b.code q = .ok t)
    (hcur : t.cur = writeBlock s.hdr q.blk b.pixels q.cur) (hpred : t.pred = b.pred) :
    applyBlock s b.code q = .ok (rebuilt s b q) := by
  obtain ⟨hblk, hbspos, -⟩ := applyBlock_ok h
  rw [h, rebuilt, ← hcur, ← hbspos, ← hblk, ← hpred]

section Steps

variable {s : State} {ftype : FrameType} {q : Sequencer} {b : BlockCode}

theorem rebuilds_of_tryCopy (h : tryCopy s ftype q = some b) : Rebuilds s ftype q b := by
  obtain ⟨⟨rfl, -⟩, rfl⟩ := tryCopy_eq_some_iff.mp h
  exact ⟨rfl, rfl, applyBlock_eq_rebuilt rfl rfl rfl⟩

theorem rebuilds_of_tryFill (h : tryFill s q = some b) : Rebuilds s ftype q b := by
  obtain ⟨-, rfl⟩ := tryFill_eq_some_iff.mp h
  refine ⟨?_, rfl, applyBlock_eq_rebuilt rfl rfl rfl⟩
  simp only [fillCode, wellFormed, Bool.and_eq_true, Option.isNone_iff_eq_none]
  exact ⟨tagError_emitSelect s ftype _ rfl, emitOperand_fits ..⟩

/-- A neighbour that exists lies before the block, and the distance to it is not 0 (42 R167). -/
theorem neighbourBack_pos_le {h : HdrFields} {k j back : Nat} (hj : neighbourBack h k j back) : 0 < back ∧ back ≤ k := by
  have hrow : blocksPerRow h * (k / blocksPerRow h) + k % blocksPerRow h = k := Nat.div_add_mod k _
  have hle : 0 < k / blocksPerRow h → blocksPerRow h ≤ blocksPerRow h * (k / blocksPerRow h) := Nat.le_mul_of_pos_right _
  have hpos : 0 < k / blocksPerRow h → 0 < blocksPerRow h := fun hk => by
    by_contra hzero
    rw [Nat.le_zero.mp (Nat.not_lt.mp hzero), Nat.div_zero] at hk
    exact absurd hk (Nat.lt_irrefl 0)
  rcases hj with ⟨-, hx, rfl⟩ | ⟨-, hy, rfl⟩ | ⟨-, hy, hx, rfl⟩ | ⟨-, hy, hx, rfl⟩
  · exact ⟨Nat.one_pos, by omega⟩
  all_goals
    have := hle hy
    have := hpos hy
    omega

theorem rebuilds_of_tryIcopy (h : tryIcopy s q = some b) : Rebuilds s ftype q b := by
  obtain ⟨back, ⟨-, j, hback, ⟨hsmall, -⟩, -⟩, rfl⟩ := tryIcopy_eq_some_iff.mp h
  obtain ⟨hpos, hle⟩ := neighbourBack_pos_le hback
  have htoNat : (BitVec.ofNat 16 back).toNat = back := by rw [BitVec.toNat_ofNat]; omega
  refine ⟨?_, rfl, ?_⟩
  · cases ftype <;> rfl
  · refine applyBlock_eq_rebuilt (t := putBlock s 3 (icopyCode s q back).pixels q) ?_ rfl rfl
    simp only [icopyCode, applyBlock, icopyBlock, htoNat]
    rw [if_neg (by omega)]

/-- A block left to code lies in the frame's rows. -/
theorem blockY_add_height_le {h : HdrFields} {k : Nat} (hk : k < blockCount h) :
    blockY h k + blockHeight h.version ≤ h.height.toNat := by
  have hrow : k / blocksPerRow h < blockRows h := Nat.div_lt_of_lt_mul hk
  calc blockY h k + blockHeight h.version = (k / blocksPerRow h + 1) * blockHeight h.version := (Nat.succ_mul _ _).symm
    _ ≤ blockRows h * blockHeight h.version := Nat.mul_le_mul_right _ hrow
    _ ≤ h.height.toNat := Nat.div_mul_le_self _ _

/-- What the search answers for a block of the frame is as 41 R148 says. -/
theorem searchSound_of_blk_lt {k : Nat} (hk : k < blockCount s.hdr) :
    SearchSound s (blockX s.hdr k) (blockY s.hdr k) (threeStepSearch s (blockX s.hdr k) (blockY s.hdr k)) :=
  (SearchSound.centre (blockX_add_width_le hk) (blockY_add_height_le hk)).searchFrom (threeStepSearch_answers ..)

/-- A decoder that reads the vector off the code goes where the search went. -/
theorem motionBlock_eq_ok {v : Candidate} (hv : SearchSound s (blockX s.hdr q.blk) (blockY s.hdr q.blk) v) (len : Nat)
    (i : Instr) : motionBlock s len v.dx v.dy q =
      .ok { putBlock s len (motionBlockCode s q v i).pixels q with pred := predOf v.dx v.dy } := if_pos hv.inside

/-- `PMV`'s deltas lead from the predictor to the vector, `MV`'s bytes are the vector (42 R170). -/
theorem applyBlock_of_motionCoded {v : Candidate} {i : Instr} (hcoded : MotionCoded s q v i)
    (hv : SearchSound s (blockX s.hdr q.blk) (blockY s.hdr q.blk) v) :
    ∃ len, applyBlock s i q = motionBlock s len v.dx v.dy q := by
  have hrange : s.cfg.meRange.toNat < 128 := s.cfg.meRange.isLt
  have hcolumn := hv.column
  have hrow := hv.row
  rcases hcoded with ⟨⟨-, hxlo, hxhi, hylo, hyhi⟩, rfl⟩ | ⟨-, -, rfl⟩
  · have hx : predX q.pred + (BitVec.ofInt 4 (v.dx - predX q.pred)).toInt = v.dx := by
      rw [BitVec.toInt_ofInt, Int.bmod_eq_of_le (by omega) (by omega)]
      omega
    have hy : predY q.pred + (BitVec.ofInt 4 (v.dy - predY q.pred)).toInt = v.dy := by
      rw [BitVec.toInt_ofInt, Int.bmod_eq_of_le (by omega) (by omega)]
      omega
    refine ⟨2, ?_⟩
    simp only [applyBlock, pmvBlock, hx, hy]
    rw [if_neg]
    simp only [outsideI8, Bool.or_eq_true, decide_eq_true_eq]
    omega
  · refine ⟨3, ?_⟩
    rw [applyBlock, mvBlock, BitVec.toInt_ofInt, BitVec.toInt_ofInt, Int.bmod_eq_of_le (by omega) (by omega),
      Int.bmod_eq_of_le (by omega) (by omega)]

theorem rebuilds_of_tryMotion (hk : q.blk < blockCount s.hdr) (h : tryMotion s ftype q = some b) :
    Rebuilds s ftype q b := by
  obtain ⟨v, i, rfl, ⟨rfl, -⟩, hcoded, rfl⟩ := tryMotion_eq_some_iff.mp h
  have hv := searchSound_of_blk_lt hk
  obtain ⟨len, happly⟩ := applyBlock_of_motionCoded hcoded hv
  have hrebuilt := applyBlock_eq_rebuilt (b := motionBlockCode s q _ i) (happly.trans (motionBlock_eq_ok hv len i)) rfl rfl
  rcases hcoded with ⟨-, rfl⟩ | ⟨-, -, rfl⟩
  · exact ⟨rfl, rfl, hrebuilt⟩
  · exact ⟨rfl, rfl, hrebuilt⟩

/-- A block's pixels are a whole number of index bytes. -/
theorem blockPixels_div (version : Byte) :
    blockPixels version = 8 * (blockPixels version / 8) ∧ blockPixels version = 4 * (blockPixels version / 4) := by
  have := blockPixels_cases version
  omega

theorem rebuilds_vq2Code {reps : List Colour} {idx : List Nat} (hlen : idx.length = blockPixels s.hdr.version)
    (hlt : ∀ i ∈ idx, i < 2) : Rebuilds s ftype q (vq2Code s reps idx q) := by
  refine ⟨?_, rfl, applyBlock_eq_rebuilt rfl (congrArg (writeBlock s.hdr q.blk · q.cur) ?_) rfl⟩
  · simp only [vq2Code, wellFormed, Bool.and_eq_true, Option.isNone_iff_eq_none, beq_iff_eq, packIndices_length]
    exact ⟨⟨⟨tagError_emitSelect s ftype _ rfl, emitOperand_fits ..⟩, emitOperand_fits ..⟩, rfl⟩
  · refine List.ext_getElem (by simp [vq2Code, vqPixels, hlen]) fun k hk _ => ?_
    have hk : k < idx.length := by simpa [hlen] using hk
    have hindex := vq2Index_packIndices (hlen.trans (blockPixels_div s.hdr.version).1) hlt hk
    simp only [vq2Code, vqPixels, List.getElem_map, List.getElem_range, hindex]
    have := hlt _ (List.getElem_mem hk)
    interval_cases idx[k] <;> rfl

theorem rebuilds_vq4Code {reps : List Colour} {idx : List Nat} (hlen : idx.length = blockPixels s.hdr.version)
    (hlt : ∀ i ∈ idx, i < 4) : Rebuilds s ftype q (vq4Code s reps idx q) := by
  refine ⟨?_, rfl, applyBlock_eq_rebuilt rfl (congrArg (writeBlock s.hdr q.blk · q.cur) ?_) rfl⟩
  · simp only [vq4Code, wellFormed, Bool.and_eq_true, Option.isNone_iff_eq_none, beq_iff_eq, packIndices_length]
    exact ⟨⟨⟨⟨⟨tagError_emitSelect s ftype _ rfl, emitOperand_fits ..⟩, emitOperand_fits ..⟩, emitOperand_fits ..⟩,
      emitOperand_fits ..⟩, rfl⟩
  · refine List.ext_getElem (by simp [vq4Code, vqPixels, hlen]) fun k hk _ => ?_
    have hk : k < idx.length := by simpa [hlen] using hk
    have hindex := vq4Index_packIndices (hlen.trans (blockPixels_div s.hdr.version).2) hlt hk
    simp only [vq4Code, vqPixels, List.getElem_map, List.getElem_range, hindex]
    have := hlt _ (List.getElem_mem hk)
    interval_cases idx[k] <;> rfl

theorem rebuilds_of_tryVq (h : tryVq s q = some b) : Rebuilds s ftype q b := by
  obtain ⟨reps, idx, hcluster, hcode⟩ := tryVq_eq_some_iff.mp h
  obtain ⟨hlen, hclustered⟩ := clustered_of_cluster hcluster
  obtain ⟨hfour, hindex, -⟩ := clustered_iff.mp hclustered
  have hlt : ∀ i ∈ idx, i < reps.length := fun i hi => by
    obtain ⟨k, hk, rfl⟩ := List.getElem_of_mem hi
    simpa [hk] using (hindex k (hlen ▸ hk)).lt
  rcases hcode with ⟨⟨htwo, -⟩, rfl⟩ | ⟨-, -, rfl⟩
  · exact rebuilds_vq2Code hlen fun i hi => (hlt i hi).trans_le htwo
  · exact rebuilds_vq4Code hlen fun i hi => (hlt i hi).trans_le hfour

theorem rebuilds_normalCode (s : State) (ftype : FrameType) (q : Sequencer) : Rebuilds s ftype q (normalCode s q) := by
  refine ⟨?_, rfl, applyBlock_eq_rebuilt rfl (congrArg (writeBlock s.hdr q.blk · q.cur) List.map_map) rfl⟩
  simp only [normalCode, wellFormed, Bool.and_eq_true, Option.isNone_iff_eq_none, beq_iff_eq, List.length_map,
    sourceBlock_length, List.all_map, List.all_eq_true]
  exact ⟨⟨tagError_emitSelect s ftype _ rfl, rfl⟩, fun c _ => emitOperand_fits ..⟩

/-- Whatever step passes, the code emitted decodes to the reconstruction (42 R178). -/
theorem rebuilds_classify (hk : q.blk < blockCount s.hdr) : Rebuilds s ftype q (classify s ftype q) := by
  rcases classify_cases s ftype q with h | h | h | h | h | h
  · exact rebuilds_of_tryCopy h
  · exact rebuilds_of_tryFill h
  · exact rebuilds_of_tryIcopy h
  · exact rebuilds_of_tryMotion hk h
  · exact rebuilds_of_tryVq h
  · exact h ▸ rebuilds_normalCode s ftype q

end Steps

/-! ## The frame -/

/-- The encoder after `k` blocks (42 R178). -/
def packedAt (s : State) (ftype : FrameType) (k : Nat) : Packer := (packBlock s ftype)^[k] ⟨sequencerStart s, []⟩

theorem packedAt_succ (s : State) (ftype : FrameType) (k : Nat) :
    packedAt s ftype (k + 1) = packBlock s ftype (packedAt s ftype k) := Function.iterate_succ_apply' ..

theorem packBlocks_eq_iterate (s : State) (ftype : FrameType) (n : Nat) (p : Packer) :
    packBlocks s ftype n p = (packBlock s ftype)^[n] p := by
  induction n generalizing p with
  | zero => rfl
  | succ n ih => exact ih _

theorem packFrame_eq_packedAt (s : State) (ftype : FrameType) : packFrame ftype s = packedAt s ftype (blockCount s.hdr) :=
  packBlocks_eq_iterate ..

/-- The code of block `k` (42 R178). -/
def codeAt (s : State) (ftype : FrameType) (k : Nat) : Instr := (classify s ftype (packedAt s ftype k).q).code

/-- The codes of the first `k` blocks. -/
def codesTo (s : State) (ftype : FrameType) (k : Nat) : List Instr := (List.range k).map (codeAt s ftype)

theorem codesTo_succ (s : State) (ftype : FrameType) (k : Nat) :
    codesTo s ftype (k + 1) = codesTo s ftype k ++ [codeAt s ftype k] := by
  simp [codesTo, List.range_succ]

theorem take_codesTo (s : State) (ftype : FrameType) {k n : Nat} (hk : k ≤ n) :
    (codesTo s ftype n).take k = codesTo s ftype k := by
  rw [codesTo, ← List.map_take, List.take_range, min_eq_left hk, codesTo]

theorem packedAt_blk (s : State) (ftype : FrameType) (k : Nat) : (packedAt s ftype k).q.blk = k := by
  induction k with
  | zero => rfl
  | succ k ih => rw [packedAt_succ]; exact congrArg (· + 1) ih

theorem packedAt_bytes (s : State) (ftype : FrameType) (k : Nat) :
    (packedAt s ftype k).bytes = (codesTo s ftype k).flatMap encode := by
  induction k with
  | zero => rfl
  | succ k ih =>
    rw [packedAt_succ, codesTo_succ, List.flatMap_append, ← ih, List.flatMap_singleton]
    rfl

theorem packedAt_bspos (s : State) (ftype : FrameType) (k : Nat) :
    (packedAt s ftype k).q.bspos = ((codesTo s ftype k).flatMap encode).length := by
  induction k with
  | zero => rfl
  | succ k ih =>
    rw [packedAt_succ, codesTo_succ, List.flatMap_append, List.length_append, ← ih, List.flatMap_singleton]
    rfl

section Frame

variable {s : State} {ftype : FrameType} {k : Nat}

theorem rebuilds_codeAt (hk : k < blockCount s.hdr) :
    Rebuilds s ftype (packedAt s ftype k).q (classify s ftype (packedAt s ftype k).q) :=
  rebuilds_classify ((packedAt_blk s ftype k).trans_lt hk)

/-- A decoder goes from block to block as the encoder does. -/
theorem applyBlock_codeAt (hk : k < blockCount s.hdr) :
    applyBlock s (codeAt s ftype k) (packedAt s ftype k).q = .ok (packedAt s ftype (k + 1)).q := by
  rw [packedAt_succ]
  exact (rebuilds_codeAt hk).apply

theorem runCodes_codesTo (hk : k ≤ blockCount s.hdr) : runCodes s (codesTo s ftype k) = .ok (packedAt s ftype k).q := by
  induction k with
  | zero => rfl
  | succ k ih =>
    have hsofar : runCodes s (codesTo s ftype k) = .ok (packedAt s ftype k).q := ih (Nat.le_of_succ_le hk)
    rw [runCodes] at hsofar ⊢
    rw [codesTo_succ, List.foldlM_append, hsofar]
    exact (bind_pure _).trans (applyBlock_codeAt hk)

theorem bitstream_codesTo (hk : k ≤ blockCount s.hdr) :
    bitstream (blockCtx s ftype) (codesTo s ftype k) ((codesTo s ftype k).flatMap encode) := by
  refine ⟨fun i hi => ?_, rfl⟩
  obtain ⟨j, hj, rfl⟩ := List.mem_map.mp hi
  have hcode := rebuilds_codeAt (ftype := ftype) ((List.mem_range.mp hj).trans_le hk)
  exact ⟨hcode.wellFormed, hcode.language⟩

end Frame

/-! ## The decoder -/

/-- A piece of a buffer that holds a list. -/
theorem bytesAt_ofList_middle (s : State) (sp : Space) (pre piece post : List Byte) :
    bytesAt s sp (Memory.ofList 0 (pre ++ piece ++ post)) pre.length piece.length = piece := by
  have hall := bytesAt_ofList s sp (pre ++ piece ++ post)
  rw [List.length_append, List.length_append, bytesAt_append, bytesAt_append, Nat.zero_add] at hall
  have hboth := (List.append_inj hall (by simp)).1
  exact (List.append_inj hboth (by simp)).2

/-- Where a well-formed code stands at `BSPOS`, the sequencer fetches and performs it (43 R191). -/
theorem decodeOneBlock_of_code {s : State} {ftype : FrameType} {len : Nat} {q : Sequencer} {i : Instr} {rest : List Byte}
    (hwf : wellFormed (blockCtx s ftype) i = true) (hl : languageOf (blockCtx s ftype) i = .block (blockCtx s ftype))
    (hbytes : codeBytes s len q = encode i ++ rest) : decodeOneBlock s ftype len q = applyBlock s i q := by
  rw [decodeOneBlock, hbytes, decode_encode_block hl hwf]

theorem encode_length_le {ctx : BlockCtx} {i : Instr} (hl : languageOf ctx i = .block ctx) (hwf : wellFormed ctx i = true) :
    (encode i).length ≤ 129 := by
  cases i <;> cases hl
  case fill psel c => exact (Laws.EncodedLength.fill psel c ctx hwf).2
  case normal psel cs => exact (Laws.EncodedLength.normal psel cs ctx hwf).2
  case vq2 psel c0 c1 idx => exact (Laws.EncodedLength.vq2 psel c0 c1 idx ctx hwf).2
  case vq4 psel c0 c1 c2 c3 idx => exact (Laws.EncodedLength.vq4 psel c0 c1 c2 c3 idx ctx hwf).2
  all_goals simp [encode]

/-- The sequencer fetches a code that stands between others whole: no code is longer than a fetch (30 R97). -/
theorem codeBytes_of_code (s : State) {q : Sequencer} {bytes pre piece post : List Byte} (hbytes : bytes = pre ++ piece ++ post)
    (hq : q.bspos = pre.length) (hpiece : piece.length ≤ 129) :
    ∃ rest, codeBytes { s with bs := Memory.ofList 0 bytes } bytes.length q = piece ++ rest := by
  subst hbytes
  obtain ⟨more, hmore⟩ : ∃ more, min 129 ((pre ++ piece ++ post).length - q.bspos) = piece.length + more :=
    Nat.exists_eq_add_of_le (le_min hpiece (by simp [hq]))
  rw [codeBytes, hmore, bytesAt_append, hq, bytesAt_ofList_middle]
  exact ⟨_, rfl⟩

/-- No block code reads `BS`: its operands have been fetched. -/
theorem applyBlock_bs (s : State) (bs : ByteMemory) (i : Instr) (q : Sequencer) :
    applyBlock { s with bs := bs } i q = applyBlock s i q := by
  cases i
  case fill psel c => cases c <;> rfl
  all_goals rfl

/-- The frame's bitstream. -/
def frameBytes (s : State) (ftype : FrameType) : List Byte := (codesTo s ftype (blockCount s.hdr)).flatMap encode

/-- In the bitstream block `k`'s code stands behind those of the blocks before. -/
theorem frameBytes_split (s : State) (ftype : FrameType) {k : Nat} (hk : k < blockCount s.hdr) :
    ∃ post, frameBytes s ftype = (codesTo s ftype k).flatMap encode ++ encode (codeAt s ftype k) ++ post := by
  refine ⟨((codesTo s ftype (blockCount s.hdr)).drop (k + 1)).flatMap encode, ?_⟩
  rw [← List.flatMap_singleton encode, ← List.flatMap_append, ← List.flatMap_append, ← codesTo_succ,
    ← take_codesTo s ftype hk, List.take_append_drop, frameBytes]

/-- The decoder of the whole bitstream goes from block `k` to block `k + 1` as the encoder does. -/
theorem decodeOneBlock_packedAt {s : State} {ftype : FrameType} {k : Nat} (hk : k < blockCount s.hdr) :
    decodeOneBlock { s with bs := Memory.ofList 0 (frameBytes s ftype) } ftype (frameBytes s ftype).length
      (packedAt s ftype k).q = .ok (packedAt s ftype (k + 1)).q := by
  obtain ⟨hwf, hl, -⟩ := rebuilds_codeAt (ftype := ftype) hk
  obtain ⟨post, hsplit⟩ := frameBytes_split s ftype hk
  obtain ⟨rest, hcode⟩ := codeBytes_of_code s hsplit (packedAt_bspos s ftype k) (encode_length_le hl hwf)
  rw [decodeOneBlock_of_code (s := { s with bs := Memory.ofList 0 (frameBytes s ftype) }) hwf hl hcode, applyBlock_bs]
  exact applyBlock_codeAt hk

theorem decodeBlocks_packedAt {s : State} {ftype : FrameType} {k n : Nat} (hn : k + n = blockCount s.hdr) :
    decodeBlocks { s with bs := Memory.ofList 0 (frameBytes s ftype) } ftype (frameBytes s ftype).length n
      (packedAt s ftype k).q = .ok (packedAt s ftype (blockCount s.hdr)).q := by
  induction n generalizing k with
  | zero => rw [← hn]; rfl
  | succ n ih =>
    rw [decodeBlocks, decodeOneBlock_packedAt (by omega)]
    exact ih (by omega)

/-- Settles O48: by induction over the blocks the encoder's codes lead a decoder through the encoder's own states. The proof
needs no premise: in a frame whose size is no multiple of the block's, every counted block lies in the frame too. -/
theorem decoderRebuildsEncoderFrame : Obligations.DecoderRebuildsEncoderFrame := by
  intro s ftype _
  refine ⟨codesTo s ftype (blockCount s.hdr), (packedAt s ftype (blockCount s.hdr)).q, by simp [codesTo],
    bitstream_codesTo le_rfl, fun k hk => ⟨(packedAt s ftype k).q, ?_, ?_⟩, ?_, ?_, decodeBlocks_packedAt (Nat.zero_add _),
    packedAt_bspos .., packedAt_blk ..⟩
  · rw [take_codesTo s ftype hk.le]
    exact runCodes_codesTo hk.le
  · rw [codesTo, List.getElem?_map, List.getElem?_range hk]
    rfl
  · rw [packFrame_eq_packedAt, packedAt_bytes]
  · rw [packFrame_eq_packedAt, encodeFrame, packedAt_bytes, fillBs, withSequencer, packedAt_bspos, packedAt_blk]

end Sys2Proof.Machine
end

section
/-! The classifier and SKIP (42 R175): no step emits it, and bit 9 of `MODE_EN` is read by none. -/

namespace Sys2Proof.Machine

theorem classify_code_ne_skip (s : State) (ftype : FrameType) (q : Sequencer) : (classify s ftype q).code ≠ .skip := by
  rcases classify_cases s ftype q with h | h | h | h | h | h
  · rw [(tryCopy_eq_some_iff.mp h).2]; nofun
  · rw [(tryFill_eq_some_iff.mp h).2]; nofun
  · obtain ⟨back, -, hb⟩ := tryIcopy_eq_some_iff.mp h
    rw [hb]; nofun
  · obtain ⟨v, i, -, -, hcoded, hb⟩ := tryMotion_eq_some_iff.mp h
    rw [hb]
    rcases hcoded with ⟨-, rfl⟩ | ⟨-, -, rfl⟩ <;> nofun
  · obtain ⟨reps, idx, -, ⟨-, hb⟩ | ⟨-, -, hb⟩⟩ := tryVq_eq_some_iff.mp h <;> rw [hb] <;> nofun
  · rw [h]; nofun

/-! ## `MODE_EN` -/

/-- The state with another `MODE_EN`. -/
def withModeEn (v : BitVec 10) (s : State) : State := { s with cfg := { s.cfg with modeEn := v } }

section ModeEn

variable (v : BitVec 10) (s : State)

@[simp] theorem withModeEn_hdr : (withModeEn v s).hdr = s.hdr := rfl

@[simp] theorem withModeEn_prev : (withModeEn v s).prev = s.prev := rfl

@[simp] theorem withModeEn_mvThresh : (withModeEn v s).cfg.mvThresh = s.cfg.mvThresh := rfl

@[simp] theorem withModeEn_meStep : (withModeEn v s).cfg.meStep = s.cfg.meStep := rfl

@[simp] theorem tolerance_withModeEn : tolerance (withModeEn v s) = tolerance s := rfl

@[simp] theorem sourceBlock_withModeEn : sourceBlock (withModeEn v s) = sourceBlock s := rfl

@[simp] theorem readBlock_withModeEn : readBlock (withModeEn v s) = readBlock s := rfl

@[simp] theorem blockSad_withModeEn : blockSad (withModeEn v s) = blockSad s := rfl

@[simp] theorem emitSelect_withModeEn : emitSelect (withModeEn v s) = emitSelect s := rfl

@[simp] theorem emitOperand_withModeEn : emitOperand (withModeEn v s) = emitOperand s := rfl

@[simp] theorem emitted_withModeEn : emitted (withModeEn v s) = emitted s := by
  funext psel c
  unfold emitted
  rw [emitOperand_withModeEn]
  cases emitOperand s psel c <;> rfl

@[simp] theorem searchStep_withModeEn : searchStep (withModeEn v s) = searchStep s := rfl

@[simp] theorem searchLoop_withModeEn (ox oy fuel step : Nat) (c : Candidate) :
    searchLoop (withModeEn v s) ox oy fuel step c = searchLoop s ox oy fuel step c := by
  induction fuel generalizing step c with
  | zero => rfl
  | succ fuel ih => simp only [searchLoop, searchStep_withModeEn, ih]

@[simp] theorem threeStepSearch_withModeEn (ox oy : Nat) :
    threeStepSearch (withModeEn v s) ox oy = threeStepSearch s ox oy := by
  simp only [threeStepSearch, blockSad_withModeEn, searchLoop_withModeEn, withModeEn_meStep]

variable {v s} (h : ∀ m < 9, modeEnabled (withModeEn v s) m = modeEnabled s m)

include h

theorem tryCopy_withModeEn : tryCopy (withModeEn v s) = tryCopy s := by
  funext ftype q
  simp [tryCopy, h 3]

theorem tryFill_withModeEn : tryFill (withModeEn v s) = tryFill s := by
  funext q
  simp [tryFill, h 1]

theorem tryIcopy_withModeEn : tryIcopy (withModeEn v s) = tryIcopy s := by
  funext q
  have hfirst (l : List Nat) : firstNeighbour (withModeEn v s) q l = firstNeighbour s q l := by
    rw [firstNeighbour_eq_find?, firstNeighbour_eq_find?]
    rfl
  simp [tryIcopy, h 4, hfirst]

theorem tryMotion_withModeEn : tryMotion (withModeEn v s) = tryMotion s := by
  funext ftype q
  have hcode (dx dy : Int) : motionCode (withModeEn v s) q dx dy = motionCode s q dx dy := by
    simp [motionCode, h 5, h 6]
  simp [tryMotion, hcode]

theorem tryVq_withModeEn : tryVq (withModeEn v s) = tryVq s := by
  funext q
  have hpixels : vqPixels (withModeEn v s) = vqPixels s := by
    funext psel reps idx
    simp [vqPixels]
  simp [tryVq, vq2Code, vq4Code, hpixels, h 7, h 8]

/-- The classifier reads no bit of `MODE_EN` but 1 to 8. -/
theorem classify_withModeEn : classify (withModeEn v s) = classify s := by
  funext ftype q
  have hnormal : normalCode (withModeEn v s) q = normalCode s q := by simp [normalCode]
  rw [classify, tryCopy_withModeEn h, tryFill_withModeEn h, tryIcopy_withModeEn h, tryMotion_withModeEn h,
    tryVq_withModeEn h, hnormal, classify]

end ModeEn

/-- Bit 9 is no other mode's. -/
theorem modeEnabled_flip_skip (s : State) {m : Nat} (hm : m < 9) :
    modeEnabled (withModeEn (s.cfg.modeEn ^^^ 0x200) s) m = modeEnabled s m := by
  have hbit : (0x200 : BitVec 10).getLsbD m = false := by interval_cases m <;> rfl
  rw [modeEnabled, withModeEn, BitVec.getLsbD_xor, hbit, Bool.xor_false, modeEnabled]

/-- Settles O46: no step's code is SKIP, the steps read other bits of `MODE_EN`, and SKIP's encoding decodes. -/
theorem skipNeverEmitted : Obligations.SkipNeverEmitted := by
  refine ⟨fun s ftype q => ⟨classify_code_ne_skip s ftype q, ?_⟩, fun version rest => ?_⟩
  · exact congrFun (congrFun (classify_withModeEn fun m hm => modeEnabled_flip_skip s hm) ftype) q
  · exact decode_encode_block (i := .skip) rfl rfl rest

end Sys2Proof.Machine
end

section
/-! The order of the classifier's steps (42 R164) and the colour operands it emits (42 R176). -/

namespace Sys2Proof.Machine

/-! ## The operands emitted -/

/-- The least distance is what the search of the table finds (40 R121). -/
theorem leastDistance_iff {s : State} {second : Bool} {c : Colour} {d : Nat} :
    leastDistance s second c d ↔ d = (nearest (paletteAt s second) c).2 := by
  have hspec := nearest_spec (paletteAt s second) c
  generalize nearest (paletteAt s second) c = found at hspec ⊢
  obtain ⟨hdist, hlt, hmin, -⟩ := hspec
  constructor
  · rintro ⟨⟨i, hi, rfl⟩, hleast⟩
    exact le_antisymm ((hleast _ hlt).trans_eq hdist.symm) (hmin i hi)
  · rintro rfl
    exact ⟨⟨_, hlt, hdist.symm⟩, hmin⟩

/-- Outside profile 0 an operand is the lowest index of the least distance (42 R176). -/
theorem emitOperand_index {s : State} (hprofile : paletteProfile s.hdr.version ≠ 0) (psel : Bool) (c : Colour) :
    ∃ i : Byte, emitOperand s psel c = .index i ∧ leastDistance s psel c (dist1 (paletteAt s psel i.toNat) c) ∧
      ∀ j < i.toNat, dist1 (paletteAt s psel i.toNat) c < dist1 (paletteAt s psel j) c := by
  obtain ⟨hdist, hlt, -, hlow⟩ := nearest_spec (paletteAt s psel) c
  have hindex : (BitVec.ofNat 8 (nearest (paletteAt s psel) c).1).toNat = (nearest (paletteAt s psel) c).1 :=
    Nat.mod_eq_of_lt hlt
  refine ⟨BitVec.ofNat 8 (nearest (paletteAt s psel) c).1, if_neg hprofile, ?_⟩
  rw [hindex, leastDistance_iff, ← hdist]
  exact ⟨rfl, hlow⟩

/-- The table selected and the operands of the colours are those of R176. -/
theorem emits_emitOperand (s : State) (cols : List Colour) :
    emits s (emitSelect s cols) cols (cols.map (emitOperand s (emitSelect s cols))) := by
  unfold emits
  split
  case isTrue hprofile =>
    refine ⟨by simp [emitSelect, hprofile], List.map_congr_left fun c _ => if_pos hprofile⟩
  case isFalse hprofile =>
    refine ⟨fun e he => ?_, ?_⟩
    · have hsum (second : Bool) : (cols.map (e second)).sum = tableError s second cols :=
        congrArg List.sum (List.map_congr_left fun c _ => leastDistance_iff.mp (he second c))
      rw [hsum, hsum, emitSelect, Bool.and_eq_true, beq_iff_eq, decide_eq_true_eq]
    · rw [List.forall₂_map_right_iff, List.forall₂_same]
      exact fun c _ => emitOperand_index hprofile _ c

/-! ## The search's vector -/

section Search

variable {s : State} {ox oy n : Nat} {c d e : Candidate}

/-- One step of the search has one answer: the first of the cheapest neighbours (41 R144, R146). -/
theorem bestNeighbour_unique (hd : bestNeighbour s ox oy n c d) (he : bestNeighbour s ox oy n c e) : d = e := by
  rcases hd with ⟨rfl, hstay⟩ | ⟨k, hk, hlt, hmin, rfl⟩ <;> rcases he with ⟨rfl, hstay'⟩ | ⟨j, hj, hlt', hmin', rfl⟩
  · rfl
  · exact absurd hlt' (Nat.not_lt.mpr (hstay j hj))
  · exact absurd hlt (Nat.not_lt.mpr (hstay' k hk))
  · obtain rfl : k = j := by
      rcases Nat.lt_trichotomy k j with hkj | hkj | hkj
      · exact absurd ((hmin' k hk).2 hkj) (Nat.not_lt.mpr (hmin j hj).1)
      · exact hkj
      · exact absurd ((hmin j hj).2 hkj) (Nat.not_lt.mpr (hmin' k hk).1)
    rfl

theorem searchFrom_unique (hd : SearchFrom s ox oy n c d) (he : SearchFrom s ox oy n c e) : d = e := by
  induction hd with
  | ended c =>
    cases he with
    | ended => rfl
    | step _ _ _ _ hpos => exact absurd hpos (Nat.lt_irrefl 0)
  | step n c m d hpos hm _ ih =>
    cases he with
    | ended => exact absurd hpos (Nat.lt_irrefl 0)
    | step _ _ m' _ _ hm' he => exact ih (bestNeighbour_unique hm hm' ▸ he)

theorem eq_threeStepSearch (hd : searchAnswers s ox oy d) : d = threeStepSearch s ox oy :=
  searchFrom_unique hd (threeStepSearch_answers s ox oy)

end Search

/-! ## Each step's turn -/

section Turn

variable {s : State} {ftype : FrameType} {q : Sequencer}

theorem tryCopy_eq_none (h : ¬ Copies s ftype q) : tryCopy s ftype q = none :=
  Option.eq_none_iff_forall_ne_some.mpr fun _ hb => h (tryCopy_eq_some_iff.mp hb).1

theorem tryFill_eq_none (h : ¬ Fills s q) : tryFill s q = none :=
  Option.eq_none_iff_forall_ne_some.mpr fun _ hb => h (tryFill_eq_some_iff.mp hb).1

theorem tryIcopy_eq_none (h : ∀ back, ¬ Refers s q back) : tryIcopy s q = none :=
  Option.eq_none_iff_forall_ne_some.mpr fun _ hb => by
    obtain ⟨back, hrefers, -⟩ := tryIcopy_eq_some_iff.mp hb
    exact h back hrefers

theorem tryMotion_eq_none {v : Candidate} (hv : searchAnswers s (blockX s.hdr q.blk) (blockY s.hdr q.blk) v)
    (h : ¬ Moves s ftype q v) : tryMotion s ftype q = none :=
  Option.eq_none_iff_forall_ne_some.mpr fun _ hb => by
    obtain ⟨_, i, rfl, hmoves, -⟩ := tryMotion_eq_some_iff.mp hb
    exact h (eq_threeStepSearch hv ▸ hmoves)

theorem classify_of_copies (h : Copies s ftype q) : (classify s ftype q).code = .copy := by
  have hcopy := tryCopy_eq_some_iff.mpr ⟨h, rfl⟩
  simp [classify, hcopy]

theorem classify_of_fills (hcopy : ¬ Copies s ftype q) (h : Fills s q) :
    classify s ftype q = fillCode s (sourcePixel s q 0) q := by
  have hfill := tryFill_eq_some_iff.mpr ⟨h, rfl⟩
  simp [classify, tryCopy_eq_none hcopy, hfill]

theorem classify_of_refers (hcopy : ¬ Copies s ftype q) (hfill : ¬ Fills s q) {back : Nat} (h : Refers s q back) :
    (classify s ftype q).code = .icopy (BitVec.ofNat 16 back) := by
  have hicopy := tryIcopy_eq_some_iff.mpr ⟨back, h, rfl⟩
  simp [classify, tryCopy_eq_none hcopy, tryFill_eq_none hfill, hicopy, icopyCode]

variable (hcopy : ¬ Copies s ftype q) (hfill : ¬ Fills s q) (hicopy : ∀ back, ¬ Refers s q back) {v : Candidate}
  (hv : searchAnswers s (blockX s.hdr q.blk) (blockY s.hdr q.blk) v)

include hcopy hfill hicopy

theorem classify_eq_motion_or : classify s ftype q = ((tryMotion s ftype q).or (tryVq s q)).getD (normalCode s q) := by
  simp [classify, tryCopy_eq_none hcopy, tryFill_eq_none hfill, tryIcopy_eq_none hicopy]

include hv

theorem classify_of_moves (h : Moves s ftype q v) {i : Instr} (hi : MotionCoded s q v i) : (classify s ftype q).code = i := by
  have hmotion := tryMotion_eq_some_iff.mpr ⟨v, i, eq_threeStepSearch hv, h, hi, rfl⟩
  simp [classify_eq_motion_or hcopy hfill hicopy, hmotion, motionBlockCode]

variable (hmoves : ¬ Moves s ftype q v)

include hmoves

theorem classify_eq_vq_or : classify s ftype q = (tryVq s q).getD (normalCode s q) := by
  rw [classify_eq_motion_or hcopy hfill hicopy, tryMotion_eq_none hv hmoves, Option.none_or]

/-- No representatives that a VQ mode would take: every pixel is coded. -/
theorem classify_of_no_vq (h : ∀ reps idx, clustered s (sourcePixel s q) (blockPixels s.hdr.version) reps idx →
    ¬ TakesVq2 s reps ∧ ¬ s.cfg.modeEn.getLsbD 8 = true) : classify s ftype q = normalCode s q := by
  have hvq : tryVq s q = none := Option.eq_none_iff_forall_ne_some.mpr fun _ hb => by
    obtain ⟨reps, idx, hcluster, hcode⟩ := tryVq_eq_some_iff.mp hb
    obtain ⟨hnot2, hnot4⟩ := h reps _ (clustered_of_cluster hcluster).2
    rcases hcode with ⟨htwo, -⟩ | ⟨-, hfour, -⟩
    · exact hnot2 htwo
    · exact hnot4 hfour
  rw [classify_eq_vq_or hcopy hfill hicopy hv hmoves, hvq, Option.getD_none]

variable {reps : List Colour} {idx : Nat → Nat}
  (hclustered : clustered s (sourcePixel s q) (blockPixels s.hdr.version) reps idx)

include hclustered

theorem classify_of_takesVq2 (h : TakesVq2 s reps) :
    classify s ftype q = vq2Code s reps ((List.range (blockPixels s.hdr.version)).map idx) q := by
  have hvq := tryVq_eq_some_iff.mpr ⟨reps, _, cluster_of_clustered hclustered, .inl ⟨h, rfl⟩⟩
  rw [classify_eq_vq_or hcopy hfill hicopy hv hmoves, hvq, Option.getD_some]

theorem classify_of_takesVq4 (h : ¬ TakesVq2 s reps) (hfour : s.cfg.modeEn.getLsbD 8 = true) :
    classify s ftype q = vq4Code s reps ((List.range (blockPixels s.hdr.version)).map idx) q := by
  have hvq := tryVq_eq_some_iff.mpr ⟨reps, _, cluster_of_clustered hclustered, .inr ⟨h, hfour, rfl⟩⟩
  rw [classify_eq_vq_or hcopy hfill hicopy hv hmoves, hvq, Option.getD_some]

end Turn

/-! ## VQ operands and indices -/

/-- Missing representatives repeat the last one (42 R172). -/
theorem padReps_eq_map {n : Nat} {reps : List Colour} (h : reps.length ≤ n) :
    padReps n reps = (List.range n).map fun j => reps.getD j (reps.getLastD Colour.black) := by
  refine List.ext_getElem (by simp [padReps]; omega) fun j hj _ => ?_
  simp only [padReps, List.getElem_map, List.getElem_range, List.getElem_append, List.getElem_replicate,
    List.getD_eq_getElem?_getD]
  split <;> simp_all

section Vq

variable {s : State} {px : Nat → Colour} {n m : Nat} {reps : List Colour} {idx : Nat → Nat} (h : clustered s px n reps idx)

include h

/-- Bit `k` of VQ2's index bytes tells which of two representatives pixel `k` takes (30 R101). -/
theorem vq2_bits (hn : n = 8 * m) (htwo : reps.length ≤ 2) {k : Nat} (hk : k < n) :
    ((packIndices 1 8 m ((List.range n).map idx)).getD (k / 8) 0).getMsbD (k % 8) = decide (idx k = 1) := by
  obtain ⟨-, hindex, -⟩ := clustered_iff.mp h
  have hlt : ∀ i ∈ (List.range n).map idx, i < 2 := by simpa using fun i hi => (hindex i hi).lt.trans_le htwo
  have hdigit := vq2Index_packIndices (by simpa using hn) hlt (k := k) (by simpa using hk)
  rw [vq2Index_eq, List.getElem_map, List.getElem_range] at hdigit
  rw [← hdigit]
  cases ((packIndices 1 8 m _).getD (k / 8) 0).getMsbD (k % 8) <;> rfl

/-- The two bits of pixel `k` in VQ4's index bytes make its representative's number (30 R101). -/
theorem vq4_bits (hn : n = 4 * m) {k : Nat} (hk : k < n) :
    ((packIndices 2 4 m ((List.range n).map idx)).getD (k / 4) 0).getMsbD (2 * (k % 4)) = decide (2 ≤ idx k) ∧
    ((packIndices 2 4 m ((List.range n).map idx)).getD (k / 4) 0).getMsbD (2 * (k % 4) + 1) = decide (idx k % 2 = 1) := by
  obtain ⟨hfour, hindex, -⟩ := clustered_iff.mp h
  have hlt : ∀ i ∈ (List.range n).map idx, i < 4 := by simpa using fun i hi => (hindex i hi).lt.trans_le hfour
  have hdigit := vq4Index_packIndices (by simpa using hn) hlt (k := k) (by simpa using hk)
  rw [vq4Index_eq, List.getElem_map, List.getElem_range] at hdigit
  rw [← hdigit]
  cases ((packIndices 2 4 m _).getD (k / 4) 0).getMsbD (2 * (k % 4)) <;>
    cases ((packIndices 2 4 m _).getD (k / 4) 0).getMsbD (2 * (k % 4) + 1) <;> exact ⟨rfl, rfl⟩

end Vq

/-- Settles O47: step by step, each taken where none before it passes. -/
theorem classifierTakesFirstStep : Obligations.ClassifierTakesFirstStep := by
  intro s ftype q v n ox oy hv px enabled code copies fills close refers ddx ddy fits moves pads two
  refine ⟨classify_of_copies, fun hcopy hfill => ?_, fun hcopy hfill back => classify_of_refers hcopy hfill,
    fun hcopy hfill hicopy hmoves => ?_, fun hcopy hfill hicopy hmoves reps idx hclustered => ?_,
    fun hcopy hfill hicopy hmoves hnone => ?_⟩
  · have hcode : classify s ftype q = fillCode s (px 0) q := classify_of_fills hcopy hfill
    exact ⟨_, _, congrArg BlockCode.code hcode, emits_emitOperand s [px 0]⟩
  · have hturn := fun i => classify_of_moves (i := i) hcopy hfill hicopy hv hmoves
    exact ⟨fun hfits => hturn _ (.inl ⟨hfits, rfl⟩),
      fun hnot => hturn _ (.inr ⟨hnot, (Moves.enabled hmoves).resolve_left hnot, rfl⟩)⟩
  · refine ⟨fun htwo => ?_, fun hnot hfour => ?_⟩
    · have hcode := classify_of_takesVq2 hcopy hfill hicopy hv hmoves hclustered htwo
      refine ⟨_, _, _, _, congrArg BlockCode.code hcode, ?_, packIndices_length ..,
        fun k hk => vq2_bits hclustered (blockPixels_div _).1 htwo.1 hk⟩
      have hemits := emits_emitOperand s (pads reps 2)
      rw [padReps_eq_map htwo.1]
      exact hemits
    · have hcode := classify_of_takesVq4 hcopy hfill hicopy hv hmoves hclustered hnot hfour
      refine ⟨_, _, _, _, _, _, congrArg BlockCode.code hcode, ?_, packIndices_length ..,
        fun k hk => vq4_bits hclustered (blockPixels_div _).2 hk⟩
      have hemits := emits_emitOperand s (pads reps 4)
      rw [padReps_eq_map hclustered.1]
      exact hemits
  · have hcode : classify s ftype q = normalCode s q := classify_of_no_vq hcopy hfill hicopy hv hmoves hnone
    exact ⟨_, _, congrArg BlockCode.code hcode, emits_emitOperand s (sourceBlock s q)⟩

end Sys2Proof.Machine
end

section
/-! What the block codes that copy pixels do (43 R197 to R200, R203): the block they copy, and the raise where there is none. -/

namespace Sys2Proof.Machine

/-! ## A code run by itself -/

/-- What a bitstream's raise leaves of the sequencer (60 R311, R318; log 13). -/
theorem takeError_bitstreamCorrupt (s : State) (q : Sequencer) (blk : Nat) :
    takeError .bitstream s (withSequencer q s) (bitstreamCorrupt blk) = { s with
      cur := []
      bs := []
      cb := []
      epoch := s.epoch + 1
      bspos := saturate q.bspos
      blk := saturate q.blk
      pred := q.pred
      err := 0x304
      errInfo := BitVec.ofNat 32 blk
      status := { s.status with errf := true, vdone := videoDone s } } := by
  simp only [takeError, recordError, raiseEffect, bitstreamCorrupt, scrubFrame, withSequencer]
  rfl

section Run

variable {s : State} {r : FrameRun} (h : fetchesBlock s r) {i : Instr} {mode : Nat} {psel : Bool}
  (hexec : exec i s = runBlock s mode psel (applyBlock s i)) (ht : tagError (blockCtx s r.ftype) mode psel = none)
include h hexec ht

/-- A code with a legal tag that goes on leaves the sequencer's part in the state (43 R191). -/
theorem exec_of_applyBlock_ok {q : Sequencer} (happly : applyBlock s i (sequencerOf s) = .ok q) :
    exec i s = .next (withSequencer q s) := by
  obtain ⟨hact, hblk⟩ := h
  simp [hexec, runBlock, hact, hblk, ht, happly]

/-- A code with a legal tag that raises past its `len` bytes ends the frame decode at its block (60 R311, R318). -/
theorem exec_of_applyBlock_error {len : Nat} (happly : applyBlock s i (sequencerOf s) = .error (advance len (sequencerOf s))) :
    ∃ t, exec i s = .next t ∧ blockRaised s t len := by
  obtain ⟨hact, hblk⟩ := h
  have hraise : exec i s = raiseFrameRun s (advance len (sequencerOf s)) := by
    simp [hexec, runBlock, hact, hblk, ht, happly]
  refine ⟨_, hraise, ?_⟩
  rw [takeError_bitstreamCorrupt, show (advance len (sequencerOf s)).blk = s.blk.toNat from rfl, saturate_ofToNat,
    BitVec.ofNat_toNat, BitVec.setWidth_eq]
  rfl

end Run

/-! ## Codes that copy a block -/

theorem readBlock_getElem? (s : State) (sp : Space) (m : Memory Colour) (ox oy : Nat) :
    ∀ n < blockPixels s.hdr.version,
      (readBlock s sp m ox oy)[n]? = some (colourAt s sp m (blockPixelAddr s.hdr ox oy n)) := fun n hn => by
  rw [readBlock, List.getElem?_map, List.getElem?_range hn]
  rfl

/-- A code with a legal tag that puts a block read elsewhere copies that block's pixels, each to its own place. -/
theorem exec_copiedBlock {s : State} {r : FrameRun} (h : fetchesBlock s r) {i : Instr} {mode len : Nat} {sp : Space}
    {m : Memory Colour} {ox oy : Nat} (hexec : exec i s = runBlock s mode false (applyBlock s i))
    (ht : tagError (blockCtx s r.ftype) mode false = none)
    (happly : applyBlock s i (sequencerOf s) = .ok (putBlock s len (readBlock s sp m ox oy) (sequencerOf s))) :
    ∃ t, exec i s = .next t ∧ blockWritten s t (encode i).length s.pred fun n =>
      colourAt s sp m (blockPixelAddr s.hdr ox oy n) :=
  exec_putBlock h hexec ht happly (readBlock_length s sp m ox oy) (readBlock_getElem? s sp m ox oy)

/-- Settles O20: both codes put the block read from `PREV` at the block's own place. -/
theorem copyAndSkipCopyPrevious : Obligations.CopyAndSkipCopyPrevious := by
  rintro s r i h hinter (rfl | rfl)
  · exact exec_copiedBlock (i := .copy) h rfl (by rw [hinter]; rfl) rfl
  · exact exec_copiedBlock (i := .skip) h rfl (by rw [hinter]; rfl) rfl

/-- `ICOPY`'s tag is legal in both frame types (30 R96). -/
theorem tagError_icopy (ctx : BlockCtx) : tagError ctx 4 false = none := by simp [tagError, modeIsInter]

/-- Settles O21: a reference to an earlier block passes the check, and that block of `CUR` is read before the write. -/
theorem icopyCopiesEarlierBlock : Obligations.IcopyCopiesEarlierBlock := by
  intro s r back h hback hle
  have hback : back.toNat ≠ 0 := fun h0 => hback (BitVec.eq_of_toNat_eq h0)
  exact exec_copiedBlock (i := .icopy back) h rfl (tagError_icopy _) (if_neg (not_or.mpr ⟨hback, hle.not_gt⟩))

/-! ## Motion -/

theorem predOf_toInt (dx dy : Byte) : predOf dx.toInt dy.toInt = dy ++ dx := by
  rw [predOf, BitVec.ofInt_toInt, BitVec.ofInt_toInt]

/-- The predictor is no part of what `blockWritten` says of the pixels and the cursors. -/
theorem blockWritten.withPred {s t : State} {len : Nat} {pred : BitVec 16} {px : Nat → Colour}
    (h : blockWritten s t len pred px) (pred' : BitVec 16) : blockWritten s { t with pred := pred' } len pred' px :=
  ⟨congrArg (fun x : State => { x with pred := pred' }) h.1, h.2⟩

/-- A code that moves by a vector inside the frame copies the displaced block of `PREV` and sets the predictor (43 R199). -/
theorem exec_motionBlock {s : State} {r : FrameRun} (h : fetchesBlock s r) {i : Instr} {mode len : Nat} {dx dy : Byte}
    (hexec : exec i s = runBlock s mode false (applyBlock s i)) (ht : tagError (blockCtx s r.ftype) mode false = none)
    (happly : applyBlock s i (sequencerOf s) = motionBlock s len dx.toInt dy.toInt (sequencerOf s))
    (hin : insideFrame s.hdr (blockX s.hdr s.blk.toNat + dx.toInt) (blockY s.hdr s.blk.toNat + dy.toInt) = true) :
    ∃ t, exec i s = .next t ∧ blockWritten s t len (dy ++ dx) fun n =>
      colourAt s .prev s.prev (blockPixelAddr s.hdr (blockX s.hdr s.blk.toNat + dx.toInt).toNat
        (blockY s.hdr s.blk.toNat + dy.toInt).toNat n) := by
  refine ⟨_, exec_of_applyBlock_ok h hexec ht (happly.trans (if_pos hin)), ?_⟩
  rw [predOf_toInt]
  exact (blockWritten_putBlock h len (readBlock_length ..) (readBlock_getElem? _ _ _ _ _)).withPred _

/-- A sum of the predictor and the deltas that a byte holds is inside -128..127 (43 R200). -/
theorem outsideI8_toInt (v : Byte) : outsideI8 v.toInt = false := by
  have := BitVec.toInt_lt (x := v)
  have := BitVec.le_toInt (x := v)
  simp only [outsideI8, Bool.or_eq_false_iff, decide_eq_false_iff_not]
  omega

/-- Settles O22: `MV` carries its vector, `PMV`'s is the predictor plus the deltas, and either moves by it. -/
theorem motionCopiesDisplacedBlock : Obligations.MotionCopiesDisplacedBlock := by
  intro s r h hinter
  refine ⟨fun dx dy hin => ?_, fun ddx ddy dx dy hdx hdy hin => ?_⟩
  · exact exec_motionBlock (i := .mv dx dy) (mode := 5) h rfl (by rw [hinter]; rfl) rfl hin
  · refine exec_motionBlock (i := .pmv ddx ddy) (mode := 6) h rfl (by rw [hinter]; rfl) ?_ hin
    have hx : predX s.pred + ddx.toInt = dx.toInt := hdx.symm
    have hy : predY s.pred + ddy.toInt = dy.toInt := hdy.symm
    show pmvBlock s ddx ddy (sequencerOf s) = _
    rw [pmvBlock, show (sequencerOf s).pred = s.pred from rfl, hx, hy, outsideI8_toInt, outsideI8_toInt]
    rfl

/-! ## Codes out of range -/

/-- A vector that leaves the frame raises past the code's bytes (43 R199). -/
theorem motionBlock_outside {s : State} {len : Nat} {dx dy : Int} {q : Sequencer}
    (hout : insideFrame s.hdr (blockX s.hdr q.blk + dx) (blockY s.hdr q.blk + dy) = false) :
    motionBlock s len dx dy q = .error (advance len q) := if_neg (by rw [hout]; decide)

theorem outsideI8_iff {v : Int} : outsideI8 v = true ↔ v < -128 ∨ 127 < v := by simp [outsideI8]

/-- Settles O24: each range check fails before a pixel is written, past the bytes of the code. -/
theorem blockCodesRaise : Obligations.BlockCodesRaise := by
  intro s r h
  refine ⟨fun back hback => ?_, fun hinter dx dy hout => ?_, fun hinter ddx ddy hbad => ?_⟩
  · have hcheck : back.toNat = 0 ∨ s.blk.toNat < back.toNat := hback.imp_left fun h0 => by rw [h0]; rfl
    exact exec_of_applyBlock_error (i := .icopy back) h rfl (tagError_icopy _) (if_pos hcheck)
  · exact exec_of_applyBlock_error (i := .mv dx dy) (mode := 5) h rfl (by rw [hinter]; rfl) (motionBlock_outside hout)
  · refine exec_of_applyBlock_error (i := .pmv ddx ddy) (mode := 6) h rfl (by rw [hinter]; rfl) ?_
    show pmvBlock s ddx ddy (sequencerOf s) = _
    unfold pmvBlock
    dsimp only
    split
    · rfl
    · next hsum =>
      simp only [Bool.or_eq_true, outsideI8_iff, not_or] at hsum
      obtain ⟨⟨hxlow, hxhigh⟩, hylow, hyhigh⟩ := hsum
      exact motionBlock_outside ((((hbad.resolve_left hxlow).resolve_left hxhigh).resolve_left hylow).resolve_left hyhigh)

end Sys2Proof.Machine
end
section
/-! How far the decoder of block codes looks (43 R192): a mode's operands are read from the 128 bytes behind the tag, so no more
than the 129 bytes the sequencer fetches matter, and a refusal has fetched no more than there is. -/

namespace Sys2Proof

/-- The same place with more bytes behind. -/
def Rest.extend (more : List Byte) (r : Rest) : Rest := ⟨r.bytes ++ more, r.used⟩

/-- A fetch that depends on the first `n` bytes only: more bytes behind them change its result by `ext` alone; and where it
refuses it has fetched no more than there was. -/
structure Reads {β : Type} (n : Nat) (ext : List Byte → β → β) (f : Rest → Except Reject β) : Prop where
  extend : ∀ r more, n ≤ r.bytes.length → f (r.extend more) = (f r).map (ext more)
  used_le : ∀ r e, f r = .error e → e.used ≤ r.used + r.bytes.length

/-- A fetch that goes on hands the bytes behind it on. -/
def passOn {α : Type} (more : List Byte) (p : α × Rest) : α × Rest := (p.1, p.2.extend more)

/-- The last operation's answer says nothing of the bytes behind. -/
def forget {β : Type} (_ : List Byte) (b : β) : β := b

theorem Reads.mono {β : Type} {n m : Nat} {ext : List Byte → β → β} {f : Rest → Except Reject β} (h : Reads n ext f)
    (hnm : n ≤ m) : Reads m ext f := ⟨fun r more hm => h.extend r more (hnm.trans hm), h.used_le⟩

/-- A fetch of at most `n` bytes and a rest that reads `m`. -/
theorem Reads.bind {α β : Type} {n m : Nat} {ext : List Byte → β → β} {f : Rest → Except Reject (α × Rest)}
    {k : α × Rest → Except Reject β} (hf : Reads n passOn f)
    (hok : ∀ {r t a}, f r = .ok (a, t) → ∃ bytes, Consumed r bytes t ∧ bytes.length ≤ n)
    (hk : ∀ a, Reads m ext fun r => k (a, r)) : Reads (n + m) ext fun r => f r >>= k where
  extend r more hlen := by
    rw [hf.extend r more (by omega)]
    cases hr : f r with
    | error e => rfl
    | ok p =>
      obtain ⟨bytes, ⟨hbytes, -⟩, hn⟩ := hok hr
      rw [hbytes, List.length_append] at hlen
      exact (hk p.1).extend p.2 more (by omega)
  used_le r e he := by
    cases hr : f r with
    | error e' =>
      rw [hr] at he
      obtain rfl : e' = e := Except.error.inj he
      exact hf.used_le r e' hr
    | ok p =>
      obtain ⟨bytes, ⟨hbytes, hused⟩, -⟩ := hok hr
      rw [hr] at he
      have := (hk p.1).used_le p.2 e he
      rw [hbytes, List.length_append]
      omega

/-! ## The fetches -/

theorem reads_pure {α : Type} (a : α) : Reads 0 passOn fun r => .ok (a, r) := ⟨fun _ _ _ => rfl, fun _ _ h => by cases h⟩

theorem reads_answer (i : Instr) : Reads 0 forget fun r => .ok (i, r.used) := ⟨fun _ _ _ => rfl, fun _ _ h => by cases h⟩

theorem reads_fetchBytes (n : Nat) : Reads n passOn (fetchBytes n) where
  extend r more hlen := by
    rw [fetchBytes, fetchBytes, if_neg (by rw [Rest.extend, List.length_append]; omega), if_neg (by omega), Rest.extend,
      List.take_append_of_le_length hlen, List.drop_append_of_le_length hlen]
    rfl
  used_le r e he := by
    unfold fetchBytes at he
    split at he
    · obtain rfl := Except.error.inj he
      exact Nat.le_add_right ..
    · cases he

theorem reads_fetchColour (version : Byte) : Reads 2 passOn (fetchColour version) where
  extend r more hlen := by
    obtain ⟨lo, hi, rest, hbytes⟩ : ∃ lo hi rest, r.bytes = lo :: hi :: rest := by
      match hr : r.bytes, hlen with
      | lo :: hi :: rest, _ => exact ⟨lo, hi, rest, rfl⟩
    simp only [fetchColour, Rest.extend, hbytes, List.cons_append]
    split
    · split <;> rfl
    · rfl
  used_le r e he := by
    unfold fetchColour at he
    split at he
    · split at he
      · next lo hi rest hbytes =>
        split at he
        · obtain rfl := Except.error.inj he
          simp [hbytes]
        · cases he
      · obtain rfl := Except.error.inj he
        exact Nat.le_add_right ..
    · split at he
      · cases he
      · obtain rfl := Except.error.inj he
        exact Nat.le_add_right ..

theorem consumed_of_fetchBytes {n : Nat} {r t : Rest} {b : List Byte} (h : fetchBytes n r = .ok (b, t)) :
    ∃ bytes, Consumed r bytes t ∧ bytes.length ≤ n :=
  have ⟨hlen, hcon⟩ := fetchBytes_eq_ok h
  ⟨b, hcon, hlen.le⟩

theorem consumed_of_fetchColour {version : Byte} {r t : Rest} {c : ColourOp} (h : fetchColour version r = .ok (c, t)) :
    ∃ bytes, Consumed r bytes t ∧ bytes.length ≤ 2 :=
  ⟨encodeColour c, (fetchColour_eq_ok h).2, (encodeColour_length c).2⟩

theorem consumed_of_fetchColours {version : Byte} {n : Nat} {r t : Rest} {cs : List ColourOp}
    (h : fetchColours version n r = .ok (cs, t)) : ∃ bytes, Consumed r bytes t ∧ bytes.length ≤ 2 * n :=
  have ⟨hlen, _, hcon⟩ := fetchColours_eq_ok h
  ⟨_, hcon, hlen ▸ flatMap_encodeColour_length cs⟩

theorem reads_fetchColours (version : Byte) (n : Nat) : Reads (2 * n) passOn (fetchColours version n) := by
  induction n with
  | zero => exact reads_pure []
  | succ n ih =>
    exact ((reads_fetchColour version).bind consumed_of_fetchColour fun c =>
      ih.bind consumed_of_fetchColours fun cs => reads_pure (c :: cs)).mono (by omega)

/-! ## Block codes -/

/-- The longest operands are `NORMAL`'s 64 colours of two bytes (30 R97). -/
theorem reads_decodeOperands (ctx : BlockCtx) (mode : Nat) (psel : Bool) :
    Reads 128 forget fun r => decodeOperands ctx mode psel r := by
  have hpixels : blockPixels ctx.version ≤ 64 := by rcases blockPixels_cases ctx.version with h | h | h | h <;> omega
  have hcolour := reads_fetchColour ctx.version
  match mode with
  | 1 => exact (hcolour.bind consumed_of_fetchColour fun _ => reads_answer _).mono (by omega)
  | 2 => exact ((reads_fetchColours ctx.version _).bind consumed_of_fetchColours fun _ => reads_answer _).mono (by omega)
  | 3 => exact (reads_answer .copy).mono (by omega)
  | 4 => exact ((reads_fetchBytes 2).bind consumed_of_fetchBytes fun _ => reads_answer _).mono (by omega)
  | 5 => exact ((reads_fetchBytes 2).bind consumed_of_fetchBytes fun _ => reads_answer _).mono (by omega)
  | 6 => exact ((reads_fetchBytes 1).bind consumed_of_fetchBytes fun _ => reads_answer _).mono (by omega)
  | 7 =>
    exact (hcolour.bind consumed_of_fetchColour fun _ => hcolour.bind consumed_of_fetchColour fun _ =>
      (reads_fetchBytes _).bind consumed_of_fetchBytes fun _ => reads_answer _).mono (by omega)
  | 8 =>
    exact (hcolour.bind consumed_of_fetchColour fun _ => hcolour.bind consumed_of_fetchColour fun _ =>
      hcolour.bind consumed_of_fetchColour fun _ => hcolour.bind consumed_of_fetchColour fun _ =>
      (reads_fetchBytes _).bind consumed_of_fetchBytes fun _ => reads_answer _).mono (by omega)
  | 9 => exact (reads_answer .skip).mono (by omega)
  | 0 | _ + 10 =>
    refine ⟨fun _ _ _ => rfl, fun r e he => ?_⟩
    obtain rfl := Except.error.inj he
    exact Nat.le_add_right ..

/-- The sequencer's fetch of 129 bytes decodes as all that follows would. -/
theorem decode_block_take (ctx : BlockCtx) (bytes : List Byte) :
    decode (.block ctx) (bytes.take 129) = decode (.block ctx) bytes := by
  cases bytes with
  | nil => rfl
  | cons t rest =>
    have hops (mode : Nat) (psel : Bool) :
        decodeOperands ctx mode psel ⟨rest.take 128, 1⟩ = decodeOperands ctx mode psel ⟨rest, 1⟩ := by
      rcases le_or_gt rest.length 128 with hshort | hlong
      · rw [List.take_of_length_le hshort]
      · have hread := (reads_decodeOperands ctx mode psel).extend ⟨rest.take 128, 1⟩ (rest.drop 128)
          (by rw [List.length_take]; omega)
        rw [Rest.extend, List.take_append_drop] at hread
        rw [hread]
        cases decodeOperands ctx mode psel ⟨rest.take 128, 1⟩ <;> rfl
    simp only [List.take_succ_cons, decode, decodeBlock, hops]

/-- A refused block code has fetched no more bytes than there are. -/
theorem decode_block_used_le {ctx : BlockCtx} {bytes : List Byte} {e : Reject} (h : decode (.block ctx) bytes = .error e) :
    e.used ≤ bytes.length := by
  cases bytes with
  | nil => obtain rfl := Except.error.inj h; exact Nat.le_refl 0
  | cons t rest =>
    have htag : 1 ≤ (t :: rest).length := Nat.succ_pos _
    simp only [decode, decodeBlock] at h
    split at h
    · obtain rfl := Except.error.inj h; exact htag
    · split at h
      · obtain rfl := Except.error.inj h; exact htag
      · have := (reads_decodeOperands ctx _ _).used_le _ _ h
        rw [List.length_cons]
        exact this.trans (Nat.add_comm 1 _).le

/-- Where no well-formed code stands the decoder refuses. -/
theorem decode_block_refuses {ctx : BlockCtx} {bytes : List Byte}
    (h : ∀ (i : Instr) (more : List Byte), wellFormed ctx i = true → languageOf ctx i = .block ctx → bytes ≠ encode i ++ more) :
    ∃ e, decode (.block ctx) bytes = .error e := by
  cases hd : decode (.block ctx) bytes with
  | error e => exact ⟨e, rfl⟩
  | ok p =>
    obtain ⟨hwf, hl, hbytes, -⟩ := decodedBlocksAreWellFormed ctx bytes p.1 p.2 hd
    exact absurd (by rw [← hbytes, List.take_append_drop]) (h p.1 (bytes.drop p.2) hwf hl)

/-- A block code has a tag. -/
theorem encode_length_pos {ctx : BlockCtx} {i : Instr} (hl : languageOf ctx i = .block ctx) (hwf : wellFormed ctx i = true) :
    0 < (encode i).length := by
  refine List.length_pos_of_ne_nil fun hnil => ?_
  have hread := decode_encode_block hl hwf []
  rw [hnil] at hread
  cases hread

end Sys2Proof
end

section
/-! DECODE_BS (43 R191, R204; 46 R279): the loop follows the codes that stand in `BS`, and where none stands, one raises or bytes
are left over, it raises there. -/

namespace Sys2Proof.Machine

/-! ## One code -/

/-- A part of a buffer's bytes. -/
theorem bytesAt_eq_take_drop (s : State) (sp : Space) (m : ByteMemory) {a n len : Nat} (h : a + n ≤ len) :
    bytesAt s sp m a n = ((bytesAt s sp m 0 len).drop a).take n := by
  obtain ⟨k, rfl⟩ := Nat.exists_eq_add_of_le h
  rw [bytesAt_append, bytesAt_append, Nat.zero_add, List.append_assoc, List.drop_left' (bytesAt_length ..),
    List.take_left' (bytesAt_length ..)]

/-- The code the sequencer decodes is the one that starts the bytes from `BSPOS` on. -/
theorem decode_codeBytes (s : State) (ctx : BlockCtx) {len : Nat} {q : Sequencer} (hq : q.bspos ≤ len) :
    decode (.block ctx) (codeBytes s len q) = decode (.block ctx) ((bytesAt s .bs s.bs 0 len).drop q.bspos) := by
  have hlength : ((bytesAt s .bs s.bs 0 len).drop q.bspos).length = len - q.bspos := by
    rw [List.length_drop, bytesAt_length]
  rw [codeBytes, bytesAt_eq_take_drop s .bs s.bs (len := len) (by omega), ← hlength, ← List.take_take, List.take_length,
    decode_block_take]

/-- Past a code that raises, `BSPOS` stands no further than at its end. -/
theorem applyBlock_error_bspos {s : State} {i : Instr} {q u : Sequencer} (h : applyBlock s i q = .error u) :
    u.bspos ≤ q.bspos + (encode i).length := by
  cases i <;> simp only [applyBlock, fillBlock, normalBlock, copyBlock, skipBlock, vq2Block, vq4Block, reduceCtorEq] at h
  case icopy back =>
    unfold icopyBlock at h
    split at h
    · obtain rfl := Except.error.inj h; exact Nat.le_refl _
    · cases h
  case mv dx dy =>
    simp only [mvBlock, motionBlock] at h
    split at h
    · cases h
    · obtain rfl := Except.error.inj h; exact Nat.le_refl _
  case pmv ddx ddy =>
    simp only [pmvBlock, motionBlock] at h
    split at h
    · obtain rfl := Except.error.inj h; exact Nat.le_refl _
    · split at h
      · cases h
      · obtain rfl := Except.error.inj h; exact Nat.le_refl _
  all_goals obtain rfl := Except.error.inj h; exact Nat.le_add_right ..

/-! ## The codes in order -/

section Loop

variable {s : State} {ftype : FrameType} {len : Nat}

/-- The loop from a place where `codes` stand runs them, and goes on behind them (43 R191). -/
theorem decodeBlocks_of_codes {codes : List Instr} {rest : List Byte} {p q : Sequencer}
    (hcodes : ∀ i ∈ codes, wellFormed (blockCtx s ftype) i = true ∧ languageOf (blockCtx s ftype) i = .block (blockCtx s ftype))
    (hp : p.bspos ≤ len) (hbytes : (bytesAt s .bs s.bs 0 len).drop p.bspos = codes.flatMap encode ++ rest)
    (hrun : codes.foldlM (fun q i => applyBlock s i q) p = .ok q) :
    q.bspos = p.bspos + (codes.flatMap encode).length ∧ q.blk = p.blk + codes.length ∧
      ∀ m, decodeBlocks s ftype len (codes.length + m) p = decodeBlocks s ftype len m q := by
  induction codes generalizing p with
  | nil =>
    obtain rfl := Except.ok.inj hrun
    exact ⟨rfl, rfl, fun m => by rw [List.length_nil, Nat.zero_add]⟩
  | cons i codes ih =>
    obtain ⟨⟨hwf, hl⟩, hcodes⟩ := List.forall_mem_cons.mp hcodes
    rw [List.foldlM_cons] at hrun
    cases happly : applyBlock s i p with
    | error u => rw [happly] at hrun; cases hrun
    | ok t =>
      rw [happly] at hrun
      obtain ⟨hblk, hbspos, -⟩ := applyBlock_ok happly
      rw [List.flatMap_cons, List.append_assoc] at hbytes
      have hturn : decodeOneBlock s ftype len p = .ok t := by
        rw [decodeOneBlock, decode_codeBytes s _ hp, hbytes, decode_encode_block hl hwf]
        exact happly
      have hend : t.bspos ≤ len := by
        have hlength := congrArg List.length hbytes
        rw [List.length_drop, bytesAt_length, List.length_append] at hlength
        omega
      obtain ⟨hq, hqblk, hloop⟩ := ih hcodes hend
        (by rw [hbspos, ← List.drop_drop, hbytes, List.drop_left]) hrun
      refine ⟨?_, ?_, fun m => ?_⟩
      · rw [hq, hbspos, List.flatMap_cons, List.length_append, Nat.add_assoc]
      · rw [hqblk, hblk, List.length_cons]; omega
      · rw [List.length_cons, show codes.length + 1 + m = (codes.length + m) + 1 by omega, decodeBlocks, hturn]
        exact hloop m

/-- Every code has a tag, so a bitstream has no more codes than bytes. -/
theorem length_le_of_bitstream {ctx : BlockCtx} {codes : List Instr} {bytes : List Byte} (h : bitstream ctx codes bytes) :
    codes.length ≤ bytes.length := by
  obtain ⟨hcodes, rfl⟩ := h
  rw [List.length_flatMap, ← List.length_map (f := fun i => (encode i).length)]
  refine List.length_le_sum_of_one_le _ fun n hn => ?_
  obtain ⟨i, hi, rfl⟩ := List.mem_map.mp hn
  exact encode_length_pos (hcodes i hi).2 (hcodes i hi).1

/-- The loop's state behind the codes that begin a bitstream: the cursors, the bytes there, and the rest of the loop. -/
structure Reaches (s : State) (ftype : FrameType) (len : Nat) (codes : List Instr) (rest : List Byte) (q : Sequencer) :
    Prop where
  bspos : q.bspos = (codes.flatMap encode).length
  blk : q.blk = codes.length
  bytes : (bytesAt s .bs s.bs 0 len).drop q.bspos = rest
  length : q.bspos + rest.length = len
  count : codes.length ≤ q.bspos
  loop : ∀ m, decodeBlocks s ftype len (codes.length + m) (sequencerStart s) = decodeBlocks s ftype len m q

theorem reaches_of_frameBegins {codes : List Instr} {rest : List Byte} {q : Sequencer}
    (h : frameBegins s ftype (bytesAt s .bs s.bs 0 len) codes rest q) : Reaches s ftype len codes rest q := by
  obtain ⟨hstream, hbytes, hrun⟩ := h
  obtain ⟨hq, hblk, hloop⟩ := decodeBlocks_of_codes (p := sequencerStart s) hstream.1 (Nat.zero_le len) hbytes hrun
  have hbspos : q.bspos = (codes.flatMap encode).length := hq.trans (Nat.zero_add _)
  have hlength := congrArg List.length hbytes
  rw [bytesAt_length, List.length_append, ← hbspos] at hlength
  exact ⟨hbspos, hblk.trans (Nat.zero_add _), by rw [hbytes, hbspos, List.drop_left], hlength.symm,
    hbspos ▸ length_le_of_bitstream hstream, hloop⟩

/-! ## The frame -/

/-- A bitstream of exactly the frame's codes decodes to their sequencer (43 R191, R204). -/
theorem decodeFrame_of_frameBegins (hlen : len < 2 ^ 32) {codes : List Instr} {q : Sequencer}
    (h : frameBegins s ftype (bytesAt s .bs s.bs 0 len) codes [] q) (hcount : codes.length = blockCount s.hdr) :
    decodeFrame ftype len s = .done () (withSequencer q s) := by
  have hq := reaches_of_frameBegins h
  have hend : q.bspos = len := hq.length
  have hloop := hq.loop 0
  rw [Nat.add_zero, hcount] at hloop
  rw [decodeFrame, hloop]
  exact if_pos (by rw [withSequencer_bspos, saturate_toNat]; omega)

/-- The loop's raise is the frame's. -/
theorem decodeFrame_of_error {u : Sequencer}
    (h : decodeBlocks s ftype len (blockCount s.hdr) (sequencerStart s) = .error u) :
    decodeFrame ftype len s = .raised (bitstreamCorrupt u.blk) (withSequencer u s) := by rw [decodeFrame, h]

/-- A code's turn that raises ends the loop. -/
theorem Reaches.decodeFrame_of_turn {codes : List Instr} {rest : List Byte} {q u : Sequencer}
    (hq : Reaches s ftype len codes rest q) (hleft : codes.length < blockCount s.hdr)
    (hturn : decodeOneBlock s ftype len q = .error u) :
    decodeFrame ftype len s = .raised (bitstreamCorrupt u.blk) (withSequencer u s) := by
  obtain ⟨m, hm⟩ := Nat.exists_eq_add_of_lt hleft
  refine decodeFrame_of_error ?_
  rw [hm, Nat.add_assoc, hq.loop, decodeBlocks, hturn]

/-- What the sequencer decodes behind those codes is what starts the rest. -/
theorem Reaches.decode_codeBytes {codes : List Instr} {rest : List Byte} {q : Sequencer}
    (hq : Reaches s ftype len codes rest q) (ctx : BlockCtx) :
    decode (.block ctx) (codeBytes s len q) = decode (.block ctx) rest := by
  rw [Machine.decode_codeBytes s ctx (Nat.le.intro hq.length), hq.bytes]

/-- A bitstream that raises does so at its block, with the cursor and the predictor it names (43 R192, R204; 60 R311). -/
theorem decodeFrame_of_frameRaises (hlen : len < 2 ^ 32) {blk bspos : Nat} {pred : BitVec 16}
    (h : FrameRaises s ftype (bytesAt s .bs s.bs 0 len) blk bspos pred) :
    ∃ cur, blk ≤ len ∧ bspos ≤ len ∧
      decodeFrame ftype len s = .raised (bitstreamCorrupt blk) (withSequencer ⟨cur, bspos, blk, pred⟩ s) := by
  cases h with
  | leftOver codes rest q hbegins hcount hrest =>
    have hq := reaches_of_frameBegins hbegins
    have hpos := List.length_pos_of_ne_nil hrest
    have hlength := hq.length
    have hcodes := hq.count
    have hloop := hq.loop 0
    rw [Nat.add_zero, hcount] at hloop
    refine ⟨q.cur, by omega, by rw [← hq.bspos]; omega, ?_⟩
    have hblk : (withSequencer q s).blk.toNat = blockCount s.hdr := by
      rw [withSequencer_blk, saturate_toNat, hq.blk, hcount]; omega
    rw [decodeFrame, hloop, ← hq.bspos]
    simp only [decodeBlocks, frameEnd, hblk]
    rw [if_neg (by rw [withSequencer_bspos, saturate_toNat]; omega), ← hcount, ← hq.blk]
  | refused codes rest q used hbegins hleft hnone hused =>
    have hq := reaches_of_frameBegins hbegins
    obtain ⟨e, he⟩ := decode_block_refuses hnone
    obtain rfl := hused e he
    have := decode_block_used_le he
    have hlength := hq.length
    have hcodes := hq.count
    refine ⟨q.cur, by omega, by rw [← hq.bspos]; omega, ?_⟩
    have hturn : decodeOneBlock s ftype len q = .error (advance e.used q) := by
      rw [decodeOneBlock, hq.decode_codeBytes, he]
    rw [hq.decodeFrame_of_turn hleft hturn, ← hq.bspos, ← hq.blk]
    rfl
  | raised codes i more q u hbegins hleft hwf hl happly =>
    have hq := reaches_of_frameBegins hbegins
    obtain ⟨hcur, hblk, hpred⟩ := applyBlock_error happly
    have := applyBlock_error_bspos happly
    have hlength := hq.length
    have hcodes := hq.count
    rw [List.length_append] at hlength
    refine ⟨u.cur, by omega, by omega, ?_⟩
    have hturn : decodeOneBlock s ftype len q = .error u := by
      rw [decodeOneBlock, hq.decode_codeBytes, decode_encode_block hl hwf]
      exact happly
    rw [hq.decodeFrame_of_turn hleft hturn, ← hq.blk, ← hblk]

end Loop

/-! ## The command -/

theorem execDecodeBs_of_frame {s : State} {ftype : FrameType} (hadmit : admits .decodeBs s.session = true)
    (htype : frameTypeOf s.arg.x0.toNat = some ftype) :
    exec .decodeBs s = .next (finish .bitstream s
      ((decodeFrame ftype s.bslen.toNat s).bind fun _ t => bitstreamDone ftype t)) := by
  have ha : admitBitstream s.session = true := by revert hadmit; cases s.session <;> decide
  have hop : decodeBsOp s = (decodeFrame ftype s.bslen.toNat s).bind fun _ t => bitstreamDone ftype t := by
    rw [decodeBsOp, show argNat s 0 = s.arg.x0.toNat from rfl, htype]
  rw [← hop]
  exact runCommand_admitted ha

/-- Settles O25: the loop runs the codes of a whole bitstream to its end, and raises where a bitstream does; the registers take
the cursors exactly, since neither passes `BSLEN`. -/
theorem decodeBsRunsTheCodes : Obligations.DecodeBsRunsTheCodes := by
  intro s ftype hadmit htype
  have hlen : s.bslen.toNat < 2 ^ 32 := s.bslen.isLt
  rw [execDecodeBs_of_frame hadmit htype]
  refine ⟨fun codes q hbegins hcount => ?_, fun blk bspos pred hraises => ?_⟩
  · have hq := reaches_of_frameBegins (len := s.bslen.toNat) hbegins
    have hend : q.bspos = s.bslen.toNat := hq.length
    have hcodes := hq.count
    have hblk := hq.blk
    rw [decodeFrame_of_frameBegins hlen hbegins hcount, Run.bind_done]
    have hregs : withSequencer q s =
        { s with cur := q.cur, bspos := s.bslen, blk := BitVec.ofNat 32 (blockCount s.hdr), pred := q.pred } := by
      rw [withSequencer, hend, saturate_ofToNat, saturate_of_lt (by omega), hblk, hcount]
    rw [hregs, bitstreamDone, finish_done, setRes0, saturate_of_lt (by rw [← hcount]; omega)]
    cases ftype <;> simp [commit, commitStatus]
  · obtain ⟨cur, hblk, hbspos, hframe⟩ := decodeFrame_of_frameRaises hlen hraises
    rw [hframe, Run.bind_raised, finish_raised, takeError_bitstreamCorrupt, saturate_of_lt (by dsimp only; omega),
      saturate_of_lt (by dsimp only; omega)]

end Sys2Proof.Machine
end

section
/-! Raises (60 R316 to R318): what each command has written where it raises, the session its raise leaves, and that a raise outside
the seeks leaves the reference frames, the palettes, the offset table and the positions. -/

namespace Sys2Proof.Machine

/-! ## What a raise must leave -/

/-- What later frames are decoded against and found by: the reference frames with their status bits, the palettes, the offset
table, the positions and the header (60 R318). -/
structure References where
  prev : Memory Colour
  key : Memory Colour
  pal0 : Memory Colour
  pal1 : Memory Colour
  ot : List OtEntry
  frameCtr : Word
  fpos : Word
  hdr : HdrFields
  fvalid : Bool
  lastkey : Bool
  stale : Bool

/-- The references a state holds. -/
def references (s : State) : References :=
  ⟨s.prev, s.key, s.pal0, s.pal1, s.ot, s.frameCtr, s.fpos, s.hdr, s.status.fvalid, s.status.lastkey, s.status.stale⟩

theorem references_eq_iff {s t : State} : references t = references s ↔
    t.prev = s.prev ∧ t.key = s.key ∧ t.pal0 = s.pal0 ∧ t.pal1 = s.pal1 ∧ t.ot = s.ot ∧ t.frameCtr = s.frameCtr ∧
      t.fpos = s.fpos ∧ t.hdr = s.hdr ∧ t.status.fvalid = s.status.fvalid ∧ t.status.lastkey = s.status.lastkey ∧
      t.status.stale = s.status.stale := by simp only [references, References.mk.injEq]

theorem OnlyScratch.references_eq {s t : State} (h : OnlyScratch s t) : references t = references s :=
  (congrArg references h :)

/-- The session is no part of an open session's working state. -/
theorem OnlyWork.session_eq {s t : State} (h : OnlyWork s t) : t.session = s.session := (congrArg State.session h :)

/-! ## The session after a raise (60 R318) -/

/-- The row of R318 a command has. -/
def raiseClass : Instr → RaiseClass
  | .openStream | .encSetup => .opening
  | .nextFrame | .skipFwd | .skipBack | .skipTo => .streaming
  | .nextAudio => .audio
  | .lzDecompress => .lzss
  | .decodeBs => .bitstream
  | .encFrame => .encFrame
  | .encOpen | .encAudio | .encClose => .encOutput
  | _ => .plain

/-- The streaming commands (46 R280 to R286). -/
def streams (i : Instr) : Prop := i = .nextFrame ∨ i = .nextAudio ∨ i = .skipFwd ∨ i = .skipBack ∨ i = .skipTo

/-- The commands that seek (46 R285, R286). -/
def seeks (i : Instr) : Prop := i = .skipTo ∨ i = .skipBack

theorem raiseClass_of_streams {i : Instr} (h : streams i) : raiseClass i = .streaming ∨ raiseClass i = .audio := by
  rcases h with rfl | rfl | rfl | rfl | rfl <;> decide

/-- The session a raise leaves where the command's own operation left it. -/
def raiseSession (cls : RaiseClass) (kind : ErrorKind) (x : Session) : Session :=
  match cls, kind with
  | .streaming, .streamCorruption | .audio, .streamCorruption => .decFault
  | .streaming, .memoryAllocationFailure | .audio, .memoryAllocationFailure | .encFrame, .memoryAllocationFailure => .closed
  | _, _ => x

theorem raiseEffect_session (cls : RaiseClass) (kind : ErrorKind) {s u : State} (h : u.session = s.session) :
    (raiseEffect cls kind s u).session = raiseSession cls kind s.session := by
  cases cls <;> cases kind <;> simp [raiseEffect, raiseSession, h]

theorem raiseSession_illegal (cls : RaiseClass) (x : Session) : raiseSession cls .illegalCommand x = x := by cases cls <;> rfl

/-- Only a streaming command, and `ENC_FRAME` where memory is short, change the session by a raise. -/
theorem raiseSession_eq_self {i : Instr} {kind : ErrorKind} (hi : ¬ streams i)
    (h : i ≠ .encFrame ∨ kind ≠ .memoryAllocationFailure) (x : Session) : raiseSession (raiseClass i) kind x = x := by
  cases i
  case nextFrame | nextAudio | skipFwd | skipBack | skipTo => exact absurd (by simp [streams]) hi
  case encFrame =>
    cases kind
    case memoryAllocationFailure => simp at h
    all_goals rfl
  all_goals rfl

/-! ## Where a command raises -/

/-- What a command has written where it raises: nothing that matters where its raise restores the state before it; else the
session stands, and the references too unless the command seeks. -/
def RaisesAt (i : Instr) (s u : State) : Prop :=
  (raiseClass i = .plain ∨ raiseClass i = .opening) ∨
    (s.session ≠ .closed ∧ (streams i → s.session = .decOpen) ∧ u.session = s.session ∧
      (¬ seeks i → references u = references s))

/-- What a raise of `kind` leaves before it is recorded. -/
structure RaiseEnds (i : Instr) (s : State) (kind : ErrorKind) (r : State) : Prop where
  references : ¬ seeks i → r.session ≠ .closed ∨ s.session = .closed → references r = references s
  session : r.session = raiseSession (raiseClass i) kind s.session
  streaming : streams i → kind = .illegalCommand ∨ s.session = .decOpen
  short : streams i ∨ i = .encFrame → kind = .memoryAllocationFailure → r.session = .closed ∧ r.status.alloc = false

theorem RaiseEnds.before (i : Instr) (s : State) (io : List Bool) : RaiseEnds i s .illegalCommand { s with io := io } where
  references _ _ := rfl
  session := (raiseSession_illegal _ _).symm
  streaming _ := .inl rfl
  short _ h := by cases h

/-- The effect of R318 keeps the references of every session that is not lost. -/
theorem references_raiseEffect {cls : RaiseClass} {kind : ErrorKind} {s u : State} (h : references u = references s)
    (hs : s.session ≠ .closed) (hopen : (raiseEffect cls kind s u).session ≠ .closed ∨ s.session = .closed) :
    references (raiseEffect cls kind s u) = references s := by
  rcases raiseEffect_cases cls kind s u with hr | hr | hr | ⟨_, _, _, _, _, hr⟩ | ⟨_, _, _, _, _, hr⟩ <;> rw [hr] at hopen ⊢
  · rfl
  · exact absurd (hopen.resolve_right hs) (by simp [closeSession])
  all_goals exact h

/-- A raise that restores the state before its command is none of a streaming command's or of `ENC_FRAME`'s. -/
theorem not_streams_of_restores {i : Instr} (h : raiseClass i = .plain ∨ raiseClass i = .opening) :
    ¬ streams i ∧ i ≠ .encFrame := by
  refine ⟨fun hs => ?_, ?_⟩
  · rcases raiseClass_of_streams hs with hc | hc <;> simp [hc] at h
  · rintro rfl; simp [raiseClass] at h

/-- Memory that is short ends the session of a streaming command and of `ENC_FRAME`. -/
theorem raiseEffect_short {i : Instr} (hi : streams i ∨ i = .encFrame) (s u : State) :
    raiseEffect (raiseClass i) .memoryAllocationFailure s u = closeSession u := by
  rcases hi with hi | rfl
  · rcases raiseClass_of_streams hi with hc | hc <;> rw [hc] <;> rfl
  · rfl

theorem RaisesAt.ends {i : Instr} {s u : State} (h : RaisesAt i s u) (kind : ErrorKind) :
    RaiseEnds i s kind (raiseEffect (raiseClass i) kind s u) := by
  rcases h with hrestores | ⟨hs, hopen, hsession, hrefs⟩
  · have heffect : raiseEffect (raiseClass i) kind s u = { s with io := u.io } := by
      rcases hrestores with hc | hc <;> rw [hc] <;> rfl
    obtain ⟨hstreams, hframe⟩ := not_streams_of_restores hrestores
    rw [heffect]
    exact ⟨fun _ _ => rfl, (raiseSession_eq_self hstreams (.inl hframe) _).symm, fun hi => absurd hi hstreams,
      fun hi => absurd hi (not_or.mpr ⟨hstreams, hframe⟩)⟩
  · exact ⟨fun hi => references_raiseEffect (hrefs hi) hs, raiseEffect_session _ kind hsession, fun hi => .inr (hopen hi),
      fun hi hkind => by rw [hkind, raiseEffect_short hi]; exact ⟨rfl, rfl⟩⟩

/-- The command contract (46 R270) for an error: the refusal, or a raise of the operation. -/
theorem runCommand_raises {i : Instr} {code : Nat} {allowed : Session → Bool} {op : State → Run Unit} {s t : State}
    (h : runCommand code allowed (raiseClass i) op s = .next t) (herr : t.err ≠ 0)
    (hop : allowed s.session = true → (op s).Post (fun _ _ => True) (fun _ u => RaisesAt i s u)) :
    ∃ e r, RaiseEnds i s e.kind r ∧ t = recordError e r := by
  cases ha : allowed s.session with
  | false =>
    rw [runCommand_refused ha] at h
    exact ⟨illegalCommand code, _, .before i s s.io, (Host.Outcome.next.inj h).symm⟩
  | true =>
    have hpost := hop ha
    rw [runCommand_admitted ha] at h
    obtain rfl := Host.Outcome.next.inj h
    cases hr : op s with
    | done x u => rw [hr] at herr; exact absurd rfl herr
    | raised e u => rw [hr] at hpost; exact ⟨e, _, hpost.ends e.kind, rfl⟩

/-! ## The commands -/

theorem Run.Post.of_raised {α : Type} {r : Run α} {R : Raise → State → Prop} (h : ∀ e u, R e u) :
    r.Post (fun _ _ => True) R := by
  cases r with
  | done a t => trivial
  | raised e t => exact h e t

/-- A command that raises with only scratch state written. -/
theorem Run.Post.raisesAt {i : Instr} {s : State} {r : Run Unit} {D : Unit → State → Prop}
    (h : r.Post D fun _ u => OnlyScratch s u) (hs : s.session ≠ .closed) (hopen : streams i → s.session = .decOpen) :
    r.Post (fun _ _ => True) (fun _ u => RaisesAt i s u) :=
  h.mono (fun _ _ _ => trivial) fun _ _ hu => .inr ⟨hs, hopen, hu.onlyWork.session_eq, fun _ => hu.references_eq⟩

/-- A streaming command that raises with only scratch state written. -/
theorem Run.Post.raisesAt_decOpen {i : Instr} {s : State} {r : Run Unit} {D : Unit → State → Prop}
    (h : r.Post D fun _ u => OnlyScratch s u) (hs : s.session = .decOpen) :
    r.Post (fun _ _ => True) (fun _ u => RaisesAt i s u) :=
  h.raisesAt (by rw [hs]; decide) fun _ => hs

theorem ne_closed_of_allowed {allowed : Session → Bool} {x : Session} (hx : allowed x = true)
    (hclosed : allowed .closed = false) : x ≠ .closed := by
  rintro rfl
  rw [hx] at hclosed
  cases hclosed

/-- A seek raises within the session's working state (46 R285, R286). -/
theorem Run.Works.raisesAt {i : Instr} (hi : seeks i) {s : State} {r : Run Unit} (h : r.Works s) (hs : s.session = .decOpen) :
    r.Post (fun _ _ => True) (fun _ u => RaisesAt i s u) :=
  h.mono (fun _ _ _ => trivial) fun _ _ hu =>
    .inr ⟨by rw [hs]; decide, fun _ => hs, hu.frame.session_eq, fun hnot => absurd hi hnot⟩

theorem nextFrameOp_raises (s : State) : (nextFrameOp s).Post (fun _ _ => True) (fun _ u => OnlyScratch s u) := by
  unfold nextFrameOp
  split
  · trivial
  · exact (frameStep_post s).bind fun _ _ _ => trivial

theorem skipFwdOp_raises (s : State) : (skipFwdOp s).Post (fun _ _ => True) (fun _ u => OnlyScratch s u) :=
  (skipFrames_post (.refl s) _ _ _ _).bind fun _ _ _ => trivial

theorem audioBody_raises {o s : State} (h : OnlyScratch o s) (f : AgacFields) :
    (audioBody f s).Post (fun _ _ => True) (fun _ u => OnlyScratch o u) := by
  refine (check_post h _ _).bind fun _ s1 ⟨h1, _⟩ => ?_
  refine (check_post h1 _ _).bind fun _ s2 ⟨h2, _⟩ => ?_
  refine (loadPayload_keeps h2 _ _).bind fun _ s3 h3 => ?_
  exact (unpackInto_keeps h3 _ _).bind fun _ _ _ => trivial

/-- `NEXT_AUDIO` has cleared `AVALID` where it raises, which is no reference (46 R282). -/
theorem nextAudioOp_raises {s : State} (hs : s.session = .decOpen) :
    (nextAudioOp s).Post (fun _ _ => True) (fun _ u => RaisesAt .nextAudio s u) := by
  have hio := onlyScratch_ioFree (clearAvalid s)
  have hrun : (nextAudioOp s).Post (fun _ _ => True) (fun _ u => OnlyScratch (clearAvalid s) u) := by
    refine (recordAt_keeps hio (.refl _) _).bind fun kind t ht => ?_
    cases kind with
    | bad => exact ht
    | frame => trivial
    | ended => trivial
    | audio =>
      refine (audioHeader_keeps hio ht _).bind fun f u hu => ?_
      cases f with
      | none => exact hu
      | some f => exact audioBody_raises hu f
  exact hrun.raisesAt_decOpen hs

/-- Where each of the 25 host commands raises, and what its raise leaves. -/
theorem exec_raise_ends {i : Instr} {s t : State} (hi : isCommand i = true) (h : exec i s = .next t) (herr : t.err ≠ 0) :
    ∃ e r, RaiseEnds i s e.kind r ∧ t = recordError e r := by
  have hplain : ∀ {code allowed op}, raiseClass i = .plain ∨ raiseClass i = .opening →
      runCommand code allowed (raiseClass i) op s = .next t → ∃ e r, RaiseEnds i s e.kind r ∧ t = recordError e r :=
    fun hclass hrun => runCommand_raises hrun herr fun _ => .of_raised fun _ _ => .inl hclass
  cases i with
  | nextFrame => exact runCommand_raises h herr fun ha => (nextFrameOp_raises s).raisesAt_decOpen (admitDecOpen_iff.mp ha)
  | nextAudio => exact runCommand_raises h herr fun ha => nextAudioOp_raises (admitDecOpen_iff.mp ha)
  | skipFwd => exact runCommand_raises h herr fun ha => (skipFwdOp_raises s).raisesAt_decOpen (admitDecOpen_iff.mp ha)
  | skipBack => exact runCommand_raises h herr fun ha => (skipBackOp_works s).raisesAt (.inr rfl) (admitDecOpen_iff.mp ha)
  | skipTo => exact runCommand_raises h herr fun ha => (skipToOp_works s).raisesAt (.inl rfl) (admitDecOpen_iff.mp ha)
  | lzDecompress => exact runCommand_raises h herr fun ha =>
      Run.Post.raisesAt (lzDecompressOp_computes s) (admitUnit_ne_closed ha) (by simp [streams])
  | decodeBs => exact runCommand_raises h herr fun ha =>
      (decodeBsOp_post s).raisesAt (ne_closed_of_allowed ha rfl) (by simp [streams])
  | encFrame => exact runCommand_raises h herr fun ha =>
      (encFrameOp_post s).raisesAt (ne_closed_of_allowed ha rfl) (by simp [streams])
  | encAudio => exact runCommand_raises h herr fun ha =>
      (encAudioOp_post s).raisesAt (ne_closed_of_allowed ha rfl) (by simp [streams])
  | encOpen =>
    refine runCommand_raises h herr fun ha => ?_
    generalize hr : encOpenOp s = r
    exact (encOpenOp_post hr).raisesAt (ne_closed_of_allowed ha rfl) (by simp [streams])
  | encClose => exact runCommand_raises h herr fun ha =>
      (encCloseOp_post s).raisesAt (ne_closed_of_allowed ha rfl) (by simp [streams])
  | openStream | encSetup => exact hplain (.inr rfl) h
  | nop | loadQuality | nearest | tss | blockSad => exact hplain (.inl rfl) h
  | softReset => exact hplain (.inl rfl) (show execSoftReset s = _ from h)
  | resetVideo => exact hplain (.inl rfl) (show execResetVideo s = _ from h)
  | close => exact hplain (.inl rfl) (show execClose s = _ from h)
  | lzCompress => exact hplain (.inl rfl) (show execLzCompress s = _ from h)
  | histClear => exact hplain (.inl rfl) (show execHistClear s = _ from h)
  | histAccum => exact hplain (.inl rfl) (show execHistAccum s = _ from h)
  | selectPalette => exact hplain (.inl rfl) (show execSelectPalette s = _ from h)
  | _ => exact absurd hi (by simp [isCommand, languageOf])

/-- The kind stands in the low bits of `ERR` (10 R24). -/
theorem recordError_kind (e : Raise) (s : State) : (recordError e s).err.extractLsb' 0 4 = e.kind.code := by
  rw [recordError_err]
  exact BitVec.extractLsb'_append_eq_right

theorem ErrorKind.code_inj {k l : ErrorKind} : k.code = l.code ↔ k = l := by
  cases k <;> cases l <;> simp [ErrorKind.code]

/-- Settles O11: each clause reads off what the raise leaves, by the kind recorded. -/
theorem raiseKeepsReferences : Obligations.RaiseKeepsReferences := by
  intro i s t hi h herr
  obtain ⟨e, r, hr, rfl⟩ := exec_raise_ends hi h herr
  have hkind : ∀ k : ErrorKind, (recordError e r).err.extractLsb' 0 4 = k.code ↔ e.kind = k := fun k => by
    rw [recordError_kind, ErrorKind.code_inj]
  refine ⟨fun hto hback hopen => references_eq_iff.mp (hr.references (not_or.mpr ⟨hto, hback⟩) hopen), fun hi hcorrupt => ?_,
    fun hi hio => ?_, fun hi hshort => hr.short hi ((hkind .memoryAllocationFailure).mp hshort), fun hstays => ?_⟩
  · have hsession := hr.session
    rw [(hkind .streamCorruption).mp hcorrupt] at hsession
    rcases raiseClass_of_streams hi with hc | hc <;> rwa [hc] at hsession
  · have hsession := hr.session
    have hopen := hr.streaming hi
    rw [(hkind .ioError).mp hio] at hsession hopen
    rw [← hopen.resolve_left (by decide)]
    rcases raiseClass_of_streams hi with hc | hc <;> rwa [hc] at hsession
  · refine hr.session.trans ?_
    rcases hstays with hillegal | ⟨hi, hshort⟩
    · rw [(hkind .illegalCommand).mp hillegal, raiseSession_illegal]
    · exact raiseSession_eq_self hi (hshort.imp_right fun hne h => hne ((hkind .memoryAllocationFailure).mpr h)) _

end Sys2Proof.Machine
end

section
/-! The compressor chooses the longest match (44_lzss R228, R229): the search, one unit, one group of eight, the
whole output. -/

namespace Sys2Proof.Machine

variable {inp : List Byte}

/-! ## The search -/

/-- A number of bytes is at most the match length exactly when that many bytes are there and agree. -/
theorem le_matchLength_iff {n l : Nat} {as bs : List Byte} :
    l ≤ matchLength n as bs ↔ l ≤ n ∧ l ≤ as.length ∧ ∀ j < l, as[j]? = bs[j]? := by
  induction n generalizing l as bs with
  | zero => simp +contextual [matchLength]
  | succ n ih =>
    cases l with
    | zero => simp
    | succ l =>
      cases as with
      | nil => simp [matchLength]
      | cons a as =>
        cases bs with
        | nil => simpa [matchLength] using fun _ _ => ⟨0, by simp⟩
        | cons b bs =>
          by_cases hab : a = b
          · subst hab
            simp only [matchLength, if_true, Nat.add_le_add_iff_right, ih, List.length_cons, Nat.forall_lt_succ_left',
              List.getElem?_cons_zero, List.getElem?_cons_succ, true_and]
          · simpa [matchLength, hab] using fun _ _ => ⟨0, Nat.zero_le l, by simpa using hab⟩

/-- The match length the search compares at an offset (44 R229). -/
def matchAt (inp : List Byte) (pos off : Nat) : Nat :=
  matchLength (min 15 (inp.length - pos)) (inp.drop pos) (inp.drop (pos - off))

/-- The match length of an offset is the greatest length up to 15 that repeats from there. -/
theorem le_matchAt_iff {pos off l : Nat} (hpos : pos ≤ inp.length) :
    l ≤ matchAt inp pos off ↔ l ≤ 15 ∧ repeats inp pos off l := by
  simp only [matchAt, le_matchLength_iff, List.length_drop, List.getElem?_drop, repeats]
  constructor
  · rintro ⟨hmax, hlen, hsame⟩; exact ⟨by omega, by omega, hsame⟩
  · rintro ⟨hmax, hlen, hsame⟩; exact ⟨by omega, by omega, hsame⟩

/-- Of the offsets below `k`, `best` holds the greatest length and the smallest offset that has it; length 0 names no offset. -/
structure LongestBelow (f : Nat → Nat) (k : Nat) (best : Nat × Nat) : Prop where
  longest  : ∀ o, 1 ≤ o → o < k → f o ≤ best.1
  attained : 0 < best.1 → 1 ≤ best.2 ∧ best.2 < k ∧ f best.2 = best.1
  smallest : ∀ o, 1 ≤ o → o < best.2 → f o < best.1

/-- One turn of the search: a strictly longer match wins, so that an equal one leaves the smaller offset. -/
theorem LongestBelow.next {f : Nat → Nat} {k : Nat} {best : Nat × Nat} (h : LongestBelow f k best) (hk : 1 ≤ k) :
    LongestBelow f (k + 1) (if best.1 < f k then (f k, k) else best) := by
  obtain ⟨hlongest, hattained, hsmallest⟩ := h
  split
  · rename_i hlonger
    refine ⟨fun o h1 hlt => ?_, fun _ => ⟨hk, Nat.lt_succ_self k, rfl⟩,
      fun o h1 hlt => (hlongest o h1 hlt).trans_lt hlonger⟩
    rcases Nat.lt_succ_iff_lt_or_eq.mp hlt with hlt | rfl
    · exact (hlongest o h1 hlt).trans hlonger.le
    · exact Nat.le_refl _
  · rename_i hnot
    refine ⟨fun o h1 hlt => ?_, fun hsome => ?_, hsmallest⟩
    · rcases Nat.lt_succ_iff_lt_or_eq.mp hlt with hlt | rfl
      · exact hlongest o h1 hlt
      · exact Nat.not_lt.mp hnot
    · obtain ⟨h1, hlt, heq⟩ := hattained hsome
      exact ⟨h1, Nat.lt_succ_of_lt hlt, heq⟩

theorem longestFrom_spec {pos n k : Nat} {best : Nat × Nat} (h : LongestBelow (matchAt inp pos) k best) (hk : 1 ≤ k) :
    LongestBelow (matchAt inp pos) (k + n) (longestFrom inp pos (min 15 (inp.length - pos)) n k best) := by
  induction n generalizing k best with
  | zero => exact h
  | succ n ih =>
    rw [show k + (n + 1) = k + 1 + n by omega]
    exact ih (h.next hk) (Nat.le_add_left 1 k)

/-- The search sees every offset of the window. -/
theorem longestMatch_spec (inp : List Byte) (pos : Nat) :
    LongestBelow (matchAt inp pos) (1 + min pos 4095) (longestMatch inp pos) :=
  longestFrom_spec ⟨by omega, fun h => absurd h (Nat.lt_irrefl 0), by omega⟩ (Nat.le_refl 1)

/-! ## One unit -/

/-- The unit emitted is the rule's (44 R228). -/
theorem chooseUnit_chosen {pos : Nat} (hpos : pos < inp.length) :
    UnitChosen inp pos (chooseUnit inp pos).1 (chooseUnit inp pos).2 := by
  obtain ⟨hlongest, hattained, hsmallest⟩ := longestMatch_spec inp pos
  generalize hbest : longestMatch inp pos = best at *
  obtain ⟨len, off⟩ := best
  have hwindow : ∀ o, inWindow pos o ↔ 1 ≤ o ∧ o < 1 + min pos 4095 := fun o => by unfold inWindow; omega
  simp only [chooseUnit, hbest]
  split
  · rename_i hlen
    obtain ⟨h1, hlt, hoff⟩ := hattained (by omega)
    have hrep := (le_matchAt_iff hpos.le).mp hoff.ge
    refine .ref off len ((hwindow off).mpr ⟨h1, hlt⟩) hlen hrep.1 hrep.2 fun o ho =>
      ⟨fun hshort hlonger => ?_, fun hbelow hequal => ?_⟩
    · obtain ⟨ho1, holt⟩ := (hwindow o).mp ho
      have hmore : len + 1 ≤ len := ((le_matchAt_iff hpos.le).mpr ⟨hshort, hlonger⟩).trans (hlongest o ho1 holt)
      exact absurd hmore (Nat.not_succ_le_self len)
    · exact absurd ((le_matchAt_iff hpos.le).mpr ⟨hrep.1, hequal⟩) (Nat.not_le.mpr (hsmallest o ho.1 hbelow))
  · rename_i hlen
    refine .lit _ (by simp [hpos]) fun o ho hrep => hlen ?_
    obtain ⟨ho1, holt⟩ := (hwindow o).mp ho
    exact ((le_matchAt_iff hpos.le).mpr ⟨by decide, hrep⟩).trans (hlongest o ho1 holt)

/-- A unit covers at least a byte, and none past the end of the input. -/
theorem UnitChosen.bounds {pos len : Nat} {u : Instr} (h : UnitChosen inp pos u len) :
    1 ≤ len ∧ pos + len ≤ inp.length := by
  cases h with
  | lit b hb _ => exact ⟨Nat.le_refl 1, (List.getElem?_eq_some_iff.mp hb).1⟩
  | ref off _ _ hmin _ hrep _ => exact ⟨by omega, hrep.1⟩

theorem UnitChosen.isLiteral {pos len : Nat} {u : Instr} (h : UnitChosen inp pos u len) :
    unitIsLiteral u = true ↔ ∃ b, u = .lit b := by
  cases h <;> simp [unitIsLiteral]

/-! ## One group -/

/-- The flag bits of the `k` units still to do, the next one's highest: 1 for a literal, 0 for a reference or no unit. -/
def FlagsOf (k : Nat) (flags : Byte) (us : List Instr) : Prop :=
  ∀ j < k, flags.getLsbD j = true ↔ ∃ b, us[k - 1 - j]? = some (.lit b)

theorem flagsOf_nil {k : Nat} {flags : Byte} : FlagsOf k flags [] ↔ ∀ j < k, flags.getLsbD j = false := by
  simp [FlagsOf]

theorem flagsOf_cons {k : Nat} {flags : Byte} {u : Instr} {us : List Instr} :
    FlagsOf (k + 1) flags (u :: us) ↔ (flags.getLsbD k = true ↔ ∃ b, u = .lit b) ∧ FlagsOf k flags us := by
  have hrest : ∀ j < k, (u :: us)[k + 1 - 1 - j]? = us[k - 1 - j]? := fun j hj => by
    rw [show k + 1 - 1 - j = k - 1 - j + 1 by omega, List.getElem?_cons_succ]
  simp only [FlagsOf, Nat.forall_lt_succ_right, Nat.add_sub_cancel, Nat.sub_self, List.getElem?_cons_zero, Option.some.injEq]
  rw [and_comm]
  exact and_congr Iff.rfl (forall₂_congr fun j hj => by rw [← hrest j hj, Nat.add_sub_cancel])

theorem flagsOf_eight {flags : Byte} {us : List Instr} :
    FlagsOf 8 flags us ↔ ∀ k < 8, flags.getMsbD k = true ↔ ∃ b, us[k]? = some (.lit b) := by
  have hmsb : ∀ k < 8, flags.getMsbD k = flags.getLsbD (7 - k) := fun k hk => by simp [BitVec.getMsbD, hk]
  constructor <;> intro h k hk
  · rw [hmsb k hk, h (7 - k) (by omega), show 8 - 1 - (7 - k) = k by omega]
  · rw [← h (8 - 1 - k) (by omega), hmsb _ (by omega), show 7 - (8 - 1 - k) = k by omega]

/-- What is left of a group from `pos` when `k` of its units are still to do: the units, fewer than `k` only where the input
ends, and their flag bits. -/
structure GroupFrom (inp : List Byte) (k pos last : Nat) (flags : Byte) (us : List Instr) : Prop where
  units : UnitsChosen inp pos us last
  full  : us.length = k ∨ (us.length < k ∧ last = inp.length)
  flags : FlagsOf k flags us

theorem UnitsChosen.bounds {pos last : Nat} {us : List Instr} (h : UnitsChosen inp pos us last) (hpos : pos ≤ inp.length) :
    pos + us.length ≤ last ∧ last ≤ inp.length := by
  induction h with
  | none pos => exact ⟨Nat.le_refl pos, hpos⟩
  | more pos len last u us hlt hu _ ih =>
    have hlen := hu.bounds
    have hrest := ih hlen.2
    rw [List.length_cons]
    omega

/-- A flag bit set by the compressor leaves the bits below and above it. -/
theorem getLsbD_setFlag {flags : Byte} {k j : Nat} (hk : k < 8) :
    (flags ||| ((1 : Byte) <<< k)).getLsbD j = (flags.getLsbD j || decide (j = k)) := by
  have hone : ((1 : Byte) <<< k).getLsbD j = decide (j = k) := by
    rw [Bool.eq_iff_iff]
    simp only [BitVec.getLsbD_shiftLeft, BitVec.ofNat_eq_ofNat, BitVec.getLsbD_one, Bool.and_eq_true, Bool.not_eq_true',
      decide_eq_true_eq, decide_eq_false_iff_not]
    omega
  rw [BitVec.getLsbD_or, hone]

/-- The compressor's loop over a group emits the rule's units, and touches only the flag bits of the units to do. -/
theorem compressUnits_groupFrom {k pos : Nat} {flags : Byte} (out : List Byte) (hk : k ≤ 8) (hpos : pos ≤ inp.length)
    (hclear : ∀ j < k, flags.getLsbD j = false) :
    ∃ us last flags', compressUnits inp k pos flags out = (flags', out ++ us.flatMap encode, last) ∧
      GroupFrom inp k pos last flags' us ∧ ∀ j, k ≤ j → flags'.getLsbD j = flags.getLsbD j := by
  induction k generalizing pos flags out with
  | zero =>
    exact ⟨[], pos, flags, by simp [compressUnits], ⟨.none pos, .inl rfl, flagsOf_nil.mpr hclear⟩, fun _ _ => rfl⟩
  | succ k ih =>
    by_cases hend : inp.length ≤ pos
    · exact ⟨[], pos, flags, by simp [compressUnits, hend],
        ⟨.none pos, .inr ⟨Nat.succ_pos k, Nat.le_antisymm hpos hend⟩, flagsOf_nil.mpr hclear⟩, fun _ _ => rfl⟩
    have hchosen := chooseUnit_chosen (Nat.not_le.mp hend)
    generalize hu : chooseUnit inp pos = u at *
    have hbit : ∀ j, (if unitIsLiteral u.1 then flags ||| ((1 : Byte) <<< k) else flags).getLsbD j =
        (flags.getLsbD j || (unitIsLiteral u.1 && decide (j = k))) := fun j => by
      cases unitIsLiteral u.1 with
      | false => simp
      | true => exact (getLsbD_setFlag (Nat.lt_of_succ_le hk)).trans (by simp)
    obtain ⟨us, last, flags', hrun, ⟨hunits, hfull, hflags⟩, hkept⟩ :=
      ih (out ++ encode u.1) (flags := if unitIsLiteral u.1 then flags ||| ((1 : Byte) <<< k) else flags) (by omega)
        hchosen.bounds.2 fun j hj => by rw [hbit, hclear j (by omega)]; simp [Nat.ne_of_lt hj]
    refine ⟨u.1 :: us, last, flags', ?_, ⟨.more _ _ _ _ _ (Nat.not_le.mp hend) hchosen hunits, ?_, ?_⟩, fun j hj => ?_⟩
    · simp only [compressUnits, if_neg hend, hu, hrun, List.flatMap_cons, List.append_assoc]
    · rw [List.length_cons]; omega
    · refine flagsOf_cons.mpr ⟨?_, hflags⟩
      rw [hkept k (Nat.le_refl k), hbit, hclear k (Nat.lt_succ_self k), ← hchosen.isLiteral]
      simp
    · rw [hkept j (by omega), hbit]
      simp [show j ≠ k by omega]

/-! ## The whole output -/

/-- Every group covers a byte at least, so the fuel is enough. -/
theorem compressFrom_compressed {fuel pos : Nat} (hpos : pos ≤ inp.length) (hfuel : inp.length - pos ≤ fuel) :
    Compressed inp pos (compressFrom inp fuel pos) := by
  induction fuel generalizing pos with
  | zero => exact .ended pos (by omega)
  | succ fuel ih =>
    by_cases hend : inp.length ≤ pos
    · simpa only [compressFrom, if_pos hend] using Compressed.ended pos hend
    obtain ⟨us, last, flags, hrun, ⟨hunits, hfull, hflags⟩, -⟩ :=
      compressUnits_groupFrom (k := 8) (flags := 0) [] (Nat.le_refl 8) hpos (by simp)
    have hbounds := hunits.bounds hpos
    simp only [compressFrom, if_neg hend, hrun, List.nil_append]
    exact .group pos last us flags _ (Nat.not_le.mp hend) hunits hfull (flagsOf_eight.mp hflags) (ih hbounds.2 (by omega))

/-- The compressor's output is the rule's (44 R228). -/
theorem compress_compressed (inp : List Byte) : Compressed inp 0 (compress inp) :=
  compressFrom_compressed (Nat.zero_le _) (Nat.le_refl _)

end Sys2Proof.Machine
end

section
/-! Decompressing what was compressed (44_lzss R232): each unit read back leads from one beginning of the input to a longer
one. -/

namespace Sys2Proof.Machine

variable {inp : List Byte}

/-! ## One unit -/

/-- The output that holds the first `pos` bytes of the input, latest byte first. -/
def outputTo (inp : List Byte) (pos : Nat) : List Byte := (inp.take pos).reverse

theorem outputTo_length {pos : Nat} (hpos : pos ≤ inp.length) : (outputTo inp pos).length = pos := by
  simp [outputTo, hpos]

theorem outputTo_succ {pos : Nat} {b : Byte} (h : inp[pos]? = some b) : outputTo inp (pos + 1) = b :: outputTo inp pos := by
  simp [outputTo, List.take_add_one, h]

/-- The byte `off` back of the output is the input's. -/
theorem outputTo_getD {pos off : Nat} (hpos : pos ≤ inp.length) (h1 : 1 ≤ off) (hoff : off ≤ pos) :
    (outputTo inp pos).getD (off - 1) 0 = inp.getD (pos - off) 0 := by
  have hlen : (inp.take pos).length = pos := by simp [hpos]
  rw [outputTo, List.getD_eq_getElem?_getD, List.getElem?_reverse (by omega), hlen,
    show pos - 1 - (off - 1) = pos - off by omega, List.getElem?_take_of_lt (by omega), List.getD_eq_getElem?_getD]

/-- A copy of bytes that repeat writes the input's own bytes, an overlapping one too (44 R226). -/
theorem copyBack_outputTo {pos off l : Nat} (h1 : 1 ≤ off) (hoff : off ≤ pos) (hrep : repeats inp pos off l) :
    copyBack off l (outputTo inp pos) = outputTo inp (pos + l) := by
  induction l generalizing pos with
  | zero => rfl
  | succ l ih =>
    obtain ⟨hlen, hsame⟩ := hrep
    have hbyte : inp[pos]? = some (inp.getD (pos - off) 0) := by
      have hback : inp[pos]? = inp[pos - off]? := hsame 0 (Nat.succ_pos l)
      rw [List.getD_eq_getElem?_getD, ← hback, List.getElem?_eq_getElem (by omega)]
      rfl
    have hnext : repeats inp (pos + 1) off l := ⟨by omega, fun j hj => by
      rw [show pos + 1 + j = pos + (j + 1) by omega, show pos + 1 - off + j = pos - off + (j + 1) by omega]
      exact hsame (j + 1) (by omega)⟩
    rw [copyBack, outputTo_getD (by omega) h1 hoff, ← outputTo_succ hbyte, ih (by omega) hnext,
      Nat.add_assoc, Nat.add_comm 1 l]

/-- A chosen unit, read under its flag bit, writes the input bytes it covers. -/
theorem lzUnit_chosen {pos len : Nat} {u : Instr} (h : UnitChosen inp pos u len) (rest : List Byte) (ipos : Nat) :
    lzUnit inp.length (unitIsLiteral u) ⟨encode u ++ rest, ipos, outputTo inp pos⟩ =
      .ok ⟨rest, ipos + (encode u).length, outputTo inp (pos + len)⟩ := by
  cases h with
  | lit b hb _ =>
    simp only [lzUnit, unitIsLiteral, decode_encode_lit, List.drop_left, outputTo_succ hb]
  | ref off len hwindow hmin hmax hrep _ =>
    obtain ⟨h1, hoff, hfar⟩ := hwindow
    have hlen := hrep.1
    have hout : (outputTo inp pos).length = pos := outputTo_length (by omega)
    have hoffset : (BitVec.ofNat 12 off).toNat = off := Nat.mod_eq_of_lt (by omega)
    have hlength : (BitVec.ofNat 4 len).toNat = len := Nat.mod_eq_of_lt (by omega)
    have hexpand : expandRef off len inp.length (outputTo inp pos) = some (outputTo inp (pos + len)) := by
      rw [expandRef, hout, if_neg (by omega), Nat.min_eq_left (by omega), copyBack_outputTo h1 hoff hrep]
    simp only [lzUnit, unitIsLiteral, decode_encode_ref, hoffset, hlength, hexpand, List.drop_left]

/-! ## Groups and the whole input -/

theorem lzUnits_groupFrom {k pos last : Nat} {flags : Byte} {us : List Instr} (h : GroupFrom inp k pos last flags us)
    (rest : List Byte) (ipos : Nat) :
    lzUnits inp.length flags k ⟨us.flatMap encode ++ rest, ipos, outputTo inp pos⟩ =
      .ok ⟨rest, ipos + (us.flatMap encode).length, outputTo inp last⟩ := by
  obtain ⟨hunits, hfull, hflags⟩ := h
  induction hunits generalizing k ipos with
  | none pos =>
    cases k with
    | zero => rfl
    | succ k =>
      obtain rfl : pos = inp.length := by simpa using hfull
      exact if_pos (outputTo_length (Nat.le_refl _))
  | more pos len last u us hlt hu hrest ih =>
    rw [List.length_cons] at hfull
    obtain ⟨k, rfl⟩ : ∃ m, k = m + 1 := ⟨k - 1, by omega⟩
    obtain ⟨hbit, hflags⟩ := flagsOf_cons.mp hflags
    have hliteral : flags.getLsbD k = unitIsLiteral u := Bool.eq_iff_iff.mpr (hbit.trans hu.isLiteral.symm)
    have hshort : ¬ (outputTo inp pos).length = inp.length := by rw [outputTo_length hlt.le]; omega
    simp only [lzUnits, if_neg hshort, hliteral, List.flatMap_cons, List.append_assoc, lzUnit_chosen hu,
      ih _ (by omega) hflags, List.length_append, Nat.add_assoc]

/-- Nothing is read once the output is complete (44 R224). -/
theorem lzGroups_complete {n fuel : Nat} {l : LzState} (h : l.out.length = n) : lzGroups n fuel l = .ok l := by
  cases fuel <;> exact if_pos h

/-- Whatever has the form of compressed bytes is read back whole. -/
theorem lzGroups_compressed {pos : Nat} {bytes : List Byte} (h : Compressed inp pos bytes) (hpos : pos ≤ inp.length)
    {fuel : Nat} (hfuel : bytes.length ≤ fuel) (ipos : Nat) :
    lzGroups inp.length fuel ⟨bytes, ipos, outputTo inp pos⟩ =
      .ok ⟨[], ipos + bytes.length, outputTo inp inp.length⟩ := by
  induction h generalizing fuel ipos with
  | ended pos hend =>
    obtain rfl : pos = inp.length := Nat.le_antisymm hpos hend
    exact lzGroups_complete (outputTo_length hpos)
  | group pos last us flags out hlt hunits hfull hflags hrest ih =>
    simp only [List.length_cons, List.length_append] at hfuel
    obtain ⟨fuel, rfl⟩ : ∃ m, fuel = m + 1 := ⟨fuel - 1, by omega⟩
    have hgroup : GroupFrom inp 8 pos last flags us := ⟨hunits, hfull, flagsOf_eight.mpr hflags⟩
    have hshort : ¬ (outputTo inp pos).length = inp.length := by rw [outputTo_length hpos]; omega
    simp only [lzGroups, if_neg hshort, lzUnits_groupFrom hgroup, ih (hunits.bounds hpos).2 (show out.length ≤ fuel by omega),
      List.length_cons, List.length_append]
    congr 2
    omega

/-- The decompressor inverts every output of the compressor's form and consumes all of it (44 R232). -/
theorem decompress_of_compressed {bytes : List Byte} (h : Compressed inp 0 bytes) :
    decompress bytes inp.length = .ok (inp, bytes.length) := by
  have hrun := lzGroups_compressed h (Nat.zero_le _) (Nat.le_refl _) 0
  rw [decompress, show ([] : List Byte) = outputTo inp 0 from rfl, hrun]
  simp [outputTo]

/-! ## Payloads -/

theorem packPayload_compressed {inp : List Byte} (h : (compress inp).length < inp.length) :
    packPayload true inp = compress inp := if_pos ⟨rfl, h⟩

/-- `Pack` stores the bytes as they are when compression is disabled or gains nothing (44 R230). -/
theorem packPayload_stored {compEn : Bool} {inp : List Byte} (h : compEn = true → inp.length ≤ (compress inp).length) :
    packPayload compEn inp = inp := if_neg fun ⟨hen, hlt⟩ => absurd (h hen) (Nat.not_le.mpr hlt)

theorem packPayload_cases (compEn : Bool) (inp : List Byte) :
    packPayload compEn inp = inp ∨ (packPayload compEn inp = compress inp ∧ (compress inp).length < inp.length) := by
  unfold packPayload
  split
  · rename_i h; exact .inr ⟨rfl, h.2⟩
  · exact .inl rfl

theorem unpackPayload_stored (bytes : List Byte) : unpackPayload bytes bytes.length = .ok bytes := if_pos rfl

/-- Settles O26: the compressor's output has the rule's form, which the decompressor reads back group by group; and a payload
is compressed exactly when it is shorter, by which `Unpack` tells the two apart. -/
theorem lzssRoundTrip : Obligations.LzssRoundTrip := by
  intro bytes
  have hdecompress := decompress_of_compressed (compress_compressed bytes)
  refine ⟨hdecompress, fun compEn => ?_⟩
  rcases packPayload_cases compEn bytes with hstored | ⟨hcompressed, hlt⟩
  · rw [hstored]
    exact ⟨unpackPayload_stored bytes, Nat.le_refl _⟩
  · rw [hcompressed]
    refine ⟨?_, hlt.le⟩
    rw [unpackPayload, if_neg hlt.ne, hdecompress]

end Sys2Proof.Machine
end

section
/-! One LZSS unit by itself (44_lzss R225, R226; log 3): what `LIT` and `REF` write to `BS`. -/

namespace Sys2Proof.Machine

/-! ## The copy -/

/-- The output of a copy begins with the output it started from. -/
theorem copyBack_reverse_take (off n : Nat) (out : List Byte) :
    (copyBack off n out).reverse.take out.length = out.reverse := by
  rw [List.take_reverse, copyBack_length, Nat.add_sub_cancel_left, copyBack_drop]

theorem copyBack_reverse_getElem? (off n : Nat) {out : List Byte} {i : Nat} (hi : i < out.length) :
    (copyBack off n out).reverse[i]? = out.reverse[i]? := by
  rw [← copyBack_reverse_take off n out, List.getElem?_take_of_lt hi]

/-- Each byte a copy appends is the one `off` before it, itself appended by the same copy where the two overlap (44 R226). -/
theorem copyBack_repeats {off n i : Nat} {out : List Byte} (h1 : 1 ≤ off) (hoff : off ≤ out.length) (hi : out.length ≤ i)
    (hlt : i < out.length + n) : (copyBack off n out).reverse[i]? = (copyBack off n out).reverse[i - off]? := by
  induction n generalizing out with
  | zero => omega
  | succ n ih =>
    rw [copyBack]
    rcases Nat.eq_or_lt_of_le hi with rfl | hlater
    · have hfirst : (out.getD (off - 1) 0 :: out).reverse[out.length]? = some (out.getD (off - 1) 0) := by simp
      have hsource : (out.getD (off - 1) 0 :: out).reverse[out.length - off]? = some (out.getD (off - 1) 0) := by
        rw [List.reverse_cons, List.getElem?_append_left (by simp; omega), List.getElem?_reverse (by omega),
          show out.length - 1 - (out.length - off) = off - 1 by omega, List.getD_eq_getElem?_getD,
          List.getElem?_eq_getElem (by omega), Option.getD_some]
      rw [copyBack_reverse_getElem? off n (by simp), copyBack_reverse_getElem? off n (by simp), hfirst, hsource]
    · exact ih (by simp; omega) hlater (by simp; omega)

/-- A reference expands exactly when its offset is not 0 and reaches no further back than the output goes (44 R226). -/
theorem expandRef_eq_some {off len n : Nat} {out : List Byte} (h0 : off ≠ 0) (hoff : off ≤ out.length) :
    expandRef off len n out = some (copyBack off (min len (n - out.length)) out) :=
  if_neg (not_or.mpr ⟨h0, Nat.not_lt.mpr hoff⟩)

theorem expandRef_eq_none {off len n : Nat} {out : List Byte} (h : off = 0 ∨ out.length < off) :
    expandRef off len n out = none := if_pos h

/-! ## The output in `BS` -/

/-- Writing a list behind the part of it `BS` already reads as makes `BS` read as the whole list. -/
theorem byteAt_writeList_drop {s t : State} {bytes : List Byte} {a i : Nat} (hbefore : bytes.take a = bytesAt s .bs s.bs 0 a)
    (hbs : t.bs = Memory.writeList s.bs a (bytes.drop a)) (hepoch : t.epoch = s.epoch) (hi : i < bytes.length) :
    bytes[i]? = some (byteAt t .bs t.bs i) := by
  rw [byteAt, drawnAt, hbs, hepoch, Memory.read_writeList, List.length_drop]
  by_cases hia : i < a
  · rw [if_neg (by omega), ← List.getElem?_take_of_lt hia, hbefore, bytesAt, List.getElem?_map, List.getElem?_range hia,
      Option.map_some, Nat.zero_add]
    rfl
  · rw [if_pos (by omega), List.getElem?_drop, Nat.add_sub_of_le (by omega), List.getElem?_eq_getElem hi, Option.getD_some]

/-- What a corrupt input leaves: `BS` unspecified, and the error at `OPOS` (44 R227, 60 R318). -/
theorem takeError_lzssCorrupt (opos : Nat) (s : State) :
    takeError .lzss s s (lzssCorrupt opos) = { s with
      bs := []
      epoch := s.epoch + 1
      err := 0x204
      errInfo := BitVec.ofNat 32 opos
      status := { s.status with errf := true, vdone := videoDone s } } := by
  have hcode : unitLzss ++ (0 : BitVec 4) ++ ErrorKind.streamCorruption.code = (0x204 : BitVec 12) := by decide
  rw [← hcode]
  rfl

section Run

variable {s : State} {r : LzRun}

theorem exec_lit (hact : s.act = .lzss r) (hopos : r.opos < r.n) (b : Byte) :
    exec (.lit b) s = .next { s with
      bs := Memory.write s.bs r.opos b
      act := .lzss { r with ipos := r.ipos + 1, opos := r.opos + 1, k := r.k + 1 } } := by
  change execLit b s = _
  simp only [execLit, hact, if_pos hopos]

/-- The output of a reference to `offset` that copies `m` bytes, earliest byte first. -/
def refOutput (s : State) (opos offset m : Nat) : List Byte := (copyBack offset m (bytesAt s .bs s.bs 0 opos).reverse).reverse

theorem refOutput_length (s : State) (opos offset m : Nat) : (refOutput s opos offset m).length = opos + m := by
  rw [refOutput, List.length_reverse, copyBack_length, List.length_reverse, bytesAt_length]

theorem refOutput_take (s : State) (opos offset m : Nat) :
    (refOutput s opos offset m).take opos = bytesAt s .bs s.bs 0 opos := by
  have htake := copyBack_reverse_take offset m (bytesAt s .bs s.bs 0 opos).reverse
  rwa [List.length_reverse, bytesAt_length, List.reverse_reverse] at htake

theorem refOutput_repeats {opos offset m i : Nat} (h1 : 1 ≤ offset) (hoff : offset ≤ opos) (hi : opos ≤ i)
    (hlt : i < opos + m) : (refOutput s opos offset m)[i]? = (refOutput s opos offset m)[i - offset]? :=
  have hlen : (bytesAt s .bs s.bs 0 opos).reverse.length = opos := by simp
  copyBack_repeats h1 (hoff.trans_eq hlen.symm) (hlen.trans_le hi) (by rwa [hlen])

/-- The state after a reference that copies `m` bytes. -/
def afterRef (r : LzRun) (offset m : Nat) (s : State) : State :=
  { s with
    bs := Memory.writeList s.bs r.opos ((refOutput s r.opos offset m).drop r.opos)
    act := .lzss { r with ipos := r.ipos + 2, opos := r.opos + m, k := r.k + 1 } }

theorem exec_ref (hact : s.act = .lzss r) (hopos : r.opos < r.n) {offset : BitVec 12} {length : BitVec 4} (h0 : offset ≠ 0)
    (hoff : offset.toNat ≤ r.opos) :
    exec (.ref offset length) s = .next (afterRef r offset.toNat (min length.toNat (r.n - r.opos)) s) := by
  have hlen : (bytesAt s .bs s.bs 0 r.opos).reverse.length = r.opos := by simp
  have hexpand := expandRef_eq_some (len := length.toNat) (n := r.n) (fun h => h0 (BitVec.eq_of_toNat_eq h))
    (hoff.trans_eq hlen.symm)
  change execRef offset length s = _
  simp only [execRef, hact, if_pos hopos, hexpand, copyBack_length, hlen, afterRef, refOutput]

theorem exec_ref_of_badOffset (hact : s.act = .lzss r) (hopos : r.opos < r.n) {offset : BitVec 12} {length : BitVec 4}
    (h : offset = 0 ∨ r.opos < offset.toNat) : exec (.ref offset length) s = raiseLzRun r.opos s := by
  have hbad : offset.toNat = 0 ∨ (bytesAt s .bs s.bs 0 r.opos).reverse.length < offset.toNat := by
    rw [List.length_reverse, bytesAt_length]
    exact h.imp_left fun h0 => by rw [h0]; rfl
  change execRef offset length s = _
  simp only [execRef, hact, if_pos hopos, expandRef_eq_none hbad]

/-- What `BS` holds after a reference is the reference's output. -/
theorem refOutput_getElem? {offset m i : Nat} (hi : i < r.opos + m) :
    (refOutput s r.opos offset m)[i]? = some (byteAt (afterRef r offset m s) .bs (afterRef r offset m s).bs i) :=
  byteAt_writeList_drop (refOutput_take ..) rfl rfl (by rwa [refOutput_length])

theorem afterRef_read_written {offset m j : Nat} (hj : j < m) :
    Memory.read (afterRef r offset m s).bs (r.opos + j) = (refOutput s r.opos offset m)[r.opos + j]? := by
  rw [afterRef, Memory.read_writeList, List.length_drop, refOutput_length, if_pos (by omega), List.getElem?_drop,
    Nat.add_sub_cancel_left]

theorem afterRef_read_other {offset m a : Nat} (ha : a < r.opos ∨ r.opos + m ≤ a) :
    Memory.read (afterRef r offset m s).bs a = Memory.read s.bs a := by
  rw [afterRef, Memory.read_writeList, List.length_drop, refOutput_length, if_neg (by omega)]

end Run

/-- Settles O28: `LIT` is one write; `REF` writes what the copy appends, each byte of which is the one `offset` before it. -/
theorem unitsWriteOutput : Obligations.UnitsWriteOutput := by
  intro s r hact hopos
  refine ⟨fun b => ⟨_, exec_lit hact hopos b, rfl, Memory.read_write_same _ _ _,
    fun a ha => Memory.read_write_other _ _ ha⟩, ?_⟩
  intro offset length m
  refine ⟨fun h0 hoff => ⟨_, exec_ref hact hopos h0 hoff, rfl, fun j hj => ?_, fun a ha => afterRef_read_other ha⟩,
    fun hbad => ⟨_, exec_ref_of_badOffset hact hopos hbad, by rw [takeError_lzssCorrupt]⟩⟩
  have h1 : 1 ≤ offset.toNat := Nat.pos_of_ne_zero fun h => h0 (BitVec.eq_of_toNat_eq h)
  rw [← refOutput_getElem? (by omega), ← refOutput_repeats h1 hoff (Nat.le_add_right _ _) (by omega)]
  exact afterRef_read_written hj

end Sys2Proof.Machine
end

section
/-! `LZ_COMPRESS` and `LZ_DECOMPRESS` (46_host_commands R277, R278). -/

namespace Sys2Proof.Machine

/-! ## What a decompression that ends has read and written -/

theorem decode_unit_length {literal : Bool} {bytes : List Byte} {i : Instr} {n : Nat}
    (h : decode (.unit literal) bytes = .ok (i, n)) : n ≤ bytes.length := by
  cases literal with
  | true =>
    match bytes, h with
    | _ :: _, rfl => simp
  | false =>
    match bytes, h with
    | _ :: _ :: _, rfl => simp

/-- The input read and the input left make up the whole input. -/
def SameInput (l l' : LzState) : Prop := l'.ipos + l'.inp.length = l.ipos + l.inp.length

theorem sameInput_drop {l : LzState} {used : Nat} (h : used ≤ l.inp.length) (out : List Byte) :
    SameInput l ⟨l.inp.drop used, l.ipos + used, out⟩ := by
  change l.ipos + used + (l.inp.drop used).length = l.ipos + l.inp.length
  rw [List.length_drop]
  omega

theorem lzUnit_sameInput {n : Nat} {literal : Bool} {l l' : LzState} (h : lzUnit n literal l = .ok l') : SameInput l l' := by
  unfold lzUnit at h
  split at h
  · cases h
  · rename_i hdecode
    cases h
    exact sameInput_drop (decode_unit_length hdecode) _
  · rename_i hdecode
    split at h
    · cases h
    · cases h
      exact sameInput_drop (decode_unit_length hdecode) _
  · cases h

theorem lzUnits_sameInput {n k : Nat} {flags : Byte} {l l' : LzState} (h : lzUnits n flags k l = .ok l') : SameInput l l' := by
  induction k generalizing l with
  | zero => cases h; rfl
  | succ k ih =>
    unfold lzUnits at h
    split at h
    · cases h; rfl
    · split at h
      · cases h
      · rename_i hunit
        exact (ih h).trans (lzUnit_sameInput hunit)

/-- A decompression ends only with the whole output (44 R224). -/
theorem lzGroups_ok {n fuel : Nat} {l l' : LzState} (h : lzGroups n fuel l = .ok l') :
    l'.out.length = n ∧ SameInput l l' := by
  induction fuel generalizing l with
  | zero =>
    unfold lzGroups at h
    split at h
    · rename_i hfull; cases h; exact ⟨hfull, rfl⟩
    · cases h
  | succ fuel ih =>
    unfold lzGroups at h
    split at h
    · rename_i hfull; cases h; exact ⟨hfull, rfl⟩
    · split at h
      · cases h
      · rename_i flags rest hinp
        split at h
        · cases h
        · rename_i hunits
          obtain ⟨hfull, hsame⟩ := ih h
          have hflag : SameInput l ⟨rest, l.ipos + 1, l.out⟩ := by
            change l.ipos + 1 + rest.length = l.ipos + l.inp.length
            rw [hinp, List.length_cons]
            omega
          exact ⟨hfull, hsame.trans ((lzUnits_sameInput hunits).trans hflag)⟩

theorem decompress_ok {inp out : List Byte} {n used : Nat} (h : decompress inp n = .ok (out, used)) :
    out.length = n ∧ used ≤ inp.length := by
  unfold decompress at h
  split at h
  · rename_i hrun
    obtain ⟨hfull, hsame⟩ := lzGroups_ok hrun
    cases h
    exact ⟨(List.length_reverse ..).trans hfull, by rw [SameInput] at hsame; simp only [Nat.zero_add] at hsame; omega⟩
  · cases h

/-! ## The commands -/

/-- The admission table's rows (46 R271) are the sessions the commands check for. -/
theorem admits_lz (x : Session) : admits .lzCompress x = admitUnit x ∧ admits .lzDecompress x = admitUnit x := by
  cases x <;> exact ⟨rfl, rfl⟩

theorem exec_lzCompress {s : State} (h : admits .lzCompress s.session = true) :
    exec .lzCompress s = .next (complete (setRes0 (compress (bsBytes s)).length (fillCb (compress (bsBytes s)) s))) := by
  rw [(admits_lz _).1] at h
  change execLzCompress s = _
  rw [execLzCompress, runCommand_admitted h, finish_done]

theorem exec_lzDecompress {s : State} (h : admits .lzDecompress s.session = true) :
    exec .lzDecompress s = .next (finish .lzss s (lzDecompressOp s)) := by
  rw [(admits_lz _).2] at h
  exact runCommand_admitted h

section Decompress

variable {s : State} (hcap : s.arg.x0.toNat ≤ s.par.bsCap)
include hcap

/-- Past its argument check the command is `Decompress` (46 R277). -/
theorem lzDecompressOp_of_ok {out : List Byte} {used : Nat} (h : decompress (cbBytes s) s.arg.x0.toNat = .ok (out, used)) :
    lzDecompressOp s = .done () (setRes0 used (fillBs out s)) := by
  simp only [lzDecompressOp, argNat, hcap, decide_true, check_true, Run.bind_done, h]

theorem lzDecompressOp_of_error {opos : Nat} (h : decompress (cbBytes s) s.arg.x0.toNat = .error opos) :
    lzDecompressOp s = .raised (lzssCorrupt opos) s := by
  simp only [lzDecompressOp, argNat, hcap, decide_true, check_true, Run.bind_done, h]

end Decompress

/-- Settles O27: the compressor's output has the rule's form, and each command fills its buffer with what the two functions
answer; the output's size and the bytes consumed fit the registers that counted them. -/
theorem lzCommandsFillBuffers : Obligations.LzCommandsFillBuffers := by
  refine ⟨compress_compressed,
    fun inp => ⟨packPayload_stored (by simp), packPayload_compressed, fun h => packPayload_stored fun _ => h⟩,
    fun s hadmit => ⟨_, exec_lzCompress hadmit, rfl, Memory.read_ofList _ 0⟩,
    fun s hadmit hcap => ⟨fun out used hrun => ?_, fun opos hrun => ?_⟩⟩
  · obtain ⟨hout, hused⟩ := decompress_ok hrun
    have hfits : used < 2 ^ 32 := hused.trans_lt (by rw [cbBytes, bytesAt_length]; exact s.cblen.isLt)
    have hexec : exec .lzDecompress s = .next (complete (setRes0 used (fillBs out s))) := by
      rw [exec_lzDecompress hadmit, lzDecompressOp_of_ok hcap hrun, finish_done]
    refine ⟨_, hexec, ?_, hout, Memory.read_ofList _ 0⟩
    rw [setRes0, saturate_of_lt hfits, fillBs, hout, saturate_ofToNat]
    rfl
  · refine ⟨_, ?_, takeError_lzssCorrupt opos s⟩
    rw [exec_lzDecompress hadmit, lzDecompressOp_of_error hcap hrun, finish_raised]

end Sys2Proof.Machine
end

section
/-! The resynchronisation scan (45_container R253): it stops at the first later address where a chunk magic stands. -/

namespace Sys2Proof.Machine

theorem magicKind_ne_ended (m : List Byte) : magicKind m ≠ .ended := by
  unfold magicKind
  split
  · decide
  · split <;> decide

/-- A chunk magic is a record's start, and nothing else is (45 R248). -/
theorem magicKind_eq_bad_iff (m : List Byte) : magicKind m = .bad ↔ m ≠ magicAgfc ∧ m ≠ magicAgac := by
  unfold magicKind
  split
  · rename_i hframe; simp [hframe]
  · split
    · rename_i haudio; simp [haudio]
    · rename_i hframe haudio; simp [hframe, haudio]

theorem not_magicAt_iff {s : State} {p : Nat} (hlen : p + 4 ≤ streamLen s) :
    ¬ magicAt s p ↔ magicKind (bytesAt s .stream s.plat.stream p 4) = .bad := by
  rw [magicKind_eq_bad_iff, ← not_or]
  exact not_congr ⟨fun h => h.2, fun h => ⟨hlen, h⟩⟩

section Probes

variable {s : State} (hio : s.io = []) {a p : Nat}
include hio

theorem resyncFrom_of_magicAt (fuel : Nat) (h : magicAt s p) : resyncFrom a (fuel + 1) p s = .done p s := by
  have hkind : magicKind (bytesAt s .stream s.plat.stream p 4) ≠ .bad := fun hbad => (not_magicAt_iff h.1).mpr hbad h
  have hended := magicKind_ne_ended (bytesAt s .stream s.plat.stream p 4)
  have hlen : ¬ streamLen s < p + 4 := Nat.not_lt.mpr h.1
  rw [resyncFrom, if_neg hlen, memRead_nil p 4 hio, Run.bind_done]
  cases hk : magicKind (bytesAt s .stream s.plat.stream p 4) with
  | frame => rfl
  | audio => rfl
  | ended => exact absurd hk hended
  | bad => exact absurd hk hkind

theorem resyncFrom_of_not_magicAt (fuel : Nat) (hlen : p + 4 ≤ streamLen s) (h : ¬ magicAt s p) :
    resyncFrom a (fuel + 1) p s = resyncFrom a fuel (p + 1) s := by
  rw [resyncFrom, if_neg (Nat.not_lt.mpr hlen), memRead_nil p 4 hio, Run.bind_done, (not_magicAt_iff hlen).mp h]

/-- The probes from `p` on find the magic at `p + n` when none stands between. -/
theorem resyncFrom_finds {n fuel : Nat} (hmagic : magicAt s (p + n)) (hnone : ∀ x, p ≤ x → x < p + n → ¬ magicAt s x)
    (hfuel : n < fuel) : resyncFrom a fuel p s = .done (p + n) s := by
  induction n generalizing p fuel with
  | zero =>
    obtain ⟨fuel, rfl⟩ := Nat.exists_eq_add_one_of_ne_zero hfuel.ne'
    exact resyncFrom_of_magicAt hio fuel hmagic
  | succ n ih =>
    obtain ⟨fuel, rfl⟩ := Nat.exists_eq_add_one_of_ne_zero (Nat.ne_zero_of_lt hfuel)
    have hlen : p + 4 ≤ streamLen s := by have := hmagic.1; omega
    have hnext : p + (n + 1) = p + 1 + n := by omega
    rw [hnext] at hmagic hnone ⊢
    rw [resyncFrom_of_not_magicAt hio fuel hlen (hnone p (Nat.le_refl p) (by omega))]
    exact ih hmagic (fun x hx => hnone x (by omega)) (by omega)

/-- The probes raise where the stream ends without a magic. -/
theorem resyncFrom_raises (hnone : ∀ x, p ≤ x → ¬ magicAt s x) (fuel : Nat) :
    resyncFrom a fuel p s = .raised (corruptAt a) s := by
  induction fuel generalizing p with
  | zero => rfl
  | succ fuel ih =>
    by_cases hlen : p + 4 ≤ streamLen s
    · rw [resyncFrom_of_not_magicAt hio fuel hlen (hnone p (Nat.le_refl p))]
      exact ih fun x hx => hnone x (by omega)
    · rw [resyncFrom, if_pos (Nat.not_le.mp hlen)]

end Probes

/-- Settles O38: the scan's probes start behind the damaged record, and the stream's length is enough of them. -/
theorem resyncFindsFirstMagic : Obligations.ResyncFindsFirstMagic := by
  intro s a p hio
  refine ⟨fun ⟨hlater, hmagic, hfirst⟩ => ?_, fun hnone => resyncFrom_raises hio hnone _⟩
  obtain ⟨n, rfl⟩ := Nat.exists_eq_add_of_le (show a + 1 ≤ p from hlater)
  exact resyncFrom_finds hio hmagic hfirst (by have := hmagic.1; omega)

end Sys2Proof.Machine
end

section
/-! Chunk payloads in the stream (45_container R252): loaded into `CB` and expanded, and the audio chunk's way into `AB` (46
R282). -/

namespace Sys2Proof.Machine

/-! ## Payloads -/

/-- The bytes of the stream from `p` on, as many as a chunk's size field says. -/
def chunkPayload (s : State) (p : Nat) (size : Word) : List Byte := bytesAt s .stream s.plat.stream p size.toNat

@[simp] theorem chunkPayload_length (s : State) (p : Nat) (size : Word) : (chunkPayload s p size).length = size.toNat :=
  bytesAt_length ..

theorem loadPayload_nil {s : State} (hio : s.io = []) (p : Nat) (size : Word) :
    loadPayload p size.toNat s = .done () (fillCb (chunkPayload s p size) s) := by
  unfold loadPayload chunkPayload
  split
  · rename_i hzero; rw [hzero]; rfl
  · rw [memRead_nil p _ hio]; rfl

/-- What was loaded into `CB` is what the expansion reads there. -/
theorem cbBytes_fillCb (s : State) {bytes : List Byte} (h : bytes.length < 2 ^ 32) : cbBytes (fillCb bytes s) = bytes := by
  have hlen : (fillCb bytes s).cblen.toNat = bytes.length := by rw [fillCb_cblen, saturate_toNat]; omega
  rw [cbBytes, hlen]
  exact bytesAt_ofList _ _ _

theorem unpackPayload_length {payload out : List Byte} {usize : Nat} (h : unpackPayload payload usize = .ok out) :
    out.length = usize := by
  unfold unpackPayload at h
  split at h
  · rename_i hstored; cases h; exact hstored
  · split at h
    · rename_i hrun; cases h; exact (decompress_ok hrun).1
    · cases h

/-- Loading a payload that expands and expanding it leaves it in `CB` and goes on with the output. -/
theorem payload_expanded {s : State} (hio : s.io = []) {p usize : Nat} {csize : Word} {out : List Byte}
    (h : unpackPayload (chunkPayload s p csize) usize = .ok out) {β : Type} (next : List Byte → State → Run β) :
    ((loadPayload p csize.toNat s).bind fun _ t => (unpackInto (cbBytes t) usize t).bind next) =
      next out (fillCb (chunkPayload s p csize) s) := by
  have hcb := cbBytes_fillCb s (bytes := chunkPayload s p csize) (by rw [chunkPayload_length]; exact csize.isLt)
  rw [loadPayload_nil hio, Run.bind_done, hcb, unpackInto, h, Run.bind_done]

/-! ## The audio chunk -/

/-- `s` with the audio chunk at its record boundary expanded to `pcm` and passed, and the results of `NEXT_AUDIO` (46 R282). -/
def audioPassed (s : State) (f : AgacFields) (pcm : List Byte) : State :=
  { s with
    cb := Memory.ofList 0 (chunkPayload s (streamPos s + 12) f.csize)
    cblen := f.csize
    ab := Memory.ofList 0 pcm
    ablen := f.size
    fpos := BitVec.ofNat 32 (streamPos s + 12 + f.csize.toNat)
    status := { s.status with avalid := true }
    res := ⟨1, f.size, f.csize, s.res.x3⟩
    epoch := s.epoch + 2 }

/-- An audio chunk that fits and expands is passed (46 R282). -/
theorem audioBody_of_expands {s : State} (hio : s.io = []) {f : AgacFields} {pcm : List Byte}
    (hfits : audioFits (streamPos s) f s = true) (hsize : f.size.toNat ≤ s.par.abCap) (hcsize : f.csize.toNat ≤ s.par.cbCap)
    (hexpand : unpackPayload (chunkPayload s (streamPos s + 12) f.csize) f.size.toNat = .ok pcm) :
    audioBody f s = .done () (audioPassed s f pcm) := by
  simp only [audioBody, hfits, hsize, hcsize, decide_true, Bool.and_self, check_true, Run.bind_done]
  rw [payload_expanded hio hexpand]
  simp only [setRes2, setRes1, setRes0, fillAb, fillCb, chunkPayload_length, unpackPayload_length hexpand, saturate_ofToNat]
  rfl

/-- `NEXT_AUDIO` at an audio chunk runs it, `AVALID` cleared (46 R282). -/
theorem nextAudioOp_of_chunk {s : State} (hio : s.io = []) {f : AgacFields}
    (h : streamHolds s (streamPos s) (encode (.agac f))) : nextAudioOp s = audioBody f (clearAvalid s) := by
  obtain ⟨hkind, hheader⟩ := audioChunk_fetched (s := clearAvalid s) hio h
  rw [nextAudioOp, hkind, Run.bind_done]
  exact congrArg (Run.bind · _) hheader

/-- Settles O33: by the command and by the record the chunk's one run is `audioBody`, which sets `AVALID` whatever it was. -/
theorem audioChunkDecodes : Obligations.AudioChunkDecodes := by
  intro s f pcm hio _ a payload hfits hsize hcsize hexpand shown
  have hbuffers : (∀ i, Memory.read (audioPassed s f pcm).cb i = payload[i]?) ∧
      ∀ i, Memory.read (audioPassed s f pcm).ab i = pcm[i]? :=
    ⟨Memory.read_ofList _ 0, Memory.read_ofList _ 0⟩
  refine ⟨fun hopen hholds => ⟨complete (audioPassed s f pcm), ?_, rfl, rfl, hbuffers⟩,
    fun hact => ⟨{ complete (audioPassed s f pcm) with act := .idle }, ?_, rfl, rfl, hbuffers⟩⟩
  · have hbody : audioBody f (clearAvalid s) = .done () (audioPassed (clearAvalid s) f pcm) :=
      audioBody_of_expands (s := clearAvalid s) hio hfits hsize hcsize hexpand
    have hrun : exec .nextAudio s = .next (finish .audio s (nextAudioOp s)) :=
      runCommand_admitted (by rw [hopen]; rfl)
    rw [hrun, nextAudioOp_of_chunk hio hholds, hbody]
    rfl
  · change execAgac f s = _
    simp only [execAgac, hact]
    rw [audioBody_of_expands hio hfits hsize hcsize hexpand]
    rfl

end Sys2Proof.Machine
end

section
/-! The frame chunk (45_container R250, R252; 46 R280, R281): found behind its audio chunks, decoded, committed and passed. -/

namespace Sys2Proof.Machine

/-! ## Finding the chunk -/

theorem FrameChunks.count_pos {s : State} {a n b : Nat} {f : AgfcFields} (h : FrameChunks s a n b f) : 0 < n := by
  induction h with
  | last => exact Nat.one_pos
  | frame => exact Nat.succ_pos _
  | audio a n b f g _ _ ih => exact ih

/-- A run of one frame chunk is that chunk behind audio chunks. -/
theorem FrameChunks.of_one {s : State} {a b : Nat} {f : AgfcFields} (h : FrameChunks s a 1 b f) :
    ∃ c ftype, AudioChunks s a c ∧ frameChunkAt s c f ftype ∧ b = c + 18 + f.csize.toNat := by
  generalize hn : 1 = n at h
  induction h with
  | last a f ftype hchunk => exact ⟨a, ftype, .here a, hchunk, rfl⟩
  | frame a n b f g ftype hchunk hrest => have := hrest.count_pos; omega
  | audio a n b f g hchunk _ ih =>
    obtain ⟨c, ftype, hrest, hframe⟩ := ih hn
    exact ⟨c, ftype, .audio a c f hchunk hrest, hframe⟩

/-- The search passes over the audio chunks to the frame chunk behind them (46 R280). -/
theorem findFrame_of_audioChunks {s : State} (hio : s.io = []) {a c : Nat} (haudio : AudioChunks s a c) {f : AgfcFields}
    (hframe : streamHolds s c (encode (.agfc f))) {fuel : Nat} (hfuel : streamLen s < a + fuel) :
    findFrame fuel a s = .done (c, f) s := by
  induction haudio generalizing fuel with
  | here a =>
    have hend : a + 18 ≤ streamLen s := hframe.1
    obtain ⟨fuel, rfl⟩ := Nat.exists_eq_add_one_of_ne_zero (show fuel ≠ 0 by omega)
    obtain ⟨hkind, hheader⟩ := frameChunk_fetched hio hframe
    simp only [findFrame, hkind, hheader, Run.bind_done]
  | audio a c g hchunk _ ih =>
    obtain ⟨hholds, hfits⟩ := hchunk
    have hend : a + 12 ≤ streamLen s := hholds.1
    obtain ⟨fuel, rfl⟩ := Nat.exists_eq_add_one_of_ne_zero (show fuel ≠ 0 by omega)
    obtain ⟨hkind, hheader⟩ := audioChunk_fetched hio hholds
    simp only [findFrame, hkind, hheader, Run.bind_done, hfits, if_true]
    exact ih hframe (by omega)

/-! ## Its bitstream -/

/-- `s` with the payload of the frame chunk at `a` in `CB` and its expansion in `BS`. -/
def frameLoaded (s : State) (a : Nat) (f : AgfcFields) (bits : List Byte) : State :=
  fillBs bits (fillCb (chunkPayload s (a + 18) f.csize) { s with last := f })

/-- The frame chunk at `a` fits its buffers, and its payload expands to a bitstream of NBLK codes that leave the sequencer as
`q`. -/
structure FrameDecodes (s : State) (a : Nat) (f : AgfcFields) (ftype : FrameType) (bits : List Byte) (codes : List Instr)
    (q : Sequencer) : Prop where
  legal : frameTypeOf f.ftype.toNat = some ftype
  fits : frameFits a f s = true
  usize : f.usize.toNat ≤ s.par.bsCap
  csize : f.csize.toNat ≤ s.par.cbCap
  expands : unpackPayload (chunkPayload s (a + 18) f.csize) f.usize.toNat = .ok bits
  stream : bitstream (blockCtx s ftype) codes bits
  count : codes.length = blockCount s.hdr
  run : runCodes (frameLoaded s a f bits) codes = .ok q

/-- `s` with the frame chunk at `a` decoded, committed and passed, and the results of `NEXT_FRAME` (46 R280, R281). -/
def framePassed (s : State) (a : Nat) (f : AgfcFields) (ftype : FrameType) (bits : List Byte) (q : Sequencer) : State :=
  { s with
    last := f
    cb := Memory.ofList 0 (chunkPayload s (a + 18) f.csize)
    cblen := f.csize
    bs := Memory.ofList 0 bits
    bslen := f.usize
    cur := q.cur
    prev := q.cur
    key := if ftype = .intra then q.cur else s.key
    bspos := f.usize
    blk := BitVec.ofNat 32 (blockCount s.hdr)
    pred := q.pred
    fpos := BitVec.ofNat 32 (a + 18 + f.csize.toNat)
    frameCtr := saturate (s.frameCtr.toNat + 1)
    status := { s.status with
      fvalid := true
      lastkey := decide (ftype = .intra)
      stale := s.status.stale && decide (ftype = .inter) }
    res := ⟨1, f.ftype.setWidth 32, f.usize, f.csize⟩
    epoch := s.epoch + 2 }

section Decodes

variable {s : State} {a : Nat} {f : AgfcFields} {ftype : FrameType} {bits : List Byte} {codes : List Instr} {q : Sequencer}
  (h : FrameDecodes s a f ftype bits codes q)
include h

/-- The expansion in `BS` is the frame's bitstream. -/
theorem FrameDecodes.begins : frameBegins (frameLoaded s a f bits) ftype
    (bytesAt (frameLoaded s a f bits) .bs (frameLoaded s a f bits).bs 0 f.usize.toNat) codes [] q := by
  obtain ⟨hwf, hbits⟩ := h.stream
  refine ⟨⟨hwf, rfl⟩, ?_, h.run⟩
  rw [List.append_nil, ← hbits, ← unpackPayload_length h.expands]
  exact bytesAt_ofList _ _ bits

/-- The sequencer ends behind the whole bitstream, at the frame's last block. -/
theorem FrameDecodes.sequencer : q.bspos = f.usize.toNat ∧ q.blk = blockCount s.hdr ∧ blockCount s.hdr < 2 ^ 32 := by
  have hq := reaches_of_frameBegins h.begins
  have hend : q.bspos = f.usize.toNat := hq.length
  have hcount := hq.count
  have hlen := f.usize.isLt
  exact ⟨hend, hq.blk.trans h.count, by rw [← h.count]; omega⟩

theorem FrameDecodes.decodeFrame :
    decodeFrame ftype f.usize.toNat (frameLoaded s a f bits) = .done () (withSequencer q (frameLoaded s a f bits)) :=
  decodeFrame_of_frameBegins f.usize.isLt h.begins h.count

theorem FrameDecodes.frameBody (hio : s.io = []) : frameBody a f s =
    .done () (frameDone ftype (a + 18 + f.csize.toNat) (withSequencer q (frameLoaded s a f bits))) := by
  have hchecks : frameChecks a f s = .done ftype { s with last := f } := by
    simp only [frameChecks, h.legal, h.fits, if_true]
  rw [Machine.frameBody, hchecks, Run.bind_done]
  simp only [h.usize, h.csize, decide_true, Bool.and_self, check_true, Run.bind_done]
  rw [payload_expanded (s := { s with last := f }) hio h.expands]
  exact congrArg (Run.bind · _) h.decodeFrame

/-- The end of the frame step and the results, register by register. -/
theorem FrameDecodes.frameResults :
    frameResults (frameDone ftype (a + 18 + f.csize.toNat) (withSequencer q (frameLoaded s a f bits))) =
      framePassed s a f ftype bits q := by
  obtain ⟨hbspos, hblk, hcount⟩ := h.sequencer
  have htype : saturate f.ftype.toNat = f.ftype.setWidth 32 := by
    rw [saturate_of_lt (by have := f.ftype.isLt; omega), BitVec.ofNat_toNat]
  have hsaturated : saturate (blockCount s.hdr) = BitVec.ofNat 32 (blockCount s.hdr) := saturate_of_lt hcount
  simp only [Machine.frameResults, frameDone, frameLoaded, setRes3, setRes2, setRes1, setRes0, commit, withSequencer, fillBs,
    fillCb, hbspos, hblk, hsaturated, htype, chunkPayload_length, unpackPayload_length h.expands, saturate_ofToNat]
  cases ftype with
  | intra => rw [framePassed, decide_eq_false (show ¬ FrameType.intra = .inter by decide), Bool.and_false]; rfl
  | inter => rw [framePassed, decide_eq_true rfl, Bool.and_true]; rfl

end Decodes

/-- Settles O32: the command's search ends at the chunk, and from there the command and the record by itself run the same frame
step. -/
theorem frameChunkDecodes : Obligations.FrameChunkDecodes := by
  intro s a f ftype bits codes q hio _ htype hfits husize hcsize ⟨hexpand, hcodes, hcount, hrun⟩ shown
  have hdecodes : FrameDecodes s a f ftype bits codes q := ⟨htype, hfits, husize, hcsize, hexpand, hcodes, hcount, hrun⟩
  have hbuffers : (∀ i, Memory.read (framePassed s a f ftype bits q).cb i = (chunkPayload s (a + 18) f.csize)[i]?) ∧
      ∀ i, Memory.read (framePassed s a f ftype bits q).bs i = bits[i]? :=
    ⟨Memory.read_ofList _ 0, Memory.read_ofList _ 0⟩
  refine ⟨fun hopen hleft hchunks => ⟨complete (framePassed s a f ftype bits q), ?_, rfl, rfl, hbuffers⟩,
    fun hact => ⟨{ complete (framePassed s a f ftype bits q) with act := .idle }, ?_, rfl, rfl, hbuffers⟩⟩
  · obtain ⟨c, _, haudio, hframe, hend⟩ := hchunks.of_one
    obtain rfl : a = c := by omega
    have hfind : findFrame (streamLen s + 1) (streamPos s) s = .done (a, f) s :=
      findFrame_of_audioChunks hio haudio hframe.1 (by omega)
    have hexec : exec .nextFrame s = .next (finish .streaming s (nextFrameOp s)) :=
      runCommand_admitted (by rw [hopen]; rfl)
    rw [hexec, nextFrameOp, if_neg (Nat.not_le.mpr hleft), frameStep, hfind, Run.bind_done, hdecodes.frameBody hio,
      Run.bind_done, hdecodes.frameResults, finish_done]
  · change execAgfc f s = _
    simp only [execAgfc, hact]
    rw [hdecodes.frameBody hio, Run.bind_done, hdecodes.frameResults]
    rfl

end Sys2Proof.Machine
end

section
/-! Chunk headers in the stream (45_container R248, R250, R251): what the reads meet at a record, and that the bytes of a header
are the encoding of the fields read from them. -/

namespace Sys2Proof

theorem le32Bytes_le32 (b0 b1 b2 b3 : Byte) : le32Bytes (le32 b0 b1 b2 b3) = [b0, b1, b2, b3] := by
  have h0 : (le32 b0 b1 b2 b3).extractLsb' 0 8 = b0 := BitVec.extractLsb'_append_eq_right
  have h1 : (le32 b0 b1 b2 b3).extractLsb' 8 8 = b1 :=
    (BitVec.extractLsb'_append_eq_of_le (by decide)).trans BitVec.extractLsb'_append_eq_right
  have h2 : (le32 b0 b1 b2 b3).extractLsb' 16 8 = b2 := (BitVec.extractLsb'_append_eq_of_le (by decide)).trans <|
    (BitVec.extractLsb'_append_eq_of_le (by decide)).trans BitVec.extractLsb'_append_eq_right
  have h3 : (le32 b0 b1 b2 b3).extractLsb' 24 8 = b3 := (BitVec.extractLsb'_append_eq_of_le (by decide)).trans <|
    (BitVec.extractLsb'_append_eq_of_le (by decide)).trans BitVec.extractLsb'_append_eq_left
  rw [le32Bytes, h0, h1, h2, h3]

/-- A frame chunk's header is the encoding of its fields (30 R94). -/
theorem encode_agfcFields {h : List Byte} (hlen : h.length = 14) :
    encode (.agfc (agfcFields (magicAgfc ++ h))) = magicAgfc ++ h := by
  match h, hlen with
  | [_, _, _, _, _, _, _, _, _, _, _, _, _, _], _ => simp [agfcFields, encode, magicAgfc, le32Bytes_le32, le16Bytes_le16]

/-- An audio chunk's header is the encoding of its fields (30 R95). -/
theorem encode_agacFields {h : List Byte} (hlen : h.length = 8) :
    encode (.agac (agacFields (magicAgac ++ h))) = magicAgac ++ h := by
  match h, hlen with
  | [_, _, _, _, _, _, _, _], _ => simp [agacFields, encode, magicAgac, le32Bytes_le32]

namespace Machine

/-! ## What a read meets -/

section Reads

variable {s : State} (hio : s.io = []) (a : Nat)
include hio

theorem recordAt_cases : ∃ kind, recordAt a s = .done kind s ∧
    (kind = .frame → bytesAt s .stream s.plat.stream a 4 = magicAgfc) ∧
    (kind = .audio → bytesAt s .stream s.plat.stream a 4 = magicAgac) := by
  unfold recordAt
  split
  · exact ⟨.ended, rfl, nofun, nofun⟩
  · split
    · exact ⟨.bad, rfl, nofun, nofun⟩
    · rw [memRead_nil a 4 hio, Run.bind_done]
      refine ⟨_, rfl, ?_⟩
      unfold magicKind
      split
      · rename_i hframe; exact ⟨fun _ => hframe, nofun⟩
      · split
        · rename_i haudio; exact ⟨nofun, fun _ => haudio⟩
        · exact ⟨nofun, nofun⟩

/-- Behind a frame magic the stream ends, or a frame chunk's header stands there. -/
theorem frameHeader_cases (hmagic : bytesAt s .stream s.plat.stream a 4 = magicAgfc) :
    frameHeader a s = .done none s ∨ ∃ f, streamHolds s a (encode (.agfc f)) ∧ frameHeader a s = .done (some f) s := by
  by_cases hend : a + 18 ≤ streamLen s
  · have hbytes : bytesAt s .stream s.plat.stream a 18 =
        encode (.agfc (agfcFields (magicAgfc ++ bytesAt s .stream s.plat.stream (a + 4) 14))) := by
      rw [encode_agfcFields (bytesAt_length ..), ← hmagic]
      exact bytesAt_append s .stream s.plat.stream a 4 14
    exact .inr ⟨_, ⟨hend, hbytes⟩, (frameChunk_fetched hio ⟨hend, hbytes⟩).2⟩
  · exact .inl (if_pos (Nat.not_le.mp hend))

/-- Behind an audio magic the stream ends, or an audio chunk's header stands there. -/
theorem audioHeader_cases (hmagic : bytesAt s .stream s.plat.stream a 4 = magicAgac) :
    audioHeader a s = .done none s ∨ ∃ f, streamHolds s a (encode (.agac f)) ∧ audioHeader a s = .done (some f) s := by
  by_cases hend : a + 12 ≤ streamLen s
  · have hbytes : bytesAt s .stream s.plat.stream a 12 =
        encode (.agac (agacFields (magicAgac ++ bytesAt s .stream s.plat.stream (a + 4) 8))) := by
      rw [encode_agacFields (bytesAt_length ..), ← hmagic]
      exact bytesAt_append s .stream s.plat.stream a 4 8
    exact .inr ⟨_, ⟨hend, hbytes⟩, (audioChunk_fetched hio ⟨hend, hbytes⟩).2⟩
  · exact .inl (if_pos (Nat.not_le.mp hend))

end Reads

/-! ## The stream is the platform's -/

section Platform

variable {s t : State} (h : t.plat = s.plat)
include h

theorem streamLen_of_plat : streamLen t = streamLen s := congrArg (fun p : Platform => p.streamLen.toNat) h

theorem streamBytes_of_plat (a n : Nat) :
    bytesAt t .stream t.plat.stream a n = bytesAt s .stream s.plat.stream a n := by rw [h]; rfl

theorem streamHolds_of_plat {a : Nat} {bytes : List Byte} (hs : streamHolds s a bytes) : streamHolds t a bytes := by
  rw [streamHolds, streamLen_of_plat h, streamBytes_of_plat h]
  exact hs

theorem audioChunkAt_of_plat {a : Nat} {f : AgacFields} (hs : audioChunkAt s a f) : audioChunkAt t a f := by
  obtain ⟨hholds, hfits⟩ := hs
  exact ⟨streamHolds_of_plat h hholds, by rw [audioFits, streamLen_of_plat h]; exact hfits⟩

theorem frameChunkAt_of_plat {a : Nat} {f : AgfcFields} {ftype : FrameType} (hs : frameChunkAt s a f ftype) :
    frameChunkAt t a f ftype := by
  obtain ⟨hholds, htype, hfits⟩ := hs
  exact ⟨streamHolds_of_plat h hholds, htype, by rw [frameFits, streamLen_of_plat h]; exact hfits⟩

theorem noChunkAt_of_plat {a : Nat} (hs : noChunkAt s a) : noChunkAt t a := by
  obtain ⟨haudio, hframe⟩ := hs
  exact ⟨fun f hf => haudio f (audioChunkAt_of_plat h.symm hf),
    fun f ftype hf => hframe f ftype (frameChunkAt_of_plat h.symm hf)⟩

end Platform

end Machine

end Sys2Proof
end

section
/-! The scan for the offset table (45_container R247): it records the I-frames of the file up to the table's capacity. -/

namespace Sys2Proof.Machine

/-! ## One record -/

section Record

variable {s : State} (hio : s.io = []) {a idx : Nat} (fuel : Nat)
include hio

theorem scanChunks_of_noChunk (h : noChunkAt s a) : scanChunks fuel a idx s = .done () s := by
  obtain ⟨hnoAudio, hnoFrame⟩ := h
  cases fuel with
  | zero => rfl
  | succ fuel =>
    obtain ⟨kind, hkind, hframe, haudio⟩ := recordAt_cases hio a
    unfold scanChunks
    split
    · rfl
    · rw [hkind, Run.bind_done]
      cases kind with
      | ended => rfl
      | bad => rfl
      | audio =>
        rcases audioHeader_cases hio a (haudio rfl) with hheader | ⟨f, hholds, hheader⟩ <;> rw [hheader, Run.bind_done]
        exact if_neg fun hfits => hnoAudio f ⟨hholds, hfits⟩
      | frame =>
        rcases frameHeader_cases hio a (hframe rfl) with hheader | ⟨f, hholds, hheader⟩ <;> rw [hheader, Run.bind_done]
        cases htype : frameTypeOf f.ftype.toNat with
        | none => simp only [htype]
        | some ftype =>
          simp only [htype]
          exact if_neg fun hfits => hnoFrame f ftype ⟨hholds, htype, hfits⟩

variable (hleft : idx < s.hdr.frameCount.toNat)
include hleft

theorem scanChunks_of_audioChunk {f : AgacFields} (h : audioChunkAt s a f) :
    scanChunks (fuel + 1) a idx s = scanChunks fuel (a + 12 + f.csize.toNat) idx s := by
  obtain ⟨hholds, hfits⟩ := h
  obtain ⟨hkind, hheader⟩ := audioChunk_fetched hio hholds
  rw [scanChunks, if_neg (Nat.not_le.mpr hleft), hkind, Run.bind_done]
  simp only [hheader, Run.bind_done, hfits, if_true]

theorem scanChunks_of_frameChunk {f : AgfcFields} {ftype : FrameType} (h : frameChunkAt s a f ftype) :
    scanChunks (fuel + 1) a idx s =
      match ftype with
      | .inter => scanChunks fuel (a + 18 + f.csize.toNat) (idx + 1) s
      | .intra =>
        if s.par.otCap ≤ s.ot.length then .raised (chunkTooBig a) s
        else scanChunks fuel (a + 18 + f.csize.toNat) (idx + 1)
          { s with ot := s.ot ++ [⟨BitVec.ofNat 32 a, BitVec.ofNat 32 idx⟩] } := by
  obtain ⟨hholds, htype, hfits⟩ := h
  obtain ⟨hkind, hheader⟩ := frameChunk_fetched hio hholds
  rw [scanChunks, if_neg (Nat.not_le.mpr hleft), hkind, Run.bind_done]
  simp only [hheader, Run.bind_done, htype, hfits, if_true]
  cases ftype <;> rfl

end Record

/-! ## The whole scan -/

/-- What the scan leaves of `s` when `ot` is still to record: all of it recorded where the table has the room, and else the raise
at the first entry that has none. -/
structure ScanLeaves (s : State) (ot : List OtEntry) (r : Run Unit) : Prop where
  fits : s.ot.length + ot.length ≤ s.par.otCap → r = .done () { s with ot := s.ot ++ ot }
  full : ∀ k e, ot[k]? = some e → s.ot.length + k = s.par.otCap →
    ∃ a u, r = .raised (chunkTooBig a) u ∧ u.io = s.io ∧ BitVec.ofNat 32 a = e.off

theorem ScanLeaves.nothing (s : State) : ScanLeaves s [] (.done () s) where
  fits _ := by rw [List.append_nil]
  full _ _ h := by simp at h

theorem ScanLeaves.recorded {s : State} {e : OtEntry} {ot : List OtEntry} {r : Run Unit} (hroom : s.ot.length < s.par.otCap)
    (h : ScanLeaves { s with ot := s.ot ++ [e] } ot r) : ScanLeaves s (e :: ot) r where
  fits hlen := by
    rw [List.length_cons] at hlen
    have hdone := h.fits (by simp only [List.length_append, List.length_singleton]; omega)
    rw [hdone, List.append_assoc]
    rfl
  full k d hd hk := by
    cases k with
    | zero => omega
    | succ k => exact h.full k d hd (by simp only [List.length_append, List.length_singleton]; omega)

theorem ScanLeaves.noRoom {s : State} {a idx : Nat} {ot : List OtEntry} (hfull : s.par.otCap ≤ s.ot.length) :
    ScanLeaves s (⟨BitVec.ofNat 32 a, BitVec.ofNat 32 idx⟩ :: ot) (.raised (chunkTooBig a) s) where
  fits hlen := by rw [List.length_cons] at hlen; omega
  full k e he hk := by
    obtain rfl : k = 0 := by omega
    obtain rfl := Option.some.inj he
    exact ⟨a, s, rfl, rfl, rfl⟩

/-- The scan from record `a` leaves the entries of R247's table of the file; the stream's length is enough fuel, since each chunk
moves the scan on. -/
theorem scanChunks_leaves {o : State} {count a idx : Nat} {ot : List OtEntry} (h : ScanTable o count a idx ot) {s : State}
    (hplat : s.plat = o.plat) (hio : s.io = []) (hcount : s.hdr.frameCount.toNat = count) {fuel : Nat}
    (hfuel : streamLen o < a + fuel) : ScanLeaves s ot (scanChunks fuel a idx s) := by
  induction h generalizing s fuel with
  | counted a idx hdone =>
    have hend : scanChunks fuel a idx s = .done () s := by
      cases fuel with
      | zero => rfl
      | succ fuel => exact if_pos (hcount ▸ hdone)
    rw [hend]
    exact .nothing s
  | stopped a idx _ hnone =>
    rw [scanChunks_of_noChunk hio fuel (noChunkAt_of_plat hplat hnone)]
    exact .nothing s
  | audio a idx f ot hleft hchunk _ ih =>
    have hend : a + 12 ≤ streamLen o := hchunk.1.1
    obtain ⟨fuel, rfl⟩ := Nat.exists_eq_add_one_of_ne_zero (show fuel ≠ 0 by omega)
    rw [scanChunks_of_audioChunk hio fuel (hcount ▸ hleft) (audioChunkAt_of_plat hplat hchunk)]
    exact ih hplat hio hcount (by omega)
  | inter a idx f ot hleft hchunk _ ih =>
    have hend : a + 18 ≤ streamLen o := hchunk.1.1
    obtain ⟨fuel, rfl⟩ := Nat.exists_eq_add_one_of_ne_zero (show fuel ≠ 0 by omega)
    rw [scanChunks_of_frameChunk hio fuel (hcount ▸ hleft) (frameChunkAt_of_plat hplat hchunk)]
    exact ih hplat hio hcount (by omega)
  | intra a idx f ot hleft hchunk _ ih =>
    have hend : a + 18 ≤ streamLen o := hchunk.1.1
    obtain ⟨fuel, rfl⟩ := Nat.exists_eq_add_one_of_ne_zero (show fuel ≠ 0 by omega)
    rw [scanChunks_of_frameChunk hio fuel (hcount ▸ hleft) (frameChunkAt_of_plat hplat hchunk)]
    dsimp only
    split
    · rename_i hfull; exact .noRoom hfull
    · rename_i hroom
      exact .recorded (Nat.not_le.mp hroom)
        (ih (s := { s with ot := s.ot ++ [⟨BitVec.ofNat 32 a, BitVec.ofNat 32 idx⟩] }) hplat hio hcount (by omega))

end Sys2Proof.Machine
end

section
/-! The header record by itself (45_container R244, R245, R247; 46 R275): the checks of its fields, the palettes, the session it
opens. -/

namespace Sys2Proof.Machine

/-! ## The checks (R244) -/

/-- The row of R244's table that a raise reports. -/
def checkOf (kind : ErrorKind) (info : Nat) : HeaderCheck := ⟨true, kind.code, BitVec.ofNat 32 info⟩

/-- A table and a chain of checks agree when their first rows do and their rests do. -/
theorem firstFailing_cons_eq {p q : Prop} [Decidable p] [Decidable q] (hpq : p ↔ q) (kind : ErrorKind) (info : Nat)
    {checks : List HeaderCheck} {rest : Option (ErrorKind × Nat)}
    (h : firstFailing checks = rest.map fun e => checkOf e.1 e.2) :
    firstFailing (⟨decide p, kind.code, BitVec.ofNat 32 info⟩ :: checks) =
      (if q then some (kind, info) else rest).map fun e => checkOf e.1 e.2 := by
  by_cases hq : q
  · simp [firstFailing, hpq.mpr hq, hq, checkOf]
  · simpa [firstFailing, mt hpq.mp hq, hq] using h

/-- Checks 4 to 9 are R244's table. -/
theorem firstFailing_headerChecks (par : Params) (f : HdrFields) :
    firstFailing (headerChecks par f) = (headerFault par f).map fun e => checkOf e.1 e.2 := by
  have hzero : ∀ {n : Nat} (v : BitVec n), v.toNat = 0 ↔ v = 0 := fun v => (BitVec.toNat_eq (y := 0)).symm
  have hversion : 16 ≤ f.version.toNat ↔ f.version.extractLsb' 4 4 ≠ 0 := by
    have hlt := f.version.isLt
    rw [Ne, BitVec.toNat_eq, BitVec.extractLsb'_toNat, Nat.shiftRight_eq_div_pow]
    change _ ↔ ¬ _ = 0
    omega
  have hbps : ∀ n : Nat, n < 2 ^ 16 → (f.bps.toNat ≠ n ↔ f.bps ≠ BitVec.ofNat 16 n) := fun n hn =>
    not_congr (by rw [BitVec.toNat_eq, BitVec.toNat_ofNat, Nat.mod_eq_of_lt hn])
  refine firstFailing_cons_eq (by omega) .unsupportedFormat 16 ?_
  refine firstFailing_cons_eq hversion .unsupportedFormat 17 ?_
  refine firstFailing_cons_eq (or_congr (hzero _) Iff.rfl) .invalidHeader 8 ?_
  refine firstFailing_cons_eq (or_congr (hzero _) Iff.rfl) .invalidHeader 12 ?_
  refine firstFailing_cons_eq (and_congr (not_congr (hzero _))
    (and_congr (hbps 8 (by decide)) (hbps 16 (by decide)))) .invalidHeader 36 ?_
  exact firstFailing_cons_eq (rest := none) Iff.rfl .memoryAllocationFailure 8 rfl

/-- The fields pass their checks when 4 to 9 do and the stream is as long as the header (check 10). -/
theorem firstFailing_fieldChecks (s : State) (f : HdrFields) :
    firstFailing (fieldChecks s f) =
      ((headerFault s.par f).or (if streamLen s < headerLength f.version then some (.invalidHeader, 38) else none)).map
        fun e => checkOf e.1 e.2 := by
  have hlast : firstFailing [⟨decide (streamLen s < headerLength f.version), 1, 38⟩] = _ :=
    firstFailing_cons_eq (rest := none) Iff.rfl .invalidHeader 38 rfl
  have happend : firstFailing (fieldChecks s f) = (firstFailing (headerChecks s.par f)).or
      (firstFailing [⟨decide (streamLen s < headerLength f.version), 1, 38⟩]) := List.find?_append
  rw [happend, firstFailing_headerChecks, hlast]
  cases headerFault s.par f <;> rfl

/-! ## The palettes (R245) -/

theorem coloursOfBytes_getElem? (s : State) (n a i : Nat) (hi : i < n) :
    (coloursOfBytes (bytesAt s .stream s.plat.stream a (3 * n)))[i]? = some (streamColour s (a + 3 * i)) := by
  induction n generalizing a i with
  | zero => omega
  | succ n ih =>
    have hbytes : coloursOfBytes (bytesAt s .stream s.plat.stream a (3 * (n + 1))) =
        streamColour s a :: coloursOfBytes (bytesAt s .stream s.plat.stream (a + 3) (3 * n)) := by
      rw [show 3 * (n + 1) = 3 + 3 * n by omega, bytesAt_append]
      rfl
    rw [hbytes]
    cases i with
    | zero => rfl
    | succ i => rw [List.getElem?_cons_succ, ih (a + 3) i (by omega), show a + 3 + 3 * i = a + 3 * (i + 1) by omega]

theorem readPalettes_nil {s : State} (hio : s.io = []) (ntab : Nat) :
    readPalettes ntab s = .done (bytesAt s .stream s.plat.stream 38 (768 * ntab)) s := by
  unfold readPalettes
  split
  · rename_i hnone; rw [hnone]; rfl
  · exact memRead_nil 38 _ hio

theorem paletteTables_cases (version : Byte) :
    paletteTables version = 0 ∨ paletteTables version = 1 ∨ paletteTables version = 2 := by
  unfold paletteTables
  split
  · exact .inl rfl
  · exact .inr (.inr rfl)
  · exact .inr (.inl rfl)

/-- The session of header `f` allocated, with the palettes of the stream: where the scan begins. -/
def headerLoaded (s : State) (f : HdrFields) : State :=
  loadPalettes (paletteTables f.version)
    (coloursOfBytes (bytesAt s .stream s.plat.stream 38 (768 * paletteTables f.version))) (allocate f s)

theorem headerLoaded_palettes (s : State) (f : HdrFields) {i : Nat} (hi : i < 256) :
    Memory.read (headerLoaded s f).pal0 i =
      some (if paletteTables f.version = 0 then Colour.black else streamColour s (38 + 3 * i)) ∧
    Memory.read (headerLoaded s f).pal1 i =
      some (if paletteTables f.version = 2 then streamColour s (806 + 3 * i) else Colour.black) := by
  have hblack : Memory.read (filled 256 Colour.black) i = some Colour.black := by rw [Memory.read_filled, if_pos hi]
  have hcolour := coloursOfBytes_getElem? s (256 * paletteTables f.version) 38
  rw [show 3 * (256 * paletteTables f.version) = 768 * paletteTables f.version by omega] at hcolour
  unfold headerLoaded loadPalettes
  dsimp only
  rcases paletteTables_cases f.version with hn | hn | hn <;> rw [hn] at hcolour ⊢
  · exact ⟨hblack, hblack⟩
  · refine ⟨?_, hblack⟩
    rw [if_pos (Nat.le_refl 1), Memory.read_ofList, if_pos (Nat.zero_le i), Nat.sub_zero, List.getElem?_take_of_lt hi,
      hcolour i (by omega)]
    rfl
  · rw [if_pos (by decide), if_pos rfl, if_neg (by decide), if_pos rfl, Memory.read_ofList, Memory.read_ofList,
      if_pos (Nat.zero_le i), Nat.sub_zero, List.getElem?_take_of_lt hi, List.getElem?_drop, hcolour i (by omega),
      hcolour (256 + i) (by omega), show 38 + 3 * (256 + i) = 806 + 3 * i by omega]
    exact ⟨rfl, rfl⟩

/-! ## The record's run -/

/-- A raise in `OPEN` changes nothing but the error (60 R318). -/
theorem takeError_opening {s u : State} (hio : u.io = s.io) (kind : ErrorKind) (info : Nat) :
    takeError .opening s u ⟨kind, unitContainer, info⟩ = checkRefused s 1 (checkOf kind info) := by
  simp only [takeError, raiseEffect, hio]
  rfl

theorem openBody_refused {s : State} {f : HdrFields} {c : HeaderCheck} (h : firstFailing (fieldChecks s f) = some c) :
    ∃ kind info, openBody f s = .raised ⟨kind, unitContainer, info⟩ s ∧ checkOf kind info = c := by
  rw [firstFailing_fieldChecks] at h
  cases hfault : headerFault s.par f with
  | some e =>
    rw [hfault] at h
    exact ⟨e.1, e.2, by simp only [openBody, hfault], Option.some.inj h⟩
  | none =>
    rw [hfault, Option.none_or] at h
    split at h
    · rename_i hshort
      refine ⟨_, _, ?_, Option.some.inj h⟩
      simp only [openBody, hfault, decide_eq_false (Nat.not_le.mpr hshort), check_false, Run.bind_raised]
    · cases h

theorem openBody_accepted {s : State} (hio : s.io = []) {f : HdrFields} (h : firstFailing (fieldChecks s f) = none) :
    openBody f s = (scanChunks (streamLen s + 1) (headerLength f.version) 0 (headerLoaded s f)).bind
      fun _ t => .done () (openDone f t) := by
  rw [firstFailing_fieldChecks, Option.map_eq_none_iff, Option.or_eq_none_iff] at h
  obtain ⟨hfault, hlen⟩ := h
  have hlen : headerLength f.version ≤ streamLen s := by
    by_contra hshort
    rw [if_pos (Nat.not_le.mp hshort)] at hlen
    cases hlen
  simp only [openBody, hfault, hlen, decide_true, check_true, Run.bind_done, readPalettes_nil hio, headerLoaded]

/-- The session that the scan's table completes (46 R275). -/
theorem openDone_opened (s : State) (f : HdrFields) (ot : List OtEntry) :
    opened s { complete (openDone f { headerLoaded s f with ot := ot }) with act := .idle } f ot := by
  have hblack : ∀ a < framePixels f, Memory.read (filled (framePixels f) Colour.black) a = some Colour.black :=
    fun a ha => by rw [Memory.read_filled, if_pos ha]
  exact ⟨rfl, fun a ha => ⟨hblack a ha, hblack a ha⟩, fun _ hi => headerLoaded_palettes s f hi⟩

/-- Settles O31: the checks are R244's table, and past them the run is the scan, which leaves R247's table or the raise at the
first I-frame it has no room for. -/
theorem headerRecordOpens : Obligations.HeaderRecordOpens := by
  intro s f hact hio
  have hexec : exec (.hdr f) s = .next { finish .opening s (openBody f s) with act := .idle } := by
    change execHdr f s = _
    simp only [execHdr, hact]
    rfl
  rw [hexec]
  refine ⟨fun c hc => ?_, fun haccepted _ ot hot => ?_⟩
  · obtain ⟨kind, info, hbody, rfl⟩ := openBody_refused hc
    rw [hbody, finish_raised, takeError_opening rfl]
  · have hscan : ScanLeaves (headerLoaded s f) ot
        (scanChunks (streamLen s + 1) (headerLength f.version) 0 (headerLoaded s f)) :=
      scanChunks_leaves (s := headerLoaded s f) hot rfl hio rfl (by omega)
    rw [openBody_accepted hio haccepted]
    refine ⟨fun hfits => ⟨_, rfl, ?_⟩, fun e he => ?_⟩
    · rw [hscan.fits ((Nat.zero_add ot.length).trans_le hfits), Run.bind_done, finish_done]
      exact openDone_opened s f ot
    · obtain ⟨a, u, hraise, huio, hoff⟩ := hscan.full s.par.otCap e he (Nat.zero_add _)
      rw [hraise, Run.bind_raised, finish_raised, chunkTooBig, takeError_opening (s := s) huio, checkOf, hoff]
      rfl

end Sys2Proof.Machine
end

section
/-! What the table of 46 R271 lets through: every host command is admitted as the table says, refused with its own code elsewhere,
and leaves `VDONE` at its formula. -/

namespace Sys2Proof.Machine

/-! ## The error of a refusal -/

/-- `IllegalCommand` before anything was done changes nothing but the error registers (60 R313). -/
theorem takeError_illegal_self (cls : RaiseClass) (s : State) (info : Nat) :
    takeError cls s s ⟨.illegalCommand, unitOther, info⟩ = refusedWith (BitVec.ofNat 32 info) s := by
  have hcode : unitOther ++ (0 : BitVec 4) ++ ErrorKind.illegalCommand.code = (0x407 : BitVec 12) := by decide
  rw [takeError_illegal, recordError, hcode]
  rfl

theorem finish_illegalArgument (cls : RaiseClass) (s : State) (code k : Nat) :
    finish cls s (.raised (illegalArgument code k) s) = refusedWith (BitVec.ofNat 32 ((k + 1) * 256 + code)) s :=
  takeError_illegal_self cls s _

/-! ## The contract of each command -/

/-- A host command is run by the command contract (46 R270), with the sessions of its row in R271's table and its own code. -/
structure Contracted (i : Instr) (code : Byte) (allowed : Session → Bool) (cls : RaiseClass) (op : State → Run Unit) : Prop where
  encoded : encode i = [code]
  admitted : ∀ x, allowed x = admits i x
  runs : ∀ s, exec i s = runCommand code.toNat allowed cls op s

theorem exec_contracted {i : Instr} (hi : isCommand i = true) :
    ∃ code allowed cls op, Contracted i code allowed cls op := by
  cases i with
  | nop | softReset | loadQuality | openStream | nextFrame | nextAudio | resetVideo | skipFwd | skipBack | skipTo | close
  | lzDecompress | lzCompress | decodeBs | nearest | histClear | histAccum | selectPalette | tss | blockSad | encSetup
  | encOpen | encFrame | encAudio | encClose =>
    exact ⟨_, _, _, _, rfl, fun x => by cases x <;> rfl, fun _ => rfl⟩
  | _ => exact absurd hi (by simp [isCommand, languageOf])

theorem Contracted.refused {i : Instr} {code : Byte} {allowed : Session → Bool} {cls : RaiseClass} {op : State → Run Unit}
    (h : Contracted i code allowed cls op) {s : State} (hs : admits i s.session = false) :
    exec i s = .next (refusedWith (code.setWidth 32) s) := by
  rw [h.runs, runCommand_refused ((h.admitted _).trans hs), illegalCommand, takeError_illegal_self, BitVec.ofNat_toNat]

/-- A CMD write of a code outside the table is refused with that code (10 R22, 60 R313). -/
theorem step_unknownCommand {s : State} {v : Word} {rest : List HostAccess} (hact : s.act = .idle)
    (hhost : s.host = .write 0 v :: rest) (hcode : decodeCommand (v.setWidth 8) = none) :
    step s = .next (refusedWith ((v.setWidth 8).setWidth 32) { s with host := rest }) := by
  simp only [step, hact, idleStep, hhost, hostStep, if_true, issueCommand, decode, hcode]
  rw [illegalCommand, takeError_illegal_self, BitVec.ofNat_toNat]

/-- Settles O5: each command is run by the contract with its row of the table, and the decoder names the codes outside it. -/
theorem illegalCommandsRefused : Obligations.IllegalCommandsRefused := by
  refine ⟨fun i s code hi hcode hs => ?_, fun s v rest hact hhost hnone => step_unknownCommand hact hhost hnone⟩
  obtain ⟨code', allowed, cls, op, h⟩ := exec_contracted hi
  obtain rfl : code' = code := List.singleton_inj.mp (h.encoded.symm.trans hcode)
  exact h.refused hs

/-! ## VDONE -/

theorem videoDone_iff (s : State) :
    videoDone s = true ↔
      (s.session = .decOpen ∨ s.session = .decFault) ∧ s.hdr.frameCount.toNat ≤ s.frameCtr.toNat := by
  simp [videoDone]

/-- Settles O7: completion and error alike recompute `VDONE` from the state they leave. -/
theorem vdoneAfterCommand : Obligations.VdoneAfterCommand := by
  intro i s t hi h
  rcases exec_command_leaves hi h with ⟨e, r, -, rfl⟩ | ⟨u, -, rfl⟩
  · exact videoDone_iff r
  · exact videoDone_iff u

end Sys2Proof.Machine
end

section
/-! The general commands (46 R272 to R274) and CLOSE, RESET_VIDEO: what each does to the whole state. -/

namespace Sys2Proof.Machine

/-! ## NOP and SOFT_RESET -/

/-- Settles O3: NOP is the completion alone. -/
theorem nopClearsError : Obligations.NopClearsError := fun _ => rfl

/-- Clearing the error of a reset state changes nothing: it has none (10 R44). -/
theorem complete_softReset (s : State) : complete (softReset s) = softReset s := rfl

theorem exec_softReset (s : State) : exec .softReset s = .next (softReset s) :=
  congrArg Host.Outcome.next (complete_softReset s)

/-- No register shows the sink's bytes, the host's accesses, the I/O script, the parameters or the draws of free values. -/
theorem registerValue_hidden (s : State) (out : ByteMemory) (host : List HostAccess) (hostData : BitVec 33) (io : List Bool)
    (par : Params) (epoch : Nat) (index : Nat) :
    registerValue { s with out := out, host := host, hostData := hostData, io := io, par := par, epoch := epoch } index =
      registerValue s index := rfl

/-- Settles O2: the reset state differs from the command's in what no register shows, and the reset input is the command. -/
theorem softResetResets : Obligations.SoftResetResets := by
  refine ⟨fun s => ⟨softReset s, exec_softReset s, fun index => ?_, rfl, rfl, rfl, rfl, rfl, rfl⟩, fun s rest hact => ?_⟩
  · exact registerValue_hidden { State.reset with plat := s.plat } s.out s.host s.hostData s.io s.par (s.epoch + 1) index
  · have hcommand : decode .command [(1 : Word).setWidth 8] = .ok (.softReset, 1) := rfl
    rw [step_access hact, step_command (s := { s with host := .write 0 1 :: rest }) hact rfl hcommand]
    exact (exec_softReset { s with host := rest }).symm

/-! ## LOAD_QUALITY -/

theorem exec_loadQuality (s : State) :
    exec .loadQuality s = .next (complete (match qualityPreset s.par s.cfg.quality with
      | some p => { s with cfg := loadPreset p s.cfg }
      | none => s)) := by
  change execLoadQuality s = _
  rw [execLoadQuality, runCommand_admitted rfl, loadQualityOp]
  cases qualityPreset s.par s.cfg.quality <;> rfl

/-- Settles O4: the row of `QualityPresets` by the value of `QUALITY`. -/
theorem loadQualityLoadsPreset : Obligations.LoadQualityLoadsPreset := by
  intro s
  rw [exec_loadQuality]
  refine ⟨fun p hp => ?_, fun hcustom => by rw [hcustom]; rfl⟩
  have hpreset : qualityPreset s.par s.cfg.quality = some p := by
    rcases hp with ⟨hq, rfl⟩ | ⟨hq, rfl⟩ | ⟨hq, rfl⟩ <;> rw [hq] <;> rfl
  rw [hpreset]
  rfl

/-! ## The argument checks -/

section Arguments

variable {s : State}

theorem exec_nearest_refused (h : admits .nearest s.session = true) (harg : 1 < s.arg.x1.toNat) :
    exec .nearest s = .next (refusedWith 0x230 s) := by
  have hcheck : (argNat s 1 == 0 || argNat s 1 == 1) = false := by
    have hnot : s.arg.x1.toNat ≠ 0 ∧ s.arg.x1.toNat ≠ 1 := by omega
    simpa [argNat] using hnot
  have hrun : exec .nearest s = .next (finish .plain s (nearestOp s)) :=
    runCommand_admitted ((admits_nearest _).symm.trans h)
  rw [hrun, nearestOp, hcheck, check_false, Run.bind_raised, finish_illegalArgument]
  rfl

theorem frameTypeOf_eq_none {n : Nat} (h1 : n ≠ 1) (h2 : n ≠ 2) : frameTypeOf n = none := by
  unfold frameTypeOf
  split
  · exact absurd rfl h1
  · exact absurd rfl h2
  · rfl

theorem exec_decodeBs_refused (h : admits .decodeBs s.session = true) (h1 : s.arg.x0 ≠ 1) (h2 : s.arg.x0 ≠ 2) :
    exec .decodeBs s = .next (refusedWith 0x122 s) := by
  have htype : frameTypeOf (argNat s 0) = none :=
    frameTypeOf_eq_none (fun hn => h1 (BitVec.eq_of_toNat_eq hn)) (fun hn => h2 (BitVec.eq_of_toNat_eq hn))
  have hadmit : admitBitstream s.session = true := by revert h; cases s.session <;> decide
  have hrun : exec .decodeBs s = .next (finish .bitstream s (decodeBsOp s)) := runCommand_admitted hadmit
  rw [hrun, decodeBsOp, htype]
  exact congrArg Host.Outcome.next (finish_illegalArgument .bitstream s 0x22 0)

theorem exec_lzDecompress_refused (h : admits .lzDecompress s.session = true) (hcap : s.par.bsCap < s.arg.x0.toNat) :
    exec .lzDecompress s = .next (refusedWith 0x120 s) := by
  have hcheck : decide (argNat s 0 ≤ s.par.bsCap) = false := decide_eq_false (Nat.not_le.mpr hcap)
  rw [exec_lzDecompress h, lzDecompressOp, hcheck, check_false, Run.bind_raised, finish_illegalArgument]
  rfl

variable (h : admits .tss s.session = true)
include h

theorem exec_tss : exec .tss s = .next (finish .plain s (tssOp s)) := runCommand_admitted ((admits_tss _).symm.trans h)

theorem exec_blockSad : exec .blockSad s = .next (finish .plain s (blockSadOp s)) :=
  runCommand_admitted ((admits_tss _).symm.trans h)

theorem exec_column_refused (hcol : columnFits s = false) :
    exec .tss s = .next (refusedWith 0x134 s) ∧ exec .blockSad s = .next (refusedWith 0x135 s) := by
  rw [exec_tss h, exec_blockSad h, tssOp, blockSadOp, hcol, check_false, check_false, Run.bind_raised, Run.bind_raised,
    finish_illegalArgument, finish_illegalArgument]
  exact ⟨rfl, rfl⟩

variable (hcol : columnFits s = true)
include hcol

theorem exec_row_refused (hrow : rowFits s = false) :
    exec .tss s = .next (refusedWith 0x234 s) ∧ exec .blockSad s = .next (refusedWith 0x235 s) := by
  rw [exec_tss h, exec_blockSad h, tssOp, blockSadOp, hcol, check_true, check_true, Run.bind_done, Run.bind_done, hrow,
    check_false, check_false, Run.bind_raised, Run.bind_raised, finish_illegalArgument, finish_illegalArgument]
  exact ⟨rfl, rfl⟩

variable (hrow : rowFits s = true)
include hrow

theorem exec_columnOffset_refused (hdcol : columnOffsetFits s = false) : exec .blockSad s = .next (refusedWith 0x335 s) := by
  rw [exec_blockSad h, blockSadOp, hcol, check_true, Run.bind_done, hrow, check_true, Run.bind_done, hdcol, check_false,
    Run.bind_raised, finish_illegalArgument]
  rfl

theorem exec_rowOffset_refused (hdcol : columnOffsetFits s = true) (hdrow : rowOffsetFits s = false) :
    exec .blockSad s = .next (refusedWith 0x435 s) := by
  rw [exec_blockSad h, blockSadOp, hcol, check_true, Run.bind_done, hrow, check_true, Run.bind_done, hdcol, check_true,
    Run.bind_done, hdrow, check_false, Run.bind_raised, finish_illegalArgument]
  rfl

end Arguments

theorem columnOffsetFits_iff (s : State) :
    columnOffsetFits s = true ↔ 0 ≤ (s.arg.x0.toNat : Int) + s.arg.x2.toInt ∧
      (s.arg.x0.toNat : Int) + s.arg.x2.toInt + blockWidth s.hdr.version ≤ s.hdr.width.toNat := by
  simp only [columnOffsetFits, argNat, argInt, Bool.and_eq_true, decide_eq_true_eq]

theorem rowOffsetFits_iff (s : State) :
    rowOffsetFits s = true ↔ 0 ≤ (s.arg.x1.toNat : Int) + s.arg.x3.toInt ∧
      (s.arg.x1.toNat : Int) + s.arg.x3.toInt + blockHeight s.hdr.version ≤ s.hdr.height.toNat := by
  simp only [rowOffsetFits, argNat, argInt, Bool.and_eq_true, decide_eq_true_eq]

/-- Settles O6: each check in R294's order refuses with its argument's number. -/
theorem argumentChecks : Obligations.ArgumentChecks := by
  intro s
  refine ⟨exec_nearest_refused, exec_decodeBs_refused, exec_lzDecompress_refused,
    fun h => ⟨fun hcol => ?_, fun hcol hrow => ?_, fun hcol hrow hdcol => ?_, fun hcol hrow hdcol hdrow => ?_⟩⟩
  · exact exec_column_refused h (decide_eq_false hcol)
  · exact exec_row_refused h (decide_eq_true hcol) (decide_eq_false hrow)
  · exact exec_columnOffset_refused h (decide_eq_true hcol) (decide_eq_true hrow)
      (Bool.eq_false_iff.mpr (mt (columnOffsetFits_iff s).mp hdcol))
  · exact exec_rowOffset_refused h (decide_eq_true hcol) (decide_eq_true hrow) ((columnOffsetFits_iff s).mpr hdcol)
      (Bool.eq_false_iff.mpr (mt (rowOffsetFits_iff s).mp hdrow))

/-! ## CLOSE and RESET_VIDEO -/

theorem exec_close {s : State} (h : s.session = .decOpen ∨ s.session = .decFault) :
    exec .close s = .next (ended s s.res) := by
  change execClose s = _
  rw [execClose, runCommand_admitted (admitDecode_iff.mpr h)]
  rfl

/-- Settles O35: the session is closed, where the header registers are the host's to write. -/
theorem closeEndsSession : Obligations.CloseEndsSession := by
  intro s h
  refine ⟨exec_close h, fun index v hlow hhigh => ?_⟩
  have hclosed : (ended s s.res).session = .closed := rfl
  unfold writeRegister
  split
  case h_8 =>
    rw [if_pos ⟨hlow, hhigh⟩, if_pos hclosed]
    rfl
  all_goals omega

/-- Cleared reference frames are black at every pixel (46 R283). -/
theorem read_cleared {n a : Nat} (h : a < n) : Memory.read (filled n Colour.black) a = some Colour.black := by
  rw [Memory.read_filled, if_pos h]

/-- The state `Rewind()` completes in (46 R283). -/
theorem rewound_complete (s : State) (res : Quad) :
    rewound s (complete { rewind s with session := .decOpen, res := res }) res :=
  ⟨rfl, fun _ ha => ⟨read_cleared ha, read_cleared ha⟩⟩

/-- Settles O36: the command is `Rewind()` in DEC_OPEN. -/
theorem resetVideoRewinds : Obligations.ResetVideoRewinds := by
  intro s h
  refine ⟨_, ?_, rewound_complete s s.res⟩
  change execResetVideo s = _
  rw [execResetVideo, runCommand_admitted (admitDecode_iff.mpr h)]
  rfl

end Sys2Proof.Machine
end

section
/-! The commands of the encode session (46 R295 to R299; 45 R257 to R260): the session they open and end, and what they append to
`OUT`. -/

namespace Sys2Proof.Machine

/-! ## Runs and the sink -/

theorem exec_encSetup {s : State} (h : s.session = .closed) :
    exec .encSetup s = .next (finish .opening s (encSetupOp s)) := runCommand_admitted (by rw [h]; rfl)

theorem exec_encOpen {s : State} (h : s.session = .encSetup) :
    exec .encOpen s = .next (finish .encOutput s (encOpenOp s)) := runCommand_admitted (by rw [h]; rfl)

theorem exec_encFrame {s : State} (h : s.session = .encOpen) :
    exec .encFrame s = .next (finish .encFrame s (encFrameOp s)) := runCommand_admitted (by rw [h]; rfl)

theorem exec_encAudio {s : State} (h : s.session = .encOpen) :
    exec .encAudio s = .next (finish .encOutput s (encAudioOp s)) := runCommand_admitted (by rw [h]; rfl)

theorem exec_encClose {s : State} (h : s.session = .encSetup ∨ s.session = .encOpen) :
    exec .encClose s = .next (finish .encOutput s (encCloseOp s)) := runCommand_admitted (admitEncode_iff.mpr h)

theorem videoDone_of_encOpen {s : State} (h : s.session = .encOpen) : videoDone s = false := by simp [videoDone, h]

/-- The error of a sink that cannot take the bytes, in a session whose output is open (20 R67, 60 R311). -/
theorem recordError_sink {s : State} (h : s.session = .encOpen) (a : Nat) :
    recordError ⟨.ioError, unitContainer, a⟩ s =
      { s with err := 0x106, errInfo := BitVec.ofNat 32 a, status := { s.status with errf := true, vdone := false } } := by
  have hcode : unitContainer ++ (0 : BitVec 4) ++ ErrorKind.ioError.code = (0x106 : BitVec 12) := by decide
  rw [recordError, videoDone_of_encOpen h, hcode]

theorem read_writeList_inside {α : Type} (m : Memory α) (a : Nat) {vs : List α} {i : Nat} (hi : i < vs.length) :
    Memory.read (Memory.writeList m a vs) (a + i) = vs[i]? := by
  rw [Memory.read_writeList, if_pos (by omega), Nat.add_sub_cancel_left]

theorem read_writeList_outside {α : Type} (m : Memory α) {a b : Nat} {vs : List α} (h : b < a ∨ a + vs.length ≤ b) :
    Memory.read (Memory.writeList m a vs) b = Memory.read m b := by
  rw [Memory.read_writeList, if_neg (by omega)]

/-! ## ENC_SETUP -/

/-- A failed check of ENC_SETUP changes nothing but the error (60 R318). -/
theorem takeError_setup (s : State) (kind : ErrorKind) (info : Nat) :
    takeError .opening s s ⟨kind, unitOther, info⟩ = checkRefused s 4 (checkOf kind info) := rfl

theorem setupFault_of_sink {s : State} (h : s.plat.snkPresent = true) :
    setupFault s = (headerFault s.par s.hdr).map fun e => ⟨e.1, unitOther, e.2⟩ := by
  rw [setupFault, if_neg (by rw [h]; decide)]
  cases headerFault s.par s.hdr <;> rfl

theorem exec_encSetup_of_fault {s : State} (hs : s.session = .closed) {kind : ErrorKind} {info : Nat}
    (h : setupFault s = some ⟨kind, unitOther, info⟩) :
    exec .encSetup s = .next (checkRefused s 4 (checkOf kind info)) := by
  rw [exec_encSetup hs, encSetupOp, h, finish_raised, takeError_setup]

/-- Settles O41: past its checks, which are R244's table, ENC_SETUP allocates and clears. -/
theorem encSetupOpens : Obligations.EncSetupOpens := by
  intro s hs
  refine ⟨fun hsink hpass => ?_, fun hnone => ?_, fun c hsink hfail => ?_⟩
  · rw [firstFailing_headerChecks, Option.map_eq_none_iff] at hpass
    have hfault : setupFault s = none := by rw [setupFault_of_sink hsink, hpass]; rfl
    refine ⟨complete (setupSession s), ?_, rfl, fun _ ha => ⟨read_cleared ha, read_cleared ha⟩,
      fun _ hi => ⟨read_cleared hi, read_cleared hi⟩⟩
    rw [exec_encSetup hs, encSetupOp, hfault, finish_done]
  · have hfault : setupFault s = some ⟨.fileNotFound, unitOther, 0⟩ := if_pos hnone
    exact ⟨_, exec_encSetup_of_fault hs hfault, rfl⟩
  · rw [firstFailing_headerChecks] at hfail
    obtain ⟨⟨kind, info⟩, hheader, rfl⟩ := Option.map_eq_some_iff.mp hfail
    exact exec_encSetup_of_fault hs (by rw [setupFault_of_sink hsink, hheader]; rfl)

/-! ## ENC_OPEN -/

/-- Channel `k` of a colour, in the order the palettes are written (30 R93). -/
def channel (c : Colour) (k : Nat) : Byte := if k = 0 then c.r else if k = 1 then c.g else c.b

theorem flatMap_channels_length (table : Nat → Colour) (n : Nat) :
    ((List.range n).flatMap fun i => [(table i).r, (table i).g, (table i).b]).length = 3 * n := by
  simp [List.length_flatMap, Nat.mul_comm]

/-- The bytes of the first `n` entries of a palette, three an entry. -/
theorem flatMap_channels_getElem? (table : Nat → Colour) {n i : Nat} (hi : i < 3 * n) :
    ((List.range n).flatMap fun i => [(table i).r, (table i).g, (table i).b])[i]? =
      some (channel (table (i / 3)) (i % 3)) := by
  induction n with
  | zero => omega
  | succ n ih =>
    rw [List.range_succ, List.flatMap_append]
    by_cases hold : i < 3 * n
    · rw [List.getElem?_append_left (by rwa [flatMap_channels_length]), ih hold]
    · rw [List.getElem?_append_right (by rw [flatMap_channels_length]; omega), flatMap_channels_length]
      have hentry : i / 3 = n := by omega
      obtain h | h | h : i - 3 * n = 0 ∨ i - 3 * n = 1 ∨ i - 3 * n = 2 := by omega
      · rw [h, hentry, show i % 3 = 0 by omega]; rfl
      · rw [h, hentry, show i % 3 = 1 by omega]; rfl
      · rw [h, hentry, show i % 3 = 2 by omega]; rfl

theorem paletteBytes_length (s : State) (second : Bool) : (paletteBytes s second).length = 768 :=
  flatMap_channels_length _ 256

theorem paletteBytes_getElem? (s : State) (second : Bool) {i : Nat} (hi : i < 768) :
    (paletteBytes s second)[i]? = some (channel (paletteAt s second (i / 3)) (i % 3)) :=
  flatMap_channels_getElem? _ (n := 256) hi

/-- The palettes the profile carries, as they are written behind the header's fields (45 R257). -/
def paletteImage (s : State) : List Byte :=
  (if 1 ≤ paletteTables s.hdr.version then paletteBytes s false else []) ++
    (if paletteTables s.hdr.version = 2 then paletteBytes s true else [])

theorem headerImage_eq (s : State) : headerImage s = encode (.hdr s.hdr) ++ paletteImage s := List.append_assoc ..

theorem paletteImage_length (s : State) : (paletteImage s).length = 768 * paletteTables s.hdr.version := by
  rw [paletteImage]
  rcases paletteTables_cases s.hdr.version with h | h | h <;> rw [h] <;> simp [paletteBytes_length]

/-- Byte `i` of the palettes: entry `i mod 768 / 3` of the first table, or of the second from byte 768 on. -/
theorem paletteImage_getElem? (s : State) {i : Nat} (hi : i < 768 * paletteTables s.hdr.version) :
    (paletteImage s)[i]? = some (channel (paletteAt s (decide (768 ≤ i)) (i % 768 / 3)) (i % 3)) := by
  have htables := paletteTables_cases s.hdr.version
  rw [paletteImage, if_pos (by omega)]
  by_cases hfirst : i < 768
  · rw [List.getElem?_append_left (by rwa [paletteBytes_length]), paletteBytes_getElem? s false hfirst,
      Nat.mod_eq_of_lt hfirst, decide_eq_false (Nat.not_le.mpr hfirst)]
  · rw [if_pos (by omega), List.getElem?_append_right (by rw [paletteBytes_length]; omega), paletteBytes_length,
      paletteBytes_getElem? s true (by omega), decide_eq_true (by omega), show i % 768 = i - 768 by omega,
      show (i - 768) % 3 = i % 3 by omega]

theorem headerImage_length (s : State) : (headerImage s).length = headerLength s.hdr.version := by
  rw [headerImage_eq, List.length_append, paletteImage_length, encode_record_length.1, headerLength]

/-- `s` with its header written: ENC_OPEN's append and the session it opens (46 R296). -/
def headerAppended (s : State) (image : List Byte) : State :=
  { s with
    session := .encOpen
    firstChunk := BitVec.ofNat 32 (headerLength s.hdr.version)
    out := Memory.writeList s.out s.outlen.toNat image
    outlen := BitVec.ofNat 32 (s.outlen.toNat + headerLength s.hdr.version)
    res := { s.res with x0 := BitVec.ofNat 32 (headerLength s.hdr.version) } }

/-- Said of a list that equals the header's image, so that no use of the lemma evaluates the image. -/
theorem encOpenOp_nil {s : State} (hio : s.io = []) {image : List Byte} (himage : headerImage s = image)
    (hroom : s.outlen.toNat + headerLength s.hdr.version < 2 ^ 32) :
    encOpenOp s = .done () (headerAppended s image) := by
  have hlen : image.length = headerLength s.hdr.version := himage ▸ headerImage_length s
  have hregister : saturate (headerLength s.hdr.version) = BitVec.ofNat 32 (headerLength s.hdr.version) :=
    saturate_of_lt (by omega)
  rw [encOpenOp, himage, appendOut_nil image hio (by omega), Run.bind_done, setRes0, hregister, hlen]
  rfl

/-- Settles O42: the one append is the header's image, whose bytes are the record's and, behind it, the palettes'. -/
theorem encOpenWritesHeader : Obligations.EncOpenWritesHeader := by
  intro s hs hio hroom
  have hlen := headerImage_length s
  have hfields : ∀ i < 38, (headerImage s)[i]? = (encode (.hdr s.hdr))[i]? := fun i hi => by
    rw [headerImage_eq, List.getElem?_append_left hi]
  have hpalettes : ∀ i, (headerImage s)[38 + i]? = (paletteImage s)[i]? := fun i => by
    rw [headerImage_eq, List.getElem?_append_right (by rw [encode_record_length.1]; omega), encode_record_length.1,
      Nat.add_sub_cancel_left]
  generalize himage : headerImage s = image at hlen hfields hpalettes
  have hheader : headerLength s.hdr.version = 38 + 768 * paletteTables s.hdr.version := rfl
  refine ⟨complete (headerAppended s image), ?_, rfl, fun i hi => ?_, fun i hi => ?_, fun a ha => ?_⟩
  · rw [exec_encOpen hs, encOpenOp_nil hio himage hroom, finish_done]
  all_goals
    change Memory.read (Memory.writeList s.out s.outlen.toNat image) _ = _
  · rw [read_writeList_inside _ _ (by omega), hfields i hi]
  · rw [Nat.add_assoc, read_writeList_inside _ _ (by omega), hpalettes, paletteImage_getElem? s hi]
    rfl
  · exact read_writeList_outside _ (by rwa [hlen])

/-! ## ENC_AUDIO -/

theorem packPayload_length_le (compEn : Bool) (inp : List Byte) : (packPayload compEn inp).length ≤ inp.length :=
  ((lzssRoundTrip inp).2 compEn).2

/-- `s` with the payload in `CB`, the chunk appended, and the results of ENC_AUDIO (46 R298). -/
def audioAppended (s : State) (payload chunk : List Byte) : State :=
  { fillCb payload s with
    out := Memory.writeList s.out s.outlen.toNat chunk
    outlen := BitVec.ofNat 32 (s.outlen.toNat + chunk.length)
    res := { s.res with x0 := saturate payload.length, x1 := s.outlen } }

theorem encAudioOp_eq {s : State} {payload : List Byte} (h : packPayload s.cfg.compEn (abBytes s) = payload) :
    encAudioOp s = (appendOut (encode (.agac ⟨s.ablen, saturate payload.length⟩) ++ payload) (fillCb payload s)).bind
      fun _ u => .done () (setRes1 s.outlen.toNat (setRes0 (saturate payload.length).toNat u)) := by
  rw [← h]
  rfl

/-- Settles O44: the packed payload is no longer than `ABLEN`, so that its length stands in `CBLEN` as it is. -/
theorem encAudioAppendsChunk : Obligations.EncAudioAppendsChunk := by
  intro s hs hio payload chunk
  have hcblen : saturate payload.length = BitVec.ofNat 32 payload.length := by
    have hle : payload.length ≤ s.ablen.toNat := (packPayload_length_le _ _).trans (bytesAt_length ..).le
    exact saturate_of_lt (hle.trans_lt s.ablen.isLt)
  have hop : encAudioOp s = (appendOut chunk (fillCb payload s)).bind fun _ u =>
      .done () (setRes1 s.outlen.toNat (setRes0 (saturate payload.length).toNat u)) := by
    simp only [chunk, ← hcblen]
    exact encAudioOp_eq rfl
  have hcb : ∀ i, Memory.read (fillCb payload s).cb i = payload[i]? := Memory.read_ofList _ 0
  rw [exec_encAudio hs, hop, ← hcblen]
  clear_value payload chunk
  refine ⟨fun hfull => ⟨recordError ⟨.ioError, unitContainer, s.outlen.toNat⟩ (fillCb payload s), ?_, ?_, hcb⟩,
    fun hroom => ⟨complete (audioAppended s payload chunk), ?_, rfl, hcb, fun i hi => read_writeList_inside _ _ hi,
      fun a ha => read_writeList_outside _ ha⟩⟩
  · rw [appendOut_full (s := fillCb payload s) chunk hfull]
    rfl
  · rw [recordError_sink (s := fillCb payload s) hs, BitVec.ofNat_toNat, BitVec.setWidth_eq]
    rfl
  · rw [appendOut_nil (s := fillCb payload s) chunk hio hroom, Run.bind_done, setRes1, setRes0, saturate_ofToNat,
      saturate_ofToNat]
    rfl

/-! ## ENC_CLOSE -/

theorem patchOut_nil (a : Nat) (bytes : List Byte) {s : State} (h : s.io = []) :
    patchOut a bytes s = .done () { s with out := Memory.writeList s.out a bytes } := by
  simp [patchOut, h]

/-- Settles O45: ENC_SETUP has nothing to patch; in ENC_OPEN the patch is the one write before the session ends. -/
theorem encClosePatchesCount : Obligations.EncClosePatchesCount := by
  intro s
  refine ⟨fun hs => ?_, fun hs hio => ?_, fun rest hs hio => ?_⟩
  · have hpatch : patchFrameCount s = .done () s := if_neg (by rw [hs]; decide)
    rw [exec_encClose (.inl hs), encCloseOp, hpatch, Run.bind_done, setRes1, setRes0, saturate_ofToNat, saturate_ofToNat]
    rfl
  · have hpatch : patchFrameCount s = .done () { s with
        out := Memory.writeList s.out 4 (le32Bytes s.frameCtr), hdr := { s.hdr with frameCount := s.frameCtr } } := by
      rw [patchFrameCount, if_pos hs, patchOut_nil _ _ hio]
      rfl
    rw [exec_encClose (.inr hs), encCloseOp, hpatch, Run.bind_done, setRes1, setRes0, saturate_ofToNat, saturate_ofToNat]
    exact ⟨_, rfl, rfl, fun i hi => read_writeList_inside _ _ hi, fun a ha => read_writeList_outside _ ha⟩
  · have hpatch : patchFrameCount s = .raised ⟨.ioError, unitContainer, 4⟩ { s with io := rest } := by
      rw [patchFrameCount, if_pos hs, patchOut, hio]
      rfl
    rw [exec_encClose (.inr hs), encCloseOp, hpatch, Run.bind_raised, finish_raised]
    exact congrArg Host.Outcome.next (recordError_sink (s := { s with io := rest }) hs 4)

end Sys2Proof.Machine
end

section
/-! ENC_FRAME (46 R297, 45 R258): its limits, the chunk it appends, and the frame it commits. -/

namespace Sys2Proof.Machine

/-! ## The frame type and the limits -/

theorem chooseFrameType_eq_intra_iff (s : State) :
    chooseFrameType s = .intra ↔ s.frameCtr = 0 ∨
      (s.cfg.keyInterval ≠ 0 ∧ s.frameCtr.toNat % s.cfg.keyInterval.toNat = 0) ∨ s.arg.x0.getLsbD 0 = true := by
  have hinterval : 0 < s.cfg.keyInterval.toNat ↔ s.cfg.keyInterval ≠ 0 := by
    rw [Nat.pos_iff_ne_zero, Ne, Ne, BitVec.toNat_eq]
    rfl
  unfold chooseFrameType
  split
  · rename_i h; exact iff_of_true rfl (by rwa [hinterval] at h)
  · rename_i h; exact iff_of_false (by decide) (by rwa [hinterval] at h)

theorem frameType_eq_of_intra_iff {x y : FrameType} (h : x = .intra ↔ y = .intra) : x = y := by
  cases x <;> cases y <;> simp at h ⊢

theorem encFrameOp_at_limit {s : State} (h : s.frameCtr.toNat = 2 ^ 32 - 1) :
    encFrameOp s = .raised (illegalCommand 0x42) s := if_pos h

/-- An I-frame the offset table has no room for raises. -/
theorem encFrameOp_no_room {s : State} (hctr : s.frameCtr.toNat < 2 ^ 32 - 1) (htype : chooseFrameType s = .intra)
    (hfull : s.par.otCap ≤ s.ot.length) :
    encFrameOp s = .raised ⟨.memoryAllocationFailure, unitOther, s.frameCtr.toNat⟩ s := by
  rw [encFrameOp, if_neg hctr.ne, if_pos ⟨htype, hfull⟩]

theorem encFrameOp_writes {s : State} (hctr : s.frameCtr.toNat < 2 ^ 32 - 1)
    (hroom : ¬ (chooseFrameType s = .intra ∧ s.par.otCap ≤ s.ot.length)) :
    encFrameOp s = writeFrame (chooseFrameType s) s := by
  rw [encFrameOp, if_neg hctr.ne, if_neg hroom]

/-- A session that memory fails is ended, with the error (60 R318). -/
theorem recordError_lost (s : State) (unit : BitVec 4) (info : Nat) :
    recordError ⟨.memoryAllocationFailure, unit, info⟩ (closeSession s) =
      sessionLost s (unit ++ (0 : BitVec 4) ++ (3 : BitVec 4)) (BitVec.ofNat 32 info) := rfl

/-! ## The chunk -/

/-- The header of the frame chunk (45 R258). -/
def frameHeaderOf (ftype : FrameType) (s u : State) (payload : List Byte) : AgfcFields :=
  ⟨s.frameCtr, if ftype = .intra then 1 else 2, u.bslen, saturate payload.length⟩

/-- `s` with the frame that left `u` and `payload` written and committed, and the results of ENC_FRAME (46 R297). -/
def frameAppended (ftype : FrameType) (s u : State) (payload chunk : List Byte) : State :=
  { fillCb payload u with
    out := Memory.writeList s.out s.outlen.toNat chunk
    outlen := BitVec.ofNat 32 (s.outlen.toNat + chunk.length)
    last := frameHeaderOf ftype s u payload
    ot := if ftype = .intra then s.ot ++ [⟨s.outlen, s.frameCtr⟩] else s.ot
    prev := u.cur
    key := if ftype = .intra then u.cur else s.key
    status := { s.status with
      fvalid := true
      lastkey := decide (ftype = .intra)
      stale := s.status.stale && decide (ftype = .inter) }
    frameCtr := s.frameCtr + 1
    res := ⟨(frameHeaderOf ftype s u payload).ftype.setWidth 32, u.bslen, saturate payload.length, s.outlen⟩ }

/-- The frame is written as one append of its chunk, whatever the platform answers. -/
theorem writeFrame_eq {ftype : FrameType} {s : State} {p : Packer} (hp : packFrame ftype s = p) {payload : List Byte}
    (hpayload : packPayload s.cfg.compEn p.bytes = payload) :
    writeFrame ftype s =
      ((appendOut (encode (.agfc (frameHeaderOf ftype s (encodeFrame p s) payload)) ++ payload)
          (fillCb payload (encodeFrame p s))).bind fun _ v =>
        .done () { v with last := chunkFields ftype v }).bind fun _ v =>
          .done () (frameWritten ftype s.outlen v) := by
  rw [writeFrame, hp, hpayload]
  cases ftype <;> rfl

theorem saturate_half (v : Half) : saturate v.toNat = v.setWidth 32 := by
  rw [saturate_of_lt (by have := v.isLt; omega), BitVec.ofNat_toNat]

theorem frameWritten_eq (ftype : FrameType) (s : State) (p : Packer) (payload chunk : List Byte) :
    frameWritten ftype s.outlen { fillCb payload (encodeFrame p s) with
        out := Memory.writeList s.out s.outlen.toNat chunk
        outlen := BitVec.ofNat 32 (s.outlen.toNat + chunk.length)
        last := frameHeaderOf ftype s (encodeFrame p s) payload } =
      frameAppended ftype s (encodeFrame p s) payload chunk := by
  simp only [frameWritten, frameAppended, setRes3, setRes2, setRes1, setRes0, saturate_ofToNat, saturate_half, commit,
    frameHeaderOf, encodeFrame, fillCb, fillBs, withSequencer]
  cases ftype with
  | intra =>
    rw [decide_eq_false (show ¬ FrameType.intra = .inter by decide), Bool.and_false]
    rfl
  | inter =>
    rw [decide_eq_true rfl, Bool.and_true]
    rfl

/-- What ENC_FRAME leaves where its chunk fits `OUT` (46 R297). -/
theorem writeFrame_fits {ftype : FrameType} {s : State} (hio : s.io = []) {p : Packer} (hp : packFrame ftype s = p)
    {payload chunk : List Byte} (hpayload : packPayload s.cfg.compEn p.bytes = payload)
    (hchunk : encode (.agfc (frameHeaderOf ftype s (encodeFrame p s) payload)) ++ payload = chunk)
    (hfits : s.outlen.toNat + chunk.length < 2 ^ 32) :
    writeFrame ftype s = .done () (frameAppended ftype s (encodeFrame p s) payload chunk) := by
  rw [writeFrame_eq hp hpayload, hchunk, appendOut_nil (s := fillCb payload (encodeFrame p s)) chunk hio hfits,
    Run.bind_done, Run.bind_done, ← frameWritten_eq]
  cases ftype <;> rfl

/-- A chunk too long for `OUT` raises with the frame encoded and nothing appended (47 R301). -/
theorem writeFrame_full {ftype : FrameType} {s : State} {p : Packer} (hp : packFrame ftype s = p)
    {payload chunk : List Byte} (hpayload : packPayload s.cfg.compEn p.bytes = payload)
    (hchunk : encode (.agfc (frameHeaderOf ftype s (encodeFrame p s) payload)) ++ payload = chunk)
    (hfull : 2 ^ 32 ≤ s.outlen.toNat + chunk.length) :
    writeFrame ftype s =
      .raised ⟨.ioError, unitContainer, s.outlen.toNat⟩ (fillCb payload (encodeFrame p s)) := by
  rw [writeFrame_eq hp hpayload, hchunk, appendOut_full (s := fillCb payload (encodeFrame p s)) chunk hfull]
  rfl

/-- The state an ENC_FRAME leaves that `OUT` cannot take: the frame's buffers scrubbed (log 12), and the error. -/
theorem takeError_encFrame {s u : State} (h : u.session = .encOpen) (a : Word) :
    takeError .encFrame s u ⟨.ioError, unitContainer, a.toNat⟩ = { scrubFrame u with
      err := 0x106, errInfo := a, status := { u.status with errf := true, vdone := false } } := by
  have hsink := recordError_sink (s := scrubFrame u) h a.toNat
  rw [BitVec.ofNat_toNat, BitVec.setWidth_eq] at hsink
  exact hsink

/-- Settles O43: past its two limits the command is the one append, which `OUT` takes or not. -/
theorem encFrameAppendsChunk : Obligations.EncFrameAppendsChunk := by
  refine ⟨fun s hs hctr => ?_, ?_⟩
  · rw [exec_encFrame hs, encFrameOp_at_limit (by rw [hctr]; rfl), finish_raised, illegalCommand, takeError_illegal_self]
    rfl
  intro s ftype hs hctr hchosen full
  have htype : chooseFrameType s = ftype :=
    frameType_eq_of_intra_iff ((chooseFrameType_eq_intra_iff s).trans hchosen.symm)
  refine ⟨fun ⟨hintra, hfull⟩ => ?_, ?_⟩
  · rw [exec_encFrame hs, encFrameOp_no_room hctr (htype.trans hintra) hfull, finish_raised]
    change Host.Outcome.next (recordError _ (closeSession s)) = _
    rw [recordError_lost, BitVec.ofNat_toNat, BitVec.setWidth_eq]
    rfl
  intro hroom hio p u payload header chunk
  rw [exec_encFrame hs, encFrameOp_writes hctr (by rwa [htype]), htype]
  have hfits := writeFrame_fits (chunk := chunk) hio (p := p) rfl (payload := payload) rfl rfl
  have hfull := writeFrame_full (chunk := chunk) (p := p) rfl (payload := payload) rfl rfl
  have hcb : ∀ i, Memory.read (fillCb payload u).cb i = payload[i]? := Memory.read_ofList _ 0
  have hheader : header = frameHeaderOf ftype s u payload := rfl
  clear_value chunk header payload p
  subst hheader
  refine ⟨fun hlen => ⟨_, congrArg (fun r => Host.Outcome.next (finish .encFrame s r)) (hfull hlen), ?_⟩,
    fun hlen => ⟨complete (frameAppended ftype s u payload chunk),
      congrArg (fun r => Host.Outcome.next (finish .encFrame s r)) (hfits hlen), rfl, rfl, hcb,
      fun i hi => read_writeList_inside _ _ hi, fun a ha => read_writeList_outside _ ha⟩⟩
  rw [finish_raised, takeError_encFrame (u := fillCb payload (encodeFrame p s)) hs]
  rfl

end Sys2Proof.Machine
end

section
/-! OPEN (45_container R244, R245, R247; 46 R275): the checks before the header's fields, and the run the command shares with the
header record. -/

namespace Sys2Proof.Machine

/-! ## The offset table exists -/

theorem audioChunkAt_end_le {s : State} {a : Nat} {f : AgacFields} (h : audioChunkAt s a f) :
    a + 12 + f.csize.toNat ≤ streamLen s := of_decide_eq_true h.2

theorem frameChunkAt_end_le {s : State} {a : Nat} {f : AgfcFields} {ftype : FrameType} (h : frameChunkAt s a f ftype) :
    a + 18 + f.csize.toNat ≤ streamLen s := of_decide_eq_true h.2.2

/-- The scan of R247 ends from every record, since each chunk moves it on inside the stream. -/
theorem scanTable_exists (s : State) (count n : Nat) {a : Nat} (hn : streamLen s < a + n) (idx : Nat) :
    ∃ ot, ScanTable s count a idx ot := by
  induction n generalizing a idx with
  | zero =>
    refine (Nat.lt_or_ge idx count).elim (fun hleft => ⟨[], .stopped a idx hleft ⟨fun f h => ?_, fun f ftype h => ?_⟩⟩)
      fun hdone => ⟨[], .counted a idx hdone⟩
    · have := audioChunkAt_end_le h; omega
    · have := frameChunkAt_end_le h; omega
  | succ n ih =>
    rcases Nat.lt_or_ge idx count with hleft | hdone
    · by_cases haudio : ∃ f, audioChunkAt s a f
      · obtain ⟨f, h⟩ := haudio
        obtain ⟨ot, hot⟩ := ih (a := a + 12 + f.csize.toNat) (by omega) idx
        exact ⟨ot, .audio a idx f ot hleft h hot⟩
      · by_cases hframe : ∃ f ftype, frameChunkAt s a f ftype
        · obtain ⟨f, ftype, h⟩ := hframe
          obtain ⟨ot, hot⟩ := ih (a := a + 18 + f.csize.toNat) (by omega) (idx + 1)
          cases ftype with
          | intra => exact ⟨_, .intra a idx f ot hleft h hot⟩
          | inter => exact ⟨ot, .inter a idx f ot hleft h hot⟩
        · exact ⟨[], .stopped a idx hleft ⟨fun f h => haudio ⟨f, h⟩, fun f ftype h => hframe ⟨f, ftype, h⟩⟩⟩
    · exact ⟨[], .counted a idx hdone⟩

/-! ## The checks before the fields -/

theorem firstFailing_row {p : Prop} [Decidable p] (kind : ErrorKind) (info : Nat) (checks : List HeaderCheck) :
    firstFailing (⟨decide p, kind.code, BitVec.ofNat 32 info⟩ :: checks) =
      if p then some (checkOf kind info) else firstFailing checks := by
  by_cases hp : p <;> simp [firstFailing, hp, checkOf]

/-- OPEN is refused by one of checks 1 to 3, or goes on to the header's fields, whose checks are then the table's (R244). -/
theorem openOp_checks {s : State} (hio : s.io = []) {f : HdrFields}
    (hfields : 38 ≤ streamLen s → bytesAt s .stream s.plat.stream 4 34 = (encode (.hdr f)).drop 4) :
    (∃ kind info, openOp s = .raised ⟨kind, unitContainer, info⟩ s ∧
      firstFailing (openChecks s f) = some (checkOf kind info)) ∨
    (openOp s = openBody f s ∧ firstFailing (openChecks s f) = firstFailing (fieldChecks s f)) := by
  have hchecks : firstFailing (openChecks s f) =
      if s.plat.srcPresent = false then some (checkOf .fileNotFound 0)
      else if streamLen s < 4 ∨ bytesAt s .stream s.plat.stream 0 4 ≠ magicAgmv then some (checkOf .invalidHeader 0)
      else if streamLen s < 38 then some (checkOf .invalidHeader 4)
      else firstFailing (fieldChecks s f) := by
    have hsource : (!s.plat.srcPresent) = decide (s.plat.srcPresent = false) := by cases s.plat.srcPresent <;> rfl
    rw [openChecks, hsource]
    exact (firstFailing_row .fileNotFound 0 _).trans <| if_congr Iff.rfl rfl <|
      (firstFailing_row .invalidHeader 0 _).trans <| if_congr Iff.rfl rfl (firstFailing_row .invalidHeader 4 _)
  rw [hchecks, openOp, headerBytes]
  by_cases hsrc : s.plat.srcPresent = false
  · rw [if_pos hsrc, if_pos hsrc]
    exact .inl ⟨_, _, rfl, rfl⟩
  rw [if_neg hsrc, if_neg hsrc]
  by_cases hshort : streamLen s < 4
  · rw [if_pos hshort, if_pos (.inl hshort)]
    exact .inl ⟨_, _, rfl, rfl⟩
  rw [if_neg hshort, memRead_nil 0 4 hio, Run.bind_done]
  by_cases hmagic : bytesAt s .stream s.plat.stream 0 4 = magicAgmv
  · rw [if_neg (not_not.mpr hmagic), if_neg (not_or.mpr ⟨hshort, not_not.mpr hmagic⟩)]
    by_cases hcut : streamLen s < 38
    · rw [if_pos hcut, if_pos hcut]
      exact .inl ⟨_, _, rfl, rfl⟩
    · have hbytes : magicAgmv ++ bytesAt s .stream s.plat.stream 4 34 = encode (.hdr f) := by
        rw [hfields (Nat.not_lt.mp hcut), ← encode_record_magic.1 f, List.take_append_drop]
      have hdecode : decode .header (encode (.hdr f)) = _ := decode_encode ⟨0, .intra⟩ (.hdr f) rfl
      rw [if_neg hcut, if_neg hcut, memRead_nil 4 34 hio, Run.bind_done, Run.bind_done, hbytes, hdecode]
      exact .inr ⟨rfl, rfl⟩
  · rw [if_pos hmagic, if_pos (.inr hmagic)]
    exact .inl ⟨_, _, rfl, rfl⟩

/-- Where no check fails, OPEN runs as the header record does. -/
theorem openOp_accepted {s : State} (hio : s.io = []) {f : HdrFields}
    (hfields : 38 ≤ streamLen s → bytesAt s .stream s.plat.stream 4 34 = (encode (.hdr f)).drop 4)
    (hpass : firstFailing (openChecks s f) = none) :
    openOp s = openBody f s ∧ firstFailing (fieldChecks s f) = none := by
  rcases openOp_checks hio hfields with ⟨kind, info, -, hcheck⟩ | ⟨hop, hcheck⟩
  · rw [hcheck] at hpass
    cases hpass
  · exact ⟨hop, hcheck.symm.trans hpass⟩

/-! ## The command -/

theorem exec_openStream {s : State} (h : s.session = .closed) :
    exec .openStream s = .next (finish .opening s (openOp s)) := runCommand_admitted (by rw [h]; rfl)

/-- A first read that fails raises before anything is known of the stream (20 R66). -/
theorem openOp_of_ioError {s : State} {rest : List Bool} (hsrc : s.plat.srcPresent = true) (hlen : 4 ≤ streamLen s)
    (hio : s.io = true :: rest) : openOp s = .raised ⟨.ioError, unitContainer, 0⟩ { s with io := rest } := by
  have hread : memRead 0 4 s = .raised ⟨.ioError, unitContainer, 0⟩ { s with io := rest } := by rw [memRead, hio]
  rw [openOp, headerBytes, if_neg (by rw [hsrc]; decide), if_neg (Nat.not_lt.mpr hlen), hread]
  rfl

section Accepted

variable {s : State} (hio : s.io = []) {f : HdrFields} (hpass : firstFailing (fieldChecks s f) = none)
  {ot : List OtEntry} (hot : fileTable s f ot)
include hio hpass hot

/-- A header whose fields pass opens its session when the table has the room. -/
theorem openBody_fits (hfits : ot.length ≤ s.par.otCap) :
    openBody f s = .done () (openDone f { headerLoaded s f with ot := ot }) := by
  have hscan := scanChunks_leaves (s := headerLoaded s f) (fuel := streamLen s + 1) hot rfl hio rfl (by omega)
  rw [openBody_accepted hio hpass, hscan.fits ((Nat.zero_add ot.length).trans_le hfits)]
  rfl

/-- The first I-frame the table has no room for raises at its record. -/
theorem openBody_full {e : OtEntry} (he : ot[s.par.otCap]? = some e) :
    ∃ a u, openBody f s = .raised (chunkTooBig a) u ∧ u.io = s.io ∧ BitVec.ofNat 32 a = e.off := by
  have hscan := scanChunks_leaves (s := headerLoaded s f) (fuel := streamLen s + 1) hot rfl hio rfl (by omega)
  obtain ⟨a, u, hraise, huio, hoff⟩ := hscan.full s.par.otCap e he (Nat.zero_add _)
  exact ⟨a, u, by rw [openBody_accepted hio hpass, hraise, Run.bind_raised], huio, hoff⟩

end Accepted

/-- Settles O30: checks 1 to 3 or the fields' decide; past them the scan leaves R247's table. -/
theorem openOpensOrRefuses : Obligations.OpenOpensOrRefuses := by
  refine ⟨fun s f hs hio hfields => ⟨fun c hc => ?_, fun hpass hact _ =>
    ⟨scanTable_exists s _ (streamLen s + 1) (by omega) 0, fun ot hot => ⟨fun hfits => ⟨_, exec_openStream hs, ?_⟩,
      fun e he => ?_⟩⟩⟩, fun s rest hs hsrc hlen hio => ?_⟩
  · rw [exec_openStream hs]
    rcases openOp_checks hio hfields with ⟨kind, info, hop, hcheck⟩ | ⟨hop, hcheck⟩
    · obtain rfl : checkOf kind info = c := Option.some.inj (hcheck.symm.trans hc)
      rw [hop, finish_raised, takeError_opening rfl]
    · obtain ⟨kind, info, hbody, rfl⟩ := openBody_refused (hcheck.symm.trans hc)
      rw [hop, hbody, finish_raised, takeError_opening rfl]
  · obtain ⟨hop, hfieldsPass⟩ := openOp_accepted hio hfields hpass
    have hopened := openDone_opened s f ot
    rw [← hact] at hopened
    rw [hop, openBody_fits hio hfieldsPass hot hfits, finish_done]
    exact hopened
  · obtain ⟨hop, hfieldsPass⟩ := openOp_accepted hio hfields hpass
    obtain ⟨a, u, hraise, huio, hoff⟩ := openBody_full hio hfieldsPass hot he
    rw [exec_openStream hs, hop, hraise, finish_raised, chunkTooBig, takeError_opening (s := s) huio, checkOf, hoff]
    rfl
  · rw [exec_openStream hs, openOp_of_ioError hsrc hlen hio]
    rfl

end Sys2Proof.Machine
end

section
/-! NEXT_FRAME and NEXT_AUDIO where there is nothing to decode, or a damaged record, chunk, payload or bitstream (45_container R248
to R252; 46 R280 to R282; 60 R311, R318). -/

namespace Sys2Proof.Machine

/-! ## What a raise of a streaming command leaves -/

/-- `StreamCorruption` in a decode session (60 R318). -/
theorem takeError_damaged (s u : State) (unit : BitVec 4) (info : Nat) :
    takeError .streaming s u ⟨.streamCorruption, unit, info⟩ =
      streamDamaged u (unit ++ (0 : BitVec 4) ++ ErrorKind.streamCorruption.code) info := rfl

theorem takeError_corruptAt (s u : State) (a : Nat) : takeError .streaming s u (corruptAt a) = streamDamaged u 0x104 a := by
  have hcode : unitContainer ++ (0 : BitVec 4) ++ ErrorKind.streamCorruption.code = (0x104 : BitVec 12) := by decide
  rw [corruptAt, takeError_damaged, hcode]

/-- `StreamCorruption` in NEXT_AUDIO gives up `AB` too (60 R318). -/
theorem takeError_audioDamaged (s u : State) (unit : BitVec 4) (info : Nat) :
    takeError .audio s u ⟨.streamCorruption, unit, info⟩ =
      streamDamaged { u with ab := [] } (unit ++ (0 : BitVec 4) ++ ErrorKind.streamCorruption.code) info := rfl

/-- The session is lost to a chunk too big for its buffers, whatever was read of it (60 R318). -/
theorem recordError_chunkTooBig (u : State) (a : Nat) :
    recordError (chunkTooBig a) (closeSession u) = sessionLost u 0x103 (BitVec.ofNat 32 a) := by
  have hcode : unitContainer ++ (0 : BitVec 4) ++ ErrorKind.memoryAllocationFailure.code = (0x103 : BitVec 12) := by decide
  rw [← hcode]
  rfl

/-! ## The records -/

/-- What stands at a record boundary, and what RecordAt answers there (45 R248). -/
inductive RecordRead (s : State) (a : Nat) : Prop where
  | ended : streamLen s ≤ a → recordAt a s = .done .ended s → RecordRead s a
  | bad : a < streamLen s → ¬ magicAt s a → recordAt a s = .done .bad s → RecordRead s a
  | frame : streamHolds s a magicAgfc → recordAt a s = .done .frame s → RecordRead s a
  | audio : streamHolds s a magicAgac → recordAt a s = .done .audio s → RecordRead s a

section Reads

variable {s : State} (hio : s.io = []) (a : Nat)
include hio

theorem recordRead : RecordRead s a := by
  by_cases hend : streamLen s ≤ a
  · exact .ended hend (if_pos hend)
  · by_cases hcut : streamLen s < a + 4
    · exact .bad (Nat.not_le.mp hend) (fun h => absurd h.1 (Nat.not_le.mpr hcut)) (by rw [recordAt, if_neg hend, if_pos hcut])
    · have hlen : a + 4 ≤ streamLen s := Nat.not_lt.mp hcut
      have hread : recordAt a s = .done (magicKind (bytesAt s .stream s.plat.stream a 4)) s := by
        rw [recordAt, if_neg hend, if_neg hcut, memRead_nil a 4 hio, Run.bind_done]
      by_cases hframe : bytesAt s .stream s.plat.stream a 4 = magicAgfc
      · exact .frame ⟨hlen, hframe⟩ (by rw [hread, hframe]; rfl)
      · by_cases haudio : bytesAt s .stream s.plat.stream a 4 = magicAgac
        · exact .audio ⟨hlen, haudio⟩ (by rw [hread, haudio]; rfl)
        · have hbad := (magicKind_eq_bad_iff _).mpr ⟨hframe, haudio⟩
          exact .bad (Nat.not_le.mp hend) ((not_magicAt_iff hlen).mpr hbad) (by rw [hread, hbad])

end Reads

theorem streamHolds_agfc_inj {s : State} {a : Nat} {f g : AgfcFields} (hf : streamHolds s a (encode (.agfc f)))
    (hg : streamHolds s a (encode (.agfc g))) : f = g := by
  have hbytes : encode (.agfc f) = encode (.agfc g) := hf.2.symm.trans hg.2
  have hdecode := decodeAgfc_encode f
  rw [hbytes, decodeAgfc_encode] at hdecode
  exact (Option.some.inj hdecode).symm

/-! ## Finding the frame chunk -/

/-- The search passes over audio chunks unread, with fuel left for the rest of the stream (46 R280). -/
theorem findFrame_passes {s : State} (hio : s.io = []) {a c : Nat} (haudio : AudioChunks s a c) {fuel : Nat}
    (hfuel : streamLen s < a + fuel) :
    ∃ rest, streamLen s < c + rest ∧ findFrame fuel a s = findFrame rest c s := by
  induction haudio generalizing fuel with
  | here a => exact ⟨fuel, hfuel, rfl⟩
  | audio a c g hchunk _ ih =>
    obtain ⟨hholds, hfits⟩ := hchunk
    have hend : a + 12 ≤ streamLen s := hholds.1
    obtain ⟨fuel, rfl⟩ := Nat.exists_eq_add_one_of_ne_zero (show fuel ≠ 0 by omega)
    obtain ⟨hkind, hheader⟩ := audioChunk_fetched hio hholds
    simp only [findFrame, hkind, hheader, Run.bind_done, hfits, if_true]
    exact ih (by omega)

/-- Where neither an audio chunk nor a frame chunk's header stands, the search raises (46 R280). -/
theorem findFrame_raises {s : State} (hio : s.io = []) {c : Nat} (haudio : ∀ f, ¬ audioChunkAt s c f)
    (hframe : ∀ f, ¬ streamHolds s c (encode (.agfc f))) (fuel : Nat) :
    findFrame fuel c s = .raised (corruptAt c) s := by
  cases fuel with
  | zero => rfl
  | succ fuel =>
    rw [findFrame]
    cases recordRead hio c with
    | ended _ hread => rw [hread]; rfl
    | bad _ _ hread => rw [hread]; rfl
    | frame hmagic hread =>
      rw [hread, Run.bind_done]
      rcases frameHeader_cases hio c hmagic.2 with hheader | ⟨f, hholds, -⟩
      · simp only [hheader, Run.bind_done]
      · exact absurd hholds (hframe f)
    | audio hmagic hread =>
      rw [hread, Run.bind_done]
      rcases audioHeader_cases hio c hmagic.2 with hheader | ⟨f, hholds, hheader⟩
      · simp only [hheader, Run.bind_done]
      · simp only [hheader, Run.bind_done]
        exact if_neg fun hfits => haudio f ⟨hholds, hfits⟩

/-- A frame step behind audio chunks is that of the frame chunk's header, or raises where there is none. -/
theorem frameStep_of_audioChunks {s : State} (hio : s.io = []) {c : Nat} (hchunks : AudioChunks s (streamPos s) c) :
    (∀ f, streamHolds s c (encode (.agfc f)) → frameStep s = frameBody c f s) ∧
    ((∀ f, ¬ audioChunkAt s c f) → (∀ f, ¬ streamHolds s c (encode (.agfc f))) →
      frameStep s = .raised (corruptAt c) s) := by
  refine ⟨fun f hholds => ?_, fun haudio hframe => ?_⟩
  · rw [frameStep, findFrame_of_audioChunks hio hchunks hholds (by omega), Run.bind_done]
  · obtain ⟨rest, -, hpass⟩ := findFrame_passes hio hchunks (fuel := streamLen s + 1) (by omega)
    rw [frameStep, hpass, findFrame_raises hio haudio hframe, Run.bind_raised]

/-! ## The frame chunk -/

/-- An illegal type, or a payload past the end, raises with `LAST_*` the chunk (45 R250). -/
theorem frameBody_damaged {s : State} {a : Nat} {f : AgfcFields}
    (h : frameTypeOf f.ftype.toNat = none ∨ frameFits a f s = false) :
    frameBody a f s = .raised (corruptAt a) { s with last := f } := by
  have hchecks : frameChecks a f s = .raised (corruptAt a) { s with last := f } := by
    rw [frameChecks]
    cases htype : frameTypeOf f.ftype.toNat with
    | none => rfl
    | some ftype =>
      have hfits := h.resolve_left (by rw [htype]; nofun)
      simp only [hfits, Bool.false_eq_true, if_false]
  rw [frameBody, hchecks, Run.bind_raised]

/-- Loading a payload that does not expand raises with it in `CB` (44 R231). -/
theorem payload_corrupt {s : State} (hio : s.io = []) {p usize opos : Nat} {csize : Word}
    (h : unpackPayload (chunkPayload s p csize) usize = .error opos) {β : Type} (next : List Byte → State → Run β) :
    ((loadPayload p csize.toNat s).bind fun _ t => (unpackInto (cbBytes t) usize t).bind next) =
      .raised (lzssCorrupt opos) (fillCb (chunkPayload s p csize) s) := by
  have hcb := cbBytes_fillCb s (bytes := chunkPayload s p csize) (by rw [chunkPayload_length]; exact csize.isLt)
  rw [loadPayload_nil hio, Run.bind_done, hcb, unpackInto, h, Run.bind_raised]

theorem fillCb_chunkPayload (s : State) (p : Nat) (csize : Word) :
    fillCb (chunkPayload s p csize) s =
      { s with cb := Memory.ofList 0 (chunkPayload s p csize), cblen := csize, epoch := s.epoch + 1 } := by
  rw [fillCb, chunkPayload_length, saturate_ofToNat]

section Chunk

variable {s : State} (hio : s.io = []) {a : Nat} {f : AgfcFields} {ftype : FrameType}
  (htype : frameTypeOf f.ftype.toNat = some ftype) (hfits : frameFits a f s = true)
include htype hfits

/-- A legal chunk goes on to the check of its buffers (45 R250, R252). -/
theorem frameBody_of_legal :
    frameBody a f s =
      (check (decide (f.usize.toNat ≤ s.par.bsCap) && decide (f.csize.toNat ≤ s.par.cbCap)) (chunkTooBig a)
        { s with last := f }).bind fun _ s =>
      (loadPayload (a + 18) f.csize.toNat s).bind fun _ s =>
      (unpackInto (cbBytes s) f.usize.toNat s).bind fun out s =>
      (decodeFrame ftype f.usize.toNat (fillBs out s)).bind fun _ s =>
        .done () (frameDone ftype (a + 18 + f.csize.toNat) s) := by
  have hchecks : frameChecks a f s = .done ftype { s with last := f } := by
    simp only [frameChecks, htype, hfits, if_true]
  rw [frameBody, hchecks, Run.bind_done]
  rfl

include hio

/-- What a frame chunk's raise leaves (60 R311, R318). -/
theorem frameBody_of_chunkRaises {t : State} (h : ChunkRaises s a f ftype t) :
    ∃ e u, frameBody a f s = .raised e u ∧ takeError .streaming s u e = t := by
  rw [frameBody_of_legal htype hfits]
  cases h with
  | tooBig hbig =>
    have hcheck : (decide (f.usize.toNat ≤ s.par.bsCap) && decide (f.csize.toNat ≤ s.par.cbCap)) = false := by
      simpa only [Bool.and_eq_false_iff, decide_eq_false_iff_not, Nat.not_le] using hbig
    rw [hcheck, check_false, Run.bind_raised]
    exact ⟨_, _, rfl, recordError_chunkTooBig { s with last := f } a⟩
  | corrupt opos husize hcsize hexpand =>
    simp only [husize, hcsize, decide_true, Bool.and_self, check_true, Run.bind_done]
    rw [payload_corrupt (s := { s with last := f }) hio hexpand, fillCb_chunkPayload]
    refine ⟨_, _, rfl, ?_⟩
    have hcode : unitLzss ++ (0 : BitVec 4) ++ ErrorKind.streamCorruption.code = (0x204 : BitVec 12) := by decide
    rw [lzssCorrupt, takeError_damaged, hcode]
    rfl
  | frame bits blk bspos pred husize hcsize hexpand hraises =>
    simp only [husize, hcsize, decide_true, Bool.and_self, check_true, Run.bind_done]
    rw [payload_expanded (s := { s with last := f }) hio hexpand]
    change FrameRaises (frameLoaded s a f bits) ftype bits blk bspos pred at hraises
    change ∃ e u, (decodeFrame ftype f.usize.toNat (frameLoaded s a f bits)).bind _ = _ ∧ _
    have hbits : bytesAt (frameLoaded s a f bits) .bs (frameLoaded s a f bits).bs 0 f.usize.toNat = bits := by
      rw [← unpackPayload_length hexpand]
      exact bytesAt_ofList _ _ bits
    obtain ⟨cur, hblk, hbspos, hframe⟩ := decodeFrame_of_frameRaises (len := f.usize.toNat) f.usize.isLt
      (show FrameRaises (frameLoaded s a f bits) ftype _ blk bspos pred by rw [hbits]; exact hraises)
    have hlen := f.usize.isLt
    have hcode : unitFrame ++ (0 : BitVec 4) ++ ErrorKind.streamCorruption.code = (0x304 : BitVec 12) := by decide
    refine ⟨_, _, by rw [hframe, Run.bind_raised], ?_⟩
    have hloaded : withSequencer ⟨cur, bspos, blk, pred⟩ (frameLoaded s a f bits) = { s with
        last := f, cb := Memory.ofList 0 (chunkPayload s (a + 18) f.csize), cblen := f.csize, bs := Memory.ofList 0 bits,
        bslen := f.usize, cur := cur, bspos := BitVec.ofNat 32 bspos, blk := BitVec.ofNat 32 blk, pred := pred,
        epoch := s.epoch + 2 } := by
      simp only [withSequencer, frameLoaded, fillBs, fillCb, unpackPayload_length hexpand, chunkPayload_length,
        saturate_ofToNat, saturate_of_lt (hbspos.trans_lt hlen), saturate_of_lt (hblk.trans_lt hlen)]
    rw [bitstreamCorrupt, takeError_damaged, hcode, hloaded]
    rfl

end Chunk

/-! ## NEXT_FRAME -/

theorem exec_nextFrame {s : State} (h : s.session = .decOpen) :
    exec .nextFrame s = .next (finish .streaming s (nextFrameOp s)) := runCommand_admitted (by rw [h]; rfl)

theorem nextFrameOp_of_left {s : State} (h : s.frameCtr.toNat < s.hdr.frameCount.toNat) :
    nextFrameOp s = (frameStep s).bind fun _ s => .done () (frameResults s) := if_neg (Nat.not_le.mpr h)

/-- A frame step's raise is the command's (46 R281). -/
theorem exec_nextFrame_of_raise {s u : State} (hs : s.session = .decOpen) (hleft : s.frameCtr.toNat < s.hdr.frameCount.toNat)
    {e : Raise} (h : frameStep s = .raised e u) : exec .nextFrame s = .next (takeError .streaming s u e) := by
  rw [exec_nextFrame hs, nextFrameOp_of_left hleft, h, Run.bind_raised, finish_raised]

theorem exec_nextFrame_at_end {s : State} (hs : s.session = .decOpen) (hend : s.hdr.frameCount.toNat ≤ s.frameCtr.toNat) :
    exec .nextFrame s = .next (complete { s with res := { s.res with x0 := 0 } }) := by
  rw [exec_nextFrame hs, nextFrameOp, if_pos hend]
  rfl

section NextFrame

variable {s : State} (hs : s.session = .decOpen) (hio : s.io = []) (hleft : s.frameCtr.toNat < s.hdr.frameCount.toNat) {a : Nat}
  (hchunks : AudioChunks s (streamPos s) a)
include hs hio hleft hchunks

/-- Where no readable chunk stands, NEXT_FRAME raises at that record; `LAST_*` is the header there, if one is (45 R250). -/
theorem exec_nextFrame_of_noChunk (hnone : noChunkAt s a) :
    ∃ last, exec .nextFrame s = .next (streamDamaged { s with last := last } 0x104 a) ∧
      (∀ f, streamHolds s a (encode (.agfc f)) → last = f) ∧
      ((∀ f, ¬ streamHolds s a (encode (.agfc f))) → last = s.last) := by
  obtain ⟨hnoAudio, hnoFrame⟩ := hnone
  obtain ⟨hheld, hraise⟩ := frameStep_of_audioChunks hio hchunks
  by_cases hframe : ∃ f, streamHolds s a (encode (.agfc f))
  · obtain ⟨f, hholds⟩ := hframe
    have hillegal : frameTypeOf f.ftype.toNat = none ∨ frameFits a f s = false := by
      cases htype : frameTypeOf f.ftype.toNat with
      | none => exact .inl rfl
      | some ftype => exact .inr (Bool.eq_false_iff.mpr fun hfits => hnoFrame f ftype ⟨hholds, htype, hfits⟩)
    refine ⟨f, ?_, fun g hg => streamHolds_agfc_inj hholds hg, fun hno => absurd hholds (hno f)⟩
    rw [exec_nextFrame_of_raise hs hleft ((hheld f hholds).trans (frameBody_damaged hillegal)), takeError_corruptAt]
  · have hframe : ∀ f, ¬ streamHolds s a (encode (.agfc f)) := fun f h => hframe ⟨f, h⟩
    refine ⟨s.last, ?_, fun f h => absurd h (hframe f), fun _ => rfl⟩
    rw [exec_nextFrame_of_raise hs hleft (hraise hnoAudio hframe), takeError_corruptAt]

theorem exec_nextFrame_of_chunkRaises {f : AgfcFields} {ftype : FrameType} {t : State} (hchunk : frameChunkAt s a f ftype)
    (h : ChunkRaises s a f ftype t) : exec .nextFrame s = .next t := by
  obtain ⟨hholds, htype, hfits⟩ := hchunk
  obtain ⟨e, u, hbody, ht⟩ := frameBody_of_chunkRaises hio htype hfits h
  rw [exec_nextFrame_of_raise hs hleft (((frameStep_of_audioChunks hio hchunks).1 f hholds).trans hbody), ht]

end NextFrame

/-- The frame chunk by itself (log 3). -/
theorem exec_agfc_of_raise {s u : State} {a : Nat} (hact : s.act = .container (.frame a)) {f : AgfcFields} {e : Raise}
    (h : frameBody a f s = .raised e u) : exec (.agfc f) s = .next { takeError .streaming s u e with act := .idle } := by
  change execAgfc f s = _
  simp only [execAgfc, hact, h, Run.bind_raised]
  rfl

theorem exec_agac_passed {s : State} {a : Nat} (hact : s.act = .container (.frame a)) {f : AgacFields}
    (hfits : audioFits a f s = true) :
    exec (.agac f) s = .next { s with act := .container (.frame (a + 12 + f.csize.toNat)) } := by
  change execAgac f s = _
  simp only [execAgac, hact, hfits, if_true]

/-! ## NEXT_AUDIO -/

theorem exec_nextAudio {s : State} (h : s.session = .decOpen) :
    exec .nextAudio s = .next (finish .audio s (nextAudioOp s)) := runCommand_admitted (by rw [h]; rfl)

/-- NEXT_AUDIO answers 0 where the stream has ended or a frame chunk stands (46 R282). -/
theorem nextAudioOp_of_noAudio {s : State} (hio : s.io = [])
    (h : streamLen s ≤ streamPos s ∨ streamHolds s (streamPos s) magicAgfc) :
    nextAudioOp s = .done () (setRes0 0 (clearAvalid s)) := by
  rcases h with hend | hmagic
  · have hread : recordAt (streamPos s) (clearAvalid s) = .done .ended (clearAvalid s) := if_pos hend
    rw [nextAudioOp, hread, Run.bind_done]
  · have hread := recordAt_of_streamHolds (s := clearAvalid s) hio hmagic rfl
    rw [nextAudioOp, hread, Run.bind_done]
    rfl

/-- A damaged audio record raises (45 R251). -/
theorem nextAudioOp_damaged {s : State} (hio : s.io = []) (hin : streamPos s < streamLen s)
    (hframe : ¬ streamHolds s (streamPos s) magicAgfc) (haudio : ∀ f, ¬ audioChunkAt s (streamPos s) f) :
    nextAudioOp s = .raised (corruptAt (streamPos s)) (clearAvalid s) := by
  rw [nextAudioOp]
  cases recordRead (s := clearAvalid s) hio (streamPos s) with
  | ended hend _ => exact absurd hin (Nat.not_lt.mpr hend)
  | bad _ _ hread => rw [hread]; rfl
  | frame hmagic _ => exact absurd hmagic hframe
  | audio hmagic hread =>
    rw [hread, Run.bind_done]
    rcases audioHeader_cases (s := clearAvalid s) hio (streamPos s) hmagic.2 with hheader | ⟨f, hholds, hheader⟩
    · exact congrArg (Run.bind · _) hheader
    · have hfits : audioFits (streamPos s) f s = false := Bool.eq_false_iff.mpr fun h => haudio f ⟨hholds, h⟩
      refine (congrArg (Run.bind · _) hheader).trans ?_
      change (check (audioFits (streamPos s) f s) _ _).bind _ = _
      rw [hfits]
      rfl

section AudioChunk

variable {s : State} {f : AgacFields} (hfits : audioFits (streamPos s) f s = true)
include hfits

theorem audioBody_tooBig (h : ¬ (f.size.toNat ≤ s.par.abCap ∧ f.csize.toNat ≤ s.par.cbCap)) :
    audioBody f s = .raised (chunkTooBig (streamPos s)) s := by
  have hcheck : (decide (f.size.toNat ≤ s.par.abCap) && decide (f.csize.toNat ≤ s.par.cbCap)) = false := by
    rw [← Bool.decide_and]
    exact decide_eq_false h
  simp only [audioBody, hfits, check_true, Run.bind_done, hcheck, check_false, Run.bind_raised]

theorem audioBody_corrupt (hio : s.io = []) (h : f.size.toNat ≤ s.par.abCap ∧ f.csize.toNat ≤ s.par.cbCap) {opos : Nat}
    (hexpand : unpackPayload (chunkPayload s (streamPos s + 12) f.csize) f.size.toNat = .error opos) :
    audioBody f s = .raised (lzssCorrupt opos) (fillCb (chunkPayload s (streamPos s + 12) f.csize) s) := by
  simp only [audioBody, hfits, h.1, h.2, decide_true, Bool.and_self, check_true, Run.bind_done]
  exact payload_corrupt hio hexpand _

end AudioChunk

/-- Settles O34: each clause is the search, the chunk or the record it names, and what R318 leaves of its raise. -/
theorem nothingToDecodeOrDamaged : Obligations.NothingToDecodeOrDamaged := by
  refine ⟨fun s hs hend => exec_nextFrame_at_end hs hend, fun s a f hact hfits => exec_agac_passed hact hfits,
    fun s hs hio hnone => ?_, fun s a hs hio hleft hchunks => ⟨exec_nextFrame_of_noChunk hs hio hleft hchunks,
      fun f ftype t hchunk h => exec_nextFrame_of_chunkRaises hs hio hleft hchunks hchunk h⟩,
    fun s a f hact hio => ⟨fun hillegal => ?_, fun ftype t htype hfits h => ?_⟩, ?_⟩
  · rw [exec_nextAudio hs, nextAudioOp_of_noAudio hio hnone]
    rfl
  · rw [exec_agfc_of_raise hact (frameBody_damaged hillegal), takeError_corruptAt]
  · obtain ⟨e, u, hbody, rfl⟩ := frameBody_of_chunkRaises hio htype hfits h
    exact exec_agfc_of_raise hact hbody
  intro s hs hio a damaged
  refine ⟨fun hin hframe haudio => ?_, fun f hchunk => ?_⟩
  · have hcode : unitContainer ++ (0 : BitVec 4) ++ ErrorKind.streamCorruption.code = (0x104 : BitVec 12) := by decide
    rw [exec_nextAudio hs, nextAudioOp_damaged hio hin hframe haudio, finish_raised, corruptAt, takeError_audioDamaged, hcode]
    rfl
  intro fits
  obtain ⟨hholds, hinside⟩ := hchunk
  rw [exec_nextAudio hs, nextAudioOp_of_chunk hio hholds]
  refine ⟨fun hbig => ?_, fun opos hsmall hexpand => ?_⟩
  · rw [audioBody_tooBig (s := clearAvalid s) hinside hbig]
    exact congrArg Host.Outcome.next (recordError_chunkTooBig (clearAvalid s) a)
  · have hcode : unitLzss ++ (0 : BitVec 4) ++ ErrorKind.streamCorruption.code = (0x204 : BitVec 12) := by decide
    rw [audioBody_corrupt (s := clearAvalid s) hinside hio hsmall hexpand, fillCb_chunkPayload, finish_raised, lzssCorrupt,
      takeError_audioDamaged, hcode]
    rfl

end Sys2Proof.Machine
end

section
/-! SKIP_FWD (46 R284; 45 R253): the loop follows the chunks and the resynchronisations of the statement, of the whole state writing
`LAST_*` alone. -/

namespace Sys2Proof.Machine

/-! ## One turn -/

/-- `LAST_*` as a skipped chunk leaves it. -/
def withLast (l : AgfcFields) (s : State) : State := { s with last := l }

theorem skipFrames_of_ended {s : State} {target a c : Nat} (hleft : c < target) (fuel : Nat) (h : streamLen s ≤ a) :
    skipFrames target fuel a c s = .raised (corruptAt a) s := by
  cases fuel with
  | zero => rfl
  | succ fuel =>
    have hread : recordAt a s = .done .ended s := if_pos h
    simp only [skipFrames, if_neg (Nat.not_le.mpr hleft), hread, Run.bind_done]

section Turn

variable {s : State} (hio : s.io = []) {target a c : Nat} (hleft : c < target) (fuel : Nat)
include hio hleft

theorem skipFrames_of_frameChunk {f : AgfcFields} {ftype : FrameType} (h : frameChunkAt s a f ftype) :
    skipFrames target (fuel + 1) a c s = skipFrames target fuel (a + 18 + f.csize.toNat) (c + 1) (withLast f s) := by
  obtain ⟨hholds, htype, hfits⟩ := h
  obtain ⟨hkind, hheader⟩ := frameChunk_fetched hio hholds
  have hchecks : frameChecks a f s = .done ftype { s with last := f } := by
    simp only [frameChecks, htype, hfits, if_true]
  simp only [skipFrames, if_neg (Nat.not_le.mpr hleft), hkind, hheader, Run.bind_done, hchecks]
  rfl

theorem skipFrames_of_audioChunk {f : AgacFields} (h : audioChunkAt s a f) :
    skipFrames target (fuel + 1) a c s = skipFrames target fuel (a + 12 + f.csize.toNat) c s := by
  obtain ⟨hholds, hfits⟩ := h
  obtain ⟨hkind, hheader⟩ := audioChunk_fetched hio hholds
  simp only [skipFrames, if_neg (Nat.not_le.mpr hleft), hkind, hheader, Run.bind_done, hfits, if_true]

/-- From a damaged record the loop resynchronises; a frame chunk that was read and rejected is in `LAST_*` (log 15). -/
theorem skipFrames_of_damaged (h : damagedAt s a) :
    ∃ l, skipFrames target (fuel + 1) a c s =
      (resync a (withLast l s)).bind fun a s => skipFrames target fuel a c s := by
  obtain ⟨hin, hnoAudio, hnoFrame⟩ := h
  rw [skipFrames, if_neg (Nat.not_le.mpr hleft)]
  cases recordRead hio a with
  | ended hend _ => exact absurd hin (Nat.not_lt.mpr hend)
  | bad _ _ hread => exact ⟨s.last, by rw [hread, Run.bind_done]; rfl⟩
  | audio hmagic hread =>
    refine ⟨s.last, ?_⟩
    rw [hread, Run.bind_done]
    rcases audioHeader_cases hio a hmagic.2 with hheader | ⟨f, hholds, hheader⟩
    · simp only [hheader, Run.bind_done]
      rfl
    · simp only [hheader, Run.bind_done]
      exact if_neg fun hfits => hnoAudio f ⟨hholds, hfits⟩
  | frame hmagic hread =>
    rw [hread, Run.bind_done]
    rcases frameHeader_cases hio a hmagic.2 with hheader | ⟨f, hholds, hheader⟩
    · exact ⟨s.last, by simp only [hheader, Run.bind_done]; rfl⟩
    · refine ⟨f, ?_⟩
      have hchecks : frameChecks a f s = .raised (corruptAt a) { s with last := f } := by
        rw [frameChecks]
        cases htype : frameTypeOf f.ftype.toNat with
        | none => rfl
        | some ftype => exact if_neg fun hfits => hnoFrame f ftype ⟨hholds, htype, hfits⟩
      simp only [hheader, Run.bind_done, hchecks]
      rfl

end Turn

/-! ## The chunks passed -/

/-- The loop goes the way of the statement's relation, with fuel left for the rest of the stream. -/
theorem skipFrames_reaches {s : State} (hio : s.io = []) {target a m b : Nat} (h : SkipReaches s a m b) {c fuel : Nat}
    (hleft : c + m < target) (hfuel : streamLen s < a + fuel) (l : AgfcFields) :
    ∃ l' rest, streamLen s < b + rest ∧
      skipFrames target fuel a c (withLast l s) = skipFrames target rest b (c + m) (withLast l' s) := by
  induction h generalizing c fuel l with
  | here a => exact ⟨l, fuel, hfuel, rfl⟩
  | frame a n b f ftype hchunk _ ih =>
    have hend := frameChunkAt_end_le hchunk
    obtain ⟨fuel, rfl⟩ := Nat.exists_eq_add_one_of_ne_zero (show fuel ≠ 0 by omega)
    rw [skipFrames_of_frameChunk (s := withLast l s) hio (by omega) fuel (frameChunkAt_of_plat rfl hchunk),
      show c + (n + 1) = c + 1 + n by omega]
    exact ih (c := c + 1) (by omega) (by omega) f
  | audio a n b f hchunk _ ih =>
    have hend := audioChunkAt_end_le hchunk
    obtain ⟨fuel, rfl⟩ := Nat.exists_eq_add_one_of_ne_zero (show fuel ≠ 0 by omega)
    rw [skipFrames_of_audioChunk (s := withLast l s) hio (by omega) fuel (audioChunkAt_of_plat rfl hchunk)]
    exact ih hleft (by omega) l
  | damaged a p n b hdamaged hnext _ ih =>
    obtain ⟨hin, hnone⟩ := hdamaged
    obtain ⟨fuel, rfl⟩ := Nat.exists_eq_add_one_of_ne_zero (show fuel ≠ 0 by omega)
    obtain ⟨l', hturn⟩ := skipFrames_of_damaged (s := withLast l s) hio (show c < target by omega) fuel
      ⟨hin, noChunkAt_of_plat rfl hnone⟩
    have hresync : resync a (withLast l' s) = .done p (withLast l' s) :=
      (resyncFindsFirstMagic (withLast l' s) a p hio).1 hnext
    have hlater : a < p := hnext.1
    rw [hturn, show withLast l' (withLast l s) = withLast l' s from rfl, hresync, Run.bind_done]
    exact ih hleft (by omega) l'

/-- Without a first magic behind a place there is none at all. -/
theorem not_magicAt_of_no_nextMagic {s : State} {a : Nat} (h : ∀ p, ¬ nextMagic s a p) {x : Nat} (hx : a < x) :
    ¬ magicAt s x := by
  classical
  intro hmagic
  have hexists : ∃ p, a < p ∧ magicAt s p := ⟨x, hx, hmagic⟩
  obtain ⟨hlater, hfirst⟩ := Nat.find_spec hexists
  exact h _ ⟨hlater, hfirst, fun y hy hlt hm => Nat.find_min hexists hlt ⟨hy, hm⟩⟩

/-- Where the stream ends, or no magic follows a damaged record, the loop raises at that record. -/
theorem skipFrames_stuck {s : State} (hio : s.io = []) {target a c fuel : Nat} (hleft : c < target)
    (hstuck : streamLen s ≤ a ∨ damagedAt s a ∧ ∀ p, ¬ nextMagic s a p) (l : AgfcFields) :
    ∃ l', skipFrames target fuel a c (withLast l s) = .raised (corruptAt a) (withLast l' s) := by
  rcases hstuck with hend | ⟨⟨hin, hnone⟩, hno⟩
  · exact ⟨l, skipFrames_of_ended (s := withLast l s) hleft fuel hend⟩
  · cases fuel with
    | zero => exact ⟨l, rfl⟩
    | succ fuel =>
      obtain ⟨l', hturn⟩ := skipFrames_of_damaged (s := withLast l s) hio hleft fuel ⟨hin, noChunkAt_of_plat rfl hnone⟩
      have hresync : resync a (withLast l' s) = .raised (corruptAt a) (withLast l' s) :=
        (resyncFindsFirstMagic (withLast l' s) a 0 hio).2 fun x hx => not_magicAt_of_no_nextMagic (s := s) hno hx
      exact ⟨l', by rw [hturn]; exact congrArg (Run.bind · _) hresync⟩

/-- The loop stops at its target. -/
theorem skipFrames_target (target a fuel : Nat) (s : State) :
    skipFrames target (fuel + 1) a target s = .done (a, target) s := if_pos (Nat.le_refl target)

/-! ## The command -/

theorem exec_skipFwd {s : State} (h : s.session = .decOpen) :
    exec .skipFwd s = .next (finish .streaming s (skipFwdOp s)) := runCommand_admitted (by rw [h]; rfl)

/-- The run of SKIP_FWD towards `n` frames more (46 R284). -/
theorem skipFwdOp_eq {s : State} {n : Nat} (hn : n = min s.arg.x0.toNat (s.hdr.frameCount.toNat - s.frameCtr.toNat))
    (hctr : s.frameCtr.toNat ≤ s.hdr.frameCount.toNat) :
    skipFwdOp s = (skipFrames (s.frameCtr.toNat + n) (streamLen s + 2) (streamPos s) s.frameCtr.toNat
      (withLast s.last s)).bind fun r t =>
        .done () (setRes0 (r.2 - s.frameCtr.toNat) (skipDone r.1 r.2 (decide (s.frameCtr.toNat < r.2)) t)) := by
  have htarget : min (s.frameCtr.toNat + argNat s 0) s.hdr.frameCount.toNat = s.frameCtr.toNat + n := by
    change min (s.frameCtr.toNat + s.arg.x0.toNat) _ = _
    omega
  rw [skipFwdOp, htarget]
  rfl

/-- FPOS names its own record boundary again (log 9). -/
theorem fpos_eq_streamPos (s : State) : BitVec.ofNat 32 (streamPos s) = s.fpos := by
  unfold streamPos
  split
  · rename_i h; rw [h]; rfl
  · rw [BitVec.ofNat_toNat, BitVec.setWidth_eq]

/-- Settles O37: the loop's turns are the relation's steps, and its end the last frame chunk or the raise. -/
theorem skipForwardPasses : Obligations.SkipForwardPasses := by
  intro s hs hio n hctr _
  have hop := skipFwdOp_eq (s := s) (n := n) rfl hctr
  have hn : s.frameCtr.toNat + n ≤ s.hdr.frameCount.toNat := by omega
  have hcount := s.hdr.frameCount.isLt
  clear_value n
  rw [exec_skipFwd hs, hop]
  refine ⟨fun hzero => ?_, fun a f ftype hpos hreach hchunk => ?_, fun m a hm hreach hstuck => ?_⟩
  · subst hzero
    rw [Nat.add_zero, skipFrames_target, Run.bind_done, finish_done, Nat.sub_self, decide_eq_false (Nat.lt_irrefl _),
      skipDone, fpos_eq_streamPos, Bool.or_false, BitVec.ofNat_toNat, BitVec.setWidth_eq]
    rfl
  · obtain ⟨l, rest, hrest, hloop⟩ := skipFrames_reaches hio hreach (target := s.frameCtr.toNat + n)
      (c := s.frameCtr.toNat) (fuel := streamLen s + 2) (by omega) (by omega) s.last
    have hend := frameChunkAt_end_le hchunk
    obtain ⟨rest, rfl⟩ := Nat.exists_eq_add_of_le (show 2 ≤ rest by omega)
    rw [hloop, Nat.add_comm 2, skipFrames_of_frameChunk (s := withLast l s) hio (by omega) (rest + 1)
      (frameChunkAt_of_plat rfl hchunk), show s.frameCtr.toNat + (n - 1) + 1 = s.frameCtr.toNat + n by omega,
      skipFrames_target, Run.bind_done, finish_done, Nat.add_sub_cancel_left, decide_eq_true (by omega), setRes0,
      saturate_of_lt (by omega), skipDone, Bool.or_true]
    rfl
  · obtain ⟨l, rest, -, hloop⟩ := skipFrames_reaches hio hreach (target := s.frameCtr.toNat + n)
      (c := s.frameCtr.toNat) (fuel := streamLen s + 2) (by omega) (by omega) s.last
    obtain ⟨l', hraise⟩ := skipFrames_stuck hio (fuel := rest) (show s.frameCtr.toNat + m < s.frameCtr.toNat + n by omega)
      hstuck l
    refine ⟨_, rfl, ?_⟩
    rw [hloop, hraise, Run.bind_raised, finish_raised, takeError_corruptAt]
    rfl

end Sys2Proof.Machine
end

section
/-! SKIP_BACK and SKIP_TO (46 R285, R286; 45 R261): the seek, and the frame steps from there. -/

namespace Sys2Proof.Machine

/-! ## Raises of a frame step -/

/-- A run that raises no `IllegalCommand`, so that its raise is taken in the state it left (60 R318). -/
abbrev Run.NoRefusal {α : Type} (r : Run α) : Prop := r.Post (fun _ _ => True) fun e _ => e.kind ≠ .illegalCommand

theorem Run.NoRefusal.bind {α β : Type} {r : Run α} {f : α → State → Run β} (h : r.NoRefusal)
    (hf : ∀ a t, (f a t).NoRefusal) : (r.bind f).NoRefusal := Run.Post.bind h fun a t _ => hf a t

theorem memRead_noRefusal (a n : Nat) (s : State) : (memRead a n s).NoRefusal := by
  rcases memRead_cases a n s with h | h <;> rw [h]
  · trivial
  · exact ErrorKind.noConfusion

theorem check_noRefusal (ok : Bool) {e : Raise} (he : e.kind ≠ .illegalCommand) (s : State) : (check ok e s).NoRefusal := by
  cases ok with
  | true => trivial
  | false => exact he

theorem corruptAt_kind (a : Nat) : (corruptAt a).kind ≠ .illegalCommand := ErrorKind.noConfusion

theorem recordAt_noRefusal (a : Nat) (s : State) : (recordAt a s).NoRefusal := by
  unfold recordAt
  split
  · trivial
  · split
    · trivial
    · exact (memRead_noRefusal a 4 s).bind fun _ _ => trivial

theorem frameHeader_noRefusal (a : Nat) (s : State) : (frameHeader a s).NoRefusal := by
  unfold frameHeader
  split
  · trivial
  · exact (memRead_noRefusal _ _ s).bind fun _ _ => trivial

theorem audioHeader_noRefusal (a : Nat) (s : State) : (audioHeader a s).NoRefusal := by
  unfold audioHeader
  split
  · trivial
  · exact (memRead_noRefusal _ _ s).bind fun _ _ => trivial

theorem findFrame_noRefusal (fuel a : Nat) (s : State) : (findFrame fuel a s).NoRefusal := by
  induction fuel generalizing a s with
  | zero => exact corruptAt_kind a
  | succ fuel ih =>
    refine (recordAt_noRefusal a s).bind fun kind t => ?_
    cases kind with
    | ended => exact corruptAt_kind a
    | bad => exact corruptAt_kind a
    | frame =>
      refine (frameHeader_noRefusal a t).bind fun f u => ?_
      cases f with
      | none => exact corruptAt_kind a
      | some f => trivial
    | audio =>
      refine (audioHeader_noRefusal a t).bind fun f u => ?_
      cases f with
      | none => exact corruptAt_kind a
      | some f =>
        dsimp only
        split
        · exact ih _ u
        · exact corruptAt_kind a

theorem frameChecks_noRefusal (a : Nat) (f : AgfcFields) (s : State) : (frameChecks a f s).NoRefusal := by
  unfold frameChecks
  split
  · exact corruptAt_kind a
  · split
    · trivial
    · exact corruptAt_kind a

theorem loadPayload_noRefusal (p n : Nat) (s : State) : (loadPayload p n s).NoRefusal := by
  unfold loadPayload
  split
  · trivial
  · exact (memRead_noRefusal p n s).bind fun _ _ => trivial

theorem unpackInto_noRefusal (payload : List Byte) (usize : Nat) (s : State) : (unpackInto payload usize s).NoRefusal := by
  unfold unpackInto
  split
  · trivial
  · exact ErrorKind.noConfusion

theorem decodeFrame_noRefusal (ftype : FrameType) (len : Nat) (s : State) : (decodeFrame ftype len s).NoRefusal := by
  rcases decodeFrame_cases ftype len s with ⟨q, h⟩ | ⟨q, e, h, hkind, -⟩ <;> rw [h]
  · trivial
  · change e.kind ≠ _
    rw [hkind]
    exact ErrorKind.noConfusion

theorem frameStep_noRefusal (s : State) : (frameStep s).NoRefusal := by
  refine (findFrame_noRefusal _ _ s).bind fun r t => ?_
  refine (frameChecks_noRefusal r.1 r.2 t).bind fun ftype t1 => ?_
  refine (check_noRefusal _ ErrorKind.noConfusion t1).bind fun _ t2 => ?_
  refine (loadPayload_noRefusal _ _ t2).bind fun _ t3 => ?_
  refine (unpackInto_noRefusal _ _ t3).bind fun out t4 => ?_
  exact (decodeFrame_noRefusal ftype _ _).bind fun _ _ => trivial

/-- But for `IllegalCommand`, what a raise leaves does not depend on the state before its command (60 R318). -/
theorem takeError_streaming_before {e : Raise} (h : e.kind ≠ .illegalCommand) (s s' u : State) :
    takeError .streaming s u e = takeError .streaming s' u e := by
  obtain ⟨kind, unit, info⟩ := e
  cases kind with
  | illegalCommand => exact absurd rfl h
  | invalidHeader | fileNotFound | memoryAllocationFailure | streamCorruption | unsupportedFormat | ioError => rfl

/-! ## Frame steps -/

/-- A frame step counts its frame and keeps the session (46 R280). -/
theorem frameStep_done {s t : State} (h : frameStep s = .done () t) :
    t.session = s.session ∧ t.frameCtr = saturate (s.frameCtr.toNat + 1) := by
  have hpost := frameStep_post s
  rw [h] at hpost
  obtain ⟨ftype, v, p, hv, -, -, rfl⟩ := hpost
  exact ⟨hv.onlyWork.session_eq, (congrArg (fun x : State => saturate (x.frameCtr.toNat + 1)) hv :)⟩

theorem FrameSteps.counts {s u : State} {k : Nat} (h : FrameSteps s k u) :
    u.session = s.session ∧ u.frameCtr.toNat = min (s.frameCtr.toNat + k) (2 ^ 32 - 1) := by
  induction h with
  | none s => exact ⟨rfl, by have := s.frameCtr.isLt; omega⟩
  | more s t u n hstep _ ih =>
    obtain ⟨hsession, hctr⟩ := frameStep_done hstep
    obtain ⟨hsession', hctr'⟩ := ih
    refine ⟨hsession'.trans hsession, ?_⟩
    rw [hctr', hctr, saturate_toNat]
    omega

/-- The loop of SeekAndDecode goes through frame steps that end before frame `n` (46 R286). -/
theorem decodeThrough_steps {n k : Nat} {s u : State} (h : FrameSteps s k u) (hn : s.frameCtr.toNat + k ≤ n + 1)
    (hbound : n + 1 < 2 ^ 32) (fuel : Nat) : decodeThrough n (k + fuel) s = decodeThrough n fuel u := by
  induction h generalizing fuel with
  | none s => rw [Nat.zero_add]
  | more s t u k hstep _ ih =>
    have hctr : t.frameCtr.toNat = s.frameCtr.toNat + 1 := by
      rw [(frameStep_done hstep).2, saturate_toNat]
      omega
    rw [Nat.add_right_comm, decodeThrough, if_pos (by omega), hstep, Run.bind_done]
    exact ih (by omega) fuel

/-- The loop ends behind frame `n`. -/
theorem decodeThrough_past {n : Nat} {u : State} (h : n < u.frameCtr.toNat) (fuel : Nat) :
    decodeThrough n fuel u = .done () u := by
  cases fuel with
  | zero => rfl
  | succ fuel => exact if_neg (Nat.not_le.mpr h)

/-- NEXT_FRAME raises where its frame step does. -/
theorem frameStep_of_exec_nextFrame {u v : State} (hs : u.session = .decOpen) (h : exec .nextFrame u = .next v)
    (herr : v.err ≠ 0) : ∃ e w, frameStep u = .raised e w ∧ v = takeError .streaming u w e := by
  rw [exec_nextFrame hs] at h
  obtain rfl := Host.Outcome.next.inj h
  unfold nextFrameOp at herr ⊢
  split at herr
  · exact absurd rfl herr
  · rename_i hleft
    rw [if_neg hleft]
    cases hstep : frameStep u with
    | done x t => rw [hstep] at herr; exact absurd rfl herr
    | raised e w => exact ⟨e, w, rfl, rfl⟩

/-! ## The seeks -/

theorem exec_skipTo {s : State} (h : s.session = .decOpen) :
    exec .skipTo s = .next (finish .streaming s (skipToOp s)) := runCommand_admitted (by rw [h]; rfl)

theorem exec_skipBack {s : State} (h : s.session = .decOpen) :
    exec .skipBack s = .next (finish .streaming s (skipBackOp s)) := runCommand_admitted (by rw [h]; rfl)

/-- Settles O39: without a frame to go back to, or an I-frame before it, the command is `Rewind()`. -/
theorem skipBackClamps : Obligations.SkipBackClamps := by
  intro s hs hclamp
  have hop : skipBackOp s = .done () (setRes0 0 (rewind s)) := by
    unfold skipBackOp
    split
    · rfl
    · rename_i hback
      have hnone : otFind (s.frameCtr.toNat - argNat s 0 - 1) s.ot = none := by
        cases hfind : otFind (s.frameCtr.toNat - argNat s 0 - 1) s.ot with
        | none => rfl
        | some e =>
          obtain ⟨hmem, hle, -⟩ := otFind_some hfind
          exact absurd hle (Nat.not_le.mpr (hclamp.resolve_left hback e hmem))
      rw [hnone]
  refine ⟨_, exec_skipBack hs, ?_⟩
  have hrewound := rewound_complete s { s.res with x0 := 0 }
  rw [hop, finish_done]
  rw [← hs] at hrewound
  exact hrewound

/-- A command that seeks to `start` and decodes forward through frame `n`. -/
def SeeksFrom (i : Instr) (s start : State) (n : Nat) : Prop :=
  exec i s = .next (finish .streaming s
    ((decodeThrough n (n + 1) start).bind fun _ u => .done () (setRes0 u.frameCtr.toNat u)))

section Seek

variable {i : Instr} {s start : State} {n : Nat} (h : SeeksFrom i s start n) (hbound : n + 1 < 2 ^ 32)
include h hbound

/-- Frame steps to behind frame `n` complete the seek. -/
theorem SeeksFrom.completes (hstart : start.frameCtr.toNat ≤ n) {u : State}
    (hsteps : FrameSteps start (n + 1 - start.frameCtr.toNat) u) :
    u.frameCtr.toNat = n + 1 ∧ exec i s = .next (complete { u with res := { u.res with x0 := u.frameCtr } }) := by
  have hctr : u.frameCtr.toNat = n + 1 := by have := hsteps.counts.2; omega
  refine ⟨hctr, ?_⟩
  have hloop : decodeThrough n (n + 1) start = .done () u := by
    rw [show n + 1 = (n + 1 - start.frameCtr.toNat) + start.frameCtr.toNat by omega,
      decodeThrough_steps hsteps (by omega) hbound, decodeThrough_past (by omega)]
  rw [h, hloop, Run.bind_done, finish_done, setRes0, saturate_ofToNat]

/-- A frame on the way that raises ends the seek as it ends NEXT_FRAME there. -/
theorem SeeksFrom.raises (hopen : start.session = .decOpen) {k : Nat} {u v : State} (hsteps : FrameSteps start k u)
    (hu : u.frameCtr.toNat ≤ n) (hnext : exec .nextFrame u = .next v) (herr : v.err ≠ 0) : exec i s = .next v := by
  obtain ⟨hsession, hctr⟩ := hsteps.counts
  obtain ⟨e, w, hstep, rfl⟩ := frameStep_of_exec_nextFrame (hsession.trans hopen) hnext herr
  have hkind : e.kind ≠ .illegalCommand := by
    have hpost := frameStep_noRefusal u
    rwa [hstep] at hpost
  have hloop : decodeThrough n (n + 1) start = .raised e w := by
    rw [show n + 1 = k + (n - k + 1) by omega, decodeThrough_steps hsteps (by omega) hbound, decodeThrough, if_pos hu, hstep,
      Run.bind_raised]
  rw [h, hloop, Run.bind_raised, finish_raised, takeError_streaming_before hkind s u]

end Seek

/-- What a raise of NEXT_FRAME leaves of the positions and the reference frames (60 R318). -/
theorem nextFrame_raise_keeps {u v : State} (h : exec .nextFrame u = .next v) (herr : v.err ≠ 0) (hv : v.session ≠ .closed) :
    v.fpos = u.fpos ∧ v.frameCtr = u.frameCtr ∧ v.prev = u.prev ∧ v.key = u.key := by
  obtain ⟨hkeeps, -⟩ := raiseKeepsReferences .nextFrame u v rfl h herr
  obtain ⟨hprev, hkey, -, -, -, hctr, hfpos, -⟩ := hkeeps (by decide) (by decide) (.inl hv)
  exact ⟨hfpos, hctr, hprev, hkey⟩

/-- The state the seek to an entry of the table starts in (46 R286). -/
theorem seekTo_some {n : Nat} {s : State} {e : OtEntry} (h : otFind n s.ot = some e) :
    seekTo n s = { s with
      fpos := e.off, frameCtr := e.fidx, status := { s.status with avalid := false, stale := true } } := by
  rw [seekTo, h]

theorem seekTo_none {n : Nat} {s : State} (h : otFind n s.ot = none) : seekTo n s = rewind s := by rw [seekTo, h]

theorem skipTo_seeksFrom {s : State} (hs : s.session = .decOpen) (hcount : s.hdr.frameCount ≠ 0) :
    SeeksFrom .skipTo s (seekTo (min s.arg.x0.toNat (s.hdr.frameCount.toNat - 1)) s)
      (min s.arg.x0.toNat (s.hdr.frameCount.toNat - 1)) := by
  rw [SeeksFrom, exec_skipTo hs, skipToOp, if_neg hcount]
  rfl

theorem skipBack_seeksFrom {s : State} (hs : s.session = .decOpen) (hback : s.arg.x0.toNat < s.frameCtr.toNat) {e : OtEntry}
    (hfind : otFind (s.frameCtr.toNat - s.arg.x0.toNat - 1) s.ot = some e) :
    SeeksFrom .skipBack s (seekTo (s.frameCtr.toNat - s.arg.x0.toNat - 1) s) (s.frameCtr.toNat - s.arg.x0.toNat - 1) := by
  have hop : skipBackOp s = (seekAndDecode (s.frameCtr.toNat - s.arg.x0.toNat - 1) s).bind
      fun _ s => .done () (setRes0 s.frameCtr.toNat s) := by
    rw [skipBackOp, show argNat s 0 = s.arg.x0.toNat from rfl, if_neg (Nat.not_le.mpr hback), hfind]
  rw [SeeksFrom, exec_skipBack hs, hop]
  rfl

/-- Settles O40: both commands seek to the latest I-frame recorded at or before the wanted frame, and from there run the frame
steps of NEXT_FRAME. -/
theorem seekDecodesForward : Obligations.SeekDecodesForward := by
  refine ⟨fun s hs hcount => ?_, ?_⟩
  · rw [exec_skipTo hs, skipToOp, if_pos hcount]
    rfl
  intro s n hs seeks through
  have hseek : ∀ {start}, seeks start → start = seekTo n s ∧ start.frameCtr.toNat ≤ n ∧ start.session = .decOpen := by
    rintro start ⟨e, hfind, rfl⟩
    exact ⟨(seekTo_some hfind).symm, (otFind_some hfind).2.1, hs⟩
  have hthrough : ∀ {i start}, SeeksFrom i s start n → n + 1 < 2 ^ 32 → start.frameCtr.toNat ≤ n →
      start.session = .decOpen → through i start := fun h hbound hle hopen =>
    ⟨fun _ hsteps => h.completes hbound hle hsteps, fun _ _ _ hsteps hu hnext herr =>
      ⟨h.raises hbound hopen hsteps hu hnext herr, nextFrame_raise_keeps hnext herr⟩⟩
  refine ⟨fun hcount hn start hstart => ?_, fun hback hn start hstart => ?_⟩
  · have hlt := s.hdr.frameCount.isLt
    have hruns := skipTo_seeksFrom hs hcount
    rw [← hn] at hruns
    have hpos : s.hdr.frameCount.toNat ≠ 0 := fun h0 => hcount (BitVec.eq_of_toNat_eq h0)
    rcases hstart with hstart | ⟨hnone, rfl⟩
    · obtain ⟨rfl, hle, hopen⟩ := hseek hstart
      exact hthrough hruns (by omega) hle hopen
    · rw [seekTo_none hnone] at hruns
      exact hthrough hruns (by omega) (Nat.zero_le n) hs
  · have hlt := s.frameCtr.isLt
    obtain ⟨e, hfind, -⟩ := id hstart
    have hruns := skipBack_seeksFrom hs hback (hn ▸ hfind)
    rw [← hn] at hruns
    obtain ⟨rfl, hle, hopen⟩ := hseek hstart
    exact hthrough hruns (by omega) hle hopen

end Sys2Proof.Machine
end

section
/-! OPEN on a stream without the magic (45_container R244; 60_exceptions R325): the refusal, before anything is allocated. -/

namespace Sys2Proof.Machine

theorem videoDone_of_closed {s : State} (h : s.session = .closed) : videoDone s = false := by simp [videoDone, h]

/-- A stream that starts with four other bytes raises after the read of those four, with nothing written. -/
theorem openOp_of_badMagic {s : State} (hsrc : s.plat.srcPresent = true) (hio : s.io = []) (hlen : 4 ≤ streamLen s)
    (hmagic : bytesAt s .stream s.plat.stream 0 4 ≠ magicAgmv) :
    openOp s = .raised ⟨.invalidHeader, unitContainer, 0⟩ s := by
  rw [openOp, headerBytes, if_neg (by rw [hsrc]; decide), if_neg (Nat.not_lt.mpr hlen), memRead_nil 0 4 hio, Run.bind_done,
    if_pos hmagic, Run.bind_raised]

/-- The error of R244's magic check over a closed session: the state with `InvalidHeader` recorded (60 R311, R313). -/
theorem checkRefused_invalidHeader {s : State} (h : s.session = .closed) :
    checkRefused s 1 (checkOf .invalidHeader 0) =
      { s with err := 0x101, errInfo := 0, status := { s.status with errf := true, vdone := false } } := by
  have hcode : (1 : BitVec 4) ++ (0 : BitVec 4) ++ ErrorKind.invalidHeader.code = (0x101 : BitVec 12) := by decide
  rw [checkRefused, checkOf, videoDone_of_closed h, hcode]
  rfl

/-- Settles O29: the magic check raises first, and a raise in OPEN changes nothing but the error. -/
theorem badMagicRefused : Obligations.BadMagicRefused := by
  intro s hs halloc hsrc hio hlen hmagic
  have hexec := exec_openStream hs
  rw [openOp_of_badMagic hsrc hio hlen hmagic, finish_raised, takeError_opening rfl, checkRefused_invalidHeader hs] at hexec
  exact ⟨_, hexec, rfl, rfl, rfl, halloc, hs, rfl, rfl⟩

end Sys2Proof.Machine
end

section
/-! Every step answers a next state (60_exceptions R319). An engine runs only instructions of the language it fetches, and each of
them has an effect there (30_encoding R90); whatever else a fetch meets ends the command with its error. -/

namespace Sys2Proof.Machine

/-! ## What an engine runs -/

/-- The machine is where the spec gives an instruction of this language an effect (30 R90): a command anywhere, a block code at a
block of a frame decode, a unit before the end of the output, a record in the command that reads it. -/
def Fetching (s : State) : Language → Prop
  | .command => True
  | .block _ => ∃ r, fetchesBlock s r
  | .unit _ => ∃ r, s.act = .lzss r ∧ r.opos < r.n
  | .header => s.act = .container .header
  | .chunk => ∃ a, s.act = .container (.frame a)

theorem runBlock_next {s : State} {r : FrameRun} (h : fetchesBlock s r) (mode : Nat) (psel : Bool)
    (op : Sequencer → BlockResult) : ∃ t, runBlock s mode psel op = .next t := by
  obtain ⟨hact, hblk⟩ := h
  simp only [runBlock, hact, if_pos hblk]
  split
  · exact ⟨_, rfl⟩
  · split
    · exact ⟨_, rfl⟩
    · exact ⟨_, rfl⟩

/-- A block code is run by `runBlock`, under the mode of its tag (43 R192). -/
theorem exec_eq_runBlock {ctx : BlockCtx} {i : Instr} (hi : languageOf ctx i = .block ctx) (s : State) :
    ∃ mode psel, exec i s = runBlock s mode psel (applyBlock s i) := by
  cases i with
  | fill | normal | copy | icopy | mv | pmv | vq2 | vq4 | skip => exact ⟨_, _, rfl⟩
  | _ => cases hi

theorem exec_block_next {ctx : BlockCtx} {i : Instr} {s : State} {r : FrameRun} (hi : languageOf ctx i = .block ctx)
    (h : fetchesBlock s r) : ∃ t, exec i s = .next t := by
  obtain ⟨mode, psel, hexec⟩ := exec_eq_runBlock hi s
  rw [hexec]
  exact runBlock_next h mode psel _

theorem execRef_next {s : State} {r : LzRun} (hact : s.act = .lzss r) (hopos : r.opos < r.n) (offset : BitVec 12)
    (length : BitVec 4) : ∃ t, execRef offset length s = .next t := by
  simp only [execRef, hact, if_pos hopos]
  split
  · exact ⟨_, rfl⟩
  · exact ⟨_, rfl⟩

theorem execAgac_next_of_frame {s : State} {a : Nat} (hact : s.act = .container (.frame a)) (f : AgacFields) :
    ∃ t, execAgac f s = .next t := by
  simp only [execAgac, hact]
  split
  · exact ⟨_, rfl⟩
  · exact ⟨_, rfl⟩

theorem execAgac_next_of_audio {s : State} (hact : s.act = .container .audio) (f : AgacFields) :
    ∃ t, execAgac f s = .next t := ⟨_, by simp only [execAgac, hact]; rfl⟩

theorem exec_command_next {i : Instr} (hi : isCommand i = true) (s : State) : ∃ t, exec i s = .next t := by
  obtain ⟨code, allowed, cls, op, h⟩ := exec_contracted hi
  rw [h.runs]
  exact runCommand_next _ _ _ _ _

/-- An instruction answers a next state wherever its language is fetched. -/
theorem exec_next_of_fetching {ctx : BlockCtx} {i : Instr} {s : State} (h : Fetching s (languageOf ctx i)) :
    ∃ t, exec i s = .next t := by
  cases i with
  | fill | normal | copy | icopy | mv | pmv | vq2 | vq4 | skip =>
    obtain ⟨r, hr⟩ := h
    exact exec_block_next (ctx := ctx) rfl hr
  | lit b =>
    obtain ⟨r, hact, hopos⟩ := h
    exact ⟨_, show execLit b s = _ by simp only [execLit, hact, if_pos hopos]; rfl⟩
  | ref offset length =>
    obtain ⟨r, hact, hopos⟩ := h
    exact execRef_next hact hopos offset length
  | hdr f =>
    have hact : s.act = .container .header := h
    exact ⟨_, show execHdr f s = _ by simp only [execHdr, hact]; rfl⟩
  | agfc f =>
    obtain ⟨a, hact⟩ := h
    exact ⟨_, show execAgfc f s = _ by simp only [execAgfc, hact]; rfl⟩
  | agac f =>
    obtain ⟨a, hact⟩ := h
    exact execAgac_next_of_frame hact f
  | _ => exact exec_command_next rfl s

/-! ## What a fetch delivers -/

theorem decode_unit_languageOf {ctx : BlockCtx} {literal : Bool} {bytes : List Byte} {i : Instr} {n : Nat}
    (h : decode (.unit literal) bytes = .ok (i, n)) : languageOf ctx i = .unit literal := by
  simp only [decode, decodeUnit] at h
  cases literal with
  | true =>
    match bytes, h with
    | b :: _, rfl => rfl
  | false =>
    match bytes, h with
    | lo :: hi :: _, rfl => rfl

theorem decode_header_languageOf {ctx : BlockCtx} {bytes : List Byte} {i : Instr} {n : Nat}
    (h : decode .header bytes = .ok (i, n)) : languageOf ctx i = .header := by
  simp only [decode, decodeHeader] at h
  split at h
  · cases h
  · split at h
    · cases h
    · cases h; rfl

theorem act_ioFree (a : Activity) : IoFree fun s => s.act = a := fun _ _ h => h

/-- A fetch of the header record that succeeds delivers a header, to the engine that waits for it (45 R244). -/
theorem fetchHeader_post (ctx : BlockCtx) {s : State} (hact : s.act = .container .header) :
    (fetchHeader s).Post (fun i t => Fetching t (languageOf ctx i)) fun _ _ => True := by
  refine ((headerBytes_keeps (act_ioFree _) hact).mono (fun _ _ ht => ht) fun _ _ _ => trivial).bind fun bytes t ht => ?_
  split
  · rename_i hdecode
    rw [Run.Post, decode_header_languageOf hdecode]
    exact ht
  · trivial

/-- A fetch for NEXT_FRAME that succeeds delivers a chunk's header, to the engine that waits for it (46 R280). -/
theorem fetchChunk_post (ctx : BlockCtx) {s : State} {a : Nat} (hact : s.act = .container (.frame a)) :
    (fetchChunk a s).Post (fun i t => Fetching t (languageOf ctx i)) fun _ _ => True := by
  have hio := act_ioFree (.container (.frame a))
  refine ((recordAt_keeps hio hact a).mono (fun _ _ ht => ht) fun _ _ _ => trivial).bind fun kind t ht => ?_
  cases kind with
  | ended => trivial
  | bad => trivial
  | audio =>
    refine ((audioHeader_keeps hio ht a).mono (fun _ _ hu => hu) fun _ _ _ => trivial).bind fun f u hu => ?_
    cases f with
    | none => trivial
    | some f => exact ⟨a, hu⟩
  | frame =>
    refine ((frameHeader_keeps hio ht a).mono (fun _ _ hu => hu) fun _ _ _ => trivial).bind fun f u hu => ?_
    cases f with
    | none => trivial
    | some f => exact ⟨a, hu⟩

/-! ## One step of each engine -/

theorem frameRunStep_next {s : State} {r : FrameRun} (hact : s.act = .frame r) : ∃ t, frameRunStep exec r s = .next t := by
  unfold frameRunStep
  split
  · rename_i hblk
    split
    · exact ⟨_, rfl⟩
    · rename_i hdecode
      obtain ⟨-, hl, -, -⟩ := decodedBlocksAreWellFormed _ _ _ _ hdecode
      exact exec_next_of_fetching (ctx := blockCtx s r.ftype) (by rw [hl]; exact ⟨r, hact, hblk⟩)
  · exact ⟨_, rfl⟩

theorem lzUnitStep_next {s : State} {r : LzRun} (hact : s.act = .lzss r) (hopos : r.opos < r.n) :
    ∃ t, lzUnitStep exec r s = .next t := by
  unfold lzUnitStep
  split
  · exact ⟨_, rfl⟩
  · rename_i hdecode
    exact exec_next_of_fetching (ctx := ⟨0, .intra⟩) (by rw [decode_unit_languageOf hdecode]; exact ⟨r, hact, hopos⟩)

theorem lzRunStep_next {s : State} {r : LzRun} (hact : s.act = .lzss r) : ∃ t, lzRunStep exec r s = .next t := by
  unfold lzRunStep
  split
  · rename_i hopos
    split
    · exact lzUnitStep_next hact hopos
    · split
      · exact lzUnitStep_next rfl hopos
      · exact ⟨_, rfl⟩
  · exact ⟨_, rfl⟩

/-- A fetched record runs, and a fetch that raised ends its command. -/
theorem runFetched_next {cls : RaiseClass} {s : State} {r : Run Instr} {ctx : BlockCtx}
    (h : r.Post (fun i t => Fetching t (languageOf ctx i)) fun _ _ => True) : ∃ t, runFetched cls s r exec = .next t := by
  cases r with
  | done i t => exact exec_next_of_fetching h
  | raised e t => exact ⟨_, rfl⟩

/-- NEXT_AUDIO ends without a record, or runs the audio chunk at `FPOS` (46 R282). -/
theorem audioRecordStep_next {s : State} (hact : s.act = .container .audio) :
    ∃ t, recordRunStep exec .audio s = .next t := by
  have hio := act_ioFree (.container .audio)
  have hrecord := recordAt_keeps hio (s := clearAvalid s) hact (streamPos s)
  simp only [recordRunStep]
  cases hkind : recordAt (streamPos s) (clearAvalid s) with
  | raised e t => exact ⟨_, rfl⟩
  | done kind t =>
    rw [hkind] at hrecord
    cases kind with
    | bad => exact ⟨_, rfl⟩
    | ended => exact ⟨_, rfl⟩
    | frame => exact ⟨_, rfl⟩
    | audio =>
      have hheader := audioHeader_keeps hio hrecord (streamPos s)
      dsimp only
      cases hfields : audioHeader (streamPos s) t with
      | raised e u => exact ⟨_, rfl⟩
      | done f u =>
        rw [hfields] at hheader
        cases f with
        | none => exact ⟨_, rfl⟩
        | some f => exact execAgac_next_of_audio hheader f

theorem recordRunStep_next {s : State} {r : RecordRun} (hact : s.act = .container r) :
    ∃ t, recordRunStep exec r s = .next t := by
  cases r with
  | header => exact runFetched_next (fetchHeader_post ⟨0, .intra⟩ hact)
  | frame a => exact runFetched_next (fetchChunk_post ⟨0, .intra⟩ hact)
  | audio => exact audioRecordStep_next hact

theorem hostStep_next (access : HostAccess) (s : State) : ∃ t, hostStep exec access s = .next t := by
  cases access with
  | read index => exact ⟨_, rfl⟩
  | resetPin => exact ⟨_, rfl⟩
  | write index v =>
    simp only [hostStep]
    split
    · simp only [issueCommand, decode]
      cases hd : decodeCommand (v.setWidth 8) with
      | none => exact ⟨_, rfl⟩
      | some i => exact exec_command_next (decodeCommand_isCommand hd) s
    · exact ⟨_, rfl⟩

theorem idleStep_next (s : State) : ∃ t, idleStep s = .next t := by
  unfold idleStep
  split
  · exact ⟨_, rfl⟩
  · exact hostStep_next _ _

/-- Settles O56: engine by engine, whatever the step fetches has an effect where it was fetched, or ends its command. -/
theorem stepNeverStops : Obligations.StepNeverStops := by
  intro s
  unfold step
  cases hact : s.act with
  | idle => exact idleStep_next s
  | frame r => exact frameRunStep_next hact
  | lzss r => exact lzRunStep_next hact
  | container r => exact recordRunStep_next hact

end Sys2Proof.Machine
end

section
/-! The state after reset (70 R341): what its registers read, and that it satisfies the three invariants. -/

namespace Sys2Proof.Machine

/-- `STATUS` after reset is 0 but for `SRCP`, which follows its pin (10 R23). -/
theorem statusByte_reset (p : Platform) :
    (statusByte { State.reset with plat := p }).setWidth 33 = if p.srcPresent then 0x40 else 0 := by
  have hbits : ∀ b, (0#1 ++ BitVec.ofBool b ++ 0#1 ++ 0#1 ++ 0#1 ++ 0#1 ++ 0#1 ++ 0#1).setWidth 33 =
      if b then (0x40 : BitVec 33) else 0 := by decide
  exact hbits p.srcPresent

/-- What each register reads after reset, whatever the platform supplies (10 R20). -/
theorem registerValue_reset (p : Platform) (index : Nat) :
    registerValue { State.reset with plat := p } index =
      if index = 0x01 then (if p.srcPresent then 0x40 else 0)
      else if index = 0x23 then p.streamLen
      else if index = 0x32 then 1
      else if index = 0x33 then 0x3FE
      else if index = 0x34 then 3
      else if index = 0x36 then 1
      else if index = 0x37 then 4
      else if index = 0x38 then 7
      else if index = 0x39 then 128
      else 0 := by
  unfold registerValue
  split
  case h_1 => exact statusByte_reset p
  case h_51 => exact (by decide : ((0 : BitVec 64).extractLsb' 32 32).setWidth 33 = 0)
  case h_55 => repeat rw [if_neg (by assumption)]
  all_goals rfl

/-- Settles O1: the registers one by one, and spaces that hold no value (log 8). -/
theorem resetState : Obligations.ResetState :=
  ⟨fun p index _ => registerValue_reset p index, rfl, rfl, fun _ => rfl, by decide, by decide,
    fun _ => ⟨rfl, rfl, rfl, rfl, rfl, rfl, rfl, rfl, rfl⟩, fun _ => ⟨rfl, rfl⟩⟩

theorem reset_sessionCoherent : SessionCoherent State.reset :=
  ⟨show configHardwired cfgReset = true by decide, rfl, rfl, rfl, rfl, rfl⟩

/-- Settles O60: no space holds a value, the error registers are clear, and a closed session has no table. -/
theorem resetSatisfiesInvariants : Obligations.ResetSatisfiesInvariants :=
  ⟨reset_memories_canonical,
    (controlCoherent_iff _).mpr ⟨rfl, reset_sessionCoherent, errorCoherent_of_clear rfl rfl, rfl⟩,
    (cursorsLegal_iff _).mpr ⟨rfl, .of_noTable (Nat.zero_le _) rfl (.inl rfl)⟩⟩

end Sys2Proof.Machine
end

section
/-! The canonical form of the memories (log 8), and the operations that keep it: filling a buffer, decoding and committing a
frame, reading the stream, writing the sink. -/

namespace Sys2Proof.Machine

/-! ## The twelve memories -/

/-- What `memoriesCanonical` says, memory by memory. -/
structure CanonicalMemories (s : State) : Prop where
  src : Memory.wf s.src = true
  cur : Memory.wf s.cur = true
  prev : Memory.wf s.prev = true
  key : Memory.wf s.key = true
  pal0 : Memory.wf s.pal0 = true
  pal1 : Memory.wf s.pal1 = true
  bs : Memory.wf s.bs = true
  cb : Memory.wf s.cb = true
  ab : Memory.wf s.ab = true
  out : Memory.wf s.out = true
  stream : Memory.wf s.plat.stream = true
  hist : Memory.wf s.hist.counts = true

/-- The invariant as a predicate. It reads the memories alone, so a write outside them keeps it by definition. -/
abbrev Canonical (s : State) : Prop := memoriesCanonical s = true

theorem canonical_iff (s : State) : Canonical s ↔ CanonicalMemories s := by
  simp only [Canonical, memoriesCanonical, Bool.and_eq_true]
  constructor
  · rintro ⟨⟨⟨⟨⟨⟨⟨⟨⟨⟨⟨src, cur⟩, prev⟩, key⟩, pal0⟩, pal1⟩, bs⟩, cb⟩, ab⟩, out⟩, stream⟩, hist⟩
    exact ⟨src, cur, prev, key, pal0, pal1, bs, cb, ab, out, stream, hist⟩
  · intro h
    exact ⟨⟨⟨⟨⟨⟨⟨⟨⟨⟨⟨h.src, h.cur⟩, h.prev⟩, h.key⟩, h.pal0⟩, h.pal1⟩, h.bs⟩, h.cb⟩, h.ab⟩, h.out⟩, h.stream⟩, h.hist⟩

theorem Canonical.memories {s : State} (h : Canonical s) : CanonicalMemories s := (canonical_iff s).mp h

/-- New memories are canonical if those that were written are. -/
theorem Canonical.update {s t : State} (h : Canonical s) (ht : CanonicalMemories s → CanonicalMemories t) : Canonical t :=
  (canonical_iff t).mpr (ht h.memories)

theorem canonical_ioFree : IoFree Canonical := fun _ _ h => h

theorem check_canonical {s : State} (h : Canonical s) (ok : Bool) (e : Raise) : (check ok e s).Keeps Canonical :=
  (check_post h ok e).mono (fun _ _ ht => ht.1) fun _ _ ht => ht

theorem setRes0_canonical {s : State} (h : Canonical s) (n : Nat) : Canonical (setRes0 n s) := h

theorem setRes1_canonical {s : State} (h : Canonical s) (n : Nat) : Canonical (setRes1 n s) := h

theorem setRes2_canonical {s : State} (h : Canonical s) (n : Nat) : Canonical (setRes2 n s) := h

theorem setRes3_canonical {s : State} (h : Canonical s) (n : Nat) : Canonical (setRes3 n s) := h

/-! ## Buffers and reference frames -/

theorem fillBs_canonical {s : State} (h : Canonical s) (bytes : List Byte) : Canonical (fillBs bytes s) :=
  h.update fun h => { h with bs := Memory.wf_ofList bytes 0 }

theorem fillCb_canonical {s : State} (h : Canonical s) (bytes : List Byte) : Canonical (fillCb bytes s) :=
  h.update fun h => { h with cb := Memory.wf_ofList bytes 0 }

theorem fillAb_canonical {s : State} (h : Canonical s) (bytes : List Byte) : Canonical (fillAb bytes s) :=
  h.update fun h => { h with ab := Memory.wf_ofList bytes 0 }

theorem withSequencer_canonical {s : State} {q : Sequencer} (h : Canonical s) (hq : Memory.wf q.cur = true) :
    Canonical (withSequencer q s) := h.update fun h => { h with cur := hq }

theorem commit_canonical {s : State} (h : Canonical s) (ftype : FrameType) : Canonical (commit ftype s) :=
  h.update fun h => { h with prev := h.cur, key := by cases ftype with | intra => exact h.cur | inter => exact h.key }

theorem rewind_canonical {s : State} (h : Canonical s) : Canonical (rewind s) :=
  h.update fun h => { h with
    prev := Memory.wf_filled _ _, key := Memory.wf_filled _ _, bs := rfl, cb := rfl, ab := rfl }

theorem closeSession_canonical {s : State} (h : Canonical s) : Canonical (closeSession s) :=
  h.update fun h => { h with
    src := rfl, cur := rfl, prev := rfl, key := rfl, pal0 := rfl, pal1 := rfl, bs := rfl, cb := rfl, ab := rfl }

theorem scrubFrame_canonical {s : State} (h : Canonical s) : Canonical (scrubFrame s) :=
  h.update fun h => { h with cur := rfl, bs := rfl, cb := rfl }

theorem softReset_canonical {s : State} (h : Canonical s) : Canonical (softReset s) :=
  h.update fun h => { (Canonical.memories reset_memories_canonical) with out := h.out, stream := h.stream }

theorem allocate_canonical {s : State} (h : Canonical s) (f : HdrFields) : Canonical (allocate f s) :=
  h.update fun h => { h with
    src := rfl, cur := rfl, prev := Memory.wf_filled _ _, key := Memory.wf_filled _ _, bs := rfl, cb := rfl, ab := rfl }

theorem loadPalettes_canonical {s : State} (h : Canonical s) (ntab : Nat) (cs : List Colour) :
    Canonical (loadPalettes ntab cs s) :=
  have htable : ∀ (loaded : Prop) [Decidable loaded] (cs : List Colour),
      Memory.wf (if loaded then Memory.ofList 0 cs else filled 256 Colour.black) = true := fun loaded _ cs => by
    split
    · exact Memory.wf_ofList _ _
    · exact Memory.wf_filled _ _
  h.update fun h => { h with pal0 := htable _ _, pal1 := htable _ _ }

theorem setupSession_canonical {s : State} (h : Canonical s) : Canonical (setupSession s) :=
  (allocate_canonical h s.hdr).update fun h => { h with
    pal0 := Memory.wf_filled _ _, pal1 := Memory.wf_filled _ _, out := rfl, hist := rfl }

/-! ## The histogram -/

theorem histPixel_wf {h : Hist} (hh : Memory.wf h.counts = true) (c : Nat) : Memory.wf (histPixel h c).counts = true := by
  simp only [histPixel]
  split
  · exact Memory.wf_write hh _ _
  · exact hh

theorem histAccum_wf {s : State} (h : Memory.wf s.hist.counts = true) : Memory.wf (histAccum s).counts = true := by
  unfold histAccum
  generalize s.hist = hist at h ⊢
  induction sourcePixels s generalizing hist with
  | nil => exact h
  | cons c cs ih => exact ih _ (histPixel_wf h _)

theorem counted_canonical {s : State} (h : Canonical s) : Canonical { s with hist := histAccum s } :=
  h.update fun h => { h with hist := histAccum_wf h.hist }

/-! ## The source, the sink and the decoder -/

theorem loadPayload_canonical {s : State} (h : Canonical s) (p n : Nat) : (loadPayload p n s).Keeps Canonical := by
  unfold loadPayload
  split
  · exact fillCb_canonical h []
  · exact (memRead_keeps canonical_ioFree h p n).bind fun bytes _ ht => fillCb_canonical ht bytes

theorem appendOut_canonical {s : State} (h : Canonical s) (bytes : List Byte) : (appendOut bytes s).Keeps Canonical := by
  rcases appendOut_cases bytes s with ⟨-, hr⟩ | ⟨io, hr⟩ <;> rw [hr]
  · exact h.update fun h => { h with out := Memory.wf_writeList h.out _ _ }
  · exact h

theorem patchOut_canonical {s : State} (h : Canonical s) (a : Nat) (bytes : List Byte) :
    (patchOut a bytes s).Keeps Canonical := by
  rcases patchOut_cases a bytes s with hr | hr <;> rw [hr]
  · exact h.update fun h => { h with out := Memory.wf_writeList h.out _ _ }
  · exact h

theorem decodeFrame_canonical {s : State} (h : Canonical s) (ftype : FrameType) (len : Nat) :
    (decodeFrame ftype len s).Keeps Canonical := by
  have hcur : Memory.wf (sequencerStart s).cur = true := h.memories.cur
  unfold decodeFrame
  split
  · rename_i q hq
    exact withSequencer_canonical h ((decodeBlocks_error hq).2.2 hcur)
  · rename_i q hq
    have hdecoded := withSequencer_canonical h ((decodeBlocks_ok hq).2 hcur)
    unfold frameEnd
    split <;> exact hdecoded

/-- The encoder writes whole blocks of `CUR` (42 R178). -/
theorem packBlocks_wf (s : State) (ftype : FrameType) (n : Nat) {p : Packer} (h : Memory.wf p.q.cur = true) :
    Memory.wf (packBlocks s ftype n p).q.cur = true := by
  induction n generalizing p with
  | zero => exact h
  | succ n ih => exact ih (wf_writeBlock h _ _ _)

theorem encodeFrame_canonical {s : State} (h : Canonical s) (ftype : FrameType) :
    Canonical (encodeFrame (packFrame ftype s) s) :=
  fillBs_canonical (withSequencer_canonical h (packBlocks_wf s ftype _ h.memories.cur)) _

end Sys2Proof.Machine
end

section
/-! The operations inside the commands: each leaves the memories canonical, whether it is done or raised. -/

namespace Sys2Proof.Machine

/-! ## Frame and audio chunks -/

theorem frameChecks_canonical {s : State} (h : Canonical s) (a : Nat) (f : AgfcFields) :
    (frameChecks a f s).Keeps Canonical := by
  unfold frameChecks
  split
  · exact h
  · split <;> exact h

theorem frameBody_canonical {s : State} (h : Canonical s) (a : Nat) (f : AgfcFields) :
    (frameBody a f s).Keeps Canonical := by
  refine (frameChecks_canonical h a f).bind fun ftype _ h1 => ?_
  refine (check_canonical h1 _ _).bind fun _ _ h2 => ?_
  refine (loadPayload_canonical h2 _ _).bind fun _ _ h3 => ?_
  refine (unpackInto_keeps h3 _ _).bind fun out _ h4 => ?_
  exact (decodeFrame_canonical (fillBs_canonical h4 out) _ _).bind fun _ _ h5 => commit_canonical h5 ftype

theorem frameStep_canonical {s : State} (h : Canonical s) : (frameStep s).Keeps Canonical :=
  (findFrame_post canonical_ioFree _ _ h).bind fun r _ ⟨ht, _⟩ => frameBody_canonical ht r.1 r.2

theorem frameResults_canonical {s : State} (h : Canonical s) : Canonical (frameResults s) :=
  setRes3_canonical (setRes2_canonical (setRes1_canonical (setRes0_canonical h _) _) _) _

theorem nextFrameOp_canonical {s : State} (h : Canonical s) : (nextFrameOp s).Keeps Canonical := by
  unfold nextFrameOp
  split
  · exact h
  · exact (frameStep_canonical h).bind fun _ _ ht => frameResults_canonical ht

theorem audioBody_canonical {s : State} (h : Canonical s) (f : AgacFields) : (audioBody f s).Keeps Canonical := by
  refine (check_canonical h _ _).bind fun _ _ h1 => ?_
  refine (check_canonical h1 _ _).bind fun _ _ h2 => ?_
  refine (loadPayload_canonical h2 _ _).bind fun _ _ h3 => ?_
  exact (unpackInto_keeps h3 _ _).bind fun out _ h4 => fillAb_canonical h4 out

theorem nextAudioOp_canonical {s : State} (h : Canonical s) : (nextAudioOp s).Keeps Canonical := by
  refine (recordAt_keeps canonical_ioFree (s := clearAvalid s) h _).bind fun kind t ht => ?_
  cases kind with
  | bad => exact ht
  | frame => exact ht
  | ended => exact ht
  | audio =>
    refine (audioHeader_keeps canonical_ioFree ht _).bind fun f u hu => ?_
    cases f with
    | none => exact hu
    | some f => exact audioBody_canonical hu f

/-! ## Positioning -/

theorem resyncFrom_canonical {s : State} (h : Canonical s) (a fuel p : Nat) : (resyncFrom a fuel p s).Keeps Canonical := by
  induction fuel generalizing p s with
  | zero => exact h
  | succ fuel ih =>
    unfold resyncFrom
    split
    · exact h
    · refine (memRead_keeps canonical_ioFree h p 4).bind fun m t ht => ?_
      cases magicKind m with
      | frame => exact ht
      | audio => exact ht
      | ended => exact ih ht (p + 1)
      | bad => exact ih ht (p + 1)

theorem skipFrames_canonical {s : State} (h : Canonical s) (target fuel a c : Nat) :
    (skipFrames target fuel a c s).Keeps Canonical := by
  induction fuel generalizing a c s with
  | zero => exact h
  | succ fuel ih =>
    have hresync : ∀ {t}, Canonical t → ((resync a t).bind fun a s => skipFrames target fuel a c s).Keeps Canonical :=
      fun ht => (resyncFrom_canonical ht a _ _).bind fun b _ hu => ih hu b c
    unfold skipFrames
    split
    · exact h
    · refine (recordAt_keeps canonical_ioFree h a).bind fun kind t ht => ?_
      cases kind with
      | ended => exact ht
      | bad => exact hresync ht
      | audio =>
        refine (audioHeader_keeps canonical_ioFree ht a).bind fun f u hu => ?_
        cases f with
        | none => exact hresync hu
        | some f =>
          dsimp only
          split
          · exact ih hu _ c
          · exact hresync hu
      | frame =>
        refine (frameHeader_keeps canonical_ioFree ht a).bind fun f u hu => ?_
        cases f with
        | none => exact hresync hu
        | some f =>
          have hchecks := frameChecks_canonical hu a f
          dsimp only
          cases hr : frameChecks a f u with
          | raised e v => rw [hr] at hchecks; exact hresync hchecks
          | done ftype v => rw [hr] at hchecks; exact ih hchecks _ (c + 1)

theorem skipFwdOp_canonical {s : State} (h : Canonical s) : (skipFwdOp s).Keeps Canonical :=
  (skipFrames_canonical h _ _ _ _).bind fun _ _ ht => ht

theorem seekTo_canonical {s : State} (h : Canonical s) (t : Nat) : Canonical (seekTo t s) := by
  unfold seekTo
  split
  · exact rewind_canonical h
  · exact h

theorem decodeThrough_canonical {s : State} (h : Canonical s) (t fuel : Nat) :
    (decodeThrough t fuel s).Keeps Canonical := by
  induction fuel generalizing s with
  | zero => exact h
  | succ fuel ih =>
    unfold decodeThrough
    split
    · exact (frameStep_canonical h).bind fun _ _ hu => ih hu
    · exact h

theorem seekAndDecode_canonical {s : State} (h : Canonical s) (t : Nat) : (seekAndDecode t s).Keeps Canonical :=
  decodeThrough_canonical (seekTo_canonical h t) t (t + 1)

theorem skipBackOp_canonical {s : State} (h : Canonical s) : (skipBackOp s).Keeps Canonical := by
  unfold skipBackOp
  have hrewound : Canonical (rewind s) := rewind_canonical h
  split
  · exact hrewound
  · split
    · exact hrewound
    · exact (seekAndDecode_canonical h _).bind fun _ _ hu => hu

theorem skipToOp_canonical {s : State} (h : Canonical s) : (skipToOp s).Keeps Canonical := by
  unfold skipToOp
  split
  · exact h
  · exact (seekAndDecode_canonical h _).bind fun _ _ hu => hu

/-! ## The units -/

theorem loadQualityOp_canonical {s : State} (h : Canonical s) : (loadQualityOp s).Keeps Canonical := by
  unfold loadQualityOp
  split <;> exact h

theorem nearestOp_canonical {s : State} (h : Canonical s) : (nearestOp s).Keeps Canonical :=
  (check_canonical h _ _).bind fun _ _ ht => setRes1_canonical (setRes0_canonical ht _) _

theorem tssOp_canonical {s : State} (h : Canonical s) : (tssOp s).Keeps Canonical :=
  (check_canonical h _ _).bind fun _ _ ht => (check_canonical ht _ _).bind fun _ _ hu => hu

theorem blockSadOp_canonical {s : State} (h : Canonical s) : (blockSadOp s).Keeps Canonical :=
  (check_canonical h _ _).bind fun _ _ ht => (check_canonical ht _ _).bind fun _ _ hu =>
    (check_canonical hu _ _).bind fun _ _ hv => (check_canonical hv _ _).bind fun _ _ hw => hw

theorem lzDecompressOp_canonical {s : State} (h : Canonical s) : (lzDecompressOp s).Keeps Canonical := by
  refine (check_canonical h _ _).bind fun _ t ht => ?_
  split
  · exact fillBs_canonical ht _
  · exact ht

theorem decodeBsOp_canonical {s : State} (h : Canonical s) : (decodeBsOp s).Keeps Canonical := by
  unfold decodeBsOp
  split
  · exact h
  · rename_i ftype _
    exact (decodeFrame_canonical h ftype _).bind fun _ _ ht => commit_canonical ht ftype

/-! ## Opening and writing -/

theorem Opened.canonical {s u : State} (h : Canonical s) (hu : Opened s u) : Canonical u := by
  obtain ⟨f, w, cs, v, b, j, -, -, hw, hv, rfl⟩ := hu
  have hallocated : Canonical (loadPalettes (paletteTables f.version) cs (allocate f w)) := by
    rw [hw]
    exact loadPalettes_canonical (allocate_canonical h f) _ _
  rw [hv.frame]
  exact hallocated

theorem encSetupOp_canonical {s : State} (h : Canonical s) : (encSetupOp s).Keeps Canonical := by
  unfold encSetupOp
  split
  · exact h
  · exact setupSession_canonical h

/-- Said of a run `r` that equals the command's, so that no use of the lemma evaluates the header image. -/
theorem encOpenOp_canonical {s : State} {r : Run Unit} (h : Canonical s) (hr : encOpenOp s = r) : r.Keeps Canonical := by
  subst hr
  unfold encOpenOp
  generalize headerImage s = bytes
  exact (appendOut_canonical h bytes).bind fun _ _ hv => hv

theorem writeFrameChunk_canonical {s : State} (h : Canonical s) (ftype : FrameType) (payload : List Byte) :
    (writeFrameChunk ftype payload s).Keeps Canonical := (appendOut_canonical h _).bind fun _ _ ht => ht

theorem frameWritten_canonical {s : State} (h : Canonical s) (ftype : FrameType) (off : Word) :
    Canonical (frameWritten ftype off s) :=
  (commit_canonical h ftype).update fun h => by
    cases ftype <;> exact { h with prev := h.prev }

theorem encFrameOp_canonical {s : State} (h : Canonical s) : (encFrameOp s).Keeps Canonical := by
  unfold encFrameOp
  split
  · exact h
  · split
    · exact h
    · have hpacked := encodeFrame_canonical h (chooseFrameType s)
      exact (writeFrameChunk_canonical (fillCb_canonical hpacked _) _ _).bind fun _ _ hu => frameWritten_canonical hu _ _

theorem encAudioOp_canonical {s : State} (h : Canonical s) : (encAudioOp s).Keeps Canonical :=
  (appendOut_canonical (fillCb_canonical h _) _).bind fun _ _ hv => hv

theorem encCloseOp_canonical {s : State} (h : Canonical s) : (encCloseOp s).Keeps Canonical := by
  have hpatched : (patchFrameCount s).Keeps Canonical := by
    unfold patchFrameCount
    split
    · exact (patchOut_canonical h _ _).bind fun _ _ ht => ht
    · exact h
  exact hpatched.bind fun _ _ ht => closeSession_canonical ht

end Sys2Proof.Machine
end

section
/-! Every step keeps the memories canonical: the end of a command, the 25 commands, the block codes, units and records run one a
step, and the host's accesses. -/

namespace Sys2Proof.Machine

/-! ## The end of a command -/

/-- A raise empties memories, restores the state before the command or leaves the one it raised in (60 R318). -/
theorem raiseEffect_canonical {before after : State} (hb : Canonical before) (ha : Canonical after) (cls : RaiseClass)
    (kind : ErrorKind) : Canonical (raiseEffect cls kind before after) := by
  have hscrubbed : Canonical (scrubFrame after) := scrubFrame_canonical ha
  have hclosed : Canonical (closeSession after) := closeSession_canonical ha
  have hab : Canonical { scrubFrame after with ab := [] } := hscrubbed.update fun h => { h with ab := rfl }
  cases cls with
  | plain => exact hb
  | opening => exact hb
  | streaming =>
    cases kind with
    | illegalCommand => exact hb
    | memoryAllocationFailure => exact hclosed
    | _ => exact hscrubbed
  | audio =>
    cases kind with
    | illegalCommand => exact hb
    | memoryAllocationFailure => exact hclosed
    | _ => exact hab
  | lzss =>
    cases kind with
    | illegalCommand => exact hb
    | _ => exact ha.update fun h => { h with bs := rfl }
  | bitstream =>
    cases kind with
    | illegalCommand => exact hb
    | _ => exact hscrubbed
  | encFrame =>
    cases kind with
    | illegalCommand => exact hb
    | memoryAllocationFailure => exact hclosed
    | _ => exact hscrubbed
  | encOutput =>
    cases kind with
    | illegalCommand => exact hb
    | _ => exact ha

theorem takeError_canonical {before after : State} (hb : Canonical before) (ha : Canonical after) (cls : RaiseClass)
    (e : Raise) : Canonical (takeError cls before after e) := raiseEffect_canonical hb ha cls e.kind

theorem finish_canonical {s : State} (h : Canonical s) {r : Run Unit} (hr : r.Keeps Canonical) (cls : RaiseClass) :
    Canonical (finish cls s r) := by
  cases r with
  | done _ t => exact hr
  | raised e t => exact takeError_canonical h hr cls e

/-- `OPEN` that raises restores the state before it, so only its completion counts. -/
theorem finish_opening_canonical {s : State} (h : Canonical s) {r : Run Unit}
    (hr : r.Post (fun _ u => Opened s u) fun _ _ => True) : Canonical (finish .opening s r) := by
  cases r with
  | done _ t => exact Opened.canonical (u := t) h hr
  | raised e t => exact h

/-! ## Commands -/

/-- If the outcome is a next state, it satisfies `P`. -/
def Leads (P : State → Prop) (o : Host.Outcome State Fault Refusal) : Prop := ∀ t, o = .next t → P t

theorem leads_next {P : State → Prop} {t : State} : Leads P (.next t) ↔ P t :=
  ⟨fun h => h t rfl, fun h _ ht => Host.Outcome.next.inj ht ▸ h⟩

theorem leads_refused {P : State → Prop} (r : Refusal) : Leads P (.refused r) := fun _ h => nomatch h

theorem leads_fault {P : State → Prop} (r : Fault) : Leads P (.fault r) := fun _ h => nomatch h

/-- A command that is refused writes no memory, an admitted one those its end writes. -/
theorem runCommand_finish_canonical {code : Nat} {allowed : Session → Bool} {cls : RaiseClass} {op : State → Run Unit}
    {s : State} (h : Canonical s) (hop : Canonical (finish cls s (op s))) :
    Leads Canonical (runCommand code allowed cls op s) := by
  cases ha : allowed s.session with
  | false => rw [runCommand_refused ha]; exact leads_next.mpr h
  | true => rw [runCommand_admitted ha]; exact leads_next.mpr hop

theorem runCommand_canonical {code : Nat} {allowed : Session → Bool} {cls : RaiseClass} {op : State → Run Unit} {s : State}
    (h : Canonical s) (hop : (op s).Keeps Canonical) : Leads Canonical (runCommand code allowed cls op s) :=
  runCommand_finish_canonical h (finish_canonical h hop cls)

theorem selectPalette_canonical {s : State} (h : Canonical s) : Leads Canonical (execSelectPalette s) := by
  refine runCommand_canonical h (setRes0_canonical ?_ _)
  exact h.update fun h => { h with pal0 := Memory.wf_ofList _ _, pal1 := Memory.wf_ofList _ _ }

/-- Each of the 25 host commands keeps the memories canonical. -/
theorem exec_command_canonical {i : Instr} {s : State} (hi : isCommand i = true) (h : Canonical s) :
    Leads Canonical (exec i s) := by
  cases i with
  | nop => exact runCommand_canonical h h
  | softReset =>
    refine show Leads Canonical (execSoftReset s) from runCommand_canonical h ?_
    exact softReset_canonical h
  | loadQuality => exact runCommand_canonical h (loadQualityOp_canonical h)
  | openStream => exact runCommand_finish_canonical h (finish_opening_canonical h (openOp_post s))
  | nextFrame => exact runCommand_canonical h (nextFrameOp_canonical h)
  | nextAudio => exact runCommand_canonical h (nextAudioOp_canonical h)
  | resetVideo =>
    refine show Leads Canonical (execResetVideo s) from runCommand_canonical h ?_
    exact (rewind_canonical h :)
  | skipFwd => exact runCommand_canonical h (skipFwdOp_canonical h)
  | skipBack => exact runCommand_canonical h (skipBackOp_canonical h)
  | skipTo => exact runCommand_canonical h (skipToOp_canonical h)
  | close =>
    refine show Leads Canonical (execClose s) from runCommand_canonical h ?_
    exact closeSession_canonical h
  | lzDecompress => exact runCommand_canonical h (lzDecompressOp_canonical h)
  | lzCompress =>
    refine show Leads Canonical (execLzCompress s) from runCommand_canonical h ?_
    exact setRes0_canonical (fillCb_canonical h _) _
  | decodeBs => exact runCommand_canonical h (decodeBsOp_canonical h)
  | nearest => exact runCommand_canonical h (nearestOp_canonical h)
  | histClear =>
    refine show Leads Canonical (execHistClear s) from runCommand_canonical h ?_
    exact h.update fun h => { h with hist := rfl }
  | histAccum =>
    refine show Leads Canonical (execHistAccum s) from runCommand_canonical h ?_
    exact setRes0_canonical (counted_canonical h) _
  | selectPalette => exact selectPalette_canonical h
  | tss => exact runCommand_canonical h (tssOp_canonical h)
  | blockSad => exact runCommand_canonical h (blockSadOp_canonical h)
  | encSetup => exact runCommand_canonical h (encSetupOp_canonical h)
  | encOpen =>
    refine show Leads Canonical (execEncOpen s) from runCommand_canonical h ?_
    generalize hr : encOpenOp s = r
    exact encOpenOp_canonical h hr
  | encFrame => exact runCommand_canonical h (encFrameOp_canonical h)
  | encAudio => exact runCommand_canonical h (encAudioOp_canonical h)
  | encClose => exact runCommand_canonical h (encCloseOp_canonical h)
  | _ => exact absurd hi (by simp [isCommand, languageOf])

/-! ## Instructions run one a step (log 3) -/

theorem raiseFrameRun_canonical {s : State} (h : Canonical s) {q : Sequencer} (hq : Memory.wf q.cur = true) :
    Leads Canonical (raiseFrameRun s q) :=
  leads_next.mpr (takeError_canonical h (withSequencer_canonical h hq) .bitstream _ :)

theorem finishFrameRun_canonical {s : State} (h : Canonical s) (r : FrameRun) : Leads Canonical (finishFrameRun r s) := by
  have hend : ((frameEnd r.len s).bind fun _ s => bitstreamDone r.ftype s).Keeps Canonical := by
    unfold frameEnd
    split
    · exact commit_canonical h r.ftype
    · exact h
  exact leads_next.mpr (finish_canonical h hend .bitstream :)

/-- A block code writes whole blocks of `CUR`. -/
theorem runBlock_canonical {s : State} (h : Canonical s) (mode : Nat) (psel : Bool) (i : Instr) :
    Leads Canonical (runBlock s mode psel (applyBlock s i)) := by
  have hcur : Memory.wf (sequencerOf s).cur = true := h.memories.cur
  unfold runBlock
  split
  · split
    · split
      · exact raiseFrameRun_canonical h hcur
      · split
        · rename_i hq
          exact leads_next.mpr (withSequencer_canonical h ((applyBlock_ok hq).2.2 hcur))
        · rename_i hq
          exact raiseFrameRun_canonical h (by rw [(applyBlock_error hq).1]; exact hcur)
    · exact leads_fault _
  all_goals exact leads_refused _

theorem exec_block_canonical {ctx : BlockCtx} {i : Instr} {s : State} (hi : languageOf ctx i = .block ctx)
    (h : Canonical s) : Leads Canonical (exec i s) := by
  obtain ⟨mode, psel, hexec⟩ := exec_eq_runBlock hi s
  rw [hexec]
  exact runBlock_canonical h mode psel i

theorem raiseLzRun_canonical {s : State} (h : Canonical s) (opos : Nat) : Leads Canonical (raiseLzRun opos s) :=
  leads_next.mpr (takeError_canonical h h .lzss (lzssCorrupt opos) :)

theorem finishLzRun_canonical {s : State} (h : Canonical s) (r : LzRun) : Leads Canonical (finishLzRun r s) :=
  leads_next.mpr (fillBs_canonical h _ :)

theorem execLit_canonical {s : State} (h : Canonical s) (b : Byte) : Leads Canonical (execLit b s) := by
  unfold execLit
  split
  · split
    · exact leads_next.mpr (h.update fun h => { h with bs := Memory.wf_write h.bs _ _ })
    · exact leads_refused _
  all_goals exact leads_refused _

theorem execRef_canonical {s : State} (h : Canonical s) (offset : BitVec 12) (length : BitVec 4) :
    Leads Canonical (execRef offset length s) := by
  unfold execRef
  split
  · split
    · split
      · exact raiseLzRun_canonical h _
      · exact leads_next.mpr (h.update fun h => { h with bs := Memory.wf_writeList h.bs _ _ })
    · exact leads_refused _
  all_goals exact leads_refused _

theorem endRecordRun_canonical {s : State} (h : Canonical s) (cls : RaiseClass) {r : Run Unit} (hr : r.Keeps Canonical) :
    Leads Canonical (endRecordRun cls s r) := leads_next.mpr (finish_canonical h hr cls :)

theorem execHdr_canonical {s : State} (h : Canonical s) (f : HdrFields) : Leads Canonical (execHdr f s) := by
  unfold execHdr
  split
  · exact leads_next.mpr (finish_opening_canonical h (openBody_post (.refl s) f) :)
  all_goals exact leads_refused _

theorem execAgfc_canonical {s : State} (h : Canonical s) (f : AgfcFields) : Leads Canonical (execAgfc f s) := by
  unfold execAgfc
  split
  · exact endRecordRun_canonical h _ ((frameBody_canonical h _ f).bind fun _ _ ht => frameResults_canonical ht)
  all_goals exact leads_refused _

theorem execAgac_canonical {s : State} (h : Canonical s) (f : AgacFields) : Leads Canonical (execAgac f s) := by
  unfold execAgac
  split
  · split
    · exact leads_next.mpr h
    · exact endRecordRun_canonical h _ h
  · exact endRecordRun_canonical h _ (audioBody_canonical h f)
  all_goals exact leads_refused _

/-- Every instruction keeps the memories canonical, wherever it is executed. -/
theorem exec_canonical (i : Instr) {s : State} (h : Canonical s) : Leads Canonical (exec i s) := by
  cases i with
  | fill | normal | copy | icopy | mv | pmv | vq2 | vq4 | skip =>
    exact exec_block_canonical (ctx := ⟨0, .intra⟩) rfl h
  | lit b => exact execLit_canonical h b
  | ref offset length => exact execRef_canonical h offset length
  | hdr f => exact execHdr_canonical h f
  | agfc f => exact execAgfc_canonical h f
  | agac f => exact execAgac_canonical h f
  | _ => exact exec_command_canonical rfl h

/-! ## One step of each engine -/

theorem frameRunStep_canonical {s : State} (h : Canonical s) (r : FrameRun) : Leads Canonical (frameRunStep exec r s) := by
  unfold frameRunStep
  split
  · split
    · exact raiseFrameRun_canonical h h.memories.cur
    · exact exec_canonical _ h
  · exact finishFrameRun_canonical h r

theorem lzUnitStep_canonical {s : State} (h : Canonical s) (r : LzRun) : Leads Canonical (lzUnitStep exec r s) := by
  unfold lzUnitStep
  split
  · exact raiseLzRun_canonical h _
  · exact exec_canonical _ h

theorem lzRunStep_canonical {s : State} (h : Canonical s) (r : LzRun) : Leads Canonical (lzRunStep exec r s) := by
  unfold lzRunStep
  split
  · split
    · exact lzUnitStep_canonical h r
    · split
      · exact lzUnitStep_canonical (s := { s with act := .lzss _ }) h _
      · exact raiseLzRun_canonical h _
  · exact finishLzRun_canonical h r

theorem runFetched_canonical {s : State} (h : Canonical s) (cls : RaiseClass) {r : Run Instr} (hr : r.Keeps Canonical) :
    Leads Canonical (runFetched cls s r exec) := by
  cases r with
  | done i t => exact exec_canonical i hr
  | raised e t => exact endRecordRun_canonical h cls hr

theorem fetchHeader_canonical {s : State} (h : Canonical s) : (fetchHeader s).Keeps Canonical := by
  refine (headerBytes_keeps canonical_ioFree h).bind fun bytes t ht => ?_
  split <;> exact ht

theorem fetchChunk_canonical {s : State} (h : Canonical s) (a : Nat) : (fetchChunk a s).Keeps Canonical := by
  refine (recordAt_keeps canonical_ioFree h a).bind fun kind t ht => ?_
  cases kind with
  | ended => exact ht
  | bad => exact ht
  | audio =>
    refine (audioHeader_keeps canonical_ioFree ht a).bind fun f u hu => ?_
    cases f <;> exact hu
  | frame =>
    refine (frameHeader_keeps canonical_ioFree ht a).bind fun f u hu => ?_
    cases f <;> exact hu

theorem audioRecordStep_canonical {s : State} (h : Canonical s) : Leads Canonical (recordRunStep exec .audio s) := by
  have hrecord := recordAt_keeps canonical_ioFree (s := clearAvalid s) h (streamPos s)
  simp only [recordRunStep]
  cases hkind : recordAt (streamPos s) (clearAvalid s) with
  | raised e t => rw [hkind] at hrecord; exact endRecordRun_canonical h _ hrecord
  | done kind t =>
    rw [hkind] at hrecord
    cases kind with
    | bad => exact endRecordRun_canonical h _ hrecord
    | ended => exact endRecordRun_canonical h _ hrecord
    | frame => exact endRecordRun_canonical h _ hrecord
    | audio =>
      have hheader := audioHeader_keeps canonical_ioFree hrecord (streamPos s)
      dsimp only
      cases hfields : audioHeader (streamPos s) t with
      | raised e u => rw [hfields] at hheader; exact endRecordRun_canonical h _ hheader
      | done f u =>
        rw [hfields] at hheader
        cases f with
        | none => exact endRecordRun_canonical h _ hheader
        | some f => exact exec_canonical (.agac f) hheader

theorem recordRunStep_canonical {s : State} (h : Canonical s) (r : RecordRun) : Leads Canonical (recordRunStep exec r s) := by
  cases r with
  | header => exact runFetched_canonical h _ (fetchHeader_canonical h)
  | frame a => exact runFetched_canonical h _ (fetchChunk_canonical h a)
  | audio => exact audioRecordStep_canonical h

/-! ## The host's accesses -/

theorem windowStore_canonical {s : State} (h : Canonical s) (v : Word) : Canonical (windowStore v s) := by
  unfold windowStore
  split
  case h_1 =>
    split
    · exact h.update fun h => { h with pal0 := Memory.wf_write h.pal0 _ _ }
    · exact h
  case h_2 =>
    split
    · exact h.update fun h => { h with pal1 := Memory.wf_write h.pal1 _ _ }
    · exact h
  case h_3 =>
    unfold windowSource
    split
    · split
      · exact h.update fun h => { h with src := Memory.wf_write h.src _ _ }
      · exact h
    · exact h
  case h_4 =>
    split
    · exact h.update fun h => { h with bs := Memory.wf_write h.bs _ _ }
    · exact h
  case h_5 =>
    split
    · exact h.update fun h => { h with cb := Memory.wf_write h.cb _ _ }
    · exact h
  case h_6 =>
    split
    · exact h.update fun h => { h with ab := Memory.wf_write h.ab _ _ }
    · exact h
  case h_7 => exact h

theorem writeLength_canonical {s : State} (h : Canonical s) (index : Nat) (v : Word) :
    Canonical (writeLength index v s) := by
  unfold writeLength
  split
  · exact h.update fun h => { h with bs := Memory.wf_below h.bs _ }
  · exact h.update fun h => { h with cb := Memory.wf_below h.cb _ }
  · exact h.update fun h => { h with ab := Memory.wf_below h.ab _ }
  · exact h

/-- The host writes memories by the window and by the length registers. -/
theorem writeRegister_canonical {s : State} (h : Canonical s) (index : Nat) (v : Word) :
    Canonical (writeRegister index v s) := by
  have hwindow : Canonical (windowWrite v s) := windowStore_canonical h v
  unfold writeRegister
  split
  case h_7 => exact hwindow
  case h_8 =>
    split
    · split <;> exact h
    · split
      · exact writeLength_canonical h index v
      · split <;> exact h
  all_goals exact h

theorem accessLeaves_canonical {s t : State} (h : Canonical s) (ht : AccessLeaves s t) : Canonical t := by
  cases ht with
  | command i _ hi hexec => exact exec_command_canonical hi h t hexec
  | unknown e => exact h
  | written index v => exact writeRegister_canonical h index v
  | read index => rw [readRegister_eq]; exact h
  | reset => exact softReset_canonical h

theorem idleStep_canonical {s : State} (h : Canonical s) : Leads Canonical (idleStep s) := by
  unfold idleStep
  split
  · exact leads_next.mpr h
  · rename_i rest _
    exact fun t ht => accessLeaves_canonical (s := { s with host := rest }) h (hostStep_leaves ht)

/-- Settles O57: engine by engine, and for the commands operation by operation, a memory is emptied, filled from a list, written
at addresses or cut off, and each of these leaves the addresses strictly rising. -/
theorem stepKeepsMemoriesCanonical : Obligations.StepKeepsMemoriesCanonical := by
  intro s t hs h
  have hstep : Leads Canonical (step s) := by
    unfold step
    split
    · exact idleStep_canonical hs
    · exact frameRunStep_canonical hs _
    · exact lzRunStep_canonical hs _
    · exact recordRunStep_canonical hs _
  exact hstep t h

end Sys2Proof.Machine
end
